-- ==== Sys2Proof/Word.lean ====
section
/-! DEFINITION. The word of the Pelmon FX-46 and the widths that its registers use (spec 0.4, 0.5). -/

namespace Sys2Proof

/-- A frame-store word, a register, a sequence number, a timestamp: 32 bits (0.4, 0.5). -/
abbrev Word := BitVec 32

/-- A counter: 16 bits (R169). -/
abbrev Count := BitVec 16

end Sys2Proof
end

