-- ==== Sys2Proof/Syntax.lean ====
section
/-! DEFINITION. The commands of the FX-46: one constructor per row of spec/opcode_table.json, with the names
that the commands' operands use. Operands that a rule judges (a register field's range, an argument) are the
raw written word; the rule's checks are part of the command's meaning. -/

namespace Sys2Proof

/-- STOP_MODE of INn_CTRL (R26, R173). -/
inductive StopMode
  | immediate
  | atFrameEnd
  deriving DecidableEq, Repr, Inhabited

/-- The configuration registers of an input channel (R25). -/
inductive InConfigReg
  | geom
  | cfg
  | budget
  | loss
  deriving DecidableEq, Repr, Inhabited

/-- The registers that hold an output channel's settings (R74). -/
inductive OutConfigReg
  | ctrl
  | blank
  | blankWord
  deriving DecidableEq, Repr, Inhabited

/-- The pool geometry registers (R1). -/
inductive GeometryReg
  | base
  | stride
  | slots
  deriving DecidableEq, Repr, Inhabited

/-- The counters of an input, in the order of R172. -/
inductive InCounter
  | framesPublished
  | framesBroken
  | linesOverflowed
  | discardedByStop
  | stray
  | signalLosses
  | skippedBudget
  | skippedBacklog
  | skippedNoSlot
  | reclaimed
  | evictedUnviewed
  deriving DecidableEq, Repr, Inhabited

/-- The counters of an output, in the order of R172. -/
inductive OutCounter
  | framesNew
  | framesRepeated
  | framesDropped
  | framesFrozen
  | framesBlank
  | protocol
  | fillLines
  | poisonedLines
  | overpulls
  | incompleteFrames
  deriving DecidableEq, Repr, Inhabited

/-- The counters of the memory controller, in the order of R172. -/
inductive McCounter
  | eccCorrected
  | eccUncorrectable
  | refreshBacklog
  deriving DecidableEq, Repr, Inhabited

/-- Any of the 107 counters of section 10.4. -/
inductive CounterName
  | input (n : Fin 4) (c : InCounter)
  | output (m : Fin 6) (c : OutCounter)
  | memory (c : McCounter)
  deriving DecidableEq, Repr, Inhabited

/-- The eleven event registers of R163. -/
inductive EventReg
  | input (n : Fin 4)
  | output (m : Fin 6)
  | global
  deriving DecidableEq, Repr, Inhabited

/-- The five lists of the list window that have a capture (R175). -/
inductive ListName
  | free
  | ready (n : Fin 4)
  deriving DecidableEq, Repr, Inhabited

/-- The commands: one constructor per row of spec/opcode_table.json, in the table's order. -/
inductive Instr
  /-- FRAME_START (R30, R31): input and the tag, if the message carries one (R24). -/
  | frameStart (n : Fin 4) (tag : Option Word)
  /-- LINE (R33): input and payload, 1 to 1024 words (R24). -/
  | line (n : Fin 4) (payload : List Word)
  /-- FRAME_END (R36). -/
  | frameEnd (n : Fin 4)
  /-- FRAME_OPEN (R79). -/
  | frameOpen (m : Fin 6)
  /-- LINE_PULL (R99). -/
  | linePull (m : Fin 6)
  /-- FRAME_CLOSE (R107, R108). -/
  | frameClose (m : Fin 6)
  /-- LOSS_TIMER_EXPIRY (R39). -/
  | lossTimerExpiry (n : Fin 4)
  /-- REFRESH_TIMER_EXPIRY (R144). -/
  | refreshTimerExpiry
  /-- INIT_STAGE_END (R142): the end of the stage that is running, 1 to 4. -/
  | initStageEnd
  /-- END_OF_STAGE_5 (R143). -/
  | endOfStage5
  /-- LINE_WRITE_COMPLETION (R42): of the line write in execution. -/
  | lineWriteCompletion
  /-- LINE_READ_COMPLETION (R98): of the line read in execution. -/
  | lineReadCompletion
  /-- BLOCK_READ_COMPLETION (R129). -/
  | blockReadCompletion
  /-- BLOCK_WRITE_COMPLETION (R133). -/
  | blockWriteCompletion
  /-- CLEAR_WRITE_COMPLETION (R122). -/
  | clearWriteCompletion
  /-- REFRESH_COMPLETION (R145). -/
  | refreshCompletion
  /-- ORPHAN_COMPLETION (R151): of the request that a full soft reset left in execution. -/
  | orphanCompletion
  /-- MEMORY_INIT (R113): a CMD write of code 0x01 (R176); arguments come from CMD_ARG0 to CMD_ARG3. -/
  | memoryInit
  /-- POOL_BUILD (R115): CMD code 0x02. -/
  | poolBuild
  /-- POOL_TEARDOWN (R116): CMD code 0x03. -/
  | poolTeardown
  /-- SLOT_CLAIM (R117): CMD code 0x10. -/
  | slotClaim
  /-- SLOT_HOLD (R118): CMD code 0x11. -/
  | slotHold
  /-- SLOT_RELEASE (R119): CMD code 0x12. -/
  | slotRelease
  /-- SLOT_PUBLISH (R120): CMD code 0x13. -/
  | slotPublish
  /-- SLOT_CLEAR (R121): CMD code 0x14. -/
  | slotClear
  /-- INPUT_FLUSH (R124): CMD code 0x15. -/
  | inputFlush
  /-- UNKNOWN_COMMAND (R111): a CMD write whose code, bits 7 to 0, names no command. -/
  | unknownCommand (code : BitVec 8)
  /-- READ (R127): ACC_CTRL operation 1. -/
  | read
  /-- FLUSH (R132): ACC_CTRL operation 2. -/
  | flush
  /-- DISCARD (R134): ACC_CTRL operation 3. -/
  | discard
  /-- ACC_DATA_READ (R130). -/
  | accDataRead
  /-- ACC_DATA_WRITE (R131). -/
  | accDataWrite (w : Word)
  /-- ACC_ADDR_WRITE (R126). -/
  | accAddrWrite (w : Word)
  /-- ACC_COUNT_WRITE (R126). -/
  | accCountWrite (w : Word)
  /-- ENABLE_ATTEMPT (R27): a write of INn_CTRL with ENABLE 1 and the given STOP_MODE. -/
  | enableAttempt (n : Fin 4) (mode : StopMode)
  /-- IMMEDIATE_STOP (R43): a write of INn_CTRL with ENABLE 0 and STOP_MODE IMMEDIATE. -/
  | immediateStop (n : Fin 4)
  /-- STOP_AT_FRAME_END (R44): a write of INn_CTRL with ENABLE 0 and STOP_MODE AT_FRAME_END. -/
  | stopAtFrameEnd (n : Fin 4)
  /-- INPUT_CONFIG_WRITE (R25). -/
  | inputConfigWrite (n : Fin 4) (reg : InConfigReg) (w : Word)
  /-- OUTPUT_ENABLE (R76): a write of OUTn_CTRL with ENABLE 1; w carries the other fields. -/
  | outputEnable (m : Fin 6) (w : Word)
  /-- OUTPUT_DISABLE (R76): a write of OUTn_CTRL with ENABLE 0; w carries the other fields. -/
  | outputDisable (m : Fin 6) (w : Word)
  /-- OUTPUT_CONFIG_WRITE (R74). -/
  | outputConfigWrite (m : Fin 6) (reg : OutConfigReg) (w : Word)
  /-- GEOMETRY_WRITE (R1). -/
  | geometryWrite (reg : GeometryReg) (w : Word)
  /-- MC_CFG_WRITE (R138). -/
  | mcCfgWrite (w : Word)
  /-- MC_REFRESH_WRITE (R139). -/
  | mcRefreshWrite (w : Word)
  /-- ARB_CFG_WRITE (R161). -/
  | arbCfgWrite (w : Word)
  /-- EVENT_CLEAR (R164). -/
  | eventClear (reg : EventReg) (w : Word)
  /-- EVENT_ENABLE_WRITE (R165). -/
  | eventEnableWrite (reg : EventReg) (w : Word)
  /-- COUNTER_CLEAR (R170): a write of any value. -/
  | counterClear (c : CounterName) (w : Word)
  /-- RECORD_CAPTURE (R174): a read of word 0 of record k. -/
  | recordCapture (k : Fin 32)
  /-- LIST_CAPTURE (R175): a read of a list's length word. -/
  | listCapture (l : ListName)
  /-- REGISTER_WRITE (R171): a host write cycle at a byte offset of the 4 KiB window. -/
  | registerWrite (offset : BitVec 12) (w : Word)
  /-- FULL_SOFT_RESET (R177). -/
  | fullSoftReset
  /-- INPUT_CHANNEL_RESET (R47). -/
  | inputChannelReset (n : Fin 4)
  /-- OUTPUT_CHANNEL_RESET (R90). -/
  | outputChannelReset (m : Fin 6)
  /-- PIN_RESET (R178): RESET_N is asserted. -/
  | pinReset
  /-- RESET_N_DEASSERTION (R178). -/
  | resetNDeassertion
  /-- STOP_MODE_WRITE (R26): a write of INn_CTRL with the given fields. -/
  | stopModeWrite (n : Fin 4) (enable : Bool) (mode : StopMode)
  /-- TIME_BASE_ADVANCE (R179). -/
  | timeBaseAdvance
  /-- LOSS_OF_CHARGE (R152): word addresses, each with the bits (data 31 to 0, check 38 to 32) that lost their charge. -/
  | lossOfCharge (decay : List (Nat × BitVec 39))
  deriving DecidableEq, Repr, Inhabited

end Sys2Proof
end

