-- ==== Sys2Proof/Decode.lean ====
section
/-! DEFINITION. Commands from bits. spec/opcode_table.json gives no row any bits: the FX-46's commands are messages,
register accesses and events, not words. How a bus write becomes a command is Machine/HostBus.lean. -/

namespace Sys2Proof

/-- The command that a word spells by the table's bits: none, since no row of the table gives bits. -/
def decodeTableWord (_nbits _w : Nat) : Option Instr := none

end Sys2Proof
end

