-- ==== Sys2Proof/Config.lean ====
section
/-! DEFINITION. What an implementation or a board fixes, the free values, and the constants that the spec gives.
A constant without a body is a FREE VALUE: nothing about it can be proved. -/

namespace Sys2Proof

/-- A stored SDRAM word (R148): the word as it was last written, and which of its 39 bits (data in bits 31 to 0,
check bits in bits 38 to 32) differ from what was written. The 7 check bits as written are a fixed function of the
data (`Config.checkBits`), so the pair determines all 39 bits that the device holds. -/
structure StoredWord where
  word  : Word
  flips : BitVec 39
  deriving DecidableEq, Repr, Inhabited

/-- What the controller finds at the read of one word (R148). -/
inductive EccFinding
  | clean
  | corrected
  | uncorrectable
  deriving DecidableEq, Repr, Inhabited

/-- One word as a read delivers it: the value and the finding; the poison flag is set for `uncorrectable`. -/
structure WordRead where
  word    : Word
  finding : EccFinding
  deriving DecidableEq, Repr, Inhabited

/-- FREE VALUE. What an undefined word of the store holds (R143, R150), for each occasion on which words became
undefined and each word address. DESIGN CHOICE, assumption 4, safe. -/
opaque Config.undefinedWord : Nat → Nat → StoredWord

/-- FREE VALUE. What the read of a word with three or more bits in error delivers (R148: "may be delivered as a clean,
corrected or poisoned word with a wrong value"), from the word as written and its failed bits. Assumption 5, safe. -/
opaque Config.beyondCode : Word → BitVec 39 → WordRead

/-- FREE VALUE. The 7 check bits of 32 data bits (R148); the spec does not give the code. Assumption 6, safe. -/
opaque Config.checkBits : Word → BitVec 7

/-- FREE VALUE. The longest refresh interval, in microseconds, that the fitted SDRAM allows (R139). Assumption 7, safe. -/
opaque Config.deviceRefreshLimit : Nat

/-- The 32 data bits that the device holds for a stored word. -/
def StoredWord.dataBits (c : StoredWord) : Word := c.word ^^^ c.flips.setWidth 32

/-- The 7 check bits that the device holds for a stored word. -/
def StoredWord.storedCheckBits (c : StoredWord) : BitVec 7 :=
  Config.checkBits c.word ^^^ (c.flips >>> 32).setWidth 7

/-- Words of the largest frame store (R138): addresses at or beyond this do not exist. -/
def Config.storeWords : Nat := 16777216

/-- The memory sizes of MC_CFG (R138). -/
inductive MemSize
  | words4M
  | words8M
  | words16M
  deriving DecidableEq, Repr, Inhabited

/-- The number of words of a memory size (R138). -/
def MemSize.words : MemSize → Nat
  | .words4M => 4194304
  | .words8M => 8388608
  | .words16M => 16777216

/-- The timing profiles of MC_CFG (R138). -/
inductive TimingProfile
  | t100
  | t133
  | t166
  | t200
  deriving DecidableEq, Repr, Inhabited

/-- The SDRAM operation of an initialisation stage (R142). -/
inductive StageOp
  | powerSettle
  | prechargeAll
  | eightRefreshes
  | modeSet
  | holdOff
  deriving DecidableEq, Repr, Inhabited

/-- The operation of each stage by position, with stages 3 and 4 exchanged under MODE_FIRST (R142). -/
def Config.stageOp (modeFirst : Bool) : Nat → StageOp
  | 1 => .powerSettle
  | 2 => .prechargeAll
  | 3 => if modeFirst then .modeSet else .eightRefreshes
  | 4 => if modeFirst then .eightRefreshes else .modeSet
  | _ => .holdOff

/-- Duration of one refresh operation in tenths of a nanosecond (R142). -/
def Config.refreshTenthsNs : TimingProfile → Nat
  | .t100 => 800
  | .t133 => 680
  | .t166 => 660
  | .t200 => 650

/-- Duration of a stage's operation in tenths of a nanosecond (R142). -/
def Config.opTenthsNs : TimingProfile → StageOp → Nat
  | _, .powerSettle => 2000000
  | .t100, .prechargeAll => 300
  | .t133, .prechargeAll => 225
  | .t166, .prechargeAll => 180
  | .t200, .prechargeAll => 150
  | p, .eightRefreshes => 8 * Config.refreshTenthsNs p
  | .t100, .modeSet => 200
  | .t133, .modeSet => 150
  | .t166, .modeSet => 120
  | .t200, .modeSet => 100
  | _, .holdOff => 20000

/-- Duration of the whole sequence, in tenths of a nanosecond (R142). -/
def Config.sequenceTenthsNs (p : TimingProfile) (modeFirst : Bool) : Nat :=
  ((List.range 5).map fun k => Config.opTenthsNs p (Config.stageOp modeFirst (k + 1))).sum

/-- Microseconds by the time base that stage 1 lasts (R142). -/
def Config.powerSettleUs : Nat := 200

/-- Microseconds by the time base that stage 5 lasts (R142). -/
def Config.holdOffUs : Nat := 2

/-- Places of an input's line FIFO (R34). -/
def Config.lineFifoPlaces : Nat := 3

/-- Places of an output's prefetch FIFO (R94). -/
def Config.prefetchPlaces : Nat := 4

/-- Words of each access-port buffer (R126). -/
def Config.bufferWords : Nat := 16

/-- Words of a SLOT CLEAR block (R122). -/
def Config.clearBlock : Nat := 1024

/-- The pass-over count at which a host request is promoted (R160). -/
def Config.promoteAt : Nat := 8

end Sys2Proof
end

