-- ==== Sys2Proof/Machine/State.lean ====
section
/-! DEFINITION. The state of the FX-46 as plain data, the state after reset, and the reasons for which a command
stops. Every register, list, FIFO, buffer, mark and counter that the spec names has one home here; views that the spec
computes (ENABLE bits, status images, the draining and held sets, EVT_SUMMARY, the interrupt line) are computed. -/

namespace Sys2Proof.Machine

/-- Reasons for which the machine stops. -/
inductive Fault
  /-- Raised by a completion whose request addresses words at or beyond the largest frame store. R146 rules such a request
  out and no reachable state has one. Safe: the model stops where the device does not come. -/
  | outsideStore
  deriving DecidableEq, Repr, Inhabited

/-- Reasons for which a command has no meaning in the state it was sent to. Each names an event that cannot occur there
(assumption 3); all are safe. -/
inductive Refusal
  /-- Raised by an arm of exec that has no meaning yet. Safe. -/
  | notModelled (mnemonic : String)
  /-- Raised by LOSS_TIMER_EXPIRY and REFRESH_TIMER_EXPIRY when the timer is stopped (R38, R144). Safe. -/
  | timerNotRunning
  /-- Raised by an expiry, or by the end of stage 1 or 5, before the time has passed (R38, R142, R144). Safe. -/
  | timeNotElapsed
  /-- Raised by INIT_STAGE_END and END_OF_STAGE_5 when that stage is not running (R142, R143). Safe. -/
  | stageNotRunning
  /-- Raised by a completion when no request of its kind is in execution (R147). Safe. -/
  | noSuchCompletion
  /-- Raised by LOSS_OF_CHARGE while refresh keeps the words (R139, R152). Safe. -/
  | refreshKeepsCharge
  deriving DecidableEq, Repr, Inhabited

/-! ### Slot manager (chapter 1) -/

/-- The location of a slot (R6). -/
inductive SlotState
  | free
  | filling
  | closed
  | ready
  | draining
  | held
  deriving DecidableEq, Repr, Inhabited

/-- A slot record (R3). -/
structure SlotRecord where
  index        : Nat
  state        : SlotState
  owner        : Option (Fin 4)
  sequence     : Option Word
  timestamp    : Option Word
  lineLength   : Option Nat
  lineCount    : Option Nat
  tag          : Option Word
  short        : Bool
  viewed       : Bool
  readers      : BitVec 6
  poison       : BitVec 8
  writePending : Bool
  deriving DecidableEq, Repr, Inhabited

/-- The record of a fresh slot (R8). -/
def SlotRecord.fresh (k : Nat) : SlotRecord where
  index := k
  state := .free
  owner := none
  sequence := none
  timestamp := none
  lineLength := none
  lineCount := none
  tag := none
  short := false
  viewed := false
  readers := 0
  poison := 0
  writePending := false

/-- The slot manager's state (R1, R3, R8, R11, R13). The draining set and the held set are the records in those states
(R6, assumption 19). -/
structure SlotManager where
  built   : Bool
  base    : Word
  stride  : Word
  count   : Word
  slots   : List SlotRecord
  free    : List Nat
  ready   : Vector (List Nat) 4
  nextSeq : Vector Word 4
  deriving DecidableEq, Repr

/-! ### Input channels (chapters 2 and 3) -/

/-- The states of an input channel (section 2.3). -/
inductive InState
  | off
  | armed
  | filling
  | skipping
  | stopping
  | resetting
  deriving DecidableEq, Repr, Inhabited

/-- The configuration settings of an input (R25). -/
structure InConfig where
  lineLength    : Nat
  linesPerFrame : Nat
  quota         : Nat
  keepShort     : Bool
  watermark     : Nat
  budget        : Nat
  lossTimeout   : Nat
  deriving DecidableEq, Repr, Inhabited

/-- The reason of the last refused enable (R27, R28). -/
inductive EnableRefusal
  | none
  | noPool
  | geometry
  deriving DecidableEq, Repr, Inhabited

/-- The verdict of a closed entry (R29). -/
inductive Verdict
  | publish
  | discard
  deriving DecidableEq, Repr, Inhabited

/-- OPEN, or CLOSED with a verdict (R29). -/
inductive EntryStatus
  | opened
  | closed (v : Verdict)
  deriving DecidableEq, Repr, Inhabited

/-- A frame entry of a fill context (R29). Its slot names it: no slot is in two entries (assumption 21). -/
structure FrameEntry where
  slot          : Nat
  status        : EntryStatus
  received      : Nat
  expected      : Nat
  shortMark     : Bool
  writeInFlight : Bool
  deriving DecidableEq, Repr, Inhabited

/-- A line of a line FIFO (R34); `slot` names its entry. -/
structure FifoLine where
  slot    : Nat
  number  : Nat
  payload : List Word
  deriving DecidableEq, Repr, Inhabited

/-- An input channel. ENABLE is computed from `state` and `stopPending` (R26). -/
structure InputChannel where
  cfg         : InConfig
  stopMode    : StopMode
  state       : InState
  stopPending : Bool
  lost        : Bool
  /-- The loss timer: stopped, or the time base value at which it started (R38). -/
  lossTimer   : Option Word
  refusal     : EnableRefusal
  fill        : List FrameEntry
  fifo        : List FifoLine
  progress    : Count
  counters    : Vector Count 11
  deriving DecidableEq, Repr

/-! ### Output channels (chapters 4 and 5) -/

/-- The states of an output channel (section 4.3). -/
inductive OutState
  | off
  | idle
  | showing
  | disabling
  deriving DecidableEq, Repr, Inhabited

/-- The selection policies (R83, R85). -/
inductive Policy
  | latest
  | sequential
  | delay
  deriving DecidableEq, Repr, Inhabited

/-- What a lost source does to an answer (R80). -/
inductive LossAction
  | keep
  | blank
  deriving DecidableEq, Repr, Inhabited

/-- What is sent for a missing or poisoned line (R101). -/
inductive FillKind
  | blank
  | repeated
  deriving DecidableEq, Repr, Inhabited

/-- The settings of an output (R74). ENABLE is computed from the state (R76). -/
structure OutConfig where
  source      : Fin 4
  policy      : Policy
  delay       : Nat
  freeze      : Bool
  mute        : Bool
  lossAction  : LossAction
  fillKind    : FillKind
  watermark   : Nat
  blankLength : Nat
  blankCount  : Nat
  blankWord   : Word
  deriving DecidableEq, Repr, Inhabited

/-- The status of an OPEN ANSWER (R73). -/
inductive AnswerStatus
  | picture
  | repeated
  | blank
  | offline
  deriving DecidableEq, Repr, Inhabited

/-- An OPEN ANSWER (R73). -/
structure OpenAnswer where
  status     : AnswerStatus
  source     : Fin 4
  sequence   : Option Word
  tag        : Option Word
  lineLength : Nat
  lineCount  : Nat
  timestamp  : Option Word
  short      : Bool
  delayShort : Bool
  sourceLost : Bool
  deriving DecidableEq, Repr, Inhabited

/-- The kinds of a LINE message to a sink (R72). -/
inductive LineKind
  | data
  | fillBlank
  | fillRepeat
  deriving DecidableEq, Repr, Inhabited

/-- A LINE message to a sink (R72). -/
structure LineMessage where
  number  : Nat
  kind    : LineKind
  payload : List Word
  deriving DecidableEq, Repr, Inhabited

/-- The open frame record (R92); `status` is PICTURE, REPEAT or BLANK. -/
structure OpenFrame where
  status        : AnswerStatus
  slot          : Option Nat
  lineLength    : Nat
  lineCount     : Nat
  fillKind      : FillKind
  blankWord     : Word
  watermark     : Nat
  impaired      : Bool
  firstUnderrun : Bool
  firstOverpull : Bool
  deriving DecidableEq, Repr, Inhabited

/-- A line of a prefetch FIFO (R94). -/
structure PrefetchLine where
  number   : Nat
  poisoned : Bool
  epoch    : Word
  payload  : List Word
  deriving DecidableEq, Repr, Inhabited

/-- The last shown sequence L with the source it was set under (R82). -/
structure LastShown where
  sequence : Word
  source   : Fin 4
  deriving DecidableEq, Repr, Inhabited

/-- An output channel. `lossReported` is the loss-reported flag with the source under which it was set (R81);
`answer` and `line` are the model's own: the last messages sent to the sink (assumption 17). -/
structure OutputChannel where
  cfg          : OutConfig
  state        : OutState
  retained     : Option Nat
  last         : Option LastShown
  lossReported : Option (Fin 4)
  frame        : Option OpenFrame
  pull         : Nat
  fetch        : Nat
  epoch        : Word
  fifo         : List PrefetchLine
  repeatBuf    : Option (List Word)
  counters     : Vector Count 10
  answer       : Option OpenAnswer
  line         : Option LineMessage
  deriving DecidableEq, Repr

/-! ### Memory requests (chapters 8 and 9) -/

/-- The arbiter's clients (R153). -/
inductive Client
  | input (n : Fin 4)
  | output (m : Fin 6)
  | accessPort
  | commandUnit
  | refresh
  deriving DecidableEq, Repr, Inhabited

/-- The kinds of request (R146). -/
inductive RequestKind
  | lineWrite
  | lineRead
  | blockRead
  | blockWrite
  | clearWrite
  | refresh
  deriving DecidableEq, Repr, Inhabited

/-- A memory request with the content that R146 lists: word address and count, the words of a write, and for a line read
the epoch and the line number. -/
structure MemRequest where
  client : Client
  kind   : RequestKind
  addr   : Nat
  count  : Nat
  words  : List Word
  epoch  : Word
  number : Nat
  deriving DecidableEq, Repr, Inhabited

/-- The request in execution (R146); `orphan` when a full soft reset left it in execution (R151). -/
structure Execution where
  request : MemRequest
  orphan  : Bool
  deriving DecidableEq, Repr, Inhabited

/-- A pending request of a host client with its pass-over count (R160). -/
structure HostRequest where
  request : MemRequest
  passed  : Nat
  deriving DecidableEq, Repr, Inhabited

/-- The priority profiles (R157, R161). -/
inductive ArbProfile
  | outputFirst
  | inputFirst
  | interleaved
  deriving DecidableEq, Repr, Inhabited

/-- The two groups of the urgent class (R157). -/
inductive UrgentGroup
  | outputs
  | inputs
  deriving DecidableEq, Repr, Inhabited

/-- The two clients of the host pointer (R158). -/
inductive HostClient
  | accessPort
  | commandUnit
  deriving DecidableEq, Repr, Inhabited

/-- The memory arbiter (R153, R157, R158, R160, R161). The refresh request is the controller's refresh-due flag. -/
structure Arbiter where
  inReq      : Vector (Option MemRequest) 4
  outReq     : Vector (Option MemRequest) 6
  apReq      : Option HostRequest
  cuReq      : Option HostRequest
  urgentOut  : Fin 6
  urgentIn   : Fin 4
  normal     : Fin 10
  host       : HostClient
  preference : UrgentGroup
  profile    : ArbProfile
  deriving DecidableEq, Repr

/-- The states of the memory controller (R140). -/
inductive McState
  | uninit
  | initializing
  | ready
  deriving DecidableEq, Repr, Inhabited

/-- A running refresh timer: when it started and the interval that governs this run (R139, R144). -/
structure RefreshTimer where
  start    : Word
  interval : Nat
  deriving DecidableEq, Repr, Inhabited

/-- The memory controller (R138 to R151). -/
structure MemController where
  state            : McState
  size             : MemSize
  profile          : TimingProfile
  modeFirst        : Bool
  refreshInterval  : Nat
  refreshTimer     : Option RefreshTimer
  refreshDue       : Bool
  stage            : Nat
  stageStart       : Word
  exec             : Option Execution
  eccCorrected     : Count
  eccUncorrectable : Count
  refreshBacklog   : Count
  deriving DecidableEq, Repr

/-- The frame store: the words written since the last initialisation, addresses strictly rising. A word that is not
listed is undefined; `undefGen` numbers the occasions on which words became undefined (assumption 4). -/
structure FrameStore where
  cells    : List (Nat × StoredWord)
  undefGen : Nat
  deriving DecidableEq, Repr

/-! ### Command unit, access port, event unit, host interface (chapters 6, 7, 10, 11) -/

/-- The result codes (R112), in the order of R176. -/
inductive ResultCode
  | ok
  | badArgument
  | wrongState
  | noPool
  | poolPresent
  | memoryNotReady
  | channelsActive
  | empty
  | notHeld
  | slotBusy
  deriving DecidableEq, Repr, Inhabited

/-- The argument registers CMD_ARG0 to CMD_ARG3 (R110). -/
structure CmdArgs where
  arg0 : Word
  arg1 : Word
  arg2 : Word
  arg3 : Word
  deriving DecidableEq, Repr, Inhabited

/-- What a running SLOT CLEAR holds (R121, R122): the slot, the blank word and the words already written. -/
structure ClearProgress where
  slot     : Nat
  blank    : Word
  progress : Nat
  deriving DecidableEq, Repr, Inhabited

/-- The command in progress (R110); `clear` is present for SLOT CLEAR and absent for MEMORY INIT. -/
structure RunningCommand where
  code  : BitVec 8
  args  : CmdArgs
  clear : Option ClearProgress
  deriving DecidableEq, Repr, Inhabited

/-- The command unit (R110): BUSY while `running` is present. -/
structure CommandUnit where
  running  : Option RunningCommand
  args     : CmdArgs
  lastCode : BitVec 8
  result   : ResultCode
  value    : Word
  deriving DecidableEq, Repr, Inhabited

/-- The states of the access port (R126). -/
inductive PortState
  | idle
  | reading
  | readReady
  | writeFilling
  | writing
  deriving DecidableEq, Repr, Inhabited

/-- The port errors (R126). -/
inductive PortError
  | none
  | range
  | emptyRead
  | full
  | violation
  | busy
  deriving DecidableEq, Repr, Inhabited

/-- A word of the read buffer with its poison flag (R129). -/
structure ReadWord where
  word     : Word
  poisoned : Bool
  deriving DecidableEq, Repr, Inhabited

/-- The flush record (R126, R132). -/
structure FlushRecord where
  addr  : Nat
  count : Nat
  slots : List Nat
  deriving DecidableEq, Repr, Inhabited

/-- The access port (R126). `deferred` is a request that waits for the port's own orphan (R137). -/
structure AccessPort where
  addr        : Word
  count       : Nat
  state       : PortState
  readBuf     : List ReadWord
  writeBuf    : List Word
  flushRecord : Option FlushRecord
  error       : PortError
  deferred    : Option MemRequest
  deriving DecidableEq, Repr, Inhabited

/-- The event unit (R163, R165): status and enables, registers 0 to 3 of IN0 to IN3, 4 to 9 of OUT0 to OUT5, 10 global. -/
structure EventUnit where
  status : Vector Word 11
  enable : Vector Word 11
  deriving DecidableEq, Repr

/-- A record capture: which record, and its eight words (R174). -/
structure RecordCapture where
  record : Fin 32
  words  : List Word
  deriving DecidableEq, Repr, Inhabited

/-- The host interface: window captures (R174, R175; list 0 is the free list, 1 to 4 the ready lists), and the word
driven by the last host read (the model's own, assumption 17). -/
structure HostInterface where
  data          : Word
  recordCapture : Option RecordCapture
  listCaptures  : Vector (Option (List Nat)) 5
  deriving DecidableEq, Repr

/-! ### The whole machine -/

/-- The state of the FX-46. `pending` is the model's queue of waiting commands. -/
structure State where
  pending       : List Instr
  resetAsserted : Bool
  timeBase      : Word
  sm            : SlotManager
  inputs        : Vector InputChannel 4
  outputs       : Vector OutputChannel 6
  cu            : CommandUnit
  ap            : AccessPort
  arb           : Arbiter
  mc            : MemController
  store         : FrameStore
  eu            : EventUnit
  host          : HostInterface
  deriving DecidableEq, Repr

/-! ### Reset values -/

/-- Reset values of the slot manager (R1, R23). -/
def SlotManager.reset : SlotManager where
  built := false
  base := 0
  stride := 307200
  count := 8
  slots := []
  free := []
  ready := Vector.replicate 4 []
  nextSeq := Vector.replicate 4 0

/-- Reset values of an input's settings (R25). -/
def InConfig.reset : InConfig where
  lineLength := 640
  linesPerFrame := 480
  quota := 2
  keepShort := false
  watermark := 2
  budget := 0
  lossTimeout := 0

/-- Reset values of an input channel (R25, R26, R28, R49). -/
def InputChannel.reset : InputChannel where
  cfg := InConfig.reset
  stopMode := .immediate
  state := .off
  stopPending := false
  lost := false
  lossTimer := none
  refusal := .none
  fill := []
  fifo := []
  progress := 0
  counters := Vector.replicate 11 0

/-- Reset values of an output's settings (R74): the source of OUTm is IN(m mod 4). -/
def OutConfig.reset (source : Fin 4) : OutConfig where
  source := source
  policy := .latest
  delay := 0
  freeze := false
  mute := false
  lossAction := .keep
  fillKind := .blank
  watermark := 1
  blankLength := 640
  blankCount := 480
  blankWord := 0

/-- Reset values of an output channel (R74, R91, R92). -/
def OutputChannel.reset (source : Fin 4) : OutputChannel where
  cfg := OutConfig.reset source
  state := .off
  retained := none
  last := none
  lossReported := none
  frame := none
  pull := 0
  fetch := 0
  epoch := 0
  fifo := []
  repeatBuf := none
  counters := Vector.replicate 10 0
  answer := none
  line := none

/-- Reset values of the command unit (R110). -/
def CommandUnit.reset : CommandUnit where
  running := none
  args := ⟨0, 0, 0, 0⟩
  lastCode := 0
  result := .ok
  value := 0

/-- Reset values of the access port (R126, R137). -/
def AccessPort.reset : AccessPort where
  addr := 0
  count := 1
  state := .idle
  readBuf := []
  writeBuf := []
  flushRecord := none
  error := .none
  deferred := none

/-- Reset values of the arbiter (R158, R161, R162). -/
def Arbiter.reset : Arbiter where
  inReq := Vector.replicate 4 none
  outReq := Vector.replicate 6 none
  apReq := none
  cuReq := none
  urgentOut := 0
  urgentIn := 0
  normal := 0
  host := .accessPort
  preference := .outputs
  profile := .outputFirst

/-- Pin-reset values of the memory controller (R138, R139, R140, R150). -/
def MemController.reset : MemController where
  state := .uninit
  size := .words4M
  profile := .t100
  modeFirst := false
  refreshInterval := 7
  refreshTimer := none
  refreshDue := false
  stage := 0
  stageStart := 0
  exec := none
  eccCorrected := 0
  eccUncorrectable := 0
  refreshBacklog := 0

/-- Reset values of the event unit (R167). -/
def EventUnit.reset : EventUnit where
  status := Vector.replicate 11 0
  enable := Vector.replicate 11 0

/-- Reset values of the host interface: every capture empty (R174, R175). -/
def HostInterface.reset : HostInterface where
  data := 0
  recordCapture := none
  listCaptures := Vector.replicate 5 none

/-- Every output channel at its reset values (R74). -/
def outputsReset : Vector OutputChannel 6 :=
  #v[OutputChannel.reset 0, OutputChannel.reset 1, OutputChannel.reset 2, OutputChannel.reset 3,
     OutputChannel.reset 0, OutputChannel.reset 1]

/-- The machine right after reset: RESET_N has just been released (R178), nothing waits in the queue. -/
def State.reset : State where
  pending := []
  resetAsserted := false
  timeBase := 0
  sm := SlotManager.reset
  inputs := Vector.replicate 4 InputChannel.reset
  outputs := outputsReset
  cu := CommandUnit.reset
  ap := AccessPort.reset
  arb := Arbiter.reset
  mc := MemController.reset
  store := ⟨[], 0⟩
  eu := EventUnit.reset
  host := HostInterface.reset

end Sys2Proof.Machine
end

