-- ==== Sys2Proof/Machine/Flags.lean ====
section
/-! DEFINITION. Comparisons and counts that many rules share: sequence order, elapsed time, saturating counters, and the
event bits of the event unit (chapter 10). -/

namespace Sys2Proof.Machine

/-! ### Sequence numbers and time (0.5, R179) -/

/-- Sequence number `a` is after `b`: the difference modulo 2^32 lies in 1 to 2^31 - 1 (0.5). -/
def seqAfter (a b : Word) : Bool := 1 ≤ (a - b).toNat && (a - b).toNat ≤ 2147483647

/-- Microseconds from `start` to `now`, a difference of counts modulo 2^32 (R179). -/
def elapsedUs (start now : Word) : Nat := (now - start).toNat

/-! ### Counters (R169) -/

/-- An increase of a counter: it never passes 65535 (R169). -/
def satAdd (c : Count) (k : Nat) : Count := BitVec.ofNat 16 (min 65535 (c.toNat + k))

/-- An increase by one of a poison count: it never passes 255 (R20). -/
def satAddPoison (c : BitVec 8) : BitVec 8 := BitVec.ofNat 8 (min 255 (c.toNat + 1))

/-- Place of an input's counter in the counter region (R172). -/
def inCounterIdx : InCounter → Fin 11
  | .framesPublished => 0
  | .framesBroken => 1
  | .linesOverflowed => 2
  | .discardedByStop => 3
  | .stray => 4
  | .signalLosses => 5
  | .skippedBudget => 6
  | .skippedBacklog => 7
  | .skippedNoSlot => 8
  | .reclaimed => 9
  | .evictedUnviewed => 10

/-- Place of an output's counter in the counter region (R172). -/
def outCounterIdx : OutCounter → Fin 10
  | .framesNew => 0
  | .framesRepeated => 1
  | .framesDropped => 2
  | .framesFrozen => 3
  | .framesBlank => 4
  | .protocol => 5
  | .fillLines => 6
  | .poisonedLines => 7
  | .overpulls => 8
  | .incompleteFrames => 9

/-! ### Events (R163, R172) -/

/-- The events of EVT_INn, bit 0 upward (R172). -/
inductive InEvent
  | framePublished
  | jobDone
  | frameBroken
  | noSlot
  | backlog
  | lineOverflow
  | signalLost
  | signalFound
  | stray
  | stopped
  | enableRefused
  deriving DecidableEq, Repr

/-- The events of EVT_OUTn, bit 0 upward (R172). -/
inductive OutEvent
  | underrun
  | incomplete
  | overpull
  | poison
  | protocol
  | sourceLost
  | disabled
  deriving DecidableEq, Repr

/-- The events of EVT_GLOBAL, bit 0 upward (R172). -/
inductive GlobalEvent
  | cmdDone
  | cmdError
  | cmdOverrun
  | accessDone
  | accessViolation
  | accessPoison
  | memReady
  | eccCorrected
  | eccUncorrectable
  | configIgnored
  deriving DecidableEq, Repr

/-- The status bit of an input event, as a one-bit mask (R172). -/
def inEventMask : InEvent → Word
  | .framePublished => 0x001
  | .jobDone => 0x002
  | .frameBroken => 0x004
  | .noSlot => 0x008
  | .backlog => 0x010
  | .lineOverflow => 0x020
  | .signalLost => 0x040
  | .signalFound => 0x080
  | .stray => 0x100
  | .stopped => 0x200
  | .enableRefused => 0x400

/-- The status bit of an output event, as a one-bit mask (R172). -/
def outEventMask : OutEvent → Word
  | .underrun => 0x01
  | .incomplete => 0x02
  | .overpull => 0x04
  | .poison => 0x08
  | .protocol => 0x10
  | .sourceLost => 0x20
  | .disabled => 0x40

/-- The status bit of a global event, as a one-bit mask (R172). -/
def globalEventMask : GlobalEvent → Word
  | .cmdDone => 0x001
  | .cmdError => 0x002
  | .cmdOverrun => 0x004
  | .accessDone => 0x008
  | .accessViolation => 0x010
  | .accessPoison => 0x020
  | .memReady => 0x040
  | .eccCorrected => 0x080
  | .eccUncorrectable => 0x100
  | .configIgnored => 0x200

/-- Number of an event register: the summary bit that stands for it (R172). -/
def eventRegIdx : EventReg → Fin 11
  | .input n => ⟨n.val, by omega⟩
  | .output m => ⟨m.val + 4, by omega⟩
  | .global => 10

/-- The bits of a register that name events; all others read 0 (R163, R165). -/
def eventRegNamed : EventReg → Word
  | .input _ => 0x7FF
  | .output _ => 0x7F
  | .global => 0x3FF

/-- Sets status bits: a raise (R163). -/
def EventUnit.setBits (eu : EventUnit) (reg : EventReg) (mask : Word) : EventUnit :=
  { eu with status := eu.status.set (eventRegIdx reg) (eu.status[eventRegIdx reg] ||| mask) }

/-- Clears status bits: a host clear (R164). -/
def EventUnit.clearBits (eu : EventUnit) (reg : EventReg) (mask : Word) : EventUnit :=
  { eu with status := eu.status.set (eventRegIdx reg) (eu.status[eventRegIdx reg] &&& ~~~mask) }

/-- Clears every status bit of a register, as a channel reset does; the enables are kept (R47, R90, R167). -/
def EventUnit.clearReg (eu : EventUnit) (reg : EventReg) : EventUnit :=
  { eu with status := eu.status.set (eventRegIdx reg) 0 }

/-- Stores the enables of a register; positions that name no event read 0 (R165). -/
def EventUnit.setEnable (eu : EventUnit) (reg : EventReg) (w : Word) : EventUnit :=
  { eu with enable := eu.enable.set (eventRegIdx reg) (w &&& eventRegNamed reg) }

/-- A summary bit: its register holds a bit that is set and enabled (R166). -/
def EventUnit.summaryBit (eu : EventUnit) (i : Fin 11) : Bool := eu.status[i] &&& eu.enable[i] != 0

/-- EVT_SUMMARY (R166, R172). -/
def EventUnit.summary (eu : EventUnit) : Word :=
  (List.finRange 11).foldl (fun w i => if eu.summaryBit i then w ||| (1 <<< i.val) else w) 0

/-- The interrupt line: asserted while any summary bit is set (R166). -/
def EventUnit.interruptLine (eu : EventUnit) : Bool := (List.finRange 11).any eu.summaryBit

end Sys2Proof.Machine
end

