-- ==== Sys2Proof/Machine/Operands.lean ====
section
/-! DEFINITION. Operand forms: the fields of written register words (R173), the command codes, the packing of command
arguments (R176). A decoder answers none where the rule that owns the register calls the write out of range. -/

namespace Sys2Proof.Machine

/-- Bits lo + width - 1 down to lo of a written word, as a number. -/
def field (w : Word) (lo width : Nat) : Nat := (w.extractLsb' lo width).toNat

/-- STOP_MODE from its bit (R173). -/
def stopModeOf (b : Bool) : StopMode := if b then .atFrameEnd else .immediate

/-- STOP_MODE to its bit (R173). -/
def stopModeBit : StopMode → Bool
  | .immediate => false
  | .atFrameEnd => true

/-- A number lies in an inclusive range. -/
def inRange (lo hi x : Nat) : Bool := lo ≤ x && x ≤ hi

/-- The settings of an input after a write of a configuration register, if every field is in range (R25, R173). -/
def inConfigWrite (cfg : InConfig) (reg : InConfigReg) (w : Word) : Option InConfig :=
  match reg with
  | .geom =>
    if inRange 16 1024 (field w 0 11) && inRange 1 2048 (field w 16 12) then
      some { cfg with lineLength := field w 0 11, linesPerFrame := field w 16 12 }
    else none
  | .cfg =>
    if inRange 1 8 (field w 0 4) && inRange 1 3 (field w 16 2) then
      some { cfg with quota := field w 0 4, keepShort := w.getLsbD 8, watermark := field w 16 2 }
    else none
  | .budget => some { cfg with budget := field w 0 16 }
  | .loss => some { cfg with lossTimeout := field w 0 16 }

/-- The policy of a code; code 3 names no policy (R74, R173). -/
def policyOf : Nat → Option Policy
  | 0 => some .latest
  | 1 => some .sequential
  | 2 => some .delay
  | _ => none

/-- The source input of OUTn_CTRL bits 5 to 4 (R173). -/
def sourceOf (w : Word) : Fin 4 := ⟨field w 4 2, by unfold field; exact (w.extractLsb' 4 2).isLt⟩

/-- The settings of an output after a write of a settings register, if every field is in range (R74, R173). -/
def outConfigWrite (cfg : OutConfig) (reg : OutConfigReg) (w : Word) : Option OutConfig :=
  match reg with
  | .ctrl =>
    match policyOf (field w 8 2) with
    | none => none
    | some p =>
      some { cfg with
        source := sourceOf w
        policy := p
        delay := field w 12 3
        freeze := w.getLsbD 16
        mute := w.getLsbD 17
        lossAction := if w.getLsbD 18 then .blank else .keep
        fillKind := if w.getLsbD 19 then .repeated else .blank
        watermark := field w 20 2 }
  | .blank =>
    if inRange 16 1024 (field w 0 11) && inRange 1 2048 (field w 16 12) then
      some { cfg with blankLength := field w 0 11, blankCount := field w 16 12 }
    else none
  | .blankWord => some { cfg with blankWord := w }

/-- The memory size of a code; code 3 names no size (R173). -/
def memSizeOf : Nat → Option MemSize
  | 0 => some .words4M
  | 1 => some .words8M
  | 2 => some .words16M
  | _ => none

/-- The code of a memory size (R173). -/
def memSizeCode : MemSize → Nat
  | .words4M => 0
  | .words8M => 1
  | .words16M => 2

/-- The timing profile of a two-bit code (R173). -/
def timingOf : Nat → TimingProfile
  | 0 => .t100
  | 1 => .t133
  | 2 => .t166
  | _ => .t200

/-- The code of a timing profile (R173). -/
def timingCode : TimingProfile → Nat
  | .t100 => 0
  | .t133 => 1
  | .t166 => 2
  | .t200 => 3

/-- The priority profile of a code; code 3 names no profile (R161, R173). -/
def arbProfileOf : Nat → Option ArbProfile
  | 0 => some .outputFirst
  | 1 => some .inputFirst
  | 2 => some .interleaved
  | _ => none

/-- The code of a priority profile (R173). -/
def arbProfileCode : ArbProfile → Nat
  | .outputFirst => 0
  | .inputFirst => 1
  | .interleaved => 2

/-! ### Command arguments (R176) -/

/-- An input argument: the whole word, valid at 0 to 3. -/
def inputArg (w : Word) : Option (Fin 4) := if h : w.toNat < 4 then some ⟨w.toNat, h⟩ else none

/-- A slot argument: the whole word, valid below POOL_SLOTS. -/
def slotArg (count w : Word) : Option Nat := if w.toNat < count.toNat then some w.toNat else none

/-- The end that SLOT HOLD takes from. -/
inductive ListEnd
  | newest
  | oldest
  deriving DecidableEq, Repr

/-- The end argument of SLOT HOLD: the whole word, 0 NEWEST, 1 OLDEST. -/
def endArg (w : Word) : Option ListEnd := if w = 0 then some .newest else if w = 1 then some .oldest else none

/-- The arguments of SLOT PUBLISH. -/
structure PublishArgs where
  slot       : Nat
  input      : Fin 4
  tag        : Option Word
  lineLength : Nat
  lineCount  : Nat
  deriving DecidableEq, Repr

/-- The arguments of SLOT PUBLISH, if every one is in range and the frame fits the stride (R120, R176). -/
def publishArgs (count stride : Word) (a : CmdArgs) : Option PublishArgs :=
  match slotArg count a.arg0, inputArg (BitVec.ofNat 32 (field a.arg1 0 8)) with
  | some k, some n =>
    if inRange 16 1024 (field a.arg2 0 16) && inRange 1 2048 (field a.arg2 16 16)
        && field a.arg2 0 16 * field a.arg2 16 16 ≤ stride.toNat then
      some { slot := k, input := n, tag := if a.arg1.getLsbD 8 then some a.arg3 else none,
             lineLength := field a.arg2 0 16, lineCount := field a.arg2 16 16 }
    else none
  | _, _ => none

/-- The number of a result code (R176). -/
def resultCodeNumber : ResultCode → Nat
  | .ok => 0
  | .badArgument => 1
  | .wrongState => 2
  | .noPool => 3
  | .poolPresent => 4
  | .memoryNotReady => 5
  | .channelsActive => 6
  | .empty => 7
  | .notHeld => 8
  | .slotBusy => 9

end Sys2Proof.Machine
end

