-- ==== Sys2Proof/Machine/Ops.lean ====
section
/-! DEFINITION. Named operations over the state: access to channels, raises and counts, the slot manager's primitives
(chapter 1), the frame store and its error correction (chapters 1 and 8), and the outcomes that host accesses share. -/

namespace Sys2Proof.Machine

/-- What a command answers. -/
abbrev Result := Host.Outcome State Fault Refusal

/-! ### Channels -/

/-- Input channel INn. -/
def State.input (s : State) (n : Fin 4) : InputChannel := s.inputs[n]

/-- Replaces input channel INn. -/
def State.setInput (s : State) (n : Fin 4) (ch : InputChannel) : State := { s with inputs := s.inputs.set n ch }

/-- Changes input channel INn. -/
def State.modInput (s : State) (n : Fin 4) (f : InputChannel → InputChannel) : State := s.setInput n (f (s.input n))

/-- Output channel OUTm. -/
def State.output (s : State) (m : Fin 6) : OutputChannel := s.outputs[m]

/-- Replaces output channel OUTm. -/
def State.setOutput (s : State) (m : Fin 6) (o : OutputChannel) : State := { s with outputs := s.outputs.set m o }

/-- Changes output channel OUTm. -/
def State.modOutput (s : State) (m : Fin 6) (f : OutputChannel → OutputChannel) : State :=
  s.setOutput m (f (s.output m))

/-- ENABLE of INn_CTRL as it reads (R26). -/
def InputChannel.enable (ch : InputChannel) : Bool :=
  (ch.state = .armed || ch.state = .filling || ch.state = .skipping) && !ch.stopPending

/-- ENABLE of OUTn_CTRL as it reads (section 4.3). -/
def OutputChannel.enable (o : OutputChannel) : Bool := o.state = .idle || o.state = .showing

/-! ### Events and counters -/

/-- Raises an event of EVT_INn (R163). -/
def State.raiseIn (s : State) (n : Fin 4) (e : InEvent) : State :=
  { s with eu := s.eu.setBits (.input n) (inEventMask e) }

/-- Raises an event of EVT_OUTm (R163). -/
def State.raiseOut (s : State) (m : Fin 6) (e : OutEvent) : State :=
  { s with eu := s.eu.setBits (.output m) (outEventMask e) }

/-- Raises an event of EVT_GLOBAL (R163). -/
def State.raiseGlobal (s : State) (e : GlobalEvent) : State :=
  { s with eu := s.eu.setBits .global (globalEventMask e) }

/-- Increases a counter of an input by one (R50, R169). -/
def InputChannel.count (ch : InputChannel) (c : InCounter) : InputChannel :=
  { ch with counters := ch.counters.set (inCounterIdx c) (satAdd ch.counters[inCounterIdx c] 1) }

/-- Increases a counter of an output by k (R89, R169). -/
def OutputChannel.countBy (o : OutputChannel) (c : OutCounter) (k : Nat) : OutputChannel :=
  { o with counters := o.counters.set (outCounterIdx c) (satAdd o.counters[outCounterIdx c] k) }

/-- Increases a counter of INn by one (R169). -/
def State.countIn (s : State) (n : Fin 4) (c : InCounter) : State := s.modInput n fun ch => ch.count c

/-- Increases a counter of OUTm by one (R169). -/
def State.countOut (s : State) (m : Fin 6) (c : OutCounter) : State := s.modOutput m fun o => o.countBy c 1

/-! ### Slot manager: records and layout (R2, R3) -/

/-- The record of slot Sk. -/
def SlotManager.slot (sm : SlotManager) (k : Nat) : SlotRecord := sm.slots.getD k (SlotRecord.fresh k)

/-- Changes the record of slot Sk. -/
def SlotManager.modSlot (sm : SlotManager) (k : Nat) (f : SlotRecord → SlotRecord) : SlotManager :=
  { sm with slots := sm.slots.modify k f }

/-- The ready list of INn, oldest first (R11). -/
def SlotManager.readyOf (sm : SlotManager) (n : Fin 4) : List Nat := sm.ready[n]

/-- Replaces the ready list of INn. -/
def SlotManager.setReady (sm : SlotManager) (n : Fin 4) (l : List Nat) : SlotManager :=
  { sm with ready := sm.ready.set n l }

/-- The next-sequence counter of INn (R13). -/
def SlotManager.seqOf (sm : SlotManager) (n : Fin 4) : Word := sm.nextSeq[n]

/-- Sets the next-sequence counter of INn. -/
def SlotManager.setSeq (sm : SlotManager) (n : Fin 4) (w : Word) : SlotManager :=
  { sm with nextSeq := sm.nextSeq.set n w }

/-- First word address of slot Sk (R2). -/
def SlotManager.slotBase (sm : SlotManager) (k : Nat) : Nat := sm.base.toNat + k * sm.stride.toNat

/-- First word address of line j of a frame of the given line length in slot Sk (R2). -/
def SlotManager.lineAddr (sm : SlotManager) (k lineLength j : Nat) : Nat := sm.slotBase k + j * lineLength

/-- The slot that holds a word address, or none for the scratch region (R2). -/
def SlotManager.slotAt (sm : SlotManager) (a : Nat) : Option Nat :=
  if sm.built && sm.base.toNat ≤ a && a < sm.base.toNat + sm.count.toNat * sm.stride.toNat then
    some ((a - sm.base.toNat) / sm.stride.toNat)
  else none

/-- The held set (R15): the slots whose records are HELD (R6). -/
def SlotManager.heldSet (sm : SlotManager) : List Nat :=
  (List.range sm.slots.length).filter fun k => (sm.slot k).state = .held

/-- The draining set (R14): the slots whose records are DRAINING (R6). -/
def SlotManager.drainingSet (sm : SlotManager) : List Nat :=
  (List.range sm.slots.length).filter fun k => (sm.slot k).state = .draining

/-! ### Slot manager: primitives -/

/-- Record fields at allocation to INn (R4). -/
def SlotRecord.allocated (r : SlotRecord) (n : Fin 4) (lineLength : Nat) (tag : Option Word) : SlotRecord :=
  { r with
    state := .filling, owner := some n, sequence := none, timestamp := none, lineLength := some lineLength,
    lineCount := none, tag := tag, short := false, viewed := false, poison := 0 }

/-- Record fields at claim (R4). -/
def SlotRecord.claimed (r : SlotRecord) : SlotRecord :=
  { r with
    state := .held, owner := none, sequence := none, timestamp := none, lineLength := none,
    lineCount := none, tag := none, short := false, viewed := false, poison := 0 }

/-- Record fields on moving to a location without owner (R5). -/
def SlotRecord.movedTo (r : SlotRecord) (st : SlotState) : SlotRecord := { r with state := st, owner := none }

/-- A slot joins the free-list tail with state FREE (R10). -/
def SlotManager.toFree (sm : SlotManager) (k : Nat) : SlotManager :=
  { sm.modSlot k (fun r => r.movedTo .free) with free := sm.free ++ [k] }

/-- The retire primitive (R16), for a slot already taken out of its ready list. -/
def SlotManager.retire (sm : SlotManager) (k : Nat) : SlotManager :=
  if (sm.slot k).readers = 0 then sm.toFree k else sm.modSlot k fun r => r.movedTo .draining

/-- Slots retired one after another, in the order given (R10, R16). -/
def SlotManager.retireAll (sm : SlotManager) : List Nat → SlotManager
  | [] => sm
  | k :: ks => (sm.retire k).retireAll ks

/-- Slots returned to the free-list tail in the order given (R10). -/
def SlotManager.toFreeAll (sm : SlotManager) : List Nat → SlotManager
  | [] => sm
  | k :: ks => (sm.toFree k).toFreeAll ks

/-- The one-bit mask of OUTm in a reader set (R174). -/
def readerBit (m : Fin 6) : BitVec 6 := 1#6 <<< m.val

/-- OUTm joins the reader set of Sk (R18). -/
def SlotManager.join (sm : SlotManager) (m : Fin 6) (k : Nat) : SlotManager :=
  sm.modSlot k fun r => { r with readers := r.readers ||| readerBit m, viewed := true }

/-- OUTm leaves the reader set of Sk; a DRAINING slot without readers joins the free-list tail (R19). -/
def SlotManager.leave (sm : SlotManager) (m : Fin 6) (k : Nat) : SlotManager :=
  let sm' := sm.modSlot k fun r => { r with readers := r.readers &&& ~~~readerBit m }
  if (sm'.slot k).state = .draining && (sm'.slot k).readers = 0 then sm'.toFree k else sm'

/-- The ready entry that INn may reclaim: the oldest with an empty reader set that is not the newest (R55). -/
def SlotManager.reclaimable (sm : SlotManager) (n : Fin 4) : Option Nat :=
  (sm.readyOf n).dropLast.find? fun k => (sm.slot k).readers = 0

/-- The ready list of INn is at or beyond a quota (R63). -/
def SlotManager.atQuota (sm : SlotManager) (n : Fin 4) (quota : Nat) : Bool := quota ≤ (sm.readyOf n).length

/-- Evicts the oldest entry of the ready list of INn (R63). -/
def SlotManager.evictOldest (sm : SlotManager) (n : Fin 4) : SlotManager :=
  match sm.readyOf n with
  | [] => sm
  | k :: rest => (sm.setReady n rest).retire k

/-- The oldest entry of the ready list of INn has VIEWED no (R18, R63). -/
def SlotManager.oldestUnviewed (sm : SlotManager) (n : Fin 4) : Bool :=
  match sm.readyOf n with
  | [] => false
  | k :: _ => !(sm.slot k).viewed

/-! ### Publication (R61, R65) -/

/-- The part of publication that the input's own and the host's share: number and stamp the record, evict at quota with
the EVICTED_UNVIEWED count, append at the newest end (R61 to R63, R65). `f` sets the fields that differ. -/
def State.publishSlot (s : State) (n : Fin 4) (k : Nat) (f : SlotRecord → SlotRecord) : State :=
  let full := s.sm.atQuota n (s.input n).cfg.quota
  let sm1 := if full then s.sm.evictOldest n else s.sm
  let sm2 := sm1.modSlot k fun r =>
    { f r with sequence := some (s.sm.seqOf n), timestamp := some s.timeBase, state := .ready, owner := some n }
  let sm3 := (sm2.setReady n (sm2.readyOf n ++ [k])).setSeq n (s.sm.seqOf n + 1)
  let s' := { s with sm := sm3 }
  if full && s.sm.oldestUnviewed n then s'.countIn n .evictedUnviewed else s'

/-! ### Frame store (R2, R148, R152) -/

/-- The stored word at an address, if it is listed. -/
def lookupCell : List (Nat × StoredWord) → Nat → Option StoredWord
  | [], _ => none
  | (b, v) :: rest, a => if a = b then some v else lookupCell rest a

/-- Stores a word, keeping addresses strictly rising. -/
def writeCell : List (Nat × StoredWord) → Nat → StoredWord → List (Nat × StoredWord)
  | [], a, v => [(a, v)]
  | (b, u) :: rest, a, v =>
    if a < b then (a, v) :: (b, u) :: rest
    else if a = b then (a, v) :: rest
    else (b, u) :: writeCell rest a v

/-- Stores words at rising addresses from `a`, each with fresh check bits (R146, R148). -/
def writeCells (cells : List (Nat × StoredWord)) : Nat → List Word → List (Nat × StoredWord)
  | _, [] => cells
  | a, w :: ws => writeCells (writeCell cells a ⟨w, 0⟩) (a + 1) ws

/-- What the store holds at a word address: the listed word, or a free value while it is undefined (R143). -/
def FrameStore.read (st : FrameStore) (a : Nat) : StoredWord :=
  (lookupCell st.cells a).getD (Config.undefinedWord st.undefGen a)

/-- Stores words from an address upward (R146). -/
def FrameStore.write (st : FrameStore) (a : Nat) (ws : List Word) : FrameStore :=
  { st with cells := writeCells st.cells a ws }

/-- The words from `a` to `a + n - 1` become undefined (R150). -/
def FrameStore.forget (st : FrameStore) (a n : Nat) : FrameStore :=
  { cells := st.cells.filter fun c => !(a ≤ c.1 && c.1 < a + n), undefGen := st.undefGen + 1 }

/-- Every word becomes undefined (R143). -/
def FrameStore.forgetAll (st : FrameStore) : FrameStore := { cells := [], undefGen := st.undefGen + 1 }

/-- A word loses charge in some of its bits (R152): a listed word collects the failed bits; an undefined word stays
undefined, with another free value. DESIGN CHOICE, safe: the generation is one number for the whole store, so every other
undefined word takes another free value with it, where R152 speaks of the one word alone (assumption 4). -/
def FrameStore.decayWord (st : FrameStore) (d : Nat × BitVec 39) : FrameStore :=
  match lookupCell st.cells d.1 with
  | some c => { st with cells := writeCell st.cells d.1 { c with flips := c.flips ||| d.2 } }
  | none => { st with undefGen := st.undefGen + 1 }

/-- Words lose charge one after another (R152). -/
def FrameStore.decay (st : FrameStore) : List (Nat × BitVec 39) → FrameStore
  | [] => st
  | d :: ds => (st.decayWord d).decay ds

/-- The canonical form of the store: addresses strictly rising, every listed word an existing one. No entry equals what
an unlisted address reads as, because an unlisted address is undefined and an entry is a defined word. -/
abbrev FrameStore.wf (st : FrameStore) : Prop :=
  st.cells.Pairwise (fun c d => c.1 < d.1) ∧ ∀ c ∈ st.cells, c.1 < Config.storeWords

/-- Number of bits in error among the 39 (R148). -/
def errorBits (flips : BitVec 39) : Nat := (List.range 39).countP fun i => flips.getLsbD i

/-- What the read of one stored word delivers (R148). -/
def eccRead (c : StoredWord) : WordRead :=
  match errorBits c.flips with
  | 0 => ⟨c.word, .clean⟩
  | 1 => ⟨c.word, .corrected⟩
  | 2 => ⟨c.dataBits, .uncorrectable⟩
  | _ => Config.beyondCode c.word c.flips

/-- The words from `a` to `a + n - 1`, in address order, as a read delivers them (R146, R148). -/
def FrameStore.readWords (st : FrameStore) (a n : Nat) : List WordRead :=
  (List.range n).map fun i => eccRead (st.read (a + i))

/-- Words found with a given finding (R148). -/
def findingCount (f : EccFinding) (ws : List WordRead) : Nat := ws.countP fun w => w.finding = f

/-- Some word of a read is poisoned (R98, R129). -/
def anyPoisoned (ws : List WordRead) : Bool := ws.any fun w => w.finding = .uncorrectable

/-- The ECC counts and events of an executed read (R148, R149). -/
def State.countEcc (s : State) (ws : List WordRead) : State :=
  let c := findingCount .corrected ws
  let u := findingCount .uncorrectable ws
  let s1 : State := { s with mc := { s.mc with
    eccCorrected := satAdd s.mc.eccCorrected c, eccUncorrectable := satAdd s.mc.eccUncorrectable u } }
  let s2 := if c = 0 then s1 else s1.raiseGlobal .eccCorrected
  if u = 0 then s2 else s2.raiseGlobal .eccUncorrectable

/-! ### Outcomes that host accesses share -/

/-- A host write cycle: without effect while RESET_N is asserted (R178). -/
def hostWrite (s : State) (f : State → State) : Result := .next (if s.resetAsserted then s else f s)

/-- A host read cycle: it returns 0 and has no other effect while RESET_N is asserted (R178). -/
def hostRead (s : State) (f : State → State) : Result :=
  .next (if s.resetAsserted then { s with host := { s.host with data := 0 } } else f s)

/-- An ignored configuration write (R1, R25, R74, R138, R139, R161). -/
def State.configIgnored (s : State) : State := s.raiseGlobal .configIgnored

end Sys2Proof.Machine
end

