-- ==== Sys2Proof/Machine/Arbitration.lean ====
section
/-! DEFINITION. The memory arbiter (chapter 9): urgency, the order of a grant, pointers, promotion, grant moments, and
the raising and withdrawal of requests. -/

namespace Sys2Proof.Machine

/-- The request in execution was made by this client. A request that a full soft reset left in execution still occupies
its client's place (R153; assumption 12). -/
def State.execBy (s : State) (c : Client) : Bool :=
  match s.mc.exec with
  | some e => e.request.client = c
  | none => false

/-- A request of this client is in execution and will be delivered to it (R147, R151). -/
def State.inFlight (s : State) (c : Client) : Bool :=
  match s.mc.exec with
  | some e => e.request.client = c && !e.orphan
  | none => false

/-! ### Urgency (R41, R96, R159) -/

/-- The pending request of INn is urgent: its FIFO holds at least the watermark number of lines. -/
def State.urgentInput (s : State) (n : Fin 4) : Bool :=
  s.arb.inReq[n].isSome && (s.input n).cfg.watermark ≤ (s.input n).fifo.length

/-- The pending request of OUTm is urgent: its FIFO holds no more lines than the open frame's watermark. -/
def State.urgentOutput (s : State) (m : Fin 6) : Bool :=
  s.arb.outReq[m].isSome &&
    match (s.output m).frame with
    | some f => (s.output m).fifo.length ≤ f.watermark
    | none => false

/-! ### The order of a grant (R156 to R158, R160) -/

/-- The winner of a grant, by the group that supplied it. -/
inductive Winner
  | refresh
  | urgentOutput (m : Fin 6)
  | urgentInput (n : Fin 4)
  | normal (i : Fin 10)
  | host (h : HostClient)
  deriving DecidableEq, Repr

/-- The first client in cyclic order from a pointer that qualifies (R158). -/
def rotate {k : Nat} (p : Fin k) (ok : Fin k → Bool) : Option (Fin k) :=
  ((List.finRange k).map fun i => p + i).find? ok

/-- The client of a place in the normal cycle: IN0 to IN3, then OUT0 to OUT5 (R158). -/
def normalClient (i : Fin 10) : Client :=
  if h : i.val < 4 then .input ⟨i.val, h⟩ else .output ⟨i.val - 4, by omega⟩

/-- A place of the normal cycle holds a pending request that is not urgent (R156). -/
def State.normalPending (s : State) (i : Fin 10) : Bool :=
  match normalClient i with
  | .input n => s.arb.inReq[n].isSome && !s.urgentInput n
  | .output m => s.arb.outReq[m].isSome && !s.urgentOutput m
  | _ => false

/-- The winner of the urgent class by the priority profile (R157). -/
def State.pickUrgent (s : State) : Option Winner :=
  let o := (rotate s.arb.urgentOut s.urgentOutput).map Winner.urgentOutput
  let i := (rotate s.arb.urgentIn s.urgentInput).map Winner.urgentInput
  match s.arb.profile, s.arb.preference with
  | .outputFirst, _ => o.or i
  | .inputFirst, _ => i.or o
  | .interleaved, .outputs => o.or i
  | .interleaved, .inputs => i.or o

/-- A host client's pending request, with its pass-over count. -/
def Arbiter.hostReq (a : Arbiter) : HostClient → Option HostRequest
  | .accessPort => a.apReq
  | .commandUnit => a.cuReq

/-- A pending host request is promoted, or is not (R160). -/
def Arbiter.hostPending (a : Arbiter) (promoted : Bool) (h : HostClient) : Bool :=
  match a.hostReq h with
  | some r => decide (Config.promoteAt ≤ r.passed) == promoted
  | none => false

/-- The other host client. -/
def HostClient.other : HostClient → HostClient
  | .accessPort => .commandUnit
  | .commandUnit => .accessPort

/-- The host client that the host pointer chooses among the promoted, or among the others (R156, R158). -/
def Arbiter.pickHost (a : Arbiter) (promoted : Bool) : Option Winner :=
  if a.hostPending promoted a.host then some (.host a.host)
  else if a.hostPending promoted a.host.other then some (.host a.host.other)
  else none

/-- The choice of a grant by class: refresh, urgent, promoted host, normal channel engines, host (R156). -/
def State.chooseGrant (s : State) : Option Winner :=
  if s.mc.refreshDue then some .refresh
  else
    s.pickUrgent.or <| (s.arb.pickHost true).or <|
      ((rotate s.arb.normal s.normalPending).map Winner.normal).or (s.arb.pickHost false)

/-- A pending host request is passed over by the grant of a channel engine (R160). -/
def HostRequest.pass (r : HostRequest) : HostRequest := { r with passed := min Config.promoteAt (r.passed + 1) }

/-- Both host requests are passed over (R160). -/
def Arbiter.passOver (a : Arbiter) : Arbiter :=
  { a with apReq := a.apReq.map HostRequest.pass, cuReq := a.cuReq.map HostRequest.pass }

/-- The refresh operation as a request (R145, R146). -/
def refreshRequest : MemRequest where
  client := .refresh
  kind := .refresh
  addr := 0
  count := 0
  words := []
  epoch := 0
  number := 0

/-- The memory controller takes a request into execution (R146). -/
def State.startExec (s : State) (r : MemRequest) : State := { s with mc := { s.mc with exec := some ⟨r, false⟩ } }

/-- The entry of the line at the FIFO head gets write in flight yes (R29, R41). -/
def InputChannel.markInFlight (ch : InputChannel) : InputChannel :=
  match ch.fifo with
  | [] => ch
  | l :: _ => { ch with fill := ch.fill.map fun e => if e.slot = l.slot then { e with writeInFlight := true } else e }

/-- The grant of an input's line write: the request leaves the arbiter and goes into execution. -/
def State.grantInput (s : State) (n : Fin 4) : State :=
  match s.arb.inReq[n] with
  | none => s
  | some r =>
    ({ s with arb := { s.arb with inReq := s.arb.inReq.set n none }.passOver }.modInput n
      InputChannel.markInFlight).startExec r

/-- The grant of an output's line read. -/
def State.grantOutput (s : State) (m : Fin 6) : State :=
  match s.arb.outReq[m] with
  | none => s
  | some r => { s with arb := { s.arb with outReq := s.arb.outReq.set m none }.passOver }.startExec r

/-- The grant of a host client's request; it counts as no pass-over of the other (R160). -/
def State.grantHost (s : State) (h : HostClient) : State :=
  match s.arb.hostReq h with
  | none => s
  | some r =>
    let arb := match h with
      | .accessPort => { s.arb with apReq := none, host := h.other }
      | .commandUnit => { s.arb with cuReq := none, host := h.other }
    { s with arb := arb }.startExec r.request

/-- The grant to a winner, with the pointer of its group moved behind it and the interleave preference set to the other
group after an urgent grant (R156 to R158). A refresh grant moves no pointer. -/
def State.applyGrant (s : State) : Winner → State
  | .refresh => s.startExec refreshRequest
  | .urgentOutput m =>
    { s with arb := { s.arb with urgentOut := m + 1, preference := .inputs } }.grantOutput m
  | .urgentInput n =>
    { s with arb := { s.arb with urgentIn := n + 1, preference := .outputs } }.grantInput n
  | .normal i =>
    let s' : State := { s with arb := { s.arb with normal := i + 1 } }
    match normalClient i with
    | .input n => s'.grantInput n
    | .output m => s'.grantOutput m
    | _ => s
  | .host h => s.grantHost h

/-- A grant moment: while READY with no request in execution the arbiter grants one pending request, if there is one
(R155, R156). -/
def State.grantMoment (s : State) : State :=
  if s.mc.state = .ready && s.mc.exec.isNone then
    match s.chooseGrant with
    | some w => s.applyGrant w
    | none => s
  else s

/-! ### Raising and withdrawal (R41, R95, R97, R122, R127, R132, R153, R154) -/

/-- The line write of the line at the head of INn's FIFO (R2, R41). -/
def State.lineWriteRequest (s : State) (n : Fin 4) (l : FifoLine) : MemRequest where
  client := .input n
  kind := .lineWrite
  addr := s.sm.lineAddr l.slot ((s.sm.slot l.slot).lineLength.getD 0) l.number
  count := l.payload.length
  words := l.payload
  epoch := 0
  number := l.number

/-- The write engine of INn raises its request when its FIFO holds a line and it has none pending or in execution (R41). -/
def State.raiseWrite (s : State) (n : Fin 4) : State :=
  match (s.input n).fifo with
  | [] => s
  | l :: _ =>
    if s.arb.inReq[n].isSome || s.execBy (.input n) then s
    else { s with arb := { s.arb with inReq := s.arb.inReq.set n (some (s.lineWriteRequest n l)) } }.grantMoment

/-- The write engine of INn withdraws its pending request (R41, R154). -/
def State.withdrawWrite (s : State) (n : Fin 4) : State :=
  { s with arb := { s.arb with inReq := s.arb.inReq.set n none } }

/-- A read of OUTm is outstanding: pending or granted and not completed (R95). -/
def State.readOutstanding (s : State) (m : Fin 6) : Bool := s.arb.outReq[m].isSome || s.execBy (.output m)

/-- The line read of line `fetch` of the open frame (R2, R95). -/
def State.lineReadRequest (s : State) (m : Fin 6) (f : OpenFrame) (k : Nat) : MemRequest where
  client := .output m
  kind := .lineRead
  addr := s.sm.lineAddr k f.lineLength (s.output m).fetch
  count := f.lineLength
  words := []
  epoch := (s.output m).epoch
  number := (s.output m).fetch

/-- The condition of R95 for the read engine of OUTm, with the frame and slot it reads. -/
def State.readWanted (s : State) (m : Fin 6) : Option (OpenFrame × Nat) :=
  match (s.output m).frame with
  | none => none
  | some f =>
    match f.slot with
    | none => none
    | some k =>
      if (f.status = .picture || f.status = .repeated) && !s.readOutstanding m && (s.output m).fetch < f.lineCount
          && (s.output m).fifo.length < Config.prefetchPlaces then some (f, k)
      else none

/-- The read engine of OUTm raises a request when R95 permits; the fetch cursor increases by one (R95). -/
def State.raiseRead (s : State) (m : Fin 6) : State :=
  match s.readWanted m with
  | none => s
  | some (f, k) =>
    ({ s with arb := { s.arb with outReq := s.arb.outReq.set m (some (s.lineReadRequest m f k)) } }.modOutput m
      fun o => { o with fetch := o.fetch + 1 }).grantMoment

/-- The read engine of OUTm withdraws its pending request (R97, R154). -/
def State.withdrawRead (s : State) (m : Fin 6) : State :=
  { s with arb := { s.arb with outReq := s.arb.outReq.set m none } }

/-- The access port raises a request, or defers it while its own orphan is in execution (R127, R132, R137). -/
def State.raisePort (s : State) (r : MemRequest) : State :=
  if s.execBy .accessPort then { s with ap := { s.ap with deferred := some r } }
  else { s with arb := { s.arb with apReq := some ⟨r, 0⟩ } }.grantMoment

/-- The clear write of the block that begins at the clear's progress (R122). -/
def State.clearRequest (s : State) (c : ClearProgress) : MemRequest where
  client := .commandUnit
  kind := .clearWrite
  addr := s.sm.slotBase c.slot + c.progress
  count := Config.clearBlock
  words := List.replicate Config.clearBlock c.blank
  epoch := 0
  number := 0

/-- The command unit raises the next clear request (R121, R122). -/
def State.raiseClear (s : State) (c : ClearProgress) : State :=
  { s with arb := { s.arb with cuReq := some ⟨s.clearRequest c, 0⟩ } }.grantMoment

end Sys2Proof.Machine
end

