-- ==== Sys2Proof/Machine/InputOps.lean ====
section
/-! DEFINITION. Operations of the input channels that several commands share (chapters 2 and 3): closing entries, leaving
the fill context, publication and job completion, admission, stop completion. -/

namespace Sys2Proof.Machine

/-! ### Fill context and line FIFO (R29, R34) -/

/-- The entry is CLOSED. -/
def FrameEntry.isClosed (e : FrameEntry) : Bool :=
  match e.status with
  | .opened => false
  | .closed _ => true

/-- The entry is OPEN or CLOSED PUBLISH: it counts against the budget (R52). -/
def FrameEntry.countsForBudget (e : FrameEntry) : Bool := e.status != .closed .discard

/-- The OPEN entry of an input, if there is one. -/
def InputChannel.openEntry (ch : InputChannel) : Option FrameEntry := ch.fill.find? fun e => e.status = .opened

/-- None of the entry's lines remains in the line FIFO: the entry is all written (R29). -/
def InputChannel.allWritten (ch : InputChannel) (e : FrameEntry) : Bool := !ch.fifo.any fun l => l.slot = e.slot

/-- The FIFO without the entry's lines, apart from a line whose write is in flight, which stays at the head (R32). -/
def dropLines (e : FrameEntry) : List FifoLine → List FifoLine
  | [] => []
  | l :: rest =>
    let rest' := rest.filter fun x => x.slot ≠ e.slot
    if l.slot = e.slot && !e.writeInFlight then rest' else l :: rest'

/-- The close of the entry removes the line at the FIFO head (R41). -/
def InputChannel.headDropped (ch : InputChannel) (e : FrameEntry) : Bool :=
  match ch.fifo with
  | [] => false
  | l :: _ => l.slot = e.slot && !e.writeInFlight

/-! ### Stop completion (R45) -/

/-- Stop completion: OFF with STOPPED raised when the fill context is empty, STOPPING otherwise; the loss timer stops and
a pending stop is cleared (R38, R44, R45). -/
def State.stopCompletion (s : State) (n : Fin 4) : State :=
  let s' := s.modInput n fun ch => { ch with
    state := if ch.fill = [] then .off else .stopping, lossTimer := none, stopPending := false }
  if (s.input n).fill = [] then s'.raiseIn n .stopped else s'

/-- The step in which the last entry leaves moves a STOPPING channel to OFF (R42, R45). -/
def State.finishStopping (s : State) (n : Fin 4) : State :=
  if (s.input n).state = .stopping then s.stopCompletion n else s

/-! ### Leaving the fill context (R58 to R64, R70) -/

/-- The entry is CLOSED DISCARD with none of its lines in the FIFO (R58). -/
def InputChannel.discardable (ch : InputChannel) (e : FrameEntry) : Bool :=
  e.status = .closed .discard && ch.allWritten e

/-- DISCARD entries with no line left leave the fill context; their slots join the free-list tail in order (R58). -/
def State.leaveDiscards (s : State) (n : Fin 4) : State :=
  let ch := s.input n
  let gone := ch.fill.filter ch.discardable
  { s with sm := s.sm.toFreeAll (gone.map FrameEntry.slot) }.modInput n fun ch =>
    { ch with fill := ch.fill.filter fun e => !ch.discardable e }

/-- A publication by the input itself of the entry `e`, which leaves `rest` in the fill context (R61, R64), with job
completion when the progress reaches the budget (R46, R70). -/
def State.publishEntry (s : State) (n : Fin 4) (e : FrameEntry) (rest : List FrameEntry) : State :=
  let s1 := s.modInput n fun ch => { ch with fill := rest }
  let s2 := s1.publishSlot n e.slot fun r => { r with short := e.shortMark }
  let s3 := (s2.modInput n fun ch =>
    { ch.count .framesPublished with progress := satAdd ch.progress 1 }).raiseIn n .framePublished
  let ch := s3.input n
  if ch.cfg.budget ≠ 0 && ch.progress.toNat = ch.cfg.budget then (s3.raiseIn n .jobDone).stopCompletion n else s3

/-- PUBLISH entries that are oldest and all written are published, in fill-context order (R59). -/
def State.publishLoop (s : State) (n : Fin 4) : List FrameEntry → State
  | [] => s
  | e :: rest =>
    if e.status = .closed .publish && (s.input n).allWritten e then (s.publishEntry n e rest).publishLoop n rest
    else s

/-- Every entry that may leave leaves: DISCARD entries first, then publications (R42, R58, R59). -/
def State.settle (s : State) (n : Fin 4) : State :=
  let s' := s.leaveDiscards n
  s'.publishLoop n (s'.input n).fill

/-! ### Closing the open entry (R32) -/

/-- The open entry closes with a verdict: the record's line count becomes the lines received, the slot's state CLOSED; for
DISCARD its lines leave the FIFO, and the request for its head line is withdrawn (R32, R41). -/
def State.closeOpen (s : State) (n : Fin 4) (v : Verdict) (short : Bool) : State :=
  match (s.input n).openEntry with
  | none => s
  | some e =>
    let s1 : State := { s with sm := s.sm.modSlot e.slot fun r =>
      { r with state := .closed, lineCount := some e.received } }
    let s2 := s1.modInput n fun ch => { ch with
      fill := ch.fill.map fun x => if x.status = .opened then { x with status := .closed v, shortMark := short } else x
      fifo := if v = .discard then dropLines e ch.fifo else ch.fifo }
    if v = .discard && (s.input n).headDropped e then s2.withdrawWrite n else s2

/-- The open entry closes, entries that may leave do so, and the engine raises its next request (R32, R41, R58, R59). -/
def State.closeFrame (s : State) (n : Fin 4) (v : Verdict) (short : Bool) : State :=
  ((s.closeOpen n v short).settle n).raiseWrite n

/-- FRAME_BROKEN is raised and FRAMES_BROKEN counted (R32). -/
def State.broken (s : State) (n : Fin 4) : State := (s.countIn n .framesBroken).raiseIn n .frameBroken

/-- The input enters a state, or goes to stop completion when `stop` holds (R33, R36, R39, R44). -/
def State.enterOrStop (s : State) (n : Fin 4) (stop : Bool) : State := if stop then s.stopCompletion n else s

/-- A reception that ends the open frame with verdict `v`: the channel enters state `st`, the entry closes, and a pending
stop completes (R33, R36, R39, R44). -/
def State.endFrame (s : State) (n : Fin 4) (st : InState) (v : Verdict) (short : Bool) : State :=
  let s' := (s.modInput n fun ch => { ch with state := st }).closeFrame n v short
  s'.enterOrStop n (s.input n).stopPending

/-! ### Admission (R51 to R56) -/

/-- The budget check fails (R52). -/
def InputChannel.budgetFull (ch : InputChannel) : Bool :=
  ch.cfg.budget ≠ 0 && ch.cfg.budget ≤ ch.progress.toNat + ch.fill.countP FrameEntry.countsForBudget

/-- The backlog check fails: two CLOSED entries (R53). -/
def InputChannel.backlogged (ch : InputChannel) : Bool := 2 ≤ ch.fill.countP FrameEntry.isClosed

/-- The new OPEN entry of an admitted frame (R30). -/
def newEntry (k expected : Nat) : FrameEntry where
  slot := k
  status := .opened
  received := 0
  expected := expected
  shortMark := false
  writeInFlight := false

/-- The frame is admitted with slot `k`: the record is initialised for allocation and the entry appended (R30, R54). -/
def State.allocate (s : State) (n : Fin 4) (tag : Option Word) (k : Nat) : State :=
  { s with sm := s.sm.modSlot k fun r => r.allocated n (s.input n).cfg.lineLength tag }.modInput n fun ch =>
    { ch with fill := ch.fill ++ [newEntry k ch.cfg.linesPerFrame], state := .filling }

/-- The frame is refused: the channel skips it (R30). -/
def State.skip (s : State) (n : Fin 4) (c : InCounter) : State :=
  (s.countIn n c).modInput n fun ch => { ch with state := .skipping }

/-- The reclaim of an entry of the input's own ready list (R55). -/
def State.reclaim (s : State) (n : Fin 4) (k : Nat) : State :=
  let s1 := { s with sm := s.sm.setReady n ((s.sm.readyOf n).erase k) }.countIn n .reclaimed
  if (s.sm.slot k).viewed then s1 else s1.countIn n .evictedUnviewed

/-- The admission claim: budget, backlog, then slot (R51 to R56). -/
def State.admitFrame (s : State) (n : Fin 4) (tag : Option Word) : State :=
  if (s.input n).budgetFull then s.skip n .skippedBudget
  else if (s.input n).backlogged then (s.skip n .skippedBacklog).raiseIn n .backlog
  else
    match s.sm.free with
    | k :: rest => { s with sm := { s.sm with free := rest } }.allocate n tag k
    | [] =>
      match s.sm.reclaimable n with
      | some k => (s.reclaim n k).allocate n tag k
      | none => (s.skip n .skippedNoSlot).raiseIn n .noSlot

/-- The loss timer starts from zero when the loss timeout is not 0 (R30, R38). -/
def InputChannel.restartLossTimer (ch : InputChannel) (now : Word) : InputChannel :=
  if ch.cfg.lossTimeout = 0 then ch else { ch with lossTimer := some now }

/-- LOST, if set, is cleared and SIGNAL_FOUND raised (R30, R40). -/
def State.signalFound (s : State) (n : Fin 4) : State :=
  if (s.input n).lost then (s.modInput n fun ch => { ch with lost := false }).raiseIn n .signalFound else s

/-- A FRAME START taken as the start of a new frame (R30). -/
def State.takeFrameStart (s : State) (n : Fin 4) (tag : Option Word) : State :=
  ((s.modInput n fun ch => ch.restartLossTimer s.timeBase).signalFound n).admitFrame n tag

/-- A stray message (R35). -/
def State.stray (s : State) (n : Fin 4) : State := (s.countIn n .stray).raiseIn n .stray

/-! ### Writes of INn_CTRL (R26, R27, R43, R44) -/

/-- Why an enable is refused, if it is (R27). -/
def State.enableRefusal (s : State) (n : Fin 4) : EnableRefusal :=
  if !s.sm.built then .noPool
  else if s.sm.stride.toNat < (s.input n).cfg.lineLength * (s.input n).cfg.linesPerFrame then .geometry
  else .none

/-- An enable attempt on an OFF channel (R27). -/
def State.tryEnable (s : State) (n : Fin 4) : State :=
  match s.enableRefusal n with
  | .none => s.modInput n fun ch => { ch with
      refusal := .none, progress := 0, state := .armed
      lossTimer := if ch.cfg.lossTimeout ≠ 0 && !ch.lost then some s.timeBase else none }
  | r => (s.modInput n fun ch => { ch with refusal := r }).raiseIn n .enableRefused

/-- An immediate stop in ARMED, FILLING or SKIPPING (R43). -/
def State.stopNow (s : State) (n : Fin 4) : State :=
  let s' := if (s.input n).state = .filling then (s.countIn n .discardedByStop).closeFrame n .discard false else s
  s'.stopCompletion n

/-- A stop at frame end in ARMED, FILLING or SKIPPING (R44). -/
def State.stopAtEnd (s : State) (n : Fin 4) : State :=
  if (s.input n).state = .filling then s.modInput n fun ch => { ch with stopPending := true }
  else s.stopCompletion n

/-- ENABLE written 0 by a write whose STOP_MODE is `mode` (R26). -/
def State.writeDisable (s : State) (n : Fin 4) (mode : StopMode) : State :=
  match (s.input n).state with
  | .armed | .filling | .skipping =>
    if (s.input n).stopPending then s
    else
      match mode with
      | .immediate => s.stopNow n
      | .atFrameEnd => s.stopAtEnd n
  | .off | .stopping | .resetting => s

/-- ENABLE written 1 (R26). -/
def State.writeEnable (s : State) (n : Fin 4) : State :=
  match (s.input n).state with
  | .off => s.tryEnable n
  | .armed | .filling | .skipping => if (s.input n).stopPending then s.configIgnored else s
  | .stopping => s.configIgnored
  | .resetting => s

/-- A write of INn_CTRL with both its fields: STOP_MODE is stored except in RESETTING, and it governs a stop that the same
write begins (R26). -/
def State.writeInCtrl (s : State) (n : Fin 4) (enable : Bool) (mode : StopMode) : State :=
  if (s.input n).state = .resetting then s.configIgnored
  else
    let s' := s.modInput n fun ch => { ch with stopMode := mode }
    if enable then s'.writeEnable n else s'.writeDisable n mode

/-! ### Configuration writes (R12, R25) -/

/-- The oldest entries in excess of a quota (R12). -/
def SlotManager.excess (sm : SlotManager) (n : Fin 4) (quota : Nat) : List Nat :=
  (sm.readyOf n).take ((sm.readyOf n).length - quota)

/-- The counters of an input after `k` evictions of entries that no output had shown (R12). -/
def InputChannel.countEvicted (ch : InputChannel) (k : Nat) : InputChannel :=
  let i := inCounterIdx .evictedUnviewed
  { ch with counters := ch.counters.set i (satAdd ch.counters[i] k) }

/-- The quota trim: the entries in excess are retired oldest first, and counted when VIEWED was clear (R12). -/
def State.trimReady (s : State) (n : Fin 4) (quota : Nat) : State :=
  let gone := s.sm.excess n quota
  { s with sm := (s.sm.setReady n ((s.sm.readyOf n).drop gone.length)).retireAll gone }.modInput n fun ch =>
    ch.countEvicted (gone.countP fun k => !(s.sm.slot k).viewed)

/-- A write of INn_GEOM, INn_CFG, INn_BUDGET or INn_LOSS (R25), with the quota trim of R12. -/
def State.writeInConfig (s : State) (n : Fin 4) (reg : InConfigReg) (w : Word) : State :=
  if (s.input n).state = .off then
    match inConfigWrite (s.input n).cfg reg w with
    | none => s.configIgnored
    | some cfg =>
      let s' := s.modInput n fun ch => { ch with cfg := cfg }
      if reg = .cfg then s'.trimReady n cfg.quota else s'
  else s.configIgnored

/-! ### Channel reset (R47) -/


/-- The slot manager's part of a channel reset: the ready list retired oldest first, the counter set to 0 (R23). -/
def SlotManager.resetInput (sm : SlotManager) (n : Fin 4) : SlotManager :=
  ((sm.setReady n []).retireAll (sm.readyOf n)).setSeq n 0

/-- The open entry's slot record closes with the lines received, when the channel reset discards it (R32, R47). -/
def SlotManager.closeRecords (sm : SlotManager) : List FrameEntry → SlotManager
  | [] => sm
  | e :: rest =>
    if e.status = .opened then
      (sm.modSlot e.slot fun r => { r with state := .closed, lineCount := some e.received }).closeRecords rest
    else sm.closeRecords rest

/-- The channel's own fields after a channel reset: settings kept; entries discarded and still present only while a write
is in flight (R47). -/
def InputChannel.afterReset (ch : InputChannel) (writing : Bool) : InputChannel :=
  { InputChannel.reset with
    cfg := ch.cfg
    state := if writing then .resetting else .off
    fill := if writing then ch.fill.map fun e => { e with status := .closed .discard } else []
    fifo := if writing then ch.fifo.take 1 else [] }

/-- A channel reset of INn (R47). -/
def State.resetInput (s : State) (n : Fin 4) : State :=
  let ch := s.input n
  let eu := s.eu.clearReg (.input n)
  if ch.state = .resetting then
    { s with eu := eu }.setInput n { ch with counters := Vector.replicate 11 0 }
  else
    let writing := s.inFlight (.input n)
    let sm1 := (s.sm.resetInput n).closeRecords ch.fill
    let sm2 := if writing then sm1 else sm1.toFreeAll (ch.fill.map FrameEntry.slot)
    ({ s with sm := sm2, eu := eu }.withdrawWrite n).setInput n (ch.afterReset writing)

/-- The completion of the write in flight of a RESETTING channel (R48). -/
def State.finishReset (s : State) (n : Fin 4) : State :=
  { s with sm := s.sm.toFreeAll ((s.input n).fill.map FrameEntry.slot) }.modInput n fun ch =>
    { ch with fifo := [], fill := [], state := .off }

/-- The written line leaves the head of the FIFO and its entry's write in flight becomes no (R42). -/
def InputChannel.lineWritten (ch : InputChannel) : InputChannel :=
  match ch.fifo with
  | [] => ch
  | l :: rest => { ch with
      fifo := rest
      fill := ch.fill.map fun e => if e.slot = l.slot then { e with writeInFlight := false } else e }

end Sys2Proof.Machine
end

