-- ==== Sys2Proof/Machine/OutputOps.lean ====
section
/-! DEFINITION. Operations of the output channels that several commands share (chapters 4 and 5): release, close, the
selection with its policies and binding, answers, line pulls, and writes of OUTn_CTRL. -/

namespace Sys2Proof.Machine

/-! ### Release and close (R19, R77, R107) -/

/-- OUTm releases its retained slot, if present (R19). -/
def State.release (s : State) (m : Fin 6) : State :=
  match (s.output m).retained with
  | none => s
  | some k => { s with sm := s.sm.leave m k }.modOutput m fun o => { o with retained := none }

/-- The close of the open frame: INCOMPLETE check, FIFO and repeat buffer emptied, pending request withdrawn, epoch
increased, open frame record ended (R107). -/
def State.closeOutput (s : State) (m : Fin 6) : State :=
  match (s.output m).frame with
  | none => s
  | some f =>
    let s1 := if f.impaired then (s.countOut m .incompleteFrames).raiseOut m .incomplete else s
    (s1.modOutput m fun o => { o with fifo := [], repeatBuf := none, epoch := o.epoch + 1, frame := none }).withdrawRead m

/-- Entry into OFF by a disable (R76, R77, R109). -/
def State.enterDisabled (s : State) (m : Fin 6) : State :=
  (s.modOutput m fun o => { o with state := .off }).raiseOut m .disabled

/-- The close of a frame in DISABLING: close, release, and OFF with DISABLED unless a granted read is outstanding
(R77, R109). -/
def State.closeDisabling (s : State) (m : Fin 6) : State :=
  let s' := (s.closeOutput m).release m
  if s'.inFlight (.output m) then s' else s'.enterDisabled m

/-- A protocol error: PROTOCOL is counted and raised (R77, R79, R105, R108). -/
def State.protocolError (s : State) (m : Fin 6) : State := (s.countOut m .protocol).raiseOut m .protocol

/-! ### Answers (R73, R88) -/

/-- The answer BLANK or OFFLINE, with the blank geometry (R73). -/
def blankAnswer (cfg : OutConfig) (status : AnswerStatus) (lost : Bool) : OpenAnswer where
  status := status
  source := cfg.source
  sequence := none
  tag := none
  lineLength := cfg.blankLength
  lineCount := cfg.blankCount
  timestamp := none
  short := false
  delayShort := false
  sourceLost := lost

/-- The answer PICTURE or REPEAT, with the shown slot's descriptor (R73). -/
def shownAnswer (cfg : OutConfig) (r : SlotRecord) (status : AnswerStatus) (delayShort lost : Bool) : OpenAnswer where
  status := status
  source := cfg.source
  sequence := r.sequence
  tag := r.tag
  lineLength := r.lineLength.getD 0
  lineCount := r.lineCount.getD 0
  timestamp := r.timestamp
  short := r.short
  delayShort := delayShort
  sourceLost := lost

/-- The open frame record of an answer, with the settings copied at the open and every mark clear (R75, R88, R92). -/
def openRecord (cfg : OutConfig) (a : OpenAnswer) (slot : Option Nat) : OpenFrame where
  status := a.status
  slot := slot
  lineLength := a.lineLength
  lineCount := a.lineCount
  fillKind := cfg.fillKind
  blankWord := cfg.blankWord
  watermark := cfg.watermark
  impaired := false
  firstUnderrun := false
  firstOverpull := false

/-- The output answers OFFLINE (R73, R77, R79). -/
def State.answerOffline (s : State) (m : Fin 6) : State :=
  s.modOutput m fun o => { o with answer := some (blankAnswer o.cfg .offline false) }

/-- The answer BLANK of a selection: counted, SHOWING, both cursors 0; no line is fetched (R80, R86, R88). -/
def State.openBlank (s : State) (m : Fin 6) (lost : Bool) : State :=
  s.modOutput m fun o =>
    let a := blankAnswer o.cfg .blank lost
    { o.countBy .framesBlank 1 with
      answer := some a, frame := some (openRecord o.cfg a none), state := .showing, pull := 0, fetch := 0 }

/-- The answer PICTURE or REPEAT of a selection showing slot Sk: SHOWING, both cursors 0, epoch increased, and the read
engine begins to fetch (R88, R93). -/
def State.openShown (s : State) (m : Fin 6) (k : Nat) (status : AnswerStatus) (delayShort lost : Bool) : State :=
  (s.modOutput m fun o =>
    let a := shownAnswer o.cfg (s.sm.slot k) status delayShort lost
    { o with
      answer := some a, frame := some (openRecord o.cfg a (some k)), state := .showing, pull := 0, fetch := 0,
      epoch := o.epoch + 1 }).raiseRead m

/-! ### Selection (R80 to R87) -/

/-- The loss-reported flag after a selection that reads the source's LOST flag: kept only under the same source while it is
lost (R81). -/
def keepLossReport (reported : Option (Fin 4)) (src : Fin 4) (lost : Bool) : Option (Fin 4) :=
  if lost && reported = some src then reported else none

/-- The last shown sequence after the source-change and sequence-restart tests (R82). -/
def keepLast (last : Option LastShown) (src : Fin 4) (next : Word) : Option LastShown :=
  match last with
  | none => none
  | some l => if l.source = src && seqAfter next l.sequence then some l else none

/-- The choice of a policy from a ready list, with the DELAY_SHORT mark (R83, R85). -/
def choosePolicy (sm : SlotManager) (list : List Nat) (policy : Policy) (d : Nat) (last : Option LastShown) :
    Option (Nat × Bool) :=
  match policy with
  | .latest => list.getLast?.map fun k => (k, false)
  | .sequential =>
    match last with
    | none => list.head?.map fun k => (k, false)
    | some l => (list.find? fun k => seqAfter ((sm.slot k).sequence.getD 0) l.sequence).map fun k => (k, false)
  | .delay =>
    if d < list.length then list[list.length - 1 - d]?.map fun k => (k, false)
    else list.head?.map fun k => (k, true)

/-- Frames passed over between L and the chosen sequence (R87). -/
def dropGap (last : Option LastShown) (seq : Word) : Nat :=
  match last with
  | none => 0
  | some l => if seqAfter seq (l.sequence + 1) then (seq - l.sequence - 1).toNat else 0

/-- The status of a binding: REPEAT when the chosen slot is retained with sequence L (R87). -/
def bindStatus (retained : Option Nat) (last : Option LastShown) (k : Nat) (seq : Word) : AnswerStatus :=
  if retained = some k && last.map LastShown.sequence = some seq then .repeated else .picture

/-- The counter of a PICTURE or REPEAT answer of the policy step (R86, R87). -/
def shownCounter (status : AnswerStatus) : OutCounter := if status = .repeated then .framesRepeated else .framesNew

/-- The reader sets at a binding: the output joins the chosen slot and leaves the retained one, unless they are the same
(R17 to R19, R87). -/
def SlotManager.rebind (sm : SlotManager) (m : Fin 6) (retained : Option Nat) (k : Nat) : SlotManager :=
  if retained = some k then sm
  else
    match retained with
    | none => sm.join m k
    | some r => (sm.join m k).leave m r

/-- Binding of the chosen slot, with the drop count, L and the answer's count (R87). -/
def State.bind (s : State) (m : Fin 6) (k : Nat) (delayShort lost : Bool) : State :=
  let o := s.output m
  let seq := (s.sm.slot k).sequence.getD 0
  let status := bindStatus o.retained o.last k seq
  let s' := { s with sm := s.sm.rebind m o.retained k }.modOutput m fun o =>
    { (o.countBy .framesDropped (dropGap o.last seq)).countBy (shownCounter status) 1 with
      retained := some k, last := some ⟨seq, o.cfg.source⟩ }
  s'.openShown m k status delayShort lost

/-- The fallback when the policy finds no entry (R86). -/
def State.fallback (s : State) (m : Fin 6) (lost : Bool) : State :=
  match (s.output m).retained with
  | some k => (s.countOut m .framesRepeated).openShown m k .repeated false lost
  | none => s.openBlank m lost

/-- Step 4 of a selection: the tests on L, the policy, binding or fallback (R80, R82, R83, R85 to R87). -/
def State.policyStep (s : State) (m : Fin 6) (lost : Bool) : State :=
  let src := (s.output m).cfg.source
  let s1 := s.modOutput m fun o => { o with last := keepLast o.last src (s.sm.seqOf src) }
  let o := s1.output m
  match choosePolicy s1.sm (s1.sm.readyOf src) o.cfg.policy o.cfg.delay o.last with
  | some (k, short) => s1.bind m k short lost
  | none => s1.fallback m lost

/-- Steps 3 and 4 of a selection: FREEZE with a retained slot, else the policy (R80, R84). -/
def State.freezeStep (s : State) (m : Fin 6) (lost : Bool) : State :=
  match (s.output m).cfg.freeze, (s.output m).retained with
  | true, some k => (s.countOut m .framesFrozen).openShown m k .picture false lost
  | _, _ => s.policyStep m lost

/-- SOURCE_LOST is raised and the loss-reported flag set, once per loss episode (R81). -/
def State.reportLoss (s : State) (m : Fin 6) : State :=
  if (s.output m).lossReported.isSome then s
  else (s.modOutput m fun o => { o with lossReported := some o.cfg.source }).raiseOut m .sourceLost

/-- Steps 2 to 4 of a selection (R80, R81). -/
def State.lossStep (s : State) (m : Fin 6) (lost : Bool) : State :=
  let s1 := s.modOutput m fun o => { o with lossReported := keepLossReport o.lossReported o.cfg.source lost }
  if lost && (s.output m).cfg.lossAction = .blank then ((s1.reportLoss m).release m).openBlank m lost
  else s1.freezeStep m lost

/-- A selection, with the answer that it gives (R80). -/
def State.select (s : State) (m : Fin 6) : State :=
  let lost := (s.input (s.output m).cfg.source).lost
  if (s.output m).cfg.mute then (s.release m).openBlank m lost else s.lossStep m lost

/-! ### Line pulls (R99 to R105) -/

/-- The LINE sent to the sink (R72). -/
def OutputChannel.send (o : OutputChannel) (number : Nat) (kind : LineKind) (payload : List Word) : OutputChannel :=
  { o with line := some ⟨number, kind, payload⟩ }

/-- The pull cursor increases by one up to its saturation value (R92). -/
def pullNext (k : Nat) : Nat := min 65535 (k + 1)

/-- Blank fill of a frame: the record's line length of its blank word (R101). -/
def OpenFrame.blankLine (f : OpenFrame) : List Word := List.replicate f.lineLength f.blankWord

/-- Fill for line k within an open frame (R101). -/
def OutputChannel.sendFill (o : OutputChannel) (f : OpenFrame) (k : Nat) : OutputChannel :=
  match f.fillKind, o.repeatBuf with
  | .repeated, some p => o.send k .fillRepeat p
  | _, _ => o.send k .fillBlank f.blankLine

/-- Both cursors after a pull of line k below the line count (R100). -/
def OutputChannel.advance (o : OutputChannel) (k : Nat) : OutputChannel :=
  { o with pull := pullNext k, fetch := max o.fetch (k + 1) }

/-- A pull answered with DATA: the line leaves the FIFO and enters the repeat buffer (R100, R101). -/
def OutputChannel.pullData (o : OutputChannel) (k : Nat) (l : PrefetchLine) : OutputChannel :=
  { (o.send k .data l.payload).advance k with fifo := o.fifo.tail, repeatBuf := some l.payload }

/-- A pull of a POISONED line: fill is sent, the line leaves the FIFO, the frame is impaired (R100, R102). -/
def OutputChannel.pullPoisoned (o : OutputChannel) (f : OpenFrame) (k : Nat) : OutputChannel :=
  { ((o.sendFill f k).advance k).countBy .poisonedLines 1 with
    fifo := o.fifo.tail, frame := some { f with impaired := true } }

/-- A pull of a missing line: fill is sent, the frame is impaired, the first-underrun mark set (R100, R102). -/
def OutputChannel.pullMissing (o : OutputChannel) (f : OpenFrame) (k : Nat) : OutputChannel :=
  { ((o.sendFill f k).advance k).countBy .fillLines 1 with
    frame := some { f with impaired := true, firstUnderrun := true } }

/-- The pending read of OUTm asks for a line below the pull cursor (R97). -/
def State.readObsolete (s : State) (m : Fin 6) : Bool :=
  match s.arb.outReq[m] with
  | some r => r.number < (s.output m).pull
  | none => false

/-- A pending read made obsolete by a pull is withdrawn, and the engine raises a request when R95 permits (R97, R100). -/
def State.refetch (s : State) (m : Fin 6) : State :=
  (if s.readObsolete m then s.withdrawRead m else s).raiseRead m

/-- A pull in a PICTURE or REPEAT frame with the pull cursor below the line count (R100). -/
def State.pullLine (s : State) (m : Fin 6) (f : OpenFrame) : State :=
  let o := s.output m
  let k := o.pull
  let s' :=
    match o.fifo with
    | l :: _ =>
      if l.number = k then
        if l.poisoned then (s.setOutput m (o.pullPoisoned f k)).raiseOut m .poison
        else s.setOutput m (o.pullData k l)
      else
        let s1 := s.setOutput m (o.pullMissing f k)
        if f.firstUnderrun then s1 else s1.raiseOut m .underrun
    | [] =>
      let s1 := s.setOutput m (o.pullMissing f k)
      if f.firstUnderrun then s1 else s1.raiseOut m .underrun
  s'.refetch m

/-- An overpull: blank fill, OVERPULLS counted, OVERPULL raised once per frame (R103, R104). -/
def State.overpull (s : State) (m : Fin 6) (f : OpenFrame) : State :=
  let o := s.output m
  let s' := s.setOutput m { (o.send o.pull .fillBlank f.blankLine).countBy .overpulls 1 with
    pull := pullNext o.pull, frame := some { f with firstOverpull := true } }
  if f.firstOverpull then s' else s'.raiseOut m .overpull

/-- A pull within a BLANK frame, below its line count: nothing is counted (R104). -/
def State.pullBlank (s : State) (m : Fin 6) (f : OpenFrame) : State :=
  let o := s.output m
  s.setOutput m { o.send o.pull .fillBlank f.blankLine with pull := pullNext o.pull }

/-- A pull while no frame is open: a blank line of the settings, numbered 0; a protocol error in IDLE (R105). -/
def State.pullClosed (s : State) (m : Fin 6) : State :=
  let o := s.output m
  let s' := s.setOutput m (o.send 0 .fillBlank (List.replicate o.cfg.blankLength o.cfg.blankWord))
  if o.state = .idle then s'.protocolError m else s'

/-! ### Writes of OUTn_CTRL and the settings (R74, R76) -/

/-- A disable taken in IDLE (R76). -/
def State.disableIdle (s : State) (m : Fin 6) : State :=
  ((s.release m).modOutput m fun o =>
    { o with fifo := [], repeatBuf := none, epoch := o.epoch + 1 }).enterDisabled m

/-- The effect of ENABLE in a taken write of OUTn_CTRL (R76). -/
def State.writeOutEnable (s : State) (m : Fin 6) (enable : Bool) : State :=
  match (s.output m).state, enable with
  | .off, true => s.modOutput m fun o => { o with state := .idle, last := none, lossReported := none }
  | .idle, false => s.disableIdle m
  | .showing, false => s.modOutput m fun o => { o with state := .disabling }
  | _, _ => s

/-- A write of a settings register; `enable` is the ENABLE bit of a write of OUTn_CTRL (R74, R76). -/
def State.writeOutConfig (s : State) (m : Fin 6) (reg : OutConfigReg) (enable : Bool) (w : Word) : State :=
  if reg = .ctrl && enable && (s.output m).state = .disabling then s.configIgnored
  else
    match outConfigWrite (s.output m).cfg reg w with
    | none => s.configIgnored
    | some cfg =>
      let s' := s.modOutput m fun o => { o with cfg := cfg }
      if reg = .ctrl then s'.writeOutEnable m enable else s'

/-! ### Channel reset (R90) -/

/-- A channel reset of OUTm (R90, R92): settings kept, slot released, frame ended without the close. -/
def State.resetOutput (s : State) (m : Fin 6) : State :=
  let s' := ({ s.release m with eu := s.eu.clearReg (.output m) }).withdrawRead m
  s'.modOutput m fun o => { o with
    state := .off, frame := none, fifo := [], repeatBuf := none, epoch := o.epoch + 1, last := none,
    lossReported := none, counters := Vector.replicate 10 0 }

end Sys2Proof.Machine
end

