-- ==== Sys2Proof/Machine/Completions.lean ====
section
/-! DEFINITION. Completions of the request in execution (R146, R147), one command per kind, and the orphan's (R151). -/

namespace Sys2Proof.Machine

/-- Every word of the request lies in the frame store (R146). -/
def MemRequest.inStore (r : MemRequest) : Bool := r.addr + r.count ≤ Config.storeWords && r.words.length ≤ r.count

/-- The controller becomes free (R147). -/
def State.endExec (s : State) : State := { s with mc := { s.mc with exec := none } }

/-- Stage 1 of a MEMORY INIT that waited for the request in execution begins (R141). -/
def State.startWaitingStage (s : State) : State :=
  if s.mc.state = .initializing && s.mc.stage = 0 then
    { s with mc := { s.mc with stage := 1, stageStart := s.timeBase } }
  else s

/-- The memory effect of an executed write (R146). -/
def State.storeWords (s : State) (r : MemRequest) : State := { s with store := s.store.write r.addr r.words }

/-- What follows every delivery: a waiting stage 1 begins, and the completion is a grant moment (R141, R155). The client
has raised its next request before, so it is weighed (assumption 10). -/
def State.afterDelivery (s : State) : State := s.startWaitingStage.grantMoment

/-- A completion of the given kind, delivered to the request's client by `deliver`. -/
def completing (kind : RequestKind) (s : State) (deliver : State → MemRequest → State) : Result :=
  match s.mc.exec with
  | none => .refused .noSuchCompletion
  | some e =>
    if e.orphan || e.request.kind ≠ kind then .refused .noSuchCompletion
    else if e.request.inStore then .next (deliver s.endExec e.request).afterDelivery
    else .fault .outsideStore

/-- Delivery of a line write to its input (R42, R48). -/
def State.inputWriteDone (s : State) (n : Fin 4) : State :=
  if (s.input n).state = .resetting then s.finishReset n
  else (((s.modInput n InputChannel.lineWritten).settle n).finishStopping n).raiseWrite n

/-- A line write ends: its words are stored and the input is told. -/
def State.lineWriteDone (s : State) (r : MemRequest) : State :=
  match r.client with
  | .input n => (s.storeWords r).inputWriteDone n
  | _ => s.storeWords r

/-- LINE_WRITE_COMPLETION (R42, R48). -/
def execLineWriteCompletion (s : State) : Result := completing .lineWrite s State.lineWriteDone

/-- A read line enters the prefetch FIFO; a POISONED one is reported to the slot manager (R20, R98). -/
def State.enterLine (s : State) (m : Fin 6) (r : MemRequest) (ws : List WordRead) : State :=
  let bad := anyPoisoned ws
  let s' := s.modOutput m fun o =>
    { o with fifo := o.fifo ++ [⟨r.number, bad, r.epoch, ws.map WordRead.word⟩] }
  match bad, (s.output m).frame.bind OpenFrame.slot with
  | true, some k => { s' with sm := s'.sm.modSlot k fun x => { x with poison := satAddPoison x.poison } }
  | _, _ => s'

/-- A completed read is judged by epoch and line number (R98). -/
def State.judgeLine (s : State) (m : Fin 6) (r : MemRequest) (ws : List WordRead) : State :=
  if r.epoch ≠ (s.output m).epoch then s
  else if r.number < (s.output m).pull then s
  else s.enterLine m r ws

/-- The completion ends a disable handshake that waited for it (R77, R109). -/
def State.endHandshake (s : State) (m : Fin 6) : State :=
  if (s.output m).state = .disabling && (s.output m).frame.isNone then s.enterDisabled m else s

/-- A line read ends: ECC counts, judgement, handshake, next request (R98, R148). -/
def State.lineReadDone (s : State) (r : MemRequest) : State :=
  let ws := s.store.readWords r.addr r.count
  match r.client with
  | .output m => (((s.countEcc ws).judgeLine m r ws).endHandshake m).raiseRead m
  | _ => s.countEcc ws

/-- LINE_READ_COMPLETION (R98). -/
def execLineReadCompletion (s : State) : Result := completing .lineRead s State.lineReadDone

/-- A word of the read buffer from a delivered word (R129). -/
def readWordOf (w : WordRead) : ReadWord := ⟨w.word, w.finding = .uncorrectable⟩

/-- A block read ends: ECC counts, the read buffer fills, ACCESS_DONE, and ACCESS_POISON if a word is poisoned
(R129, R148). -/
def State.blockReadDone (s : State) (r : MemRequest) : State :=
  let ws := s.store.readWords r.addr r.count
  let s1 := s.countEcc ws
  let s2 := { s1 with ap := { s1.ap with readBuf := ws.map readWordOf, state := .readReady } }.raiseGlobal .accessDone
  if anyPoisoned ws then s2.raiseGlobal .accessPoison else s2

/-- BLOCK_READ_COMPLETION (R129). -/
def execBlockReadCompletion (s : State) : Result := completing .blockRead s State.blockReadDone

/-- Write pending is cleared on the slots listed (R21). -/
def SlotManager.clearPending (sm : SlotManager) : List Nat → SlotManager
  | [] => sm
  | k :: ks => (sm.modSlot k fun r => { r with writePending := false }).clearPending ks

/-- Write pending is set on the slots listed (R21). -/
def SlotManager.setPending (sm : SlotManager) : List Nat → SlotManager
  | [] => sm
  | k :: ks => (sm.modSlot k fun r => { r with writePending := true }).setPending ks

/-- A block write ends: its words are stored, write pending is cleared on the slots of the flush record, ACC_ADDR advances,
the buffer empties, the port enters IDLE, ACCESS_DONE (R133). -/
def State.blockWriteDone (s : State) (r : MemRequest) : State :=
  let s1 := s.storeWords r
  match s.ap.flushRecord with
  | none => s1
  | some fr =>
    { s1 with
      sm := s1.sm.clearPending fr.slots
      ap := { s1.ap with
        addr := s1.ap.addr + BitVec.ofNat 32 fr.count, writeBuf := [], flushRecord := none, state := .idle }
    }.raiseGlobal .accessDone

/-- BLOCK_WRITE_COMPLETION (R133). -/
def execBlockWriteCompletion (s : State) : Result := completing .blockWrite s State.blockWriteDone

/-- The event of a completed command: CMD_DONE for OK, CMD_ERROR for any other result (R112). -/
def resultEvent : ResultCode → GlobalEvent
  | .ok => .cmdDone
  | _ => .cmdError

/-- A command completes: its result is recorded and CMD_DONE or CMD_ERROR raised; the unit is IDLE (R112). -/
def State.completeCommand (s : State) (code : BitVec 8) (result : ResultCode) (value : Word) : State :=
  { s with cu := { s.cu with running := none, lastCode := code, result := result, value := value }
  }.raiseGlobal (resultEvent result)

/-- The end of a clear's block: the next block, or the end of the command (R122). -/
def State.clearAdvance (s : State) (rc : RunningCommand) (c : ClearProgress) : State :=
  let c' := { c with progress := c.progress + Config.clearBlock }
  if c'.progress < s.sm.stride.toNat then
    { s with cu := { s.cu with running := some { rc with clear := some c' } } }.raiseClear c'
  else
    { s with sm := s.sm.clearPending [c.slot] }.completeCommand rc.code .ok (BitVec.ofNat 32 c.slot)

/-- A clear write ends: its words are stored and the clear advances (R122). -/
def State.clearWriteDone (s : State) (r : MemRequest) : State :=
  let s1 := s.storeWords r
  match s.cu.running with
  | none => s1
  | some rc =>
    match rc.clear with
    | none => s1
    | some c => s1.clearAdvance rc c

/-- CLEAR_WRITE_COMPLETION (R122). -/
def execClearWriteCompletion (s : State) : Result := completing .clearWrite s State.clearWriteDone

/-- A refresh ends: refresh-due is cleared (R145). -/
def State.refreshDone (s : State) : State := { s with mc := { s.mc with refreshDue := false } }

/-- REFRESH_COMPLETION (R145). A refresh that a full soft reset found in execution completes in the same way
(assumption 14). -/
def execRefreshCompletion (s : State) : Result :=
  match s.mc.exec with
  | none => .refused .noSuchCompletion
  | some e =>
    if e.request.kind = .refresh then .next s.endExec.refreshDone.afterDelivery else .refused .noSuchCompletion

/-- The deferred port request is raised (R137). -/
def State.raiseDeferred (s : State) : State :=
  match s.ap.deferred with
  | none => s
  | some r => { s with ap := { s.ap with deferred := none } }.raisePort r

/-- The read engine whose own read was left in execution may raise its next request (R95, R153; assumption 12). -/
def State.retestReader (s : State) (c : Client) : State :=
  match c with
  | .output m => s.raiseRead m
  | _ => s

/-- The memory effect of an orphan: a write stores its words, a read makes its ECC counts, a refresh clears refresh-due
(R145, R148, R151). -/
def State.orphanEffect (s : State) (r : MemRequest) : State :=
  match r.kind with
  | .lineWrite | .blockWrite | .clearWrite => s.storeWords r
  | .lineRead | .blockRead => s.countEcc (s.store.readWords r.addr r.count)
  | .refresh => s.refreshDone

/-- ORPHAN_COMPLETION (R137, R141, R151, R155): delivered to no client. -/
def execOrphanCompletion (s : State) : Result :=
  match s.mc.exec with
  | none => .refused .noSuchCompletion
  | some e =>
    if !e.orphan then .refused .noSuchCompletion
    else if e.request.inStore then
      .next (((s.endExec.orphanEffect e.request).raiseDeferred).retestReader e.request.client).afterDelivery
    else .fault .outsideStore

end Sys2Proof.Machine
end

