-- ==== Sys2Proof/Machine/AccessPort.lean ====
section
/-! DEFINITION. The frame store access port (chapter 7). -/

namespace Sys2Proof.Machine

/-- The port error becomes the given one (R126). -/
def State.portError (s : State) (e : PortError) : State := { s with ap := { s.ap with error := e } }

/-- The port is READING or WRITING: an operation is in flight (R128, R133). -/
def AccessPort.inFlight (ap : AccessPort) : Bool := ap.state = .reading || ap.state = .writing

/-- The range check of a READ or FLUSH of `n` words: the controller READY, the range within the memory size (R127, R132). -/
def State.portRangeOk (s : State) (n : Nat) : Bool :=
  s.mc.state = .ready && s.ap.addr.toNat + n ≤ s.mc.size.words

/-! ### READ (R127) -/

/-- The block read of a READ (R127). -/
def AccessPort.readRequest (ap : AccessPort) : MemRequest where
  client := .accessPort
  kind := .blockRead
  addr := ap.addr.toNat
  count := ap.count
  words := []
  epoch := 0
  number := 0

/-- A READ ordered in IDLE or READ_READY (R127). -/
def State.startRead (s : State) : State :=
  if s.portRangeOk s.ap.count then
    { s with ap := { s.ap with error := .none, readBuf := [], state := .reading } }.raisePort s.ap.readRequest
  else s.portError .range

/-- READ by port state (R126 to R128, R131). -/
def State.portRead (s : State) : State :=
  match s.ap.state with
  | .idle | .readReady => s.startRead
  | .reading | .writeFilling | .writing => s.portError .busy

/-- READ (R127). -/
def execRead (s : State) : Result := hostWrite s State.portRead

/-! ### FLUSH (R132) -/

/-- The word addresses of a flush range (R132). -/
def flushRange (addr n : Nat) : List Nat := (List.range n).map fun i => addr + i

/-- A word may be written: scratch, or in a HELD slot whose write pending is clear (R132). -/
def SlotManager.writable (sm : SlotManager) (a : Nat) : Bool :=
  match sm.slotAt a with
  | none => true
  | some k => (sm.slot k).state = .held && !(sm.slot k).writePending

/-- The slots that hold at least one word of a range, each once (R132). -/
def SlotManager.slotsOf (sm : SlotManager) (as : List Nat) : List Nat := (as.filterMap sm.slotAt).dedup

/-- The block write of a FLUSH (R132). -/
def AccessPort.flushRequest (ap : AccessPort) : MemRequest where
  client := .accessPort
  kind := .blockWrite
  addr := ap.addr.toNat
  count := ap.writeBuf.length
  words := ap.writeBuf
  epoch := 0
  number := 0

/-- A flush that passed both checks: write pending set, flush record made, request raised, WRITING (R132). -/
def State.takeFlush (s : State) : State :=
  let range := flushRange s.ap.addr.toNat s.ap.writeBuf.length
  let slots := s.sm.slotsOf range
  { s with
    sm := s.sm.setPending slots
    ap := { s.ap with
      error := .none, state := .writing, flushRecord := some ⟨s.ap.addr.toNat, s.ap.writeBuf.length, slots⟩ }
  }.raisePort s.ap.flushRequest

/-- A flush that failed the protection check: buffer discarded, ACCESS_VIOLATION (R132). -/
def State.violateFlush (s : State) : State :=
  { s with ap := { s.ap with error := .violation, state := .idle, writeBuf := [] } }.raiseGlobal .accessViolation

/-- A FLUSH ordered in WRITE_FILLING: range, then protection (R132). -/
def State.startFlush (s : State) : State :=
  if !s.portRangeOk s.ap.writeBuf.length then s.portError .range
  else if (flushRange s.ap.addr.toNat s.ap.writeBuf.length).all s.sm.writable then s.takeFlush
  else s.violateFlush

/-- FLUSH by port state (R126, R128, R130 to R133). -/
def State.portFlush (s : State) : State :=
  match s.ap.state with
  | .idle => s
  | .writeFilling => s.startFlush
  | .reading | .readReady | .writing => s.portError .busy

/-- FLUSH (R132). -/
def execFlush (s : State) : Result := hostWrite s State.portFlush

/-! ### DISCARD (R134) -/

/-- DISCARD by port state (R134). -/
def State.portDiscard (s : State) : State :=
  if s.ap.inFlight then s.portError .busy
  else { s with ap := { s.ap with readBuf := [], writeBuf := [], state := .idle, error := .none } }

/-- DISCARD (R134). -/
def execDiscard (s : State) : Result := hostWrite s State.portDiscard

/-! ### ACC_DATA, ACC_ADDR, ACC_COUNT, ACC_CTRL (R126, R130, R131) -/

/-- The word that the host reads (R171). -/
def State.drive (s : State) (w : Word) : State := { s with host := { s.host with data := w } }

/-- The pop of the oldest word in READ_READY (R130). -/
def State.popWord (s : State) : State :=
  match s.ap.readBuf with
  | [] => s.drive 0
  | w :: rest =>
    { s with ap := { s.ap with readBuf := rest, state := if rest = [] then .idle else .readReady } }.drive w.word

/-- A read of ACC_DATA by port state (R126, R128, R130). -/
def State.readAccData (s : State) : State :=
  match s.ap.state with
  | .readReady => s.popWord
  | .idle | .writeFilling => (s.portError .emptyRead).drive 0
  | .reading | .writing => (s.portError .busy).drive 0

/-- ACC_DATA_READ (R130). -/
def execAccDataRead (s : State) : Result := hostRead s State.readAccData

/-- A write of ACC_DATA by port state (R126, R128, R130, R131). -/
def State.writeAccData (s : State) (w : Word) : State :=
  match s.ap.state with
  | .idle => { s with ap := { s.ap with writeBuf := [w], state := .writeFilling } }
  | .writeFilling =>
    if s.ap.writeBuf.length < Config.bufferWords then
      { s with ap := { s.ap with writeBuf := s.ap.writeBuf ++ [w] } }
    else s.portError .full
  | .reading | .readReady | .writing => s.portError .busy

/-- ACC_DATA_WRITE (R131). -/
def execAccDataWrite (w : Word) (s : State) : Result := hostWrite s fun s => s.writeAccData w

/-- A write of ACC_ADDR (R126). -/
def State.writeAccAddr (s : State) (w : Word) : State :=
  if s.ap.inFlight then s.portError .busy else { s with ap := { s.ap with addr := w } }

/-- ACC_ADDR_WRITE (R126). -/
def execAccAddrWrite (w : Word) (s : State) : Result := hostWrite s fun s => s.writeAccAddr w

/-- A write of ACC_COUNT (R126). -/
def State.writeAccCount (s : State) (w : Word) : State :=
  if s.ap.inFlight then s.portError .busy
  else if inRange 1 16 w.toNat then { s with ap := { s.ap with count := w.toNat } }
  else s.portError .range

/-- ACC_COUNT_WRITE (R126). -/
def execAccCountWrite (w : Word) (s : State) : Result := hostWrite s fun s => s.writeAccCount w

/-- A write of ACC_CTRL by its operation code; code 0 names no operation and is ignored (R126, R173). -/
def State.writeAccCtrl (s : State) (w : Word) : State :=
  match field w 0 2 with
  | 1 => s.portRead
  | 2 => s.portFlush
  | 3 => s.portDiscard
  | _ => s

end Sys2Proof.Machine
end

