-- ==== Sys2Proof/Machine/ConfigWrites.lean ====
section
/-! DEFINITION. Configuration writes: INn_CTRL and the input settings, OUTn_CTRL and the output settings, pool geometry,
MC_CFG, MC_REFRESH, ARB_CFG (R1, R25, R26, R74, R76, R138, R139, R161). -/

namespace Sys2Proof.Machine

/-! ### Input channels -/

/-- ENABLE_ATTEMPT (R26, R27): a write of INn_CTRL with ENABLE 1; an enable attempt when the channel is OFF, and in the
other states what the table of R26 says of ENABLE written 1. -/
def execEnableAttempt (n : Fin 4) (mode : StopMode) (s : State) : Result :=
  hostWrite s fun s => s.writeInCtrl n true mode

/-- IMMEDIATE_STOP (R26, R43): a write of INn_CTRL with ENABLE 0 and STOP_MODE IMMEDIATE. -/
def execImmediateStop (n : Fin 4) (s : State) : Result := hostWrite s fun s => s.writeInCtrl n false .immediate

/-- STOP_AT_FRAME_END (R26, R44): a write of INn_CTRL with ENABLE 0 and STOP_MODE AT_FRAME_END. -/
def execStopAtFrameEnd (n : Fin 4) (s : State) : Result := hostWrite s fun s => s.writeInCtrl n false .atFrameEnd

/-- STOP_MODE_WRITE (R26): a write of INn_CTRL with both fields, by the table of R26. -/
def execStopModeWrite (n : Fin 4) (enable : Bool) (mode : StopMode) (s : State) : Result :=
  hostWrite s fun s => s.writeInCtrl n enable mode

/-- INPUT_CONFIG_WRITE (R12, R25). -/
def execInputConfigWrite (n : Fin 4) (reg : InConfigReg) (w : Word) (s : State) : Result :=
  hostWrite s fun s => s.writeInConfig n reg w

/-! ### Output channels -/

/-- OUTPUT_ENABLE (R74, R76): a write of OUTn_CTRL with ENABLE 1. -/
def execOutputEnable (m : Fin 6) (w : Word) (s : State) : Result :=
  hostWrite s fun s => s.writeOutConfig m .ctrl true w

/-- OUTPUT_DISABLE (R74, R76): a write of OUTn_CTRL with ENABLE 0. -/
def execOutputDisable (m : Fin 6) (w : Word) (s : State) : Result :=
  hostWrite s fun s => s.writeOutConfig m .ctrl false w

/-- OUTPUT_CONFIG_WRITE (R74): a write of a settings register; in OUTn_CTRL its bit 0 is ENABLE (R173). -/
def execOutputConfigWrite (m : Fin 6) (reg : OutConfigReg) (w : Word) (s : State) : Result :=
  hostWrite s fun s => s.writeOutConfig m reg (w.getLsbD 0) w

/-! ### Geometry, memory controller, arbiter -/

/-- A geometry register stores a value (R1). -/
def SlotManager.setGeometry (sm : SlotManager) (reg : GeometryReg) (w : Word) : SlotManager :=
  match reg with
  | .base => { sm with base := w }
  | .stride => { sm with stride := w }
  | .slots => { sm with count := w }

/-- A write of a geometry register: stored while the pool is ABSENT, ignored while it is BUILT (R1). -/
def State.writeGeometry (s : State) (reg : GeometryReg) (w : Word) : State :=
  if s.sm.built then s.configIgnored else { s with sm := s.sm.setGeometry reg w }

/-- GEOMETRY_WRITE (R1). -/
def execGeometryWrite (reg : GeometryReg) (w : Word) (s : State) : Result :=
  hostWrite s fun s => s.writeGeometry reg w

/-- A write of MC_CFG: taken in UNINIT with every field defined (R138). -/
def State.writeMcCfg (s : State) (w : Word) : State :=
  if s.mc.state ≠ .uninit then s.configIgnored
  else
    match memSizeOf (field w 0 2) with
    | none => s.configIgnored
    | some size =>
      { s with mc := { s.mc with size := size, profile := timingOf (field w 4 2), modeFirst := w.getLsbD 8 } }

/-- MC_CFG_WRITE (R138). -/
def execMcCfgWrite (w : Word) (s : State) : Result := hostWrite s fun s => s.writeMcCfg w

/-- A write of MC_REFRESH: 1 to 255 in every state (R139). -/
def State.writeMcRefresh (s : State) (w : Word) : State :=
  if inRange 1 255 w.toNat then { s with mc := { s.mc with refreshInterval := w.toNat } } else s.configIgnored

/-- MC_REFRESH_WRITE (R139). -/
def execMcRefreshWrite (w : Word) (s : State) : Result := hostWrite s fun s => s.writeMcRefresh w

/-- A write of ARB_CFG: no pointer, preference or count moves (R161). -/
def State.writeArbCfg (s : State) (w : Word) : State :=
  match arbProfileOf (field w 0 2) with
  | none => s.configIgnored
  | some p => { s with arb := { s.arb with profile := p } }

/-- ARB_CFG_WRITE (R161). -/
def execArbCfgWrite (w : Word) (s : State) : Result := hostWrite s fun s => s.writeArbCfg w

end Sys2Proof.Machine
end

