-- ==== Sys2Proof/Machine/EventWrites.lean ====
section
/-! DEFINITION. Host writes of event status, event enables and counters (chapter 10). -/

namespace Sys2Proof.Machine

/-- A write of an event status register clears the bits written with one (R164). -/
def State.clearEvents (s : State) (reg : EventReg) (w : Word) : State := { s with eu := s.eu.clearBits reg w }

/-- EVENT_CLEAR (R164). -/
def execEventClear (reg : EventReg) (w : Word) (s : State) : Result := hostWrite s fun s => s.clearEvents reg w

/-- A write of an event enable register (R165). -/
def State.writeEnables (s : State) (reg : EventReg) (w : Word) : State := { s with eu := s.eu.setEnable reg w }

/-- EVENT_ENABLE_WRITE (R165). -/
def execEventEnableWrite (reg : EventReg) (w : Word) (s : State) : Result :=
  hostWrite s fun s => s.writeEnables reg w

/-- A write of any value to a counter sets it to 0 (R170). -/
def State.clearCounter (s : State) (c : CounterName) : State :=
  match c with
  | .input n c => s.modInput n fun ch => { ch with counters := ch.counters.set (inCounterIdx c) 0 }
  | .output m c => s.modOutput m fun o => { o with counters := o.counters.set (outCounterIdx c) 0 }
  | .memory .eccCorrected => { s with mc := { s.mc with eccCorrected := 0 } }
  | .memory .eccUncorrectable => { s with mc := { s.mc with eccUncorrectable := 0 } }
  | .memory .refreshBacklog => { s with mc := { s.mc with refreshBacklog := 0 } }

/-- COUNTER_CLEAR (R170). The written value does not matter. -/
def execCounterClear (c : CounterName) (_w : Word) (s : State) : Result := hostWrite s fun s => s.clearCounter c

end Sys2Proof.Machine
end

