-- ==== Sys2Proof/Machine/HostCommands.lean ====
section
/-! DEFINITION. The command unit's commands (chapter 6). Each is a CMD write; its arguments are those that CMD_ARG0 to
CMD_ARG3 hold at the write (R111). Checks are made in the order of the command's rule. -/

namespace Sys2Proof.Machine

/-- A CMD write: refused with CMD_OVERRUN in BUSY, taken in IDLE (R111). -/
def State.issue (s : State) (command : State → State) : State :=
  if s.cu.running.isSome then s.raiseGlobal .cmdOverrun else command s

/-- A refused command: the refusal code with value 0, and no other change (R112). -/
def State.refuseCommand (s : State) (code : BitVec 8) (r : ResultCode) : State := s.completeCommand code r 0

/-- A command that takes time puts the unit BUSY; CMD_RESULT shows it with OK and 0 (R110, R111). -/
def State.startCommand (s : State) (code : BitVec 8) (clear : Option ClearProgress) : State :=
  { s with cu := { s.cu with running := some ⟨code, s.cu.args, clear⟩, lastCode := code, result := .ok, value := 0 } }

/-- The index of a slot as a result value. -/
def slotValue (k : Nat) : Word := BitVec.ofNat 32 k

/-! ### MEMORY INIT (R113, R141) -/

/-- The memory controller enters INITIALIZING; stage 1 begins at once, or at the completion of the request in execution
(R141). -/
def MemController.startInit (mc : MemController) (now : Word) : MemController :=
  { mc with
    state := .initializing, refreshTimer := none, refreshDue := false,
    stage := if mc.exec.isSome then 0 else 1, stageStart := now }

/-- The check of MEMORY INIT (R113). -/
def State.initAccepted (s : State) : Bool :=
  match s.mc.state with
  | .uninit => true
  | .ready => !s.sm.built
  | .initializing => false

/-- MEMORY INIT in IDLE (R113). -/
def State.cmdMemoryInit (s : State) : State :=
  if s.initAccepted then { s with mc := s.mc.startInit s.timeBase }.startCommand 0x01 none
  else s.refuseCommand 0x01 .wrongState

/-- MEMORY_INIT (R111, R113). -/
def execMemoryInit (s : State) : Result := hostWrite s fun s => s.issue State.cmdMemoryInit

/-! ### Pool commands (R115, R116) -/

/-- A geometry is valid for a memory size (R1). -/
def SlotManager.geometryValid (sm : SlotManager) (size : MemSize) : Bool :=
  sm.base.toNat % 1024 = 0 && sm.stride.toNat % 1024 = 0 && inRange 1024 2097152 sm.stride.toNat
    && inRange 1 32 sm.count.toNat && sm.base.toNat + sm.count.toNat * sm.stride.toNat ≤ size.words

/-- A write that a full soft reset left in execution has not completed (R115, R151). -/
def State.orphanWrite (s : State) : Bool :=
  match s.mc.exec with
  | some e => e.orphan && (e.request.kind = .lineWrite || e.request.kind = .blockWrite || e.request.kind = .clearWrite)
  | none => false

/-- The pool of a build: fresh records, the free list from S0 upward, empty ready lists; counters kept (R8, R13, R115). -/
def SlotManager.build (sm : SlotManager) : SlotManager :=
  { sm with
    built := true
    slots := (List.range sm.count.toNat).map SlotRecord.fresh
    free := List.range sm.count.toNat
    ready := Vector.replicate 4 [] }

/-- The window captures are emptied (R174, R175). -/
def State.emptyCaptures (s : State) : State :=
  { s with host := { s.host with recordCapture := none, listCaptures := Vector.replicate 5 none } }

/-- POOL BUILD in IDLE (R115). -/
def State.cmdPoolBuild (s : State) : State :=
  if s.mc.state ≠ .ready then s.refuseCommand 0x02 .memoryNotReady
  else if s.sm.built then s.refuseCommand 0x02 .poolPresent
  else if !s.sm.geometryValid s.mc.size then s.refuseCommand 0x02 .badArgument
  else if s.ap.state = .writing || s.orphanWrite then s.refuseCommand 0x02 .slotBusy
  else ({ s with sm := s.sm.build }.emptyCaptures).completeCommand 0x02 .ok s.sm.count

/-- POOL_BUILD (R111, R115). -/
def execPoolBuild (s : State) : Result := hostWrite s fun s => s.issue State.cmdPoolBuild

/-- Every input and every output is OFF (R116). -/
def State.allOff (s : State) : Bool :=
  (List.finRange 4).all (fun n => (s.input n).state = .off) && (List.finRange 6).all fun m => (s.output m).state = .off

/-- The removal of the pool: every list empty, no records; counters and geometry kept (R22). -/
def SlotManager.teardown (sm : SlotManager) : SlotManager :=
  { sm with built := false, slots := [], free := [], ready := Vector.replicate 4 [] }

/-- POOL TEARDOWN in IDLE (R116). -/
def State.cmdPoolTeardown (s : State) : State :=
  if !s.sm.built then s.refuseCommand 0x03 .noPool
  else if !s.allOff then s.refuseCommand 0x03 .channelsActive
  else if s.ap.state = .writing then s.refuseCommand 0x03 .slotBusy
  else ({ s with sm := s.sm.teardown }.emptyCaptures).completeCommand 0x03 .ok 0

/-- POOL_TEARDOWN (R111, R116). -/
def execPoolTeardown (s : State) : Result := hostWrite s fun s => s.issue State.cmdPoolTeardown

/-! ### Slot commands (R117 to R120) -/

/-- SLOT CLAIM in IDLE (R117). -/
def State.cmdSlotClaim (s : State) : State :=
  if !s.sm.built then s.refuseCommand 0x10 .noPool
  else
    match s.sm.free with
    | [] => s.refuseCommand 0x10 .empty
    | k :: rest =>
      { s with sm := { s.sm with free := rest }.modSlot k SlotRecord.claimed }.completeCommand 0x10 .ok (slotValue k)

/-- SLOT_CLAIM (R111, R117). -/
def execSlotClaim (s : State) : Result := hostWrite s fun s => s.issue State.cmdSlotClaim

/-- The entry at an end of a ready list. -/
def endEntry (e : ListEnd) (l : List Nat) : Option Nat :=
  match e with
  | .newest => l.getLast?
  | .oldest => l.head?

/-- A ready list without the entry at an end. -/
def dropEnd (e : ListEnd) (l : List Nat) : List Nat :=
  match e with
  | .newest => l.dropLast
  | .oldest => l.tail

/-- The slot manager's part of SLOT HOLD: the entry leaves the list for the held set (R15, R118). -/
def SlotManager.hold (sm : SlotManager) (n : Fin 4) (e : ListEnd) (k : Nat) : SlotManager :=
  (sm.setReady n (dropEnd e (sm.readyOf n))).modSlot k fun r => r.movedTo .held

/-- SLOT HOLD in IDLE (R118). -/
def State.cmdSlotHold (s : State) : State :=
  if !s.sm.built then s.refuseCommand 0x11 .noPool
  else
    match inputArg s.cu.args.arg0, endArg s.cu.args.arg1 with
    | some n, some e =>
      match endEntry e (s.sm.readyOf n) with
      | none => s.refuseCommand 0x11 .empty
      | some k => { s with sm := s.sm.hold n e k }.completeCommand 0x11 .ok (slotValue k)
    | _, _ => s.refuseCommand 0x11 .badArgument

/-- SLOT_HOLD (R111, R118). -/
def execSlotHold (s : State) : Result := hostWrite s fun s => s.issue State.cmdSlotHold

/-- SLOT RELEASE in IDLE (R119). -/
def State.cmdSlotRelease (s : State) : State :=
  if !s.sm.built then s.refuseCommand 0x12 .noPool
  else
    match slotArg s.sm.count s.cu.args.arg0 with
    | none => s.refuseCommand 0x12 .badArgument
    | some k =>
      if (s.sm.slot k).state ≠ .held then s.refuseCommand 0x12 .notHeld
      else if (s.sm.slot k).writePending then s.refuseCommand 0x12 .slotBusy
      else { s with sm := s.sm.retire k }.completeCommand 0x12 .ok (slotValue k)

/-- SLOT_RELEASE (R111, R119). -/
def execSlotRelease (s : State) : Result := hostWrite s fun s => s.issue State.cmdSlotRelease

/-- The record fields that SLOT PUBLISH takes from its arguments (R65). -/
def SlotRecord.published (r : SlotRecord) (a : PublishArgs) : SlotRecord :=
  { r with lineLength := some a.lineLength, lineCount := some a.lineCount, tag := a.tag, short := false }

/-- SLOT PUBLISH in IDLE (R120). -/
def State.cmdSlotPublish (s : State) : State :=
  if !s.sm.built then s.refuseCommand 0x13 .noPool
  else
    match publishArgs s.sm.count s.sm.stride s.cu.args with
    | none => s.refuseCommand 0x13 .badArgument
    | some a =>
      if (s.sm.slot a.slot).state ≠ .held then s.refuseCommand 0x13 .notHeld
      else if (s.sm.slot a.slot).writePending then s.refuseCommand 0x13 .slotBusy
      else if (s.input a.input).state = .resetting then s.refuseCommand 0x13 .wrongState
      else
        (s.publishSlot a.input a.slot fun r => r.published a).completeCommand 0x13 .ok (s.sm.seqOf a.input)

/-- SLOT_PUBLISH (R111, R120). -/
def execSlotPublish (s : State) : Result := hostWrite s fun s => s.issue State.cmdSlotPublish

/-! ### SLOT CLEAR and INPUT FLUSH (R121, R124) -/

/-- An accepted SLOT CLEAR: BUSY, write pending set, the first block requested (R121). -/
def State.startClear (s : State) (k : Nat) : State :=
  let c : ClearProgress := ⟨k, s.cu.args.arg2, 0⟩
  ({ s with sm := s.sm.setPending [k] }.startCommand 0x14 (some c)).raiseClear c

/-- SLOT CLEAR in IDLE (R121). -/
def State.cmdSlotClear (s : State) : State :=
  if !s.sm.built then s.refuseCommand 0x14 .noPool
  else
    match slotArg s.sm.count s.cu.args.arg0 with
    | none => s.refuseCommand 0x14 .badArgument
    | some k =>
      if (s.sm.slot k).state ≠ .held then s.refuseCommand 0x14 .notHeld
      else if (s.sm.slot k).writePending then s.refuseCommand 0x14 .slotBusy
      else s.startClear k

/-- SLOT_CLEAR (R111, R121). -/
def execSlotClear (s : State) : Result := hostWrite s fun s => s.issue State.cmdSlotClear

/-- INPUT FLUSH in IDLE (R124). -/
def State.cmdInputFlush (s : State) : State :=
  if !s.sm.built then s.refuseCommand 0x15 .noPool
  else
    match inputArg s.cu.args.arg0 with
    | none => s.refuseCommand 0x15 .badArgument
    | some n =>
      { s with sm := (s.sm.setReady n []).retireAll (s.sm.readyOf n) }.completeCommand 0x15 .ok
        (BitVec.ofNat 32 (s.sm.readyOf n).length)

/-- INPUT_FLUSH (R111, R124). -/
def execInputFlush (s : State) : Result := hostWrite s fun s => s.issue State.cmdInputFlush

/-! ### Codes that name no command (R111, R176) -/

/-- A code that names no command completes with BAD_ARGUMENT and records 0 in the code field (R111, R176). -/
def State.cmdUnknown (s : State) : State := s.refuseCommand 0 .badArgument

/-- UNKNOWN_COMMAND (R111, R176). The written code is not recorded. -/
def execUnknownCommand (_code : BitVec 8) (s : State) : Result := hostWrite s fun s => s.issue State.cmdUnknown

/-- A CMD write by its code, bits 7 to 0 of the value (R111, R176). -/
def State.writeCmd (s : State) (w : Word) : State :=
  match field w 0 8 with
  | 0x01 => s.issue State.cmdMemoryInit
  | 0x02 => s.issue State.cmdPoolBuild
  | 0x03 => s.issue State.cmdPoolTeardown
  | 0x10 => s.issue State.cmdSlotClaim
  | 0x11 => s.issue State.cmdSlotHold
  | 0x12 => s.issue State.cmdSlotRelease
  | 0x13 => s.issue State.cmdSlotPublish
  | 0x14 => s.issue State.cmdSlotClear
  | 0x15 => s.issue State.cmdInputFlush
  | _ => s.issue State.cmdUnknown

end Sys2Proof.Machine
end

