-- ==== Sys2Proof/Machine/Resets.lean ====
section
/-! DEFINITION. Resets: full soft reset, channel resets, RESET_N (R23, R47, R90, R150, R151, R162, R177, R178). -/

namespace Sys2Proof.Machine

/-- The memory controller through a full soft reset: READY is kept when the pool was BUILT, the configuration always; a
request in execution is left to complete for no client (R151). -/
def MemController.softReset (mc : MemController) (built : Bool) : MemController :=
  let stays := mc.state = .ready && built
  { MemController.reset with
    state := if stays then .ready else .uninit
    size := mc.size
    profile := mc.profile
    modeFirst := mc.modeFirst
    refreshInterval := mc.refreshInterval
    refreshTimer := if stays then mc.refreshTimer else none
    refreshDue := stays && mc.refreshDue
    exec := mc.exec.map fun e => { e with orphan := true } }

/-- A full soft reset: every block at its reset values; kept are the time base, the frame store, the memory controller as
R151 says, the level of RESET_N, and the model's queue and last read word (R23, R49, R91, R110, R137, R162, R177). -/
def State.softReset (s : State) : State :=
  { State.reset with
    pending := s.pending
    resetAsserted := s.resetAsserted
    timeBase := s.timeBase
    mc := s.mc.softReset s.sm.built
    store := s.store
    host := { HostInterface.reset with data := s.host.data } }

/-- FULL_SOFT_RESET (R177). -/
def execFullSoftReset (s : State) : Result := hostWrite s State.softReset

/-- INPUT_CHANNEL_RESET (R47, R177). -/
def execInputChannelReset (n : Fin 4) (s : State) : Result := hostWrite s fun s => s.resetInput n

/-- OUTPUT_CHANNEL_RESET (R90, R177). -/
def execOutputChannelReset (m : Fin 6) (s : State) : Result := hostWrite s fun s => s.resetOutput m

/-- Channel resets of inputs, in the order given. -/
def State.resetInputs (s : State) : List (Fin 4) → State
  | [] => s
  | n :: ns => (s.resetInput n).resetInputs ns

/-- Channel resets of outputs, in the order given. -/
def State.resetOutputs (s : State) : List (Fin 6) → State
  | [] => s
  | m :: ms => (s.resetOutput m).resetOutputs ms

/-- A write of RESET_CTRL: FULL alone when it is written with one; otherwise the channel resets asked for, inputs in
ascending order and then outputs in ascending order (R177). -/
def State.writeResetCtrl (s : State) (w : Word) : State :=
  if w.getLsbD 0 then s.softReset
  else
    (s.resetInputs ((List.finRange 4).filter fun n => w.getLsbD (8 + n.val))).resetOutputs
      ((List.finRange 6).filter fun m => w.getLsbD (16 + m.val))

/-- The frame store when the request in execution is aborted: the words of a write become undefined (R150). -/
def State.abortStore (s : State) : FrameStore :=
  match s.mc.exec with
  | none => s.store
  | some e =>
    match e.request.kind with
    | .lineWrite | .blockWrite | .clearWrite => s.store.forget e.request.addr e.request.count
    | .lineRead | .blockRead | .refresh => s.store

/-- The pin-reset state (R178): every block at its reset values; kept are the frame store, but for an aborted write, and
the model's queue (R23, R49, R91, R110, R137, R150, R162, R179). -/
def State.pinReset (s : State) : State :=
  { State.reset with pending := s.pending, resetAsserted := true, store := s.abortStore }

/-- PIN_RESET (R178). -/
def execPinReset (s : State) : Result := .next s.pinReset

/-- RESET_N_DEASSERTION (R178): the controller leaves the pin-reset state. -/
def execResetNDeassertion (s : State) : Result := .next { s with resetAsserted := false }

end Sys2Proof.Machine
end

