-- ==== Sys2Proof/Machine/HostBus.lean ====
section
/-! DEFINITION. The register window (chapter 11): what every offset reads, the window captures, and the host bus cycle that
passes each write to the block that owns the register. -/

namespace Sys2Proof.Machine

/-! ### Packing (R173) -/

/-- A number placed at a bit. -/
def at' (x lo : Nat) : Nat := x * 2 ^ lo

/-- A flag placed at a bit. -/
def flagAt (b : Bool) (lo : Nat) : Nat := if b then 2 ^ lo else 0

/-- The word of a sum of placed fields. -/
def packed (x : Nat) : Word := BitVec.ofNat 32 x

/-! ### Images of registers with several fields (R173) -/

/-- DEVICE_STATUS (R172, R173). -/
def State.deviceStatus (s : State) : Word :=
  packed (flagAt s.sm.built 0 + at' (if s.sm.built then s.sm.count.toNat else 0) 8
    + flagAt s.cu.running.isSome 16 + flagAt s.eu.interruptLine 24)

/-- INn_CTRL (R26, R173). -/
def InputChannel.ctrlImage (ch : InputChannel) : Word := packed (flagAt ch.enable 0 + flagAt (stopModeBit ch.stopMode) 1)

/-- INn_GEOM. -/
def InputChannel.geomImage (ch : InputChannel) : Word := packed (ch.cfg.lineLength + at' ch.cfg.linesPerFrame 16)

/-- INn_CFG. -/
def InputChannel.cfgImage (ch : InputChannel) : Word :=
  packed (ch.cfg.quota + flagAt ch.cfg.keepShort 8 + at' ch.cfg.watermark 16)

/-- The code of an input state (R173). -/
def inStateCode : InState → Nat
  | .off => 0
  | .armed => 1
  | .filling => 2
  | .skipping => 3
  | .stopping => 4
  | .resetting => 5

/-- The code of a refusal reason (R173). -/
def refusalCode : EnableRefusal → Nat
  | .none => 0
  | .noPool => 1
  | .geometry => 2

/-- INn_STATUS, first word (R28, R173). -/
def State.inStatus (s : State) (n : Fin 4) : Word :=
  let ch := s.input n
  packed (inStateCode ch.state + flagAt ch.stopPending 4 + flagAt ch.lost 5 + at' (refusalCode ch.refusal) 8
    + at' ch.fill.length 12 + at' (ch.fill.countP FrameEntry.isClosed) 14 + at' ch.fifo.length 16
    + flagAt (s.inFlight (.input n)) 20)

/-- The code of an output state (R173). -/
def outStateCode : OutState → Nat
  | .off => 0
  | .idle => 1
  | .showing => 2
  | .disabling => 3

/-- The code of a policy (R173). -/
def policyCode : Policy → Nat
  | .latest => 0
  | .sequential => 1
  | .delay => 2

/-- OUTn_CTRL (R173). -/
def OutputChannel.ctrlImage (o : OutputChannel) : Word :=
  packed (flagAt o.enable 0 + at' o.cfg.source.val 4 + at' (policyCode o.cfg.policy) 8 + at' o.cfg.delay 12
    + flagAt o.cfg.freeze 16 + flagAt o.cfg.mute 17 + flagAt (o.cfg.lossAction = .blank) 18
    + flagAt (o.cfg.fillKind = .repeated) 19 + at' o.cfg.watermark 20)

/-- OUTn_BLANK. -/
def OutputChannel.blankImage (o : OutputChannel) : Word := packed (o.cfg.blankLength + at' o.cfg.blankCount 16)

/-- The code of the open frame's answer: 0 no frame open, 1 PICTURE, 2 REPEAT, 3 BLANK (R173). -/
def answerCode : Option OpenFrame → Nat
  | none => 0
  | some f =>
    match f.status with
    | .picture => 1
    | .repeated => 2
    | .blank => 3
    | .offline => 0

/-- OUTn_STATUS, first word (R78, R173). DESIGN CHOICE, unsafe: the retained slot index reads 0 while no slot is retained;
R173 gives it no value there (assumption 30). -/
def OutputChannel.statusImage (o : OutputChannel) : Word :=
  packed (outStateCode o.state + flagAt o.frame.isSome 2 + flagAt o.retained.isSome 3 + at' (o.retained.getD 0) 4
    + flagAt o.last.isSome 9 + at' (answerCode o.frame) 10 + flagAt o.lossReported.isSome 13)

/-- OUTn_STATUS, second word: last shown sequence, 0 when absent. -/
def OutputChannel.lastImage (o : OutputChannel) : Word := (o.last.map LastShown.sequence).getD 0

/-- OUTn_STATUS, fourth word: cursor, FIFO, read outstanding. -/
def State.outCursors (s : State) (m : Fin 6) : Word :=
  let o := s.output m
  packed (o.pull + at' o.fifo.length 16 + flagAt (s.readOutstanding m) 20)

/-- The set of flags of channels, from a bit upward. -/
def flagsFrom {k : Nat} (f : Fin k → Bool) (lo : Nat) : Nat :=
  ((List.finRange k).map fun i => flagAt (f i) (lo + i.val)).sum

/-- ARB_CFG with its read-only fields (R161, R173). -/
def State.arbCfgImage (s : State) : Word :=
  packed (arbProfileCode s.arb.profile + flagsFrom (fun n : Fin 4 => s.arb.inReq[n].isSome) 8
    + flagsFrom (fun m : Fin 6 => s.arb.outReq[m].isSome) 12 + flagAt s.arb.apReq.isSome 18
    + flagAt s.arb.cuReq.isSome 19 + flagsFrom s.urgentInput 20 + flagsFrom s.urgentOutput 24)

/-- MC_CFG. -/
def MemController.cfgImage (mc : MemController) : Word :=
  packed (memSizeCode mc.size + at' (timingCode mc.profile) 4 + flagAt mc.modeFirst 8)

/-- The code of a memory state (R173). -/
def mcStateCode : McState → Nat
  | .uninit => 0
  | .initializing => 1
  | .ready => 2

/-- The code of a request kind (R173). -/
def kindCode : RequestKind → Nat
  | .lineWrite => 1
  | .lineRead => 2
  | .blockRead => 3
  | .blockWrite => 4
  | .clearWrite => 5
  | .refresh => 6

/-- MC_STATUS (R140, R173). -/
def MemController.statusImage (mc : MemController) : Word :=
  packed (mcStateCode mc.state + at' (memSizeCode mc.size) 4 + at' (timingCode mc.profile) 8 + at' mc.stage 12
    + flagAt mc.refreshDue 16 + flagAt mc.exec.isSome 20
    + at' ((mc.exec.map fun e => kindCode e.request.kind).getD 0) 24)

/-- The code of a port state (R173). -/
def portStateCode : PortState → Nat
  | .idle => 0
  | .reading => 1
  | .readReady => 2
  | .writeFilling => 3
  | .writing => 4

/-- The code of a port error (R173). -/
def portErrorCode : PortError → Nat
  | .none => 0
  | .range => 1
  | .emptyRead => 2
  | .full => 3
  | .violation => 4
  | .busy => 5

/-- Words in the buffer of the current state (R126). -/
def AccessPort.occupancy (ap : AccessPort) : Nat :=
  match ap.state with
  | .idle => 0
  | .reading | .readReady => ap.readBuf.length
  | .writeFilling | .writing => ap.writeBuf.length

/-- Poison flags in order, the oldest word's first (R126, R173). -/
def poisonFlags : List ReadWord → Nat → Nat
  | [], _ => 0
  | w :: rest, lo => flagAt w.poisoned lo + poisonFlags rest (lo + 1)

/-- ACC_STATUS (R126, R173). -/
def AccessPort.statusImage (ap : AccessPort) : Word :=
  packed (portStateCode ap.state + at' (portErrorCode ap.error) 4 + at' ap.occupancy 8 + poisonFlags ap.readBuf 16)

/-- CMD_RESULT, status word (R110, R176). -/
def CommandUnit.resultImage (cu : CommandUnit) : Word :=
  packed (resultCodeNumber cu.result + at' cu.lastCode.toNat 16 + flagAt cu.running.isSome 31)

/-! ### Slot table window (R174) -/

/-- The code of a slot state (R174). -/
def slotStateCode : SlotState → Nat
  | .free => 1
  | .filling => 2
  | .closed => 3
  | .ready => 4
  | .draining => 5
  | .held => 6

/-- Word 0 of a record's image. -/
def SlotRecord.word0 (r : SlotRecord) : Word :=
  packed (r.index + at' (slotStateCode r.state) 8 + at' ((r.owner.map Fin.val).getD 0) 12 + flagAt r.owner.isSome 16
    + flagAt r.sequence.isSome 17 + flagAt r.timestamp.isSome 18 + flagAt r.lineLength.isSome 19
    + flagAt r.lineCount.isSome 20 + flagAt r.tag.isSome 21 + flagAt r.short 24 + flagAt r.viewed 25
    + flagAt r.writePending 26)

/-- The eight words of a record's image (R174). -/
def SlotRecord.image (r : SlotRecord) : List Word :=
  [r.word0, packed (r.readers.toNat + at' r.poison.toNat 8),
   packed (r.lineLength.getD 0 + at' (r.lineCount.getD 0) 16), r.sequence.getD 0, r.timestamp.getD 0, r.tag.getD 0,
   0, 0]

/-- The eight words of record k as it stands: zeros where there is no slot (R174). -/
def SlotManager.recordImage (sm : SlotManager) (k : Nat) : List Word :=
  if sm.built && k < sm.count.toNat then (sm.slot k).image else List.replicate 8 0

/-- What word i of record k reads, without the capture that a read of word 0 makes (R174). -/
def State.recordWord (s : State) (k : Fin 32) (i : Nat) : Word :=
  if i = 0 then (s.sm.recordImage k.val).getD 0 0
  else
    match s.host.recordCapture with
    | some c => if c.record = k then c.words.getD i 0 else (s.sm.recordImage k.val).getD i 0
    | none => (s.sm.recordImage k.val).getD i 0

/-- A read of word 0 of record k (R174). -/
def State.captureRecord (s : State) (k : Fin 32) : State :=
  let ws := s.sm.recordImage k.val
  { s with host := { s.host with recordCapture := some ⟨k, ws⟩, data := ws.getD 0 0 } }

/-- RECORD_CAPTURE (R174). -/
def execRecordCapture (k : Fin 32) (s : State) : Result := hostRead s fun s => s.captureRecord k

/-! ### List window (R175) -/

/-- Place of a list's capture. -/
def listIdx : ListName → Fin 5
  | .free => 0
  | .ready n => n.succ

/-- A list as it stands. -/
def SlotManager.listOf (sm : SlotManager) : ListName → List Nat
  | .free => sm.free
  | .ready n => sm.readyOf n

/-- A read of a list's length word (R175). -/
def State.captureList (s : State) (l : ListName) : State :=
  let xs := s.sm.listOf l
  { s with host := { s.host with
    listCaptures := s.host.listCaptures.set (listIdx l) (some xs), data := BitVec.ofNat 32 xs.length } }

/-- LIST_CAPTURE (R175). -/
def execListCapture (l : ListName) (s : State) : Result := hostRead s fun s => s.captureList l

/-- What entry i of a list reads: the capture's entry, 0 beyond it (R175). -/
def State.listEntry (s : State) (l : ListName) (i : Nat) : Word :=
  BitVec.ofNat 32 (((s.host.listCaptures[listIdx l]).getD []).getD i 0)

/-- A set mask: bit k for Sk (R175). -/
def maskOf (ks : List Nat) : Word := packed ((ks.map fun k => 2 ^ k).sum)

/-! ### The register map (R172) -/

/-- The registers of the window, by offset. -/
inductive Reg
  | deviceStatus
  | resetCtrl
  | geometry (r : GeometryReg)
  | cmd
  | cmdArg (i : Fin 4)
  | cmdResult
  | cmdValue
  | arbCfg
  | mcCfg
  | mcRefresh
  | mcStatus
  | timestamp
  | inCtrl (n : Fin 4)
  | inConfig (n : Fin 4) (r : InConfigReg)
  | inStatus (n : Fin 4)
  | inProgress (n : Fin 4)
  | outConfig (m : Fin 6) (r : OutConfigReg)
  | outStatus (m : Fin 6) (i : Fin 4)
  | accAddr
  | accCount
  | accCtrl
  | accData
  | accStatus
  | eventStatus (r : EventReg)
  | summary
  | eventEnable (r : EventReg)
  | counter (c : CounterName)
  | record (k : Fin 32) (i : Nat)
  | listLength (l : ListName)
  | listEntry (l : ListName) (i : Nat)
  | drainingSet
  | heldSet
  deriving DecidableEq, Repr

/-- Number of an element below a bound, if it is. -/
def below (k x : Nat) : Option (Fin k) := if h : x < k then some ⟨x, h⟩ else none

/-- The input counter of a place (R172). -/
def inCounterAt : Nat → Option InCounter
  | 0 => some .framesPublished
  | 1 => some .framesBroken
  | 2 => some .linesOverflowed
  | 3 => some .discardedByStop
  | 4 => some .stray
  | 5 => some .signalLosses
  | 6 => some .skippedBudget
  | 7 => some .skippedBacklog
  | 8 => some .skippedNoSlot
  | 9 => some .reclaimed
  | 10 => some .evictedUnviewed
  | _ => none

/-- The output counter of a place (R172). -/
def outCounterAt : Nat → Option OutCounter
  | 0 => some .framesNew
  | 1 => some .framesRepeated
  | 2 => some .framesDropped
  | 3 => some .framesFrozen
  | 4 => some .framesBlank
  | 5 => some .protocol
  | 6 => some .fillLines
  | 7 => some .poisonedLines
  | 8 => some .overpulls
  | 9 => some .incompleteFrames
  | _ => none

/-- The event register of a number, EVT_IN0 first (R172). -/
def eventRegAt (i : Nat) : Option EventReg :=
  if h : i < 4 then some (.input ⟨i, h⟩)
  else if h : i - 4 < 6 then some (.output ⟨i - 4, h⟩)
  else if i = 10 then some .global
  else none

/-- Registers of the device region, by word index (offset / 4). -/
def deviceReg : Nat → Option Reg
  | 0x00 => some .deviceStatus
  | 0x01 => some .resetCtrl
  | 0x04 => some (.geometry .base)
  | 0x05 => some (.geometry .stride)
  | 0x06 => some (.geometry .slots)
  | 0x08 => some .cmd
  | 0x09 => some (.cmdArg 0)
  | 0x0A => some (.cmdArg 1)
  | 0x0B => some (.cmdArg 2)
  | 0x0C => some (.cmdArg 3)
  | 0x0D => some .cmdResult
  | 0x0E => some .cmdValue
  | 0x10 => some .arbCfg
  | 0x11 => some .mcCfg
  | 0x12 => some .mcRefresh
  | 0x13 => some .mcStatus
  | 0x14 => some .timestamp
  | _ => none

/-- Registers of input n, by word index from 0x100 + 0x20·n. -/
def inputReg (n : Fin 4) : Nat → Option Reg
  | 0 => some (.inCtrl n)
  | 1 => some (.inConfig n .geom)
  | 2 => some (.inConfig n .cfg)
  | 3 => some (.inConfig n .budget)
  | 4 => some (.inConfig n .loss)
  | 5 => some (.inStatus n)
  | 6 => some (.inProgress n)
  | _ => none

/-- Registers of output m, by word index from 0x180 + 0x20·m. -/
def outputReg (m : Fin 6) : Nat → Option Reg
  | 0 => some (.outConfig m .ctrl)
  | 1 => some (.outConfig m .blank)
  | 2 => some (.outConfig m .blankWord)
  | 3 => some (.outStatus m 0)
  | 4 => some (.outStatus m 1)
  | 5 => some (.outStatus m 2)
  | 6 => some (.outStatus m 3)
  | _ => none

/-- Registers of the access port, by word index from 0x280. -/
def portReg : Nat → Option Reg
  | 0 => some .accAddr
  | 1 => some .accCount
  | 2 => some .accCtrl
  | 3 => some .accData
  | 4 => some .accStatus
  | _ => none

/-- Registers of a ready list's window, by word index from 0xD00 + 0x40·n. -/
def readyReg (n : Fin 4) (i : Nat) : Option Reg :=
  if i = 0 then some (.listLength (.ready n)) else if i ≤ 8 then some (.listEntry (.ready n) (i - 1)) else none

/-- The register at a byte offset of the window; the two lowest bits are ignored (R171, R172). -/
def regAt (offset : BitVec 12) : Option Reg :=
  let w := offset.toNat / 4
  if w < 0x040 then deviceReg w
  else if w < 0x060 then (below 4 ((w - 0x040) / 8)).bind fun n => inputReg n (w % 8)
  else if w < 0x090 then (below 6 ((w - 0x060) / 8)).bind fun m => outputReg m (w % 8)
  else if w < 0x0A0 then none
  else if w < 0x0C0 then portReg (w - 0x0A0)
  else if w < 0x0CB then (eventRegAt (w - 0x0C0)).map Reg.eventStatus
  else if w = 0x0CB then some .summary
  else if w < 0x0D0 then none
  else if w < 0x0DB then (eventRegAt (w - 0x0D0)).map Reg.eventEnable
  else if w < 0x100 then none
  else if w < 0x140 then
    (below 4 ((w - 0x100) / 16)).bind fun n => (inCounterAt (w % 16)).map fun c => .counter (.input n c)
  else if w < 0x1A0 then
    (below 6 ((w - 0x140) / 16)).bind fun m => (outCounterAt (w % 16)).map fun c => .counter (.output m c)
  else if w = 0x1A0 then some (.counter (.memory .eccCorrected))
  else if w = 0x1A1 then some (.counter (.memory .eccUncorrectable))
  else if w = 0x1A2 then some (.counter (.memory .refreshBacklog))
  else if w < 0x200 then none
  else if w < 0x300 then (below 32 ((w - 0x200) / 8)).map fun k => .record k (w % 8)
  else if w = 0x300 then some (.listLength .free)
  else if w < 0x321 then some (.listEntry .free (w - 0x301))
  else if w < 0x340 then none
  else if w < 0x380 then (below 4 ((w - 0x340) / 16)).bind fun n => readyReg n (w % 16)
  else if w = 0x380 then some .drainingSet
  else if w = 0x381 then some .heldSet
  else none

/-- A counter as it reads (R169). -/
def State.counterValue (s : State) : CounterName → Word
  | .input n c => ((s.input n).counters[inCounterIdx c]).setWidth 32
  | .output m c => ((s.output m).counters[outCounterIdx c]).setWidth 32
  | .memory .eccCorrected => s.mc.eccCorrected.setWidth 32
  | .memory .eccUncorrectable => s.mc.eccUncorrectable.setWidth 32
  | .memory .refreshBacklog => s.mc.refreshBacklog.setWidth 32

/-- An input's configuration register as it reads (R25, R173). -/
def InputChannel.configImage (ch : InputChannel) : InConfigReg → Word
  | .geom => ch.geomImage
  | .cfg => ch.cfgImage
  | .budget => packed ch.cfg.budget
  | .loss => packed ch.cfg.lossTimeout

/-- An output's settings register as it reads (R74, R173). -/
def OutputChannel.configImage (o : OutputChannel) : OutConfigReg → Word
  | .ctrl => o.ctrlImage
  | .blank => o.blankImage
  | .blankWord => o.cfg.blankWord

/-- A geometry register as it reads (R1). -/
def SlotManager.geometryImage (sm : SlotManager) : GeometryReg → Word
  | .base => sm.base
  | .stride => sm.stride
  | .slots => sm.count

/-- A word of OUTn_STATUS (R78, R173). -/
def State.outStatus (s : State) (m : Fin 6) : Fin 4 → Word
  | 0 => (s.output m).statusImage
  | 1 => (s.output m).lastImage
  | 2 => (s.output m).epoch
  | 3 => s.outCursors m

/-- An argument register (R110). -/
def CmdArgs.get (a : CmdArgs) : Fin 4 → Word
  | 0 => a.arg0
  | 1 => a.arg1
  | 2 => a.arg2
  | 3 => a.arg3

/-- An argument register stores a value (R110). -/
def CmdArgs.put (a : CmdArgs) (w : Word) : Fin 4 → CmdArgs
  | 0 => { a with arg0 := w }
  | 1 => { a with arg1 := w }
  | 2 => { a with arg2 := w }
  | 3 => { a with arg3 := w }

/-- The value of a register as it stands; write-only registers read 0, and so do RESET_CTRL and ACC_DATA, whose read is the
command ACC_DATA_READ (R171 to R177). -/
def State.regValue (s : State) : Reg → Word
  | .deviceStatus => s.deviceStatus
  | .resetCtrl => 0
  | .geometry r => s.sm.geometryImage r
  | .cmd => 0
  | .cmdArg i => s.cu.args.get i
  | .cmdResult => s.cu.resultImage
  | .cmdValue => s.cu.value
  | .arbCfg => s.arbCfgImage
  | .mcCfg => s.mc.cfgImage
  | .mcRefresh => packed s.mc.refreshInterval
  | .mcStatus => s.mc.statusImage
  | .timestamp => s.timeBase
  | .inCtrl n => (s.input n).ctrlImage
  | .inConfig n r => (s.input n).configImage r
  | .inStatus n => s.inStatus n
  | .inProgress n => (s.input n).progress.setWidth 32
  | .outConfig m r => (s.output m).configImage r
  | .outStatus m i => s.outStatus m i
  | .accAddr => s.ap.addr
  | .accCount => packed s.ap.count
  | .accCtrl => 0
  | .accData => 0
  | .accStatus => s.ap.statusImage
  | .eventStatus r => s.eu.status[eventRegIdx r]
  | .summary => s.eu.summary
  | .eventEnable r => s.eu.enable[eventRegIdx r]
  | .counter c => s.counterValue c
  | .record k i => s.recordWord k i
  | .listLength l => BitVec.ofNat 32 (s.sm.listOf l).length
  | .listEntry l i => s.listEntry l i
  | .drainingSet => maskOf s.sm.drainingSet
  | .heldSet => maskOf s.sm.heldSet

/-- A read of a register: the value is driven; ACC_DATA pops, and the first words of records and lists capture
(R171, R174, R175). -/
def State.readReg (s : State) (r : Reg) : State :=
  match r with
  | .accData => s.readAccData
  | .record k 0 => s.captureRecord k
  | .listLength l => s.captureList l
  | r => s.drive (s.regValue r)

/-- A write of a register by the block that owns it; read-only registers ignore it (R171, R172). -/
def State.writeReg (s : State) (r : Reg) (w : Word) : State :=
  match r with
  | .resetCtrl => s.writeResetCtrl w
  | .geometry r => s.writeGeometry r w
  | .cmd => s.writeCmd w
  | .cmdArg i => { s with cu := { s.cu with args := s.cu.args.put w i } }
  | .arbCfg => s.writeArbCfg w
  | .mcCfg => s.writeMcCfg w
  | .mcRefresh => s.writeMcRefresh w
  | .inCtrl n => s.writeInCtrl n (w.getLsbD 0) (stopModeOf (w.getLsbD 1))
  | .inConfig n r => s.writeInConfig n r w
  | .outConfig m r => s.writeOutConfig m r (w.getLsbD 0) w
  | .accAddr => s.writeAccAddr w
  | .accCount => s.writeAccCount w
  | .accCtrl => s.writeAccCtrl w
  | .accData => s.writeAccData w
  | .eventStatus r => s.clearEvents r w
  | .eventEnable r => s.writeEnables r w
  | .counter c => s.clearCounter c
  | .deviceStatus | .cmdResult | .cmdValue | .mcStatus | .timestamp | .inStatus _ | .inProgress _ | .outStatus _ _
  | .accStatus | .summary | .record _ _ | .listLength _ | .listEntry _ _ | .drainingSet | .heldSet => s

/-- A write cycle at an offset: ignored where no register stands (R171). -/
def State.writeOffset (s : State) (offset : BitVec 12) (w : Word) : State :=
  match regAt offset with
  | some r => s.writeReg r w
  | none => s

/-- A read cycle at an offset: 0 where no register stands (R171). -/
def State.readOffset (s : State) (offset : BitVec 12) : State :=
  match regAt offset with
  | some r => s.readReg r
  | none => s.drive 0

/-- A host bus cycle (R171): a read strobe, a write strobe, or both. -/
inductive BusCycle
  | read (offset : BitVec 12)
  | write (offset : BitVec 12) (w : Word)
  | both (offset : BitVec 12) (w : Word)
  deriving DecidableEq, Repr

/-- The effect of a host bus cycle. With both strobes it returns 0 and writes nothing (R171); while RESET_N is asserted
reads return 0 and writes are ignored (R178). Reads without an effect have no row in the table (assumption 16). -/
def hostCycle (c : BusCycle) (s : State) : Result :=
  match c with
  | .read offset => hostRead s fun s => s.readOffset offset
  | .write offset w => hostWrite s fun s => s.writeOffset offset w
  | .both _ _ => .next (s.drive 0)

/-- REGISTER_WRITE (R171): a write cycle. A write to CMD_ARG0 to CMD_ARG3 stores, one to a read-only register or an
unmapped offset is ignored; a write to a register with a behaviour of its own has that behaviour, and a write of RESET_CTRL
takes every reset it asks for (R177). -/
def execRegisterWrite (offset : BitVec 12) (w : Word) (s : State) : Result := hostCycle (.write offset w) s

end Sys2Proof.Machine
end

