-- ==== Sys2Proof/Machine/PullLink.lean ====
section
/-! DEFINITION. The pull link: FRAME_OPEN, LINE_PULL, FRAME_CLOSE (chapters 4 and 5). -/

namespace Sys2Proof.Machine

/-- A FRAME OPEN taken in DISABLING: while the frame is open it implies the missing close; it is answered OFFLINE
(R77). -/
def State.openDisabling (s : State) (m : Fin 6) : State :=
  if (s.output m).frame.isSome then ((s.protocolError m).closeDisabling m).answerOffline m else s.answerOffline m

/-- FRAME_OPEN (R79). -/
def execFrameOpen (m : Fin 6) (s : State) : Result :=
  match (s.output m).state with
  | .off => .next (s.answerOffline m)
  | .idle => .next (s.select m)
  | .showing => .next (((s.protocolError m).closeOutput m).select m)
  | .disabling => .next (s.openDisabling m)

/-- LINE_PULL (R99): by the open frame's status and the pull cursor; with no open frame by R105. -/
def execLinePull (m : Fin 6) (s : State) : Result :=
  match (s.output m).frame with
  | none => .next (s.pullClosed m)
  | some f =>
    if f.lineCount ≤ (s.output m).pull then .next (s.overpull m f)
    else if f.status = .blank then .next (s.pullBlank m f)
    else .next (s.pullLine m f)

/-- FRAME_CLOSE (R77, R107, R108). -/
def execFrameClose (m : Fin 6) (s : State) : Result :=
  match (s.output m).state with
  | .off => .next s
  | .idle => .next (s.protocolError m)
  | .showing => .next ((s.closeOutput m).modOutput m fun o => { o with state := .idle })
  | .disabling => .next (if (s.output m).frame.isSome then s.closeDisabling m else s)

end Sys2Proof.Machine
end

