-- ==== Sys2Proof/Machine/PushLink.lean ====
section
/-! DEFINITION. The push link and the loss timer: FRAME_START, LINE, FRAME_END, LOSS_TIMER_EXPIRY (chapter 2). -/

namespace Sys2Proof.Machine

/-- A FRAME START arriving in FILLING: the open entry closes broken; then a pending stop completes, or the message is taken
as the start of a new frame (R31). -/
def State.frameStartFilling (s : State) (n : Fin 4) (tag : Option Word) : State :=
  let s' := (s.broken n).closeFrame n .discard false
  if (s.input n).stopPending then s'.stopCompletion n else s'.takeFrameStart n tag

/-- FRAME_START (R24, R30, R31). -/
def execFrameStart (n : Fin 4) (tag : Option Word) (s : State) : Result :=
  match (s.input n).state with
  | .armed | .skipping => .next (s.takeFrameStart n tag)
  | .filling => .next (s.frameStartFilling n tag)
  | .off | .stopping | .resetting => .next s

/-- An accepted line enters the tail of the line FIFO with its entry and number (R33, R34). -/
def InputChannel.acceptLine (ch : InputChannel) (e : FrameEntry) (payload : List Word) : InputChannel :=
  { ch with
    fifo := ch.fifo ++ [⟨e.slot, e.received, payload⟩]
    fill := ch.fill.map fun x => if x.status = .opened then { x with received := x.received + 1 } else x }

/-- A LINE arriving in FILLING: length, count and space checks in order, then acceptance (R33). -/
def State.lineFilling (s : State) (n : Fin 4) (e : FrameEntry) (payload : List Word) : State :=
  let ch := s.input n
  if payload.length ≠ ch.cfg.lineLength then (s.broken n).endFrame n .skipping .discard false
  else if e.expected ≤ e.received then (s.broken n).endFrame n .skipping .discard false
  else if Config.lineFifoPlaces ≤ ch.fifo.length then
    ((s.countIn n .linesOverflowed).raiseIn n .lineOverflow).endFrame n .skipping .discard false
  else (s.modInput n fun ch => ch.acceptLine e payload).raiseWrite n

/-- LINE (R24, R33, R35). -/
def execLine (n : Fin 4) (payload : List Word) (s : State) : Result :=
  match (s.input n).state with
  | .armed => .next (s.stray n)
  | .filling =>
    match (s.input n).openEntry with
    | some e => .next (s.lineFilling n e payload)
    | none => .next s
  | .off | .skipping | .stopping | .resetting => .next s

/-- A FRAME END arriving in FILLING (R36): all lines received, a kept short frame, or a broken one. -/
def State.frameEndFilling (s : State) (n : Fin 4) (e : FrameEntry) : State :=
  if e.received = e.expected then s.endFrame n .armed .publish false
  else if 1 ≤ e.received && e.received < e.expected && (s.input n).cfg.keepShort then s.endFrame n .armed .publish true
  else (s.broken n).endFrame n .armed .discard false

/-- FRAME_END (R24, R35 to R37). -/
def execFrameEnd (n : Fin 4) (s : State) : Result :=
  match (s.input n).state with
  | .armed => .next (s.stray n)
  | .filling =>
    match (s.input n).openEntry with
    | some e => .next (s.frameEndFilling n e)
    | none => .next s
  | .skipping => .next (s.modInput n fun ch => { ch with state := .armed })
  | .off | .stopping | .resetting => .next s

/-- The loss: LOST set, SIGNAL_LOST raised and counted, timer stopped; an open frame is discarded as broken, a skip is
abandoned, and a pending stop completes (R39). -/
def State.signalLost (s : State) (n : Fin 4) : State :=
  let s1 := ((s.modInput n fun ch => { ch with lost := true, lossTimer := none }).countIn n .signalLosses).raiseIn n
    .signalLost
  if (s.input n).state = .filling then (s1.broken n).endFrame n .armed .discard false
  else s1.modInput n fun ch => { ch with state := .armed }

/-- LOSS_TIMER_EXPIRY (R38, R39): only while the timer runs, once loss timeout × 1000 µs have passed. -/
def execLossTimerExpiry (n : Fin 4) (s : State) : Result :=
  match (s.input n).lossTimer with
  | none => .refused .timerNotRunning
  | some start =>
    if elapsedUs start s.timeBase < (s.input n).cfg.lossTimeout * 1000 then .refused .timeNotElapsed
    else .next (s.signalLost n)

end Sys2Proof.Machine
end

