-- ==== Sys2Proof/Machine/Timers.lean ====
section
/-! DEFINITION. Time and the memory controller's own happenings: refresh timer, initialisation stages, time base, loss of
charge (chapters 8 and 11). -/

namespace Sys2Proof.Machine

/-- The refresh timer starts from zero with the interval that MC_REFRESH now holds (R143, R144). -/
def MemController.startRefresh (mc : MemController) (now : Word) : MemController :=
  { mc with refreshTimer := some ⟨now, mc.refreshInterval⟩ }

/-- The expiry: the timer restarts; refresh-due is set, which is a grant moment, or the backlog is counted
(R144, R155). -/
def State.refreshExpired (s : State) : State :=
  let mc := s.mc.startRefresh s.timeBase
  if s.mc.refreshDue then { s with mc := { mc with refreshBacklog := satAdd mc.refreshBacklog 1 } }
  else { s with mc := { mc with refreshDue := true } }.grantMoment

/-- REFRESH_TIMER_EXPIRY (R144): only while the timer runs, once its interval has passed. -/
def execRefreshTimerExpiry (s : State) : Result :=
  match s.mc.refreshTimer with
  | none => .refused .timerNotRunning
  | some t =>
    if elapsedUs t.start s.timeBase < t.interval then .refused .timeNotElapsed else .next s.refreshExpired

/-- INIT_STAGE_END (R142): one of stages 1 to 4 ends and the next begins. Stage 1 lasts 200 µs by the time base; the
SDRAM operations of stages 2 to 4 end when they have finished. -/
def execInitStageEnd (s : State) : Result :=
  if s.mc.state = .initializing && 1 ≤ s.mc.stage && s.mc.stage ≤ 4 then
    if s.mc.stage = 1 && elapsedUs s.mc.stageStart s.timeBase < Config.powerSettleUs then .refused .timeNotElapsed
    else .next { s with mc := { s.mc with stage := s.mc.stage + 1, stageStart := s.timeBase } }
  else .refused .stageNotRunning

/-- The entry into READY: refresh timer started, refresh-due clear, words undefined, MEM_READY, MEMORY INIT completed with
OK, and a grant moment (R114, R143, R155). -/
def State.enterReady (s : State) : State :=
  (({ s with
      mc := { s.mc with state := .ready, stage := 0, refreshDue := false }.startRefresh s.timeBase
      store := s.store.forgetAll }.raiseGlobal .memReady).completeCommand 0x01 .ok 0).grantMoment

/-- END_OF_STAGE_5 (R143): after 2 µs by the time base. -/
def execEndOfStage5 (s : State) : Result :=
  if s.mc.state = .initializing && s.mc.stage = 5 then
    if elapsedUs s.mc.stageStart s.timeBase < Config.holdOffUs then .refused .timeNotElapsed else .next s.enterReady
  else .refused .stageNotRunning

/-- TIME_BASE_ADVANCE (R178, R179): the count stays at 0 while RESET_N is asserted. -/
def execTimeBaseAdvance (s : State) : Result :=
  .next (if s.resetAsserted then s else { s with timeBase := s.timeBase + 1 })

/-- Refresh does not keep the charge: it is stopped, or its interval is longer than the device allows (R139, R152). -/
def State.chargeMayLeak (s : State) : Bool :=
  s.mc.state ≠ .ready || Config.deviceRefreshLimit < s.mc.refreshInterval

/-- LOSS_OF_CHARGE (R139, R152). Words beyond the store do not exist. -/
def execLossOfCharge (decay : List (Nat × BitVec 39)) (s : State) : Result :=
  if s.chargeMayLeak then
    .next { s with store := s.store.decay (decay.filter fun d => d.1 < Config.storeWords) }
  else .refused .refreshKeepsCharge

end Sys2Proof.Machine
end

