-- ==== Sys2Proof/Machine/Dispatch.lean ====
section
/-! DEFINITION. One arm per command, each one call of its meaning. -/

namespace Sys2Proof.Machine

def exec (i : Instr) (s : State) : Host.Outcome State Fault Refusal :=
  match i with
  | .frameStart n tag => Sys2Proof.Machine.execFrameStart n tag s
  | .line n payload => Sys2Proof.Machine.execLine n payload s
  | .frameEnd n => Sys2Proof.Machine.execFrameEnd n s
  | .frameOpen m => Sys2Proof.Machine.execFrameOpen m s
  | .linePull m => Sys2Proof.Machine.execLinePull m s
  | .frameClose m => Sys2Proof.Machine.execFrameClose m s
  | .lossTimerExpiry n => Sys2Proof.Machine.execLossTimerExpiry n s
  | .refreshTimerExpiry => Sys2Proof.Machine.execRefreshTimerExpiry s
  | .initStageEnd => Sys2Proof.Machine.execInitStageEnd s
  | .endOfStage5 => Sys2Proof.Machine.execEndOfStage5 s
  | .lineWriteCompletion => Sys2Proof.Machine.execLineWriteCompletion s
  | .lineReadCompletion => Sys2Proof.Machine.execLineReadCompletion s
  | .blockReadCompletion => Sys2Proof.Machine.execBlockReadCompletion s
  | .blockWriteCompletion => Sys2Proof.Machine.execBlockWriteCompletion s
  | .clearWriteCompletion => Sys2Proof.Machine.execClearWriteCompletion s
  | .refreshCompletion => Sys2Proof.Machine.execRefreshCompletion s
  | .orphanCompletion => Sys2Proof.Machine.execOrphanCompletion s
  | .memoryInit => Sys2Proof.Machine.execMemoryInit s
  | .poolBuild => Sys2Proof.Machine.execPoolBuild s
  | .poolTeardown => Sys2Proof.Machine.execPoolTeardown s
  | .slotClaim => Sys2Proof.Machine.execSlotClaim s
  | .slotHold => Sys2Proof.Machine.execSlotHold s
  | .slotRelease => Sys2Proof.Machine.execSlotRelease s
  | .slotPublish => Sys2Proof.Machine.execSlotPublish s
  | .slotClear => Sys2Proof.Machine.execSlotClear s
  | .inputFlush => Sys2Proof.Machine.execInputFlush s
  | .unknownCommand code => Sys2Proof.Machine.execUnknownCommand code s
  | .read => Sys2Proof.Machine.execRead s
  | .flush => Sys2Proof.Machine.execFlush s
  | .discard => Sys2Proof.Machine.execDiscard s
  | .accDataRead => Sys2Proof.Machine.execAccDataRead s
  | .accDataWrite w => Sys2Proof.Machine.execAccDataWrite w s
  | .accAddrWrite w => Sys2Proof.Machine.execAccAddrWrite w s
  | .accCountWrite w => Sys2Proof.Machine.execAccCountWrite w s
  | .enableAttempt n mode => Sys2Proof.Machine.execEnableAttempt n mode s
  | .immediateStop n => Sys2Proof.Machine.execImmediateStop n s
  | .stopAtFrameEnd n => Sys2Proof.Machine.execStopAtFrameEnd n s
  | .inputConfigWrite n reg w => Sys2Proof.Machine.execInputConfigWrite n reg w s
  | .outputEnable m w => Sys2Proof.Machine.execOutputEnable m w s
  | .outputDisable m w => Sys2Proof.Machine.execOutputDisable m w s
  | .outputConfigWrite m reg w => Sys2Proof.Machine.execOutputConfigWrite m reg w s
  | .geometryWrite reg w => Sys2Proof.Machine.execGeometryWrite reg w s
  | .mcCfgWrite w => Sys2Proof.Machine.execMcCfgWrite w s
  | .mcRefreshWrite w => Sys2Proof.Machine.execMcRefreshWrite w s
  | .arbCfgWrite w => Sys2Proof.Machine.execArbCfgWrite w s
  | .eventClear reg w => Sys2Proof.Machine.execEventClear reg w s
  | .eventEnableWrite reg w => Sys2Proof.Machine.execEventEnableWrite reg w s
  | .counterClear c w => Sys2Proof.Machine.execCounterClear c w s
  | .recordCapture k => Sys2Proof.Machine.execRecordCapture k s
  | .listCapture l => Sys2Proof.Machine.execListCapture l s
  | .registerWrite offset w => Sys2Proof.Machine.execRegisterWrite offset w s
  | .fullSoftReset => Sys2Proof.Machine.execFullSoftReset s
  | .inputChannelReset n => Sys2Proof.Machine.execInputChannelReset n s
  | .outputChannelReset m => Sys2Proof.Machine.execOutputChannelReset m s
  | .pinReset => Sys2Proof.Machine.execPinReset s
  | .resetNDeassertion => Sys2Proof.Machine.execResetNDeassertion s
  | .stopModeWrite n enable mode => Sys2Proof.Machine.execStopModeWrite n enable mode s
  | .timeBaseAdvance => Sys2Proof.Machine.execTimeBaseAdvance s
  | .lossOfCharge decay => Sys2Proof.Machine.execLossOfCharge decay s

end Sys2Proof.Machine
end

