-- ==== Sys2Proof/Safety.lean ====
section
/-! DEFINITION. What claims call a safe state: the invariants that the spec states of the whole machine, each as a predicate
on states. -/

namespace Sys2Proof.Machine

/-! ### Settings and sizes -/

/-- Every setting of an input lies in its range (R25). -/
def InConfig.ok (c : InConfig) : Prop :=
  (16 ≤ c.lineLength ∧ c.lineLength ≤ 1024) ∧ (1 ≤ c.linesPerFrame ∧ c.linesPerFrame ≤ 2048) ∧
  (1 ≤ c.quota ∧ c.quota ≤ 8) ∧ (1 ≤ c.watermark ∧ c.watermark ≤ 3) ∧ c.budget ≤ 65535 ∧ c.lossTimeout ≤ 65535

/-- Every setting of an output lies in its range (R74). -/
def OutConfig.ok (c : OutConfig) : Prop :=
  c.delay ≤ 7 ∧ c.watermark ≤ 3 ∧ (16 ≤ c.blankLength ∧ c.blankLength ≤ 1024) ∧
  (1 ≤ c.blankCount ∧ c.blankCount ≤ 2048)

/-- Every setting of the machine lies in its range (R25, R74, R126, R139). -/
def State.settingsOk (s : State) : Prop :=
  (∀ n, (s.input n).cfg.ok) ∧ (∀ m, (s.output m).cfg.ok) ∧
  (1 ≤ s.mc.refreshInterval ∧ s.mc.refreshInterval ≤ 255) ∧ (1 ≤ s.ap.count ∧ s.ap.count ≤ 16)

/-- No ready list holds more entries than its input's quota (R11). -/
def State.quotasOk (s : State) : Prop := ∀ n, (s.sm.readyOf n).length ≤ (s.input n).cfg.quota

/-- The stored requests name the clients that the arbiter holds them for (R146, R153). -/
def State.clientsOk (s : State) : Prop :=
  (∀ (n : Fin 4) (r : MemRequest), s.arb.inReq[n] = some r → r.client = .input n) ∧
  (∀ (m : Fin 6) (r : MemRequest), s.arb.outReq[m] = some r → r.client = .output m) ∧
  (∀ r, s.arb.apReq = some r → r.request.client = .accessPort) ∧
  (∀ r, s.arb.cuReq = some r → r.request.client = .commandUnit) ∧
  (∀ r, s.ap.deferred = some r → r.client = .accessPort)

/-- No channel engine has a request both pending and in execution (R153). -/
def State.oneRequestEach (s : State) : Prop :=
  (∀ n : Fin 4, s.arb.inReq[n].isSome → s.execBy (.input n) = false) ∧
  (∀ m : Fin 6, s.arb.outReq[m].isSome → s.execBy (.output m) = false)

/-- A prefetch FIFO holds at most 4 lines, and at most 3 while a read is outstanding (R94, R95). -/
def State.prefetchOk (s : State) : Prop :=
  ∀ m, (s.output m).fifo.length ≤ 4 ∧ (s.readOutstanding m = true → (s.output m).fifo.length ≤ 3)

/-- A read of OUTm that will be delivered to it: pending, or in execution and not left there by a full soft reset (R95,
R151). -/
def State.readsFor (s : State) (m : Fin 6) (r : MemRequest) : Prop :=
  s.arb.outReq[m] = some r ∨ (s.mc.exec = some ⟨r, false⟩ ∧ r.client = .output m)

/-- A frame is open that is not BLANK (R92). -/
def OutputChannel.showsPicture (o : OutputChannel) : Prop := ∃ f, o.frame = some f ∧ f.status ≠ .blank

/-- The lines of every prefetch FIFO are of the current epoch, in strictly increasing line number, each at or beyond the pull
cursor and below the fetch cursor, and only in a frame that is not BLANK; a read of the current epoch asks for a line beyond
them, in such a frame; and the fetch cursor stays within the frame (R93, R94, R95). -/
def State.linesOrdered (s : State) : Prop :=
  ∀ m, (∀ f, (s.output m).frame = some f → (s.output m).fetch ≤ f.lineCount) ∧
    ((s.output m).fifo.Pairwise fun a b => a.number < b.number) ∧
    (∀ l ∈ (s.output m).fifo, l.epoch = (s.output m).epoch ∧ (s.output m).pull ≤ l.number ∧
      l.number < (s.output m).fetch ∧ (s.output m).showsPicture) ∧
    ∀ r, s.readsFor m r → r.epoch = (s.output m).epoch →
      r.number < (s.output m).fetch ∧ (s.output m).showsPicture ∧ ∀ l ∈ (s.output m).fifo, l.number < r.number

/-- No outstanding read is of one of the next two epochs of its output: between a read's raising and its completion the epoch
would have to increase almost 2^32 times (R93). One command increases an epoch at most twice (R79, R93). -/
def State.epochsAhead (s : State) : Prop :=
  ∀ m r, s.readsFor m r → r.epoch ≠ (s.output m).epoch + 1 ∧ r.epoch ≠ (s.output m).epoch + 2

/-- A line FIFO holds at most 3 lines (R34). -/
def State.lineFifosOk (s : State) : Prop := ∀ n, (s.input n).fifo.length ≤ 3

/-- The pass-over counts lie in 0 to 8 (R160), and the port's write buffer holds at most 16 words (R126). -/
def State.hostBoundsOk (s : State) : Prop :=
  (∀ r, s.arb.apReq = some r → r.passed ≤ 8) ∧ (∀ r, s.arb.cuReq = some r → r.passed ≤ 8) ∧
  s.ap.writeBuf.length ≤ 16

/-! ### Fill contexts (R29, R71) -/

/-- The fill context of an input: at most two entries, only the last may be OPEN and it is OPEN exactly in FILLING, none in
OFF; outside OFF the budget covers the progress with the OPEN and PUBLISH entries (R29, R71); and the loss timer runs only in
ARMED, FILLING and SKIPPING (R38). -/
def InputChannel.fillOk (ch : InputChannel) : Prop :=
  ch.fill.length ≤ 2 ∧
  (∀ e ∈ ch.fill.dropLast, e.isClosed = true) ∧
  (∀ e, ch.fill.getLast? = some e → (e.isClosed = false ↔ ch.state = .filling)) ∧
  (ch.state = .filling → ch.fill ≠ []) ∧
  (ch.state = .off → ch.fill = []) ∧
  ch.cfg.budget ≤ 65535 ∧
  (ch.state ≠ .off → ch.cfg.budget ≠ 0 →
    ch.progress.toNat + ch.fill.countP FrameEntry.countsForBudget ≤ ch.cfg.budget) ∧
  (ch.lossTimer ≠ none → ch.state = .armed ∨ ch.state = .filling ∨ ch.state = .skipping)

/-- Every fill context is in order (R29, R38, R71). -/
def State.fillsOk (s : State) : Prop := ∀ n, (s.input n).fillOk

/-! ### Slots (R3, R6, R14, R17, R21) -/

/-- Slot Sk is an entry of the fill context of INn, OPEN or CLOSED. -/
def State.inFill (s : State) (n : Fin 4) (closed : Bool) (k : Nat) : Prop :=
  ∃ e ∈ (s.input n).fill, e.slot = k ∧ e.isClosed = closed

/-- Every slot of the pool is in exactly one location, the one that its state field and owner name: the lists hold no slot
twice, and a list or context holds exactly the slots whose records say so (R6). The draining set and the held set are read
off the state field. While the pool is ABSENT there is no record and every list is empty (R3, R22). -/
def State.locationsOk (s : State) : Prop :=
  (s.sm.built = true → s.sm.slots.length = s.sm.count.toNat) ∧
  (s.sm.built = false → s.sm.slots = []) ∧
  s.sm.free.Nodup ∧
  (∀ k, k ∈ s.sm.free ↔ k < s.sm.slots.length ∧ (s.sm.slot k).state = .free) ∧
  (∀ n, (s.sm.readyOf n).Nodup ∧
    ∀ k, k ∈ s.sm.readyOf n ↔
      k < s.sm.slots.length ∧ (s.sm.slot k).state = .ready ∧ (s.sm.slot k).owner = some n) ∧
  (∀ n, ((s.input n).fill.map FrameEntry.slot).Nodup ∧
    (∀ k, s.inFill n false k ↔
      k < s.sm.slots.length ∧ (s.sm.slot k).state = .filling ∧ (s.sm.slot k).owner = some n) ∧
    ∀ k, s.inFill n true k ↔
      k < s.sm.slots.length ∧ (s.sm.slot k).state = .closed ∧ (s.sm.slot k).owner = some n) ∧
  ∀ k, k < s.sm.slots.length → ((s.sm.slot k).owner.isSome = true ↔
    (s.sm.slot k).state = .filling ∨ (s.sm.slot k).state = .closed ∨ (s.sm.slot k).state = .ready)

/-- How far slot Sk's sequence number lies behind the next-sequence counter of INn, modulo 2^32 (R13). -/
def SlotManager.behind (sm : SlotManager) (n : Fin 4) (k : Nat) : Nat :=
  (sm.seqOf n - (sm.slot k).sequence.getD 0).toNat

/-- Every entry of a ready list has a sequence number, one that the counter has passed, and from oldest to newest the numbers
strictly increase: each lies less far behind the counter than the one before it (R11, R13). -/
def State.sequencesOk (s : State) : Prop :=
  ∀ n, (∀ k ∈ s.sm.readyOf n, (s.sm.slot k).sequence.isSome = true ∧ 1 ≤ s.sm.behind n k) ∧
    (s.sm.readyOf n).Pairwise fun older newer => s.sm.behind n newer < s.sm.behind n older

/-- No entry of a ready list lies more than `d` behind its input's next-sequence counter. -/
def State.sequencesWithin (s : State) (d : Nat) : Prop := ∀ n, ∀ k ∈ s.sm.readyOf n, s.sm.behind n k ≤ d

/-- An open frame stands exactly in SHOWING and in DISABLING before the close; after the close in DISABLING nothing is
retained (section 4.3, R77, R92). -/
def State.framesOk (s : State) : Prop :=
  ∀ m, ((s.output m).state = .off ∨ (s.output m).state = .idle → (s.output m).frame = none) ∧
    ((s.output m).state = .showing → (s.output m).frame.isSome = true) ∧
    ((s.output m).state = .disabling → (s.output m).frame = none → (s.output m).retained = none)

/-- An output is in a slot's reader set exactly when that slot is its retained slot, and an OFF output retains none
(R17). -/
def State.readersOk (s : State) : Prop :=
  (∀ m k, (s.output m).retained = some k ↔
    k < s.sm.slots.length ∧ (s.sm.slot k).readers.getLsbD m.val = true) ∧
  ∀ m, (s.output m).state = .off → (s.output m).retained = none

/-- Every slot in the draining set has a non-empty reader set (R14). -/
def State.drainingOk (s : State) : Prop := ∀ r ∈ s.sm.slots, r.state = .draining → r.readers ≠ 0

/-- Write pending stands only on HELD slots (R21). -/
def State.pendingOk (s : State) : Prop := ∀ r ∈ s.sm.slots, r.writePending = true → r.state = .held

/-! ### RESET_N (R178) -/

/-- The pin-reset state with the parts that stay open while RESET_N is asserted taken from `s`: the queue and the last
outputs to host and sinks (the model's own) and the frame store. -/
def State.heldInReset (s : State) : State :=
  { State.reset with
    pending := s.pending
    resetAsserted := true
    outputs := Vector.ofFn fun m : Fin 6 =>
      { State.reset.output m with answer := (s.output m).answer, line := (s.output m).line }
    store := s.store
    host := { HostInterface.reset with data := s.host.data } }

/-- While RESET_N is asserted the machine is in the pin-reset state (R178). -/
def State.resetHeld (s : State) : Prop := s.resetAsserted = true → s = s.heldInReset

end Sys2Proof.Machine
end

