-- ==== Sys2Proof/WellFormed.lean ====
section
/-! DEFINITION. Well-formed commands: what the links and the bus can deliver at all. A command that is not well formed
is no message of the spec. A value that a rule judges (a register field, an argument) is not judged here. -/

namespace Sys2Proof

/-- The command codes of R176. -/
def commandCodes : List (BitVec 8) := [0x01, 0x02, 0x03, 0x10, 0x11, 0x12, 0x13, 0x14, 0x15]

/-- A LINE carries 1 to 1024 words (R24). -/
def payloadOk (payload : List Word) : Bool := 1 ≤ payload.length && payload.length ≤ 1024

/-- A decayed word is a word of the store, and some bit of it decayed (R152). -/
def decayOk (d : Nat × BitVec 39) : Bool := d.1 < Config.storeWords && d.2 != 0

/-- Whether a command is one that a sender of the spec can send. -/
def Instr.wellFormed : Instr → Bool
  | .line _ payload => payloadOk payload
  | .unknownCommand code => !commandCodes.contains code
  | .outputEnable _ w => w.getLsbD 0
  | .outputDisable _ w => !w.getLsbD 0
  | .lossOfCharge decay => decay.all decayOk
  | .frameStart _ _ | .frameEnd _ | .frameOpen _ | .linePull _ | .frameClose _ | .lossTimerExpiry _
  | .refreshTimerExpiry | .initStageEnd | .endOfStage5 | .lineWriteCompletion | .lineReadCompletion
  | .blockReadCompletion | .blockWriteCompletion | .clearWriteCompletion | .refreshCompletion
  | .orphanCompletion | .memoryInit | .poolBuild | .poolTeardown | .slotClaim | .slotHold | .slotRelease
  | .slotPublish | .slotClear | .inputFlush | .read | .flush | .discard | .accDataRead | .accDataWrite _
  | .accAddrWrite _ | .accCountWrite _ | .enableAttempt _ _ | .immediateStop _ | .stopAtFrameEnd _
  | .inputConfigWrite _ _ _ | .outputConfigWrite _ _ _ | .geometryWrite _ _ | .mcCfgWrite _
  | .mcRefreshWrite _ | .arbCfgWrite _ | .eventClear _ _ | .eventEnableWrite _ _ | .counterClear _ _
  | .recordCapture _ | .listCapture _ | .registerWrite _ _ | .fullSoftReset | .inputChannelReset _
  | .outputChannelReset _ | .pinReset | .resetNDeassertion | .stopModeWrite _ _ _ | .timeBaseAdvance => true

end Sys2Proof
end

