-- ==== Sys2Proof/Certificates/Slice0/Obligations.lean ====
section
/-! DEFINITION. The statements for the provers. Each says what a rule of spec/ says of the machine. -/

open Sys2Proof Sys2Proof.Machine

/-! ### The queue of commands (assumption 1) -/

/-- A step runs the command at the front of the queue with the queue's rest. -/
def Obligations.StepRunsFront : Prop :=
  ∀ (c : Instr) (s : State), step { s with pending := c :: s.pending } = exec c s

/-- No command changes the queue of waiting commands; and, the model's choice by assumption 1, on an empty queue the block
idles. -/
def Obligations.QueueHandled : Prop :=
  (∀ s : State, s.pending = [] → step s = .next s) ∧
  ∀ (c : Instr) (s t : State), exec c s = .next t → t.pending = s.pending

/-! ### Reset values and resets -/

/-- The reset values that the spec gives for registers, pointers and states (R1, R25, R74, R110, R126, R138, R139, R140,
R158, R161, R167, R179). -/
def Obligations.ResetValues : Prop :=
  State.reset.timeBase = 0 ∧
  (State.reset.sm.built = false ∧ State.reset.sm.base = 0 ∧ State.reset.sm.stride = 307200 ∧
    State.reset.sm.count = 8) ∧
  (∀ n, (State.reset.input n).state = .off ∧ (State.reset.input n).stopMode = .immediate ∧
    (State.reset.input n).cfg = ⟨640, 480, 2, false, 2, 0, 0⟩ ∧ State.reset.sm.seqOf n = 0) ∧
  (∀ m : Fin 6, (State.reset.output m).state = .off ∧ (State.reset.output m).epoch = 0 ∧
    (State.reset.output m).cfg.source.val = m.val % 4 ∧ (State.reset.output m).cfg.policy = .latest ∧
    (State.reset.output m).cfg.delay = 0 ∧ (State.reset.output m).cfg.freeze = false ∧
    (State.reset.output m).cfg.mute = false ∧ (State.reset.output m).cfg.lossAction = .keep ∧
    (State.reset.output m).cfg.fillKind = .blank ∧ (State.reset.output m).cfg.watermark = 1 ∧
    (State.reset.output m).cfg.blankLength = 640 ∧ (State.reset.output m).cfg.blankCount = 480 ∧
    (State.reset.output m).cfg.blankWord = 0) ∧
  State.reset.cu = ⟨none, ⟨0, 0, 0, 0⟩, 0, .ok, 0⟩ ∧
  State.reset.ap = ⟨0, 1, .idle, [], [], none, .none, none⟩ ∧
  (State.reset.arb.urgentOut = 0 ∧ State.reset.arb.urgentIn = 0 ∧ State.reset.arb.normal = 0 ∧
    State.reset.arb.host = .accessPort ∧ State.reset.arb.preference = .outputs ∧
    State.reset.arb.profile = .outputFirst) ∧
  (State.reset.mc.state = .uninit ∧ State.reset.mc.size = .words4M ∧ State.reset.mc.profile = .t100 ∧
    State.reset.mc.modeFirst = false ∧ State.reset.mc.refreshInterval = 7 ∧ State.reset.mc.refreshTimer = none ∧
    State.reset.mc.refreshDue = false ∧ State.reset.mc.exec = none) ∧
  (∀ i : Fin 11, State.reset.eu.status[i] = 0 ∧ State.reset.eu.enable[i] = 0) ∧
  State.reset.eu.interruptLine = false

/-- The state after reset satisfies every invariant. -/
def Obligations.ResetStateIsSafe : Prop :=
  State.reset.settingsOk ∧ State.reset.quotasOk ∧ State.reset.clientsOk ∧ State.reset.oneRequestEach ∧
  State.reset.prefetchOk ∧ State.reset.lineFifosOk ∧ State.reset.hostBoundsOk ∧ State.reset.fillsOk ∧
  State.reset.locationsOk ∧ State.reset.framesOk ∧ State.reset.readersOk ∧ State.reset.drainingOk ∧
  State.reset.pendingOk ∧ State.reset.resetHeld ∧ State.reset.store.wf ∧ State.reset.linesOrdered ∧
  State.reset.sequencesOk

/-- PIN_RESET (R178, R150): every block takes its pin-reset state. What is left is the queue and the frame store, in which the
words that an aborted write addressed are undefined and every other word is kept. At RESET_N's deassertion nothing else
changes; while it is asserted host writes change nothing, host reads return 0, the time base stands still; and a cycle with
both strobes returns 0 and writes nothing (R171). -/
def Obligations.PinReset : Prop :=
  (∀ s : State, ∃ st : FrameStore,
    exec .pinReset s = .next { State.reset with pending := s.pending, resetAsserted := true, store := st } ∧
    ∀ a, lookupCell st.cells a =
      match s.mc.exec with
      | none => lookupCell s.store.cells a
      | some e =>
        if (e.request.kind = .lineWrite ∨ e.request.kind = .blockWrite ∨ e.request.kind = .clearWrite) ∧
            e.request.addr ≤ a ∧ a < e.request.addr + e.request.count then none
        else lookupCell s.store.cells a) ∧
  (∀ s : State, exec .resetNDeassertion s = .next { s with resetAsserted := false }) ∧
  (∀ (s : State) (offset : BitVec 12) (w : Word), s.resetAsserted = true →
    exec (.registerWrite offset w) s = .next s ∧
    hostCycle (.read offset) s = .next { s with host := { s.host with data := 0 } }) ∧
  (∀ s : State, s.resetAsserted = true → exec .timeBaseAdvance s = .next s) ∧
  ∀ (s : State) (offset : BitVec 12) (w : Word),
    hostCycle (.both offset w) s = .next { s with host := { s.host with data := 0 } }

/-- FULL_SOFT_RESET (R177, R151): every block at its reset values; kept are the time base, the frame store, MC_CFG, MC_REFRESH
and the request in execution, which is delivered to no client; READY, the refresh timer and refresh-due are kept when the
controller was READY with the pool BUILT, and otherwise the controller enters UNINIT. -/
def Obligations.FullSoftResetState : Prop :=
  ∀ s : State, s.resetAsserted = false → ∃ mc : MemController,
    exec .fullSoftReset s = .next { State.reset with
      pending := s.pending, timeBase := s.timeBase, store := s.store, mc := mc,
      host := { State.reset.host with data := s.host.data } } ∧
    (mc.size = s.mc.size ∧ mc.profile = s.mc.profile ∧ mc.modeFirst = s.mc.modeFirst ∧
      mc.refreshInterval = s.mc.refreshInterval) ∧
    (mc.stage = 0 ∧ mc.eccCorrected = 0 ∧ mc.eccUncorrectable = 0 ∧ mc.refreshBacklog = 0) ∧
    mc.exec = s.mc.exec.map (fun e => ⟨e.request, true⟩) ∧
    (s.mc.state = .ready → s.sm.built = true →
      mc.state = .ready ∧ mc.refreshTimer = s.mc.refreshTimer ∧ mc.refreshDue = s.mc.refreshDue) ∧
    (s.mc.state ≠ .ready ∨ s.sm.built = false →
      mc.state = .uninit ∧ mc.refreshTimer = none ∧ mc.refreshDue = false)

/-- INPUT_CHANNEL_RESET (R47, R23): settings kept and every other field of the channel at its reset value, but for the
discarded entries and the line being written, which stay in RESETTING while a write is in flight; the ready list is retired
oldest first, the next-sequence counter becomes 0, the status bits are cleared, the pending request is withdrawn.
OUTPUT_CHANNEL_RESET (R90): OFF with the settings kept; the retained slot is left, the frame ends without the close, the
pending read is withdrawn, the epoch increases, L and the loss-reported flag are cleared, counters and status bits become 0.
That it keeps the two cursors is the model's choice by assumption 20, and that it keeps the last messages to the sink, which are
fields of the model's own, by assumption 17; that a write which a full soft reset left in execution does not hold an input in
RESETTING is the model's choice by assumption 13. -/
def Obligations.ChannelResets : Prop :=
  (∀ (n : Fin 4) (s : State), s.resetAsserted = false →
    ((s.input n).state = .resetting →
      exec (.inputChannelReset n) s = .next ({ s with eu := s.eu.clearReg (.input n) }.setInput n
        { s.input n with counters := Vector.replicate 11 0 })) ∧
    ((s.input n).state ≠ .resetting → ∃ sm : SlotManager,
      sm = ((((s.sm.setReady n []).retireAll (s.sm.readyOf n)).setSeq n 0).closeRecords (s.input n).fill) ∧
      (s.inFlight (.input n) = true →
        exec (.inputChannelReset n) s = .next ({ s with
          sm := sm,
          eu := s.eu.clearReg (.input n),
          arb := { s.arb with inReq := s.arb.inReq.set n none } }.setInput n
            { InputChannel.reset with
              cfg := (s.input n).cfg
              state := .resetting
              fill := (s.input n).fill.map fun e : FrameEntry => { e with status := .closed .discard }
              fifo := (s.input n).fifo.take 1 })) ∧
      (s.inFlight (.input n) = false →
        exec (.inputChannelReset n) s = .next ({ s with
          sm := sm.toFreeAll ((s.input n).fill.map FrameEntry.slot),
          eu := s.eu.clearReg (.input n),
          arb := { s.arb with inReq := s.arb.inReq.set n none } }.setInput n
            { InputChannel.reset with cfg := (s.input n).cfg })))) ∧
  ∀ (m : Fin 6) (s : State), s.resetAsserted = false →
    exec (.outputChannelReset m) s = .next ({ s with
      sm := match (s.output m).retained with
        | some k => s.sm.leave m k
        | none => s.sm
      eu := s.eu.clearReg (.output m)
      arb := { s.arb with outReq := s.arb.outReq.set m none } }.setOutput m
        { s.output m with
          state := .off, retained := none, frame := none, fifo := [], repeatBuf := none,
          epoch := (s.output m).epoch + 1, last := none, lossReported := none, counters := Vector.replicate 10 0 })

/-- REGISTER_WRITE (R171, R172, R173, R176): at a CMD_ARG register it stores the word; at a register that another command writes
it is that command; at a read-only register or at an offset that holds no register it changes nothing; the offsets below 0x800
that hold none are those listed; the two lowest offset bits do not count. -/
def Obligations.RegisterWriteDispatch : Prop :=
  ∀ (w : Word) (s : State), s.resetAsserted = false →
    (exec (.registerWrite 0x024 w) s = .next { s with cu := { s.cu with args := { s.cu.args with arg0 := w } } } ∧
     exec (.registerWrite 0x028 w) s = .next { s with cu := { s.cu with args := { s.cu.args with arg1 := w } } } ∧
     exec (.registerWrite 0x02C w) s = .next { s with cu := { s.cu with args := { s.cu.args with arg2 := w } } } ∧
     exec (.registerWrite 0x030 w) s = .next { s with cu := { s.cu with args := { s.cu.args with arg3 := w } } }) ∧
    (exec (.registerWrite 0x010 w) s = exec (.geometryWrite .base w) s ∧
     exec (.registerWrite 0x014 w) s = exec (.geometryWrite .stride w) s ∧
     exec (.registerWrite 0x018 w) s = exec (.geometryWrite .slots w) s ∧
     exec (.registerWrite 0x040 w) s = exec (.arbCfgWrite w) s ∧
     exec (.registerWrite 0x044 w) s = exec (.mcCfgWrite w) s ∧
     exec (.registerWrite 0x048 w) s = exec (.mcRefreshWrite w) s) ∧
    (∀ (code : BitVec 8) (c : Instr), w.setWidth 8 = code →
      (code, c) ∈ [(0x01#8, Instr.memoryInit), (0x02#8, .poolBuild), (0x03#8, .poolTeardown), (0x10#8, .slotClaim),
        (0x11#8, .slotHold), (0x12#8, .slotRelease), (0x13#8, .slotPublish), (0x14#8, .slotClear),
        (0x15#8, .inputFlush)] ∨ (code ∉ commandCodes ∧ c = .unknownCommand code) →
      exec (.registerWrite 0x020 w) s = exec c s) ∧
    (∀ n : Fin 4,
      exec (.registerWrite (BitVec.ofNat 12 (0x100 + 0x20 * n.val)) w) s =
        exec (.stopModeWrite n (w.getLsbD 0) (if w.getLsbD 1 then .atFrameEnd else .immediate)) s ∧
      exec (.registerWrite (BitVec.ofNat 12 (0x104 + 0x20 * n.val)) w) s = exec (.inputConfigWrite n .geom w) s ∧
      exec (.registerWrite (BitVec.ofNat 12 (0x108 + 0x20 * n.val)) w) s = exec (.inputConfigWrite n .cfg w) s ∧
      exec (.registerWrite (BitVec.ofNat 12 (0x10C + 0x20 * n.val)) w) s = exec (.inputConfigWrite n .budget w) s ∧
      exec (.registerWrite (BitVec.ofNat 12 (0x110 + 0x20 * n.val)) w) s = exec (.inputConfigWrite n .loss w) s) ∧
    (∀ m : Fin 6,
      (w.getLsbD 0 = true →
        exec (.registerWrite (BitVec.ofNat 12 (0x180 + 0x20 * m.val)) w) s = exec (.outputEnable m w) s) ∧
      (w.getLsbD 0 = false →
        exec (.registerWrite (BitVec.ofNat 12 (0x180 + 0x20 * m.val)) w) s = exec (.outputDisable m w) s) ∧
      exec (.registerWrite (BitVec.ofNat 12 (0x184 + 0x20 * m.val)) w) s = exec (.outputConfigWrite m .blank w) s ∧
      exec (.registerWrite (BitVec.ofNat 12 (0x188 + 0x20 * m.val)) w) s = exec (.outputConfigWrite m .blankWord w) s) ∧
    (exec (.registerWrite 0x280 w) s = exec (.accAddrWrite w) s ∧
     exec (.registerWrite 0x284 w) s = exec (.accCountWrite w) s ∧
     exec (.registerWrite 0x28C w) s = exec (.accDataWrite w) s ∧
     (w.setWidth 2 = 1#2 → exec (.registerWrite 0x288 w) s = exec .read s) ∧
     (w.setWidth 2 = 2#2 → exec (.registerWrite 0x288 w) s = exec .flush s) ∧
     (w.setWidth 2 = 3#2 → exec (.registerWrite 0x288 w) s = exec .discard s) ∧
     (w.setWidth 2 = 0#2 → exec (.registerWrite 0x288 w) s = .next s)) ∧
    (∀ i : Fin 11, ∀ reg : EventReg, eventRegIdx reg = i →
      exec (.registerWrite (BitVec.ofNat 12 (0x300 + 4 * i.val)) w) s = exec (.eventClear reg w) s ∧
      exec (.registerWrite (BitVec.ofNat 12 (0x340 + 4 * i.val)) w) s = exec (.eventEnableWrite reg w) s) ∧
    ((∀ (n : Fin 4) (c : InCounter),
        exec (.registerWrite (BitVec.ofNat 12 (0x400 + 0x40 * n.val + 4 * (inCounterIdx c).val)) w) s =
          exec (.counterClear (.input n c) w) s) ∧
     (∀ (m : Fin 6) (c : OutCounter),
        exec (.registerWrite (BitVec.ofNat 12 (0x500 + 0x40 * m.val + 4 * (outCounterIdx c).val)) w) s =
          exec (.counterClear (.output m c) w) s) ∧
     exec (.registerWrite 0x680 w) s = exec (.counterClear (.memory .eccCorrected) w) s ∧
     exec (.registerWrite 0x684 w) s = exec (.counterClear (.memory .eccUncorrectable) w) s ∧
     exec (.registerWrite 0x688 w) s = exec (.counterClear (.memory .refreshBacklog) w) s) ∧
    (∀ offset : BitVec 12,
      exec (.registerWrite offset w) s = exec (.registerWrite (offset &&& 0xFFC) w) s ∧
      (0x800 ≤ offset.toNat ∨ (offset &&& 0xFFC) ∈ [0x000, 0x034, 0x038, 0x04C, 0x050, 0x290, 0x32C] ∨
        (∃ n : Fin 4, offset.toNat / 4 = 0x45 + 8 * n.val ∨ offset.toNat / 4 = 0x46 + 8 * n.val) ∨
        (∃ m : Fin 6, 0x63 + 8 * m.val ≤ offset.toNat / 4 ∧ offset.toNat / 4 ≤ 0x66 + 8 * m.val) →
        exec (.registerWrite offset w) s = .next s) ∧
      (regAt offset = none → exec (.registerWrite offset w) s = .next s) ∧
      ((offset &&& 0xFFC) ∈ [0x008, 0x00C, 0x01C, 0x03C] ∨ (0x054 ≤ offset.toNat ∧ offset.toNat < 0x100) ∨
        (∃ n : Fin 4, offset.toNat / 4 = 0x47 + 8 * n.val) ∨ (∃ m : Fin 6, offset.toNat / 4 = 0x67 + 8 * m.val) ∨
        (0x240 ≤ offset.toNat ∧ offset.toNat < 0x280) ∨ (0x294 ≤ offset.toNat ∧ offset.toNat < 0x300) ∨
        (0x330 ≤ offset.toNat ∧ offset.toNat < 0x340) ∨ (0x36C ≤ offset.toNat ∧ offset.toNat < 0x400) ∨
        (∃ n : Fin 4, 0x42C + 0x40 * n.val ≤ offset.toNat ∧ offset.toNat < 0x440 + 0x40 * n.val) ∨
        (∃ m : Fin 6, 0x528 + 0x40 * m.val ≤ offset.toNat ∧ offset.toNat < 0x540 + 0x40 * m.val) ∨
        (0x68C ≤ offset.toNat ∧ offset.toNat < 0x800) ↔
        offset.toNat < 0x800 ∧ regAt offset = none))

/-- A write of RESET_CTRL (R177): FULL alone when it is written with one; otherwise the channel resets asked for, one after
another, inputs in ascending order and then outputs in ascending order; and it reads 0. RECORD_CAPTURE (R174) holds the eight
words of a record, zeros where there is no slot, and LIST_CAPTURE (R175) the entries of a list; each read returns its first
word. A read of any other register changes nothing but the word returned (R171). -/
def Obligations.ResetCtrlAndCaptures : Prop :=
  (∀ (w : Word) (s : State), s.resetAsserted = false →
    s.regValue .resetCtrl = 0 ∧
    (w.getLsbD 0 = true → exec (.registerWrite 0x004 w) s = exec .fullSoftReset s) ∧
    (w.getLsbD 0 = false → exec (.registerWrite 0x004 w) s = .next
      ((List.finRange 6).foldl (fun t m => if w.getLsbD (16 + m.val) then t.resetOutput m else t)
        ((List.finRange 4).foldl (fun t n => if w.getLsbD (8 + n.val) then t.resetInput n else t) s)))) ∧
  (∀ (k : Fin 32) (s : State) (ws : List Word), s.resetAsserted = false →
    ws = (if s.sm.built = true ∧ k.val < s.sm.count.toNat then (s.sm.slot k.val).image else List.replicate 8 0) →
    exec (.recordCapture k) s = .next { s with
      host := { s.host with recordCapture := some ⟨k, ws⟩, data := ws.getD 0 0 } }) ∧
  (∀ (l : ListName) (s : State) (xs : List Nat) (i : Fin 5), s.resetAsserted = false →
    (l = .free ∧ i = 0 ∧ xs = s.sm.free) ∨ (∃ n, l = .ready n ∧ i = n.succ ∧ xs = s.sm.readyOf n) →
    exec (.listCapture l) s = .next { s with
      host := { s.host with
        listCaptures := s.host.listCaptures.set i (some xs), data := BitVec.ofNat 32 xs.length } }) ∧
  ∀ (offset : BitVec 12) (s : State), s.resetAsserted = false →
    (∀ r, regAt offset = some r → r ≠ .accData ∧ (∀ k, r ≠ .record k 0) ∧ ∀ l, r ≠ .listLength l) →
    hostCycle (.read offset) s = .next { s with
      host := { s.host with data := ((regAt offset).map s.regValue).getD 0 } }

/-! ### Time, the store, events and counters: who may change them -/

/-- The time base (R179, R178): TIME_BASE_ADVANCE increases it by one, modulo 2^32, while RESET_N is not asserted, and changes
nothing else; PIN_RESET makes it 0; no other command changes it. The words of the store change only by a completed request,
an aborted one, the end of an initialisation, or loss of charge (R152): no other reset, and no host command in its own step,
writes a word. A completed write stores its words at its addresses and leaves every other word as it was (R146). -/
def Obligations.TimeAndStoreChange : Prop :=
  (∀ s : State, s.resetAsserted = false →
    exec .timeBaseAdvance s = .next { s with timeBase := s.timeBase + 1 }) ∧
  (∀ (c : Instr) (s t : State), exec c s = .next t →
    t.timeBase = if c = .pinReset then 0
      else if c = .timeBaseAdvance ∧ s.resetAsserted = false then s.timeBase + 1 else s.timeBase) ∧
  (∀ (c : Instr) (r : MemRequest) (orphan : Bool) (s t : State),
    c ∈ [Instr.lineWriteCompletion, .blockWriteCompletion, .clearWriteCompletion, .orphanCompletion] →
    s.mc.exec = some ⟨r, orphan⟩ → r.kind = .lineWrite ∨ r.kind = .blockWrite ∨ r.kind = .clearWrite →
    s.store.wf → exec c s = .next t →
    (∀ a, a < r.addr ∨ r.addr + r.words.length ≤ a → t.store.read a = s.store.read a) ∧
    ∀ i w, r.words[i]? = some w → t.store.read (r.addr + i) = ⟨w, 0⟩) ∧
  ∀ (c : Instr) (s t : State), exec c s = .next t →
    c ≠ .lineWriteCompletion → c ≠ .blockWriteCompletion → c ≠ .clearWriteCompletion → c ≠ .orphanCompletion →
    c ≠ .endOfStage5 → c ≠ .pinReset → (∀ d, c ≠ .lossOfCharge d) → t.store = s.store

/-- Every step keeps the store's canonical form: addresses strictly rising, all of them within the store (R138, R146). -/
def Obligations.StoreCanonicalKept : Prop :=
  ∀ s t : State, s.store.wf → step s = .next t → t.store.wf

/-- Status bits are sticky (R163, R164, R167): only a host clear, a register write or a reset clears one. Counters never
decrease (R169, R170): only a host write to a counter, a register write or a reset lowers one. -/
def Obligations.EventsStickyCountersRise : Prop :=
  (∀ (c : Instr) (s t : State), exec c s = .next t →
    (∀ reg w, c ≠ .eventClear reg w) → (∀ offset w, c ≠ .registerWrite offset w) → c ≠ .fullSoftReset →
    (∀ n, c ≠ .inputChannelReset n) → (∀ m, c ≠ .outputChannelReset m) → c ≠ .pinReset →
    ∀ (i : Fin 11) (b : Nat), s.eu.status[i].getLsbD b = true → t.eu.status[i].getLsbD b = true) ∧
  ∀ (c : Instr) (s t : State), exec c s = .next t →
    (∀ x w, c ≠ .counterClear x w) → (∀ offset w, c ≠ .registerWrite offset w) → c ≠ .fullSoftReset →
    (∀ n, c ≠ .inputChannelReset n) → (∀ m, c ≠ .outputChannelReset m) → c ≠ .pinReset →
    ∀ x : CounterName, (s.counterValue x).toNat ≤ (t.counterValue x).toNat

/-! ### Invariants that every step keeps -/

/-- Every step keeps every fill context in order and within its budget (R29, R71), and a loss timer running only in ARMED,
FILLING and SKIPPING (R38). -/
def Obligations.FillContextsKept : Prop := ∀ s t : State, s.fillsOk → step s = .next t → t.fillsOk

/-- Every step keeps every slot in exactly one location, the one its record names (R6). Every step keeps the sequence numbers of
every ready list strictly increasing from oldest to newest (R11), counted back from the next-sequence counter, as long as no
entry lies 2^32 - 2 or more behind that counter, which wraps (R13); and where the oldest lies at most 2^31 behind, each entry's
number is after that of every older entry in sequence order (0.5). -/
def Obligations.SlotLocationsKept : Prop :=
  (∀ s t : State, s.fillsOk → s.locationsOk → step s = .next t →
    t.locationsOk ∧ (s.sequencesOk → s.sequencesWithin 4294967293 → t.sequencesOk)) ∧
  ∀ s : State, s.sequencesOk → s.sequencesWithin 2147483648 → ∀ n, (s.sm.readyOf n).Pairwise fun older newer =>
    seqAfter ((s.sm.slot newer).sequence.getD 0) ((s.sm.slot older).sequence.getD 0) = true

/-- Every step keeps the open frame record with the output's state (section 4.3, R77, R92), every DRAINING slot with a reader
(R14), and write pending on HELD slots only (R21). -/
def Obligations.FramesDrainingPendingKept : Prop :=
  ∀ s t : State, step s = .next t →
    (s.framesOk → t.framesOk) ∧ (s.drainingOk → t.drainingOk) ∧ (s.locationsOk → s.pendingOk → t.pendingOk)

/-- Every step keeps an output in a slot's reader set exactly when that slot is its retained slot, and an OFF output without
one (R17). -/
def Obligations.ReaderSetsKept : Prop :=
  ∀ s t : State, s.fillsOk → s.locationsOk → s.framesOk → s.readersOk → step s = .next t → t.readersOk

/-- Every step keeps every setting in its range and every ready list within its input's quota (R11, R25, R74), and the line
FIFOs, the pass-over counts and the port's write buffer within their sizes (R34, R126, R160). -/
def Obligations.SettingsAndBuffersKept : Prop :=
  ∀ s t : State, step s = .next t →
    (s.settingsOk → t.settingsOk) ∧ (s.settingsOk → s.quotasOk → t.quotasOk) ∧ (s.lineFifosOk → t.lineFifosOk) ∧
    (s.hostBoundsOk → t.hostBoundsOk)

/-- Every step keeps the arbiter's requests in order: each held for its own client, a channel engine with at most one pending
or in execution, and room in the prefetch FIFO for an outstanding read (R94, R95, R153). Every step keeps the lines of every
prefetch FIFO all of the current epoch, in strictly increasing line number, each at or beyond the pull cursor (R94), as long as
no outstanding read is of an epoch that the output's epoch is about to come round to, 2^32 increases after it was raised (R93). -/
def Obligations.RequestsKept : Prop :=
  ∀ s t : State, s.clientsOk → s.oneRequestEach → s.prefetchOk → step s = .next t →
    (t.clientsOk ∧ t.oneRequestEach ∧ t.prefetchOk) ∧
    (s.framesOk → s.linesOrdered → s.epochsAhead → t.linesOrdered)

/-- Every step keeps the machine in the pin-reset state while RESET_N is asserted (R178). -/
def Obligations.ResetStateHeld : Prop := ∀ s t : State, s.resetHeld → step s = .next t → t.resetHeld

/-! ### Shared rules: slots, error correction, arbitration, events -/

/-- The words of a line lie in its slot, and within the memory size (R2, R1): a frame that fits the stride never leaves its
slot, and a word outside the pool lies in no slot. -/
def Obligations.LineWordsInSlot : Prop :=
  (∀ (sm : SlotManager) (size : MemSize) (k len lines j i : Nat),
    sm.built = true → sm.geometryValid size = true → k < sm.count.toNat → len * lines ≤ sm.stride.toNat →
    j < lines → i < len →
    sm.lineAddr k len j + i = sm.base.toNat + k * sm.stride.toNat + j * len + i ∧
    sm.slotAt (sm.lineAddr k len j + i) = some k ∧ sm.lineAddr k len j + i < size.words) ∧
  ∀ (sm : SlotManager) (a : Nat),
    sm.built = false ∨ a < sm.base.toNat ∨ sm.base.toNat + sm.count.toNat * sm.stride.toNat ≤ a → sm.slotAt a = none

/-- The retire primitive, leave and join (R16, R18, R19, R10): where the slot goes, and that no other record changes. Several
slots are retired one after another in the order given. -/
def Obligations.RetireLeaveJoin : Prop :=
  (∀ sm : SlotManager, sm.retireAll [] = sm ∧ ∀ k ks, sm.retireAll (k :: ks) = (sm.retire k).retireAll ks) ∧
  ∀ (sm : SlotManager) (k : Nat), k < sm.slots.length →
    ((sm.slot k).readers = 0 → sm.retire k = { sm with
      free := sm.free ++ [k], slots := sm.slots.set k { sm.slot k with state := .free, owner := none } }) ∧
    ((sm.slot k).readers ≠ 0 → sm.retire k = { sm with
      slots := sm.slots.set k { sm.slot k with state := .draining, owner := none } }) ∧
    (∀ m : Fin 6, sm.join m k = { sm with
      slots := sm.slots.set k { sm.slot k with
        readers := (sm.slot k).readers ||| (1#6 <<< m.val), viewed := true } }) ∧
    (∀ m : Fin 6, ((sm.slot k).state ≠ .draining ∨ (sm.slot k).readers &&& ~~~(1#6 <<< m.val) ≠ 0) →
      sm.leave m k = { sm with
        slots := sm.slots.set k { sm.slot k with readers := (sm.slot k).readers &&& ~~~(1#6 <<< m.val) } }) ∧
    ∀ m : Fin 6, (sm.slot k).state = .draining → (sm.slot k).readers &&& ~~~(1#6 <<< m.val) = 0 →
      sm.leave m k = { sm with
        free := sm.free ++ [k],
        slots := sm.slots.set k { sm.slot k with state := .free, owner := none, readers := 0 } }

/-- A publication, by the input or by SLOT PUBLISH (R61 to R63, R65): the slot takes the next sequence number, the time base
value, READY and the owner; the counter increases by one; the oldest entry of a list at quota is retired first, and counted
when VIEWED was no; the slot joins at the newest end. -/
def Obligations.PublicationClaim : Prop :=
  ∀ (s : State) (n : Fin 4) (k : Nat) (f : SlotRecord → SlotRecord),
    ((s.sm.readyOf n).length < (s.input n).cfg.quota →
      s.publishSlot n k f = { s with sm :=
        ((s.sm.modSlot k fun r => { f r with
          sequence := some (s.sm.seqOf n), timestamp := some s.timeBase, state := .ready, owner := some n }).setReady n
          (s.sm.readyOf n ++ [k])).setSeq n (s.sm.seqOf n + 1) }) ∧
    ∀ (old : Nat) (rest : List Nat), s.sm.readyOf n = old :: rest → (s.input n).cfg.quota ≤ rest.length + 1 →
      s.publishSlot n k f =
        ({ s with sm :=
          ((((s.sm.setReady n rest).retire old).modSlot k fun r => { f r with
            sequence := some (s.sm.seqOf n), timestamp := some s.timeBase, state := .ready, owner := some n }).setReady n
            (rest ++ [k])).setSeq n (s.sm.seqOf n + 1) } : State).setInput n
          (if (s.sm.slot old).viewed then s.input n else (s.input n).count .evictedUnviewed)

/-- Error correction (R148, R149, R169): a word as written reads clean; one failed bit of the 39 is corrected; two make the word
uncorrectable, delivered as it is. A write stores fresh check bits whatever the earlier contents, and touches no other word.
The counts of an executed read are one for each word found, saturating at 65535, with their events. LOSS_OF_CHARGE (R152,
R139): words written lose the bits given and keep the others; it is refused while refresh keeps the words (the model's
choice, assumptions 3 and 7). -/
def Obligations.EccAndCharge : Prop :=
  ((∀ w : Word, eccRead ⟨w, 0⟩ = ⟨w, .clean⟩) ∧
  (∀ (w : Word) (i : Nat), i < 39 → eccRead ⟨w, 1#39 <<< i⟩ = ⟨w, .corrected⟩) ∧
  (∀ (w : Word) (i j : Nat), i < j → j < 39 →
    eccRead ⟨w, (1#39 <<< i) ||| (1#39 <<< j)⟩ =
      ⟨w ^^^ ((1#39 <<< i) ||| (1#39 <<< j)).setWidth 32, .uncorrectable⟩) ∧
  ∀ (st : FrameStore) (a : Nat) (ws : List Word), st.wf →
    (st.write a ws).readWords a ws.length = ws.map (fun w => ⟨w, .clean⟩) ∧
    ∀ b, b < a ∨ a + ws.length ≤ b → (st.write a ws).read b = st.read b) ∧
  (∀ (s : State) (ws : List WordRead),
    ((s.countEcc ws).mc.eccCorrected.toNat =
      min 65535 (s.mc.eccCorrected.toNat + ws.countP fun w => w.finding = .corrected)) ∧
    ((s.countEcc ws).mc.eccUncorrectable.toNat =
      min 65535 (s.mc.eccUncorrectable.toNat + ws.countP fun w => w.finding = .uncorrectable)) ∧
    (s.countEcc ws).eu.status[(10 : Fin 11)] =
      (s.eu.status[(10 : Fin 11)] ||| (if ws.any (fun w => w.finding = .corrected) then 0x80 else 0)) |||
        (if ws.any (fun w => w.finding = .uncorrectable) then 0x100 else 0) ∧
    ∀ i : Fin 11, i ≠ 10 → (s.countEcc ws).eu.status[i] = s.eu.status[i]) ∧
  ∀ (decay : List (Nat × BitVec 39)) (s : State),
    (s.mc.state = .ready ∧ s.mc.refreshInterval ≤ Config.deviceRefreshLimit →
      exec (.lossOfCharge decay) s = .refused .refreshKeepsCharge) ∧
    (s.mc.state ≠ .ready ∨ Config.deviceRefreshLimit < s.mc.refreshInterval → s.store.wf → ∃ st : FrameStore,
      exec (.lossOfCharge decay) s = .next { s with store := st } ∧
      ∀ a, lookupCell st.cells a = (lookupCell s.store.cells a).map fun c : StoredWord =>
        { c with flips := decay.foldl (fun f d => if d.1 = a then f ||| d.2 else f) c.flips })

/-- The rotation (R158): the first client in cyclic order from the pointer that qualifies, and none only if none does. The order
of a grant by class (R156, R157): refresh; then the urgent class by the profile; then promoted host requests; then the channel
engines that are not urgent; then the host class. What is urgent (R159): a pending request of an input whose FIFO holds at least
the watermark number of lines, and of an output whose FIFO holds no more lines than its open frame's watermark; the pending
channel requests that are not urgent are normal; a pending host request is promoted from a pass-over count of 8 (R160). -/
def Obligations.GrantOrder : Prop :=
  (∀ (k : Nat) (p : Fin k) (ok : Fin k → Bool),
    (rotate p ok = none ↔ ∀ i, ok i = false) ∧
    ∀ i, rotate p ok = some i → ok i = true ∧ ∀ j, ok j = true → (i - p).val ≤ (j - p).val) ∧
  (∀ s : State,
    (∀ n : Fin 4, s.urgentInput n = true ↔
      ∃ r, s.arb.inReq[n] = some r ∧ (s.input n).cfg.watermark ≤ (s.input n).fifo.length) ∧
    (∀ m : Fin 6, s.urgentOutput m = true ↔
      ∃ r f, s.arb.outReq[m] = some r ∧ (s.output m).frame = some f ∧ (s.output m).fifo.length ≤ f.watermark) ∧
    (∀ (n : Fin 4) (i : Fin 10), i.val = n.val →
      (s.normalPending i = true ↔ ∃ r, s.arb.inReq[n] = some r ∧ (s.input n).fifo.length < (s.input n).cfg.watermark)) ∧
    (∀ (m : Fin 6) (i : Fin 10), i.val = m.val + 4 →
      (s.normalPending i = true ↔ ∃ r, s.arb.outReq[m] = some r ∧ s.urgentOutput m = false)) ∧
    ∀ promoted : Bool,
      (s.arb.hostPending promoted .accessPort = true ↔
        ∃ r, s.arb.apReq = some r ∧ (promoted = true ↔ 8 ≤ r.passed)) ∧
      (s.arb.hostPending promoted .commandUnit = true ↔
        ∃ r, s.arb.cuReq = some r ∧ (promoted = true ↔ 8 ≤ r.passed))) ∧
  ∀ s : State,
    (s.mc.refreshDue = true → s.chooseGrant = some .refresh) ∧
    (s.mc.refreshDue = false →
      ((∃ m, s.urgentOutput m = true) → (s.arb.profile = .outputFirst ∨
          (s.arb.profile = .interleaved ∧ s.arb.preference = .outputs) ∨ ∀ n, s.urgentInput n = false) →
        ∃ m, s.chooseGrant = some (.urgentOutput m) ∧ rotate s.arb.urgentOut s.urgentOutput = some m) ∧
      ((∃ n, s.urgentInput n = true) → (s.arb.profile = .inputFirst ∨
          (s.arb.profile = .interleaved ∧ s.arb.preference = .inputs) ∨ ∀ m, s.urgentOutput m = false) →
        ∃ n, s.chooseGrant = some (.urgentInput n) ∧ rotate s.arb.urgentIn s.urgentInput = some n) ∧
      ((∀ m, s.urgentOutput m = false) → (∀ n, s.urgentInput n = false) →
        (s.arb.hostPending true s.arb.host = true → s.chooseGrant = some (.host s.arb.host)) ∧
        (s.arb.hostPending true s.arb.host = false → s.arb.hostPending true s.arb.host.other = true →
          s.chooseGrant = some (.host s.arb.host.other)) ∧
        ((∀ h, s.arb.hostPending true h = false) →
          (∀ i, rotate s.arb.normal s.normalPending = some i → s.chooseGrant = some (.normal i)) ∧
          (rotate s.arb.normal s.normalPending = none →
            (s.arb.hostPending false s.arb.host = true → s.chooseGrant = some (.host s.arb.host)) ∧
            (s.arb.hostPending false s.arb.host = false → s.arb.hostPending false s.arb.host.other = true →
              s.chooseGrant = some (.host s.arb.host.other)) ∧
            ((∀ h, s.arb.hostPending false h = false) → s.chooseGrant = none)))))

/-- A grant moment (R155, R157, R158, R160): without READY, with a request in execution, or with nothing to grant, nothing
changes; otherwise the winner's request goes into execution, its place empties, the pointer of its group moves behind it, an
urgent grant sets the interleave preference to the other group, a channel grant passes over both host requests, and an input's
line gets write in flight. A host request passed over counts one more, up to 8, where it is promoted (R160); the line that gets
write in flight is the one at the FIFO head, by its entry (R41). Every completion ends in a grant moment, or begins a stage 1
that waited for it (R141). -/
def Obligations.GrantMoment : Prop :=
  (∀ s : State,
    s.afterDelivery = (if s.mc.state = .initializing ∧ s.mc.stage = 0 then
      { s with mc := { s.mc with stage := 1, stageStart := s.timeBase } } else s.grantMoment)) ∧
  (∀ a : Arbiter, a.passOver = { a with
    apReq := a.apReq.map fun r => { r with passed := if r.passed < 8 then r.passed + 1 else 8 }
    cuReq := a.cuReq.map fun r => { r with passed := if r.passed < 8 then r.passed + 1 else 8 } }) ∧
  (∀ ch : InputChannel, (ch.fifo = [] → ch.markInFlight = ch) ∧
    ∀ l rest, ch.fifo = l :: rest → ch.markInFlight = { ch with
      fill := ch.fill.map fun e => { e with writeInFlight := e.writeInFlight || e.slot = l.slot } }) ∧
  ∀ s : State,
    (s.mc.state ≠ .ready ∨ s.mc.exec ≠ none ∨ s.chooseGrant = none → s.grantMoment = s) ∧
    (s.mc.state = .ready → s.mc.exec = none →
      (s.chooseGrant = some .refresh →
        s.grantMoment = { s with mc := { s.mc with exec := some ⟨refreshRequest, false⟩ } }) ∧
      (∀ m r, s.chooseGrant = some (.urgentOutput m) → s.arb.outReq[m] = some r →
        s.grantMoment = { s with
          arb := { s.arb.passOver with
            outReq := s.arb.outReq.set m none, urgentOut := m + 1, preference := .inputs },
          mc := { s.mc with exec := some ⟨r, false⟩ } }) ∧
      (∀ n r, s.chooseGrant = some (.urgentInput n) → s.arb.inReq[n] = some r →
        s.grantMoment = ({ s with
          arb := { s.arb.passOver with
            inReq := s.arb.inReq.set n none, urgentIn := n + 1, preference := .outputs },
          mc := { s.mc with exec := some ⟨r, false⟩ } } : State).setInput n (s.input n).markInFlight) ∧
      (∀ i n r, s.chooseGrant = some (.normal i) → normalClient i = .input n → s.arb.inReq[n] = some r →
        s.grantMoment = ({ s with
          arb := { s.arb.passOver with inReq := s.arb.inReq.set n none, normal := i + 1 },
          mc := { s.mc with exec := some ⟨r, false⟩ } } : State).setInput n (s.input n).markInFlight) ∧
      (∀ i m r, s.chooseGrant = some (.normal i) → normalClient i = .output m → s.arb.outReq[m] = some r →
        s.grantMoment = { s with
          arb := { s.arb.passOver with outReq := s.arb.outReq.set m none, normal := i + 1 },
          mc := { s.mc with exec := some ⟨r, false⟩ } }) ∧
      (∀ r, s.chooseGrant = some (.host .accessPort) → s.arb.apReq = some r →
        s.grantMoment = { s with
          arb := { s.arb with apReq := none, host := .commandUnit },
          mc := { s.mc with exec := some ⟨r.request, false⟩ } }) ∧
      (∀ r, s.chooseGrant = some (.host .commandUnit) → s.arb.cuReq = some r →
        s.grantMoment = { s with
          arb := { s.arb with cuReq := none, host := .accessPort },
          mc := { s.mc with exec := some ⟨r.request, false⟩ } }))

/-- The channel engines raise their requests (R41, R95): a write for the line at the FIFO head, a read for the fetch cursor's
line, each with its address by R2, only while none of the channel is pending or in execution. A pending read for a line below
the pull cursor is withdrawn, and the engine raises its next (R97). -/
def Obligations.EnginesRaise : Prop :=
  ((∀ (s : State) (n : Fin 4),
    ((s.input n).fifo = [] ∨ s.arb.inReq[n].isSome = true ∨ s.execBy (.input n) = true → s.raiseWrite n = s) ∧
    ∀ (l : FifoLine) (rest : List FifoLine) (len : Nat), (s.input n).fifo = l :: rest → s.arb.inReq[n] = none →
      s.execBy (.input n) = false → (s.sm.slot l.slot).lineLength = some len →
      s.raiseWrite n = ({ s with arb := { s.arb with inReq := s.arb.inReq.set n (some
        ⟨.input n, .lineWrite, s.sm.base.toNat + l.slot * s.sm.stride.toNat + l.number * len, l.payload.length,
          l.payload, 0, l.number⟩) } } : State).grantMoment) ∧
  ∀ (s : State) (m : Fin 6),
    ((s.output m).frame = none ∨ s.arb.outReq[m].isSome = true ∨ s.execBy (.output m) = true ∨
      4 ≤ (s.output m).fifo.length → s.raiseRead m = s) ∧
    (∀ f, (s.output m).frame = some f → f.status = .blank ∨ f.lineCount ≤ (s.output m).fetch → s.raiseRead m = s) ∧
    ∀ (f : OpenFrame) (k : Nat), (s.output m).frame = some f → f.slot = some k →
      f.status = .picture ∨ f.status = .repeated → s.arb.outReq[m] = none → s.execBy (.output m) = false →
      (s.output m).fetch < f.lineCount → (s.output m).fifo.length < 4 →
      s.raiseRead m = (({ s with arb := { s.arb with outReq := s.arb.outReq.set m (some
        ⟨.output m, .lineRead, s.sm.base.toNat + k * s.sm.stride.toNat + (s.output m).fetch * f.lineLength,
          f.lineLength, [], (s.output m).epoch, (s.output m).fetch⟩) } } : State).setOutput m
        { s.output m with fetch := (s.output m).fetch + 1 }).grantMoment) ∧
  ∀ (s : State) (m : Fin 6),
    (∀ r, s.arb.outReq[m] = some r → r.number < (s.output m).pull →
      s.refetch m = ({ s with arb := { s.arb with outReq := s.arb.outReq.set m none } } : State).raiseRead m) ∧
    ((s.arb.outReq[m] = none ∨ ∃ r, s.arb.outReq[m] = some r ∧ (s.output m).pull ≤ r.number) →
      s.refetch m = s.raiseRead m)

/-- EVT_SUMMARY and the interrupt line (R166): summary bit i is set while register i holds a bit that is both set and enabled,
every other bit is 0, and the line is asserted while any summary bit is set. EVENT_CLEAR (R164) clears the bits written with
one, EVENT_ENABLE_WRITE (R165) stores the positions that name an event, COUNTER_CLEAR (R170) sets the counter to 0. -/
def Obligations.EventUnitRules : Prop :=
  (∀ eu : EventUnit,
    (∀ i : Fin 11, eu.summary.getLsbD i.val = true ↔
      ∃ b, eu.status[i].getLsbD b = true ∧ eu.enable[i].getLsbD b = true) ∧
    (∀ b, 11 ≤ b → eu.summary.getLsbD b = false) ∧
    (eu.interruptLine = true ↔ eu.summary ≠ 0)) ∧
  ∀ (s : State) (w : Word), s.resetAsserted = false →
    (∀ (reg : EventReg) (i : Fin 11) (named : Word),
      (∃ n : Fin 4, reg = .input n ∧ i.val = n.val ∧ named = 0x7FF) ∨
        (∃ m : Fin 6, reg = .output m ∧ i.val = m.val + 4 ∧ named = 0x7F) ∨
        (reg = .global ∧ i = 10 ∧ named = 0x3FF) →
      exec (.eventClear reg w) s = .next { s with
        eu := { s.eu with status := s.eu.status.set i (s.eu.status[i] &&& ~~~w) } } ∧
      exec (.eventEnableWrite reg w) s = .next { s with
        eu := { s.eu with enable := s.eu.enable.set i (w &&& named) } }) ∧
    (∀ (n : Fin 4) (c : InCounter), exec (.counterClear (.input n c) w) s = .next (s.setInput n
      { s.input n with counters := (s.input n).counters.set (inCounterIdx c) 0 })) ∧
    (∀ (m : Fin 6) (c : OutCounter), exec (.counterClear (.output m c) w) s = .next (s.setOutput m
      { s.output m with counters := (s.output m).counters.set (outCounterIdx c) 0 })) ∧
    exec (.counterClear (.memory .eccCorrected) w) s = .next { s with mc := { s.mc with eccCorrected := 0 } } ∧
    exec (.counterClear (.memory .eccUncorrectable) w) s = .next { s with mc := { s.mc with eccUncorrectable := 0 } } ∧
    exec (.counterClear (.memory .refreshBacklog) w) s = .next { s with mc := { s.mc with refreshBacklog := 0 } }

/-! ### The push link (chapters 2 and 3) -/

/-- FRAME_START in ARMED or SKIPPING, admitted (R30, R52 to R55, R9, R4): the loss timer restarts when the timeout is not 0, LOST
is cleared with SIGNAL_FOUND, a slot is allocated, a new OPEN entry joins, the state becomes FILLING; nothing else changes.
The slot is the free-list head; with an empty free list it is the oldest entry of the input's own ready list that has no reader
and is not the newest, RECLAIMED counts it, and EVICTED_UNVIEWED does when VIEWED was no. -/
def Obligations.FrameStartAdmits : Prop :=
  (∀ (n : Fin 4) (tag : Option Word) (k : Nat) (rest : List Nat) (s : State),
    (s.input n).state = .armed ∨ (s.input n).state = .skipping →
    (s.input n).cfg.budget = 0 ∨
      (s.input n).progress.toNat + (s.input n).fill.countP FrameEntry.countsForBudget < (s.input n).cfg.budget →
    (s.input n).fill.countP FrameEntry.isClosed < 2 → s.sm.free = k :: rest →
    exec (.frameStart n tag) s = .next (({ s with
      sm := { s.sm with
        free := rest,
        slots := s.sm.slots.modify k fun r => { r with
          state := .filling, owner := some n, sequence := none, timestamp := none,
          lineLength := some (s.input n).cfg.lineLength, lineCount := none, tag := tag, short := false,
          viewed := false, poison := 0 } },
      eu := if (s.input n).lost then s.eu.setBits (.input n) 0x080 else s.eu } : State).setInput n
        { s.input n with
          state := .filling
          lost := false
          lossTimer := if (s.input n).cfg.lossTimeout = 0 then (s.input n).lossTimer else some s.timeBase
          fill := (s.input n).fill ++ [⟨k, .opened, 0, (s.input n).cfg.linesPerFrame, false, false⟩] })) ∧
  ∀ (n : Fin 4) (tag : Option Word) (k : Nat) (s : State),
    (s.input n).state = .armed ∨ (s.input n).state = .skipping →
    (s.input n).cfg.budget = 0 ∨
      (s.input n).progress.toNat + (s.input n).fill.countP FrameEntry.countsForBudget < (s.input n).cfg.budget →
    (s.input n).fill.countP FrameEntry.isClosed < 2 → s.sm.free = [] →
    (s.sm.readyOf n).dropLast.find? (fun j => (s.sm.slot j).readers = 0) = some k →
    exec (.frameStart n tag) s = .next (({ s with
      sm := { s.sm with
        ready := s.sm.ready.set n ((s.sm.readyOf n).erase k),
        slots := s.sm.slots.modify k fun r => { r with
          state := .filling, owner := some n, sequence := none, timestamp := none,
          lineLength := some (s.input n).cfg.lineLength, lineCount := none, tag := tag, short := false,
          viewed := false, poison := 0 } },
      eu := if (s.input n).lost then s.eu.setBits (.input n) 0x080 else s.eu } : State).setInput n
        { (if (s.sm.slot k).viewed then (s.input n).count .reclaimed
            else ((s.input n).count .reclaimed).count .evictedUnviewed) with
          state := .filling
          lost := false
          lossTimer := if (s.input n).cfg.lossTimeout = 0 then (s.input n).lossTimer else some s.timeBase
          fill := (s.input n).fill ++ [⟨k, .opened, 0, (s.input n).cfg.linesPerFrame, false, false⟩] })

/-- FRAME_START in ARMED or SKIPPING, refused (R52, R53, R56, R30): the first failing check of budget, backlog and slot gives
the counter and the event; the state becomes SKIPPING and no slot, list or set changes. -/
def Obligations.FrameStartRefused : Prop :=
  ∀ (n : Fin 4) (tag : Option Word) (s : State),
    (s.input n).state = .armed ∨ (s.input n).state = .skipping →
    ∀ (c : InCounter) (mask : Word),
      ((s.input n).cfg.budget ≠ 0 ∧ c = .skippedBudget ∧ mask = 0 ∧
        (s.input n).cfg.budget ≤ (s.input n).progress.toNat + (s.input n).fill.countP FrameEntry.countsForBudget) ∨
      (((s.input n).cfg.budget = 0 ∨
        (s.input n).progress.toNat + (s.input n).fill.countP FrameEntry.countsForBudget < (s.input n).cfg.budget) ∧
        ((2 ≤ (s.input n).fill.countP FrameEntry.isClosed ∧ c = .skippedBacklog ∧ mask = 0x010) ∨
         ((s.input n).fill.countP FrameEntry.isClosed < 2 ∧ s.sm.free = [] ∧ c = .skippedNoSlot ∧ mask = 0x008 ∧
          ∀ j ∈ (s.sm.readyOf n).dropLast, (s.sm.slot j).readers ≠ 0))) →
      exec (.frameStart n tag) s = .next (({ s with
        eu := (if (s.input n).lost then s.eu.setBits (.input n) 0x080 else s.eu).setBits (.input n) mask }
          : State).setInput n
          { (s.input n).count c with
            state := .skipping
            lost := false
            lossTimer := if (s.input n).cfg.lossTimeout = 0 then (s.input n).lossTimer else some s.timeBase })

/-- FRAME_START in FILLING (R31): the open entry closes DISCARD, broken; then, with a stop pending, the channel goes to stop
completion, and without one the message is taken exactly as in ARMED. -/
def Obligations.FrameStartInFilling : Prop :=
  ∀ (n : Fin 4) (tag : Option Word) (s : State), (s.input n).state = .filling →
    ((s.input n).stopPending = true →
      exec (.frameStart n tag) s = .next (((s.broken n).closeFrame n .discard false).stopCompletion n)) ∧
    ((s.input n).stopPending = false →
      exec (.frameStart n tag) s = exec (.frameStart n tag)
        (((s.broken n).closeFrame n .discard false).modInput n fun ch => { ch with state := .armed }))

/-- The close of the open entry (R32, R41, R60): it becomes CLOSED in place with its verdict and SHORT mark, its slot's record
becomes CLOSED with the lines received; for DISCARD its lines leave the FIFO, apart from a head line whose write is in flight,
and the request for a head line so removed is withdrawn. -/
def Obligations.CloseOfOpenEntry : Prop :=
  ∀ (s : State) (n : Fin 4) (older : List FrameEntry) (e : FrameEntry) (short : Bool),
    (s.input n).fill = older ++ [e] → (∀ x ∈ older, x.isClosed = true) → e.status = .opened →
    (s.closeOpen n .publish short = ({ s with
      sm := { s.sm with slots := s.sm.slots.modify e.slot fun r =>
        { r with state := .closed, lineCount := some e.received } } } : State).setInput n
      { s.input n with fill := older ++ [{ e with status := .closed .publish, shortMark := short }] }) ∧
    (∀ (l : FifoLine) (rest : List FifoLine), (s.input n).fifo = l :: rest → l.slot ≠ e.slot ∨ e.writeInFlight = true →
      s.closeOpen n .discard short = ({ s with
        sm := { s.sm with slots := s.sm.slots.modify e.slot fun r =>
          { r with state := .closed, lineCount := some e.received } } } : State).setInput n
        { s.input n with
          fill := older ++ [{ e with status := .closed .discard, shortMark := short }]
          fifo := l :: rest.filter fun x => x.slot ≠ e.slot }) ∧
    (∀ (l : FifoLine) (rest : List FifoLine), (s.input n).fifo = l :: rest → l.slot = e.slot → e.writeInFlight = false →
      s.closeOpen n .discard short = ({ s with
        sm := { s.sm with slots := s.sm.slots.modify e.slot fun r =>
          { r with state := .closed, lineCount := some e.received } },
        arb := { s.arb with inReq := s.arb.inReq.set n none } } : State).setInput n
        { s.input n with
          fill := older ++ [{ e with status := .closed .discard, shortMark := short }]
          fifo := rest.filter fun x => x.slot ≠ e.slot }) ∧
    ((s.input n).fifo = [] →
      s.closeOpen n .discard short = ({ s with
        sm := { s.sm with slots := s.sm.slots.modify e.slot fun r =>
          { r with state := .closed, lineCount := some e.received } } } : State).setInput n
        { s.input n with fill := older ++ [{ e with status := .closed .discard, shortMark := short }] })

/-- What leaves the fill context (R58, R59, R61, R64, R70): DISCARD entries without a line in the FIFO return their slots to
the free-list tail in order; then, from the oldest, PUBLISH entries without a line are published, one after another, each
counted and raised with the progress increased, and the one that meets the budget raises JOB_DONE and goes to stop completion;
an entry that is not ready stops the run. Both together are what follows a close and a completed line write (State.settle), and
the close of a frame (State.closeFrame) is the close of its entry (O31), this, and the engine's next request (O26). Stop
completion (R45, R38, R44): OFF with STOPPED when no entry is left, else
STOPPING; the loss timer stops and a pending stop is cleared; nothing else changes. -/
def Obligations.EntriesLeave : Prop :=
  (∀ (s : State) (n : Fin 4),
    s.leaveDiscards n = ({ s with sm := s.sm.toFreeAll (((s.input n).fill.filter fun e =>
        e.status = .closed .discard && !(s.input n).fifo.any fun l => l.slot = e.slot).map FrameEntry.slot) }
      : State).setInput n { s.input n with fill := (s.input n).fill.filter fun e =>
        !(e.status = .closed .discard && !(s.input n).fifo.any fun l => l.slot = e.slot) }) ∧
  (∀ (s : State) (n : Fin 4), s.settle n = (s.leaveDiscards n).publishLoop n ((s.leaveDiscards n).input n).fill) ∧
  (∀ (s : State) (n : Fin 4) (v : Verdict) (short : Bool),
    s.closeFrame n v short = ((s.closeOpen n v short).settle n).raiseWrite n) ∧
  (∀ (s : State) (n : Fin 4), s.publishLoop n [] = s) ∧
  (∀ (s : State) (n : Fin 4) (e : FrameEntry) (rest : List FrameEntry),
    e.status ≠ .closed .publish ∨ (s.input n).fifo.any (fun l => l.slot = e.slot) = true →
    s.publishLoop n (e :: rest) = s) ∧
  (∀ (n : Fin 4) (s : State),
    ((s.input n).fill = [] → s.stopCompletion n = ({ s with eu := s.eu.setBits (.input n) 0x200 } : State).setInput n
      { s.input n with state := .off, lossTimer := none, stopPending := false }) ∧
    ((s.input n).fill ≠ [] → s.stopCompletion n = s.setInput n
      { s.input n with state := .stopping, lossTimer := none, stopPending := false })) ∧
  ∀ (s : State) (n : Fin 4) (e : FrameEntry) (rest : List FrameEntry) (p : State),
    e.status = .closed .publish → (s.input n).fifo.any (fun l => l.slot = e.slot) = false →
    p = ((((s.modInput n fun ch => { ch with fill := rest }).publishSlot n e.slot fun r =>
        { r with short := e.shortMark }).countIn n .framesPublished).modInput n fun ch =>
        { ch with progress := satAdd ch.progress 1 }).raiseIn n .framePublished →
    s.publishLoop n (e :: rest) =
      (if (p.input n).cfg.budget ≠ 0 ∧ (p.input n).progress.toNat = (p.input n).cfg.budget
        then (p.raiseIn n .jobDone).stopCompletion n else p).publishLoop n rest

/-- LINE in FILLING, accepted (R33, R34): of the configured length, not beyond the expected lines, with a place in the FIFO; it
joins the tail with its entry and its number, the lines received before it, and the write engine may raise its request. -/
def Obligations.LineAccepted : Prop :=
  ∀ (n : Fin 4) (payload : List Word) (older : List FrameEntry) (e : FrameEntry) (s : State),
    (s.input n).state = .filling → (s.input n).fill = older ++ [e] → (∀ x ∈ older, x.isClosed = true) →
    e.status = .opened → payload.length = (s.input n).cfg.lineLength → e.received < e.expected →
    (s.input n).fifo.length < 3 →
    exec (.line n payload) s = .next ((s.setInput n { s.input n with
      fifo := (s.input n).fifo ++ [⟨e.slot, e.received, payload⟩]
      fill := older ++ [{ e with received := e.received + 1 }] }).raiseWrite n)

/-- LINE in FILLING, refused by the first failing check of length, count and space (R33): the line is lost and enters no FIFO; a
broken frame for length and count, an overflow for space, counted and raised; the channel is SKIPPING, the open entry closes
DISCARD with its slot (R32; the close is O31's, what then leaves is O32's), and a stop that was pending completes. The next state
is given whole; of it, no entry is open, and outputs, store, command unit, port and host interface are unchanged. -/
def Obligations.LineRefused : Prop :=
  ∀ (n : Fin 4) (payload : List Word) (older : List FrameEntry) (e : FrameEntry) (s : State),
    s.fillsOk → (s.input n).state = .filling → (s.input n).fill = older ++ [e] → e.status = .opened →
    (payload.length ≠ (s.input n).cfg.lineLength ∨ e.expected ≤ e.received ∨ 3 ≤ (s.input n).fifo.length) →
    (∀ (c : InCounter) (bit : Word) (closed : State),
      ((payload.length ≠ (s.input n).cfg.lineLength ∨ e.expected ≤ e.received) ∧ c = .framesBroken ∧ bit = 0x004) ∨
        (payload.length = (s.input n).cfg.lineLength ∧ e.received < e.expected ∧ c = .linesOverflowed ∧ bit = 0x020) →
      closed = (((({ s with eu := s.eu.setBits (.input n) bit } : State).setInput n
        { (s.input n).count c with state := .skipping }).closeOpen n .discard false).settle n).raiseWrite n →
      exec (.line n payload) s = .next (if (s.input n).stopPending then closed.stopCompletion n else closed)) ∧
    ∃ t, exec (.line n payload) s = .next t ∧
      (t.input n).fifo.Sublist (s.input n).fifo ∧
      ((s.input n).stopPending = false → (t.input n).state = .skipping) ∧
      ((s.input n).stopPending = true → (t.input n).stopPending = false ∧ (t.input n).lossTimer = none ∧
        (t.input n).state = if (t.input n).fill = [] then .off else .stopping) ∧
      (∀ x ∈ (t.input n).fill, x.isClosed = true) ∧
      (payload.length ≠ (s.input n).cfg.lineLength ∨ e.expected ≤ e.received →
        (t.input n).counters[inCounterIdx .framesBroken] = satAdd (s.input n).counters[inCounterIdx .framesBroken] 1 ∧
        (t.input n).counters[inCounterIdx .linesOverflowed] = (s.input n).counters[inCounterIdx .linesOverflowed] ∧
        t.eu.status[eventRegIdx (.input n)] &&& 0x004 = 0x004) ∧
      (payload.length = (s.input n).cfg.lineLength → e.received < e.expected →
        (t.input n).counters[inCounterIdx .linesOverflowed] = satAdd (s.input n).counters[inCounterIdx .linesOverflowed] 1 ∧
        (t.input n).counters[inCounterIdx .framesBroken] = (s.input n).counters[inCounterIdx .framesBroken] ∧
        t.eu.status[eventRegIdx (.input n)] &&& 0x020 = 0x020) ∧
      t.outputs = s.outputs ∧ t.store = s.store ∧ t.cu = s.cu ∧ t.ap = s.ap ∧ t.host = s.host ∧
      t.timeBase = s.timeBase

/-- FRAME_END in FILLING (R36): PUBLISH for all lines received, PUBLISH with SHORT for 1 or more under KEEP_SHORT, and
otherwise DISCARD, broken; the entry closes with the channel in ARMED, and a pending stop then completes. -/
def Obligations.FrameEndVerdict : Prop :=
  ∀ (n : Fin 4) (older : List FrameEntry) (e : FrameEntry) (s closed : State),
    (s.input n).state = .filling → (s.input n).fill = older ++ [e] → (∀ x ∈ older, x.isClosed = true) →
    e.status = .opened → e.received ≤ e.expected →
    ((e.received = e.expected ∧
        closed = (s.modInput n fun ch => { ch with state := .armed }).closeFrame n .publish false) ∨
      (1 ≤ e.received ∧ e.received < e.expected ∧ (s.input n).cfg.keepShort = true ∧
        closed = (s.modInput n fun ch => { ch with state := .armed }).closeFrame n .publish true) ∨
      (e.received < e.expected ∧ (e.received = 0 ∨ (s.input n).cfg.keepShort = false) ∧
        closed = ((s.broken n).modInput n fun ch => { ch with state := .armed }).closeFrame n .discard false)) →
    exec (.frameEnd n) s = .next (if (s.input n).stopPending then closed.stopCompletion n else closed)

/-- Messages that find no frame (R35, R37, R24): in ARMED a LINE or FRAME END is stray, counted and raised; FRAME END in SKIPPING
makes the channel ARMED and counts nothing; a LINE in SKIPPING and any message in OFF, STOPPING or RESETTING is dropped and
changes nothing. -/
def Obligations.MessagesWithoutFrame : Prop :=
  (∀ (n : Fin 4) (s : State), (s.input n).state = .skipping →
    exec (.frameEnd n) s = .next (s.setInput n { s.input n with state := .armed })) ∧
  ∀ (n : Fin 4) (tag : Option Word) (payload : List Word) (s : State),
    ((s.input n).state = .armed →
      exec (.line n payload) s = .next (({ s with eu := s.eu.setBits (.input n) 0x100 } : State).setInput n
        ((s.input n).count .stray)) ∧
      exec (.frameEnd n) s = .next (({ s with eu := s.eu.setBits (.input n) 0x100 } : State).setInput n
        ((s.input n).count .stray))) ∧
    ((s.input n).state = .skipping → exec (.line n payload) s = .next s) ∧
    ((s.input n).state = .off ∨ (s.input n).state = .stopping ∨ (s.input n).state = .resetting →
      exec (.frameStart n tag) s = .next s ∧ exec (.line n payload) s = .next s ∧ exec (.frameEnd n) s = .next s)

/-- LOSS_TIMER_EXPIRY (R38, R39): refused while the timer is stopped or has not run its time (the model's choice, assumption
3); otherwise LOST, SIGNAL_LOST and SIGNAL_LOSSES; in FILLING the open frame is then broken, and elsewhere the state becomes
ARMED and nothing else changes. -/
def Obligations.LossTimerExpires : Prop :=
  ∀ (n : Fin 4) (s : State),
    ((s.input n).lossTimer = none → exec (.lossTimerExpiry n) s = .refused .timerNotRunning) ∧
    ∀ start, (s.input n).lossTimer = some start →
      ((s.timeBase - start).toNat < (s.input n).cfg.lossTimeout * 1000 →
        exec (.lossTimerExpiry n) s = .refused .timeNotElapsed) ∧
      ((s.input n).cfg.lossTimeout * 1000 ≤ (s.timeBase - start).toNat →
        ((s.input n).state ≠ .filling →
          exec (.lossTimerExpiry n) s = .next (({ s with eu := s.eu.setBits (.input n) 0x040 } : State).setInput n
            { (s.input n).count .signalLosses with state := .armed, lost := true, lossTimer := none })) ∧
        ((s.input n).state = .filling → ∀ closed : State,
          closed = (((({ s with eu := (s.eu.setBits (.input n) 0x040).setBits (.input n) 0x004 } : State).setInput n
            { ((s.input n).count .signalLosses).count .framesBroken with
              state := .armed, lost := true, lossTimer := none }).closeOpen n .discard false).settle n).raiseWrite n →
          exec (.lossTimerExpiry n) s =
            .next (if (s.input n).stopPending then closed.stopCompletion n else closed)))

/-- The push link of one input leaves the rest of the machine alone: outputs, store, command unit, port, host interface, time
base, every other input but for a write that a grant puts in flight, and every other event register (R24, R41). -/
def Obligations.PushLinkFrame : Prop :=
  ∀ (n : Fin 4) (tag : Option Word) (payload : List Word) (c : Instr) (s t : State),
    c = .frameStart n tag ∨ c = .line n payload ∨ c = .frameEnd n ∨ c = .lossTimerExpiry n →
    exec c s = .next t →
    t.outputs = s.outputs ∧ t.cu = s.cu ∧ t.ap = s.ap ∧ t.store = s.store ∧ t.host = s.host ∧
    t.timeBase = s.timeBase ∧ t.resetAsserted = s.resetAsserted ∧
    (∀ k, k ≠ n → t.input k = s.input k ∨ t.input k = (s.input k).markInFlight) ∧
    ∀ i : Fin 11, t.eu.enable[i] = s.eu.enable[i] ∧
      (i ≠ eventRegIdx (.input n) → t.eu.status[i] = s.eu.status[i])

/-! ### The pull link (chapters 4 and 5) -/

/-- FRAME_OPEN in OFF and in DISABLING (R79, R77, R73): answered OFFLINE with the configured source and the blank geometry, and
nothing is counted; while the frame is still open in DISABLING it first implies the close, a protocol error. In SHOWING (R79):
PROTOCOL counted and raised, the open frame closed, and then the FRAME OPEN is taken as in IDLE. -/
def Obligations.FrameOpenNotIdle : Prop :=
  (∀ (m : Fin 6) (s : State),
    ((s.output m).state = .off ∨ ((s.output m).state = .disabling ∧ (s.output m).frame = none) →
      exec (.frameOpen m) s = .next (s.setOutput m { s.output m with
        answer := some ⟨.offline, (s.output m).cfg.source, none, none, (s.output m).cfg.blankLength,
          (s.output m).cfg.blankCount, none, false, false, false⟩ })) ∧
    ∀ f, (s.output m).state = .disabling → (s.output m).frame = some f → ∀ closed : State,
      closed = ((({ s with eu := s.eu.setBits (.output m) 0x10 } : State).setOutput m
        ((s.output m).countBy .protocol 1)).closeDisabling m) →
      exec (.frameOpen m) s = .next (closed.setOutput m { closed.output m with
        answer := some ⟨.offline, (s.output m).cfg.source, none, none, (s.output m).cfg.blankLength,
          (s.output m).cfg.blankCount, none, false, false, false⟩ })) ∧
  ∀ (m : Fin 6) (s : State), (s.output m).state = .showing →
    exec (.frameOpen m) s = exec (.frameOpen m)
      (((({ s with eu := s.eu.setBits (.output m) 0x10 } : State).setOutput m
        ((s.output m).countBy .protocol 1)).closeOutput m).modOutput m fun o => { o with state := .idle })

/-- FRAME_OPEN in IDLE answered BLANK under MUTE, or for a lost source under loss action BLANK (R80, R81, R88, R73, R75): the
retained slot is released, the frame is counted FRAMES_BLANK, the output is SHOWING with both cursors 0 and the settings
copied, and the SOURCE_LOST mark is the source's LOST flag; L and the epoch keep their values. Under MUTE the loss-reported
flag keeps its value; for a lost source the event is raised and the flag set unless it already stands under this source. -/
def Obligations.FrameOpenBlank : Prop :=
  (∀ (m : Fin 6) (s : State), (s.output m).state = .idle → (s.output m).cfg.mute = true →
    exec (.frameOpen m) s = .next (({ s with sm := match (s.output m).retained with
        | some k => s.sm.leave m k
        | none => s.sm } : State).setOutput m
      { (s.output m).countBy .framesBlank 1 with
        state := .showing, retained := none, pull := 0, fetch := 0
        answer := some ⟨.blank, (s.output m).cfg.source, none, none, (s.output m).cfg.blankLength,
          (s.output m).cfg.blankCount, none, false, false, (s.input (s.output m).cfg.source).lost⟩
        frame := some ⟨.blank, none, (s.output m).cfg.blankLength, (s.output m).cfg.blankCount,
          (s.output m).cfg.fillKind, (s.output m).cfg.blankWord, (s.output m).cfg.watermark, false, false, false⟩ })) ∧
  ∀ (m : Fin 6) (s : State), (s.output m).state = .idle → (s.output m).cfg.mute = false →
    (s.input (s.output m).cfg.source).lost = true → (s.output m).cfg.lossAction = .blank →
    exec (.frameOpen m) s = .next (({ s with
      sm := match (s.output m).retained with
        | some k => s.sm.leave m k
        | none => s.sm,
      eu := if (s.output m).lossReported = some (s.output m).cfg.source then s.eu
        else s.eu.setBits (.output m) 0x20 } : State).setOutput m
      { (s.output m).countBy .framesBlank 1 with
        state := .showing, retained := none, pull := 0, fetch := 0
        lossReported := some (s.output m).cfg.source
        answer := some ⟨.blank, (s.output m).cfg.source, none, none, (s.output m).cfg.blankLength,
          (s.output m).cfg.blankCount, none, false, false, true⟩
        frame := some ⟨.blank, none, (s.output m).cfg.blankLength, (s.output m).cfg.blankCount,
          (s.output m).cfg.fillKind, (s.output m).cfg.blankWord, (s.output m).cfg.watermark, false, false, false⟩ })

/-- FRAME_OPEN in IDLE under FREEZE with a retained slot (R80, R84, R88, R93): PICTURE with the slot's descriptor as it stands,
FRAMES_FROZEN, no change to L, the epoch increased and the fetch begun. When the policy finds no entry (R86): the retained slot
is shown again as REPEAT, with no join or leave, or the answer is BLANK when none is retained; L is as the tests of R82 leave
it. -/
def Obligations.FrameOpenRetained : Prop :=
  (∀ (m : Fin 6) (k : Nat) (s : State), (s.output m).state = .idle → (s.output m).cfg.mute = false →
    (s.input (s.output m).cfg.source).lost = false ∨ (s.output m).cfg.lossAction = .keep →
    (s.output m).cfg.freeze = true → (s.output m).retained = some k →
    ∀ (lost : Bool) (r : SlotRecord), lost = (s.input (s.output m).cfg.source).lost → r = s.sm.slot k →
    exec (.frameOpen m) s = .next ((s.setOutput m
      { (s.output m).countBy .framesFrozen 1 with
        state := .showing, pull := 0, fetch := 0, epoch := (s.output m).epoch + 1
        lossReported := if lost = true ∧ (s.output m).lossReported = some (s.output m).cfg.source
          then (s.output m).lossReported else none
        answer := some ⟨.picture, (s.output m).cfg.source, r.sequence, r.tag, r.lineLength.getD 0, r.lineCount.getD 0,
          r.timestamp, r.short, false, lost⟩
        frame := some ⟨.picture, some k, r.lineLength.getD 0, r.lineCount.getD 0, (s.output m).cfg.fillKind,
          (s.output m).cfg.blankWord, (s.output m).cfg.watermark, false, false, false⟩ }).raiseRead m)) ∧
  ∀ (m : Fin 6) (s : State) (o : OutputChannel) (last : Option LastShown) (lost : Bool) (kept : Option (Fin 4)),
    (s.output m).state = .idle → (s.output m).cfg.mute = false →
    (s.input (s.output m).cfg.source).lost = false ∨ (s.output m).cfg.lossAction = .keep →
    (s.output m).cfg.freeze = false ∨ (s.output m).retained = none →
    o = s.output m → lost = (s.input o.cfg.source).lost →
    last = keepLast o.last o.cfg.source (s.sm.seqOf o.cfg.source) →
    choosePolicy s.sm (s.sm.readyOf o.cfg.source) o.cfg.policy o.cfg.delay last = none →
    kept = (if lost = true ∧ o.lossReported = some o.cfg.source then o.lossReported else none) →
    (∀ (k : Nat) (r : SlotRecord), o.retained = some k → r = s.sm.slot k →
      exec (.frameOpen m) s = .next ((s.setOutput m
        { o.countBy .framesRepeated 1 with
          state := .showing, last := last, pull := 0, fetch := 0, epoch := o.epoch + 1, lossReported := kept
          answer := some ⟨.repeated, o.cfg.source, r.sequence, r.tag, r.lineLength.getD 0, r.lineCount.getD 0,
            r.timestamp, r.short, false, lost⟩
          frame := some ⟨.repeated, some k, r.lineLength.getD 0, r.lineCount.getD 0, o.cfg.fillKind, o.cfg.blankWord,
            o.cfg.watermark, false, false, false⟩ }).raiseRead m)) ∧
    (o.retained = none →
      exec (.frameOpen m) s = .next (s.setOutput m
        { o.countBy .framesBlank 1 with
          state := .showing, last := last, pull := 0, fetch := 0, lossReported := kept
          answer := some ⟨.blank, o.cfg.source, none, none, o.cfg.blankLength, o.cfg.blankCount, none, false, false,
            lost⟩
          frame := some ⟨.blank, none, o.cfg.blankLength, o.cfg.blankCount, o.cfg.fillKind, o.cfg.blankWord,
            o.cfg.watermark, false, false, false⟩ }))

/-- The policies (R83, R85) and the tests on L before them (R82): LATEST takes the newest entry; SEQUENTIAL the oldest whose
sequence is after L, or the oldest when L is absent; DELAY the entry at length - 1 - D, or the oldest with DELAY_SHORT; L is
kept only under the source it was set under and only while it is before that source's next-sequence counter. -/
def Obligations.PolicyChoice : Prop :=
  (∀ (sm : SlotManager) (list : List Nat) (d : Nat) (last : Option LastShown),
    choosePolicy sm [] .latest d last = none ∧ choosePolicy sm [] .sequential d last = none ∧
    choosePolicy sm [] .delay d last = none ∧
    (∀ older k, list = older ++ [k] → choosePolicy sm list .latest d last = some (k, false)) ∧
    (∀ k rest, list = k :: rest → choosePolicy sm list .sequential d none = some (k, false)) ∧
    (∀ l k, choosePolicy sm list .sequential d (some l) = some (k, false) ↔
      ∃ before rest, list = before ++ k :: rest ∧ seqAfter ((sm.slot k).sequence.getD 0) l.sequence = true ∧
        ∀ j ∈ before, seqAfter ((sm.slot j).sequence.getD 0) l.sequence = false) ∧
    (d < list.length → ∃ k, list[list.length - 1 - d]? = some k ∧ choosePolicy sm list .delay d last = some (k, false)) ∧
    (∀ k rest, list = k :: rest → list.length ≤ d → choosePolicy sm list .delay d last = some (k, true))) ∧
  (∀ a b : Word, seqAfter a b = true ↔ 1 ≤ (a - b).toNat ∧ (a - b).toNat < 2147483648) ∧
  ∀ (last : Option LastShown) (src : Fin 4) (next : Word),
    (keepLast last src next = last ∨ keepLast last src next = none) ∧
    ∀ l, keepLast last src next = some l ↔ last = some l ∧ l.source = src ∧ seqAfter next l.sequence = true

/-- FRAME_OPEN in IDLE binding the entry that the policy chose (R87, R88, R82, R17 to R19): the output joins the chosen slot and
leaves the retained one unless they are the same; REPEAT when the slot is retained with sequence L, else PICTURE; drops by the
gap past L + 1; L becomes the slot's sequence under this source; the epoch increases and the fetch begins. -/
def Obligations.FrameOpenBinds : Prop :=
  ∀ (m : Fin 6) (k : Nat) (short : Bool) (s : State) (o : OutputChannel) (last : Option LastShown) (seq : Word)
    (status : AnswerStatus) (lost : Bool) (r : SlotRecord),
    (s.output m).state = .idle → (s.output m).cfg.mute = false →
    (s.input (s.output m).cfg.source).lost = false ∨ (s.output m).cfg.lossAction = .keep →
    (s.output m).cfg.freeze = false ∨ (s.output m).retained = none →
    o = s.output m → lost = (s.input o.cfg.source).lost →
    last = keepLast o.last o.cfg.source (s.sm.seqOf o.cfg.source) →
    choosePolicy s.sm (s.sm.readyOf o.cfg.source) o.cfg.policy o.cfg.delay last = some (k, short) →
    r = s.sm.slot k → seq = r.sequence.getD 0 →
    status = (if o.retained = some k ∧ last.map LastShown.sequence = some seq then .repeated else .picture) →
    exec (.frameOpen m) s = .next ((({ s with
      sm := if o.retained = some k then s.sm
        else match o.retained with
          | none => s.sm.join m k
          | some old => (s.sm.join m k).leave m old } : State).setOutput m
      { (o.countBy .framesDropped (match last with
            | some l => if seqAfter seq (l.sequence + 1) then (seq - l.sequence - 1).toNat else 0
            | none => 0)).countBy (if status = .repeated then .framesRepeated else .framesNew) 1 with
        state := .showing, retained := some k, last := some ⟨seq, o.cfg.source⟩, pull := 0, fetch := 0,
        epoch := o.epoch + 1
        lossReported := if lost = true ∧ o.lossReported = some o.cfg.source then o.lossReported else none
        answer := some ⟨status, o.cfg.source, r.sequence, r.tag, r.lineLength.getD 0, r.lineCount.getD 0,
          r.timestamp, r.short, short, lost⟩
        frame := some ⟨status, some k, r.lineLength.getD 0, r.lineCount.getD 0, o.cfg.fillKind, o.cfg.blankWord,
          o.cfg.watermark, false, false, false⟩ }).raiseRead m)

/-- LINE_PULL. In a PICTURE or REPEAT frame below the line count (R100 to R102): DATA for line k at the FIFO head; fill for a
POISONED or a missing line, FILL_REPEAT only under fill kind REPEAT with a line in the repeat buffer; the cursors advance, and
the engine withdraws an obsolete request and may raise the next. Elsewhere (R103 to R105): at or beyond the line count an
overpull, of a BLANK frame too, raised once per frame; in a BLANK frame blank fill that counts nothing; with no frame open a
blank line of the settings numbered 0, a protocol error in IDLE only. -/
def Obligations.LinePull : Prop :=
  (∀ (m : Fin 6) (f : OpenFrame) (s : State) (o : OutputChannel) (k : Nat) (fill : LineMessage),
    o = s.output m → o.frame = some f → f.status = .picture ∨ f.status = .repeated → k = o.pull → k < f.lineCount →
    fill = (match f.fillKind, o.repeatBuf with
      | .repeated, some p => ⟨k, .fillRepeat, p⟩
      | _, _ => ⟨k, .fillBlank, List.replicate f.lineLength f.blankWord⟩) →
    (∀ (l : PrefetchLine) (rest : List PrefetchLine), o.fifo = l :: rest → l.number = k → l.poisoned = false →
      exec (.linePull m) s = .next ((s.setOutput m { o with
        line := some ⟨k, .data, l.payload⟩, fifo := rest, repeatBuf := some l.payload,
        pull := min 65535 (k + 1), fetch := max o.fetch (k + 1) }).refetch m)) ∧
    (∀ (l : PrefetchLine) (rest : List PrefetchLine), o.fifo = l :: rest → l.number = k → l.poisoned = true →
      exec (.linePull m) s = .next ((({ s with eu := s.eu.setBits (.output m) 0x08 } : State).setOutput m
        { o.countBy .poisonedLines 1 with
          line := some fill, fifo := rest, pull := min 65535 (k + 1), fetch := max o.fetch (k + 1),
          frame := some { f with impaired := true } }).refetch m)) ∧
    ((∀ l ∈ o.fifo.head?, l.number ≠ k) →
      exec (.linePull m) s = .next ((({ s with
        eu := if f.firstUnderrun then s.eu else s.eu.setBits (.output m) 0x01 } : State).setOutput m
        { o.countBy .fillLines 1 with
          line := some fill, pull := min 65535 (k + 1), fetch := max o.fetch (k + 1),
          frame := some { f with impaired := true, firstUnderrun := true } }).refetch m))) ∧
  ∀ (m : Fin 6) (s : State) (o : OutputChannel), o = s.output m →
    (∀ f, o.frame = some f → f.lineCount ≤ o.pull →
      exec (.linePull m) s = .next (({ s with
        eu := if f.firstOverpull then s.eu else s.eu.setBits (.output m) 0x04 } : State).setOutput m
        { o.countBy .overpulls 1 with
          line := some ⟨o.pull, .fillBlank, List.replicate f.lineLength f.blankWord⟩
          pull := min 65535 (o.pull + 1), frame := some { f with firstOverpull := true } })) ∧
    (∀ f, o.frame = some f → f.status = .blank → o.pull < f.lineCount →
      exec (.linePull m) s = .next (s.setOutput m { o with
        line := some ⟨o.pull, .fillBlank, List.replicate f.lineLength f.blankWord⟩
        pull := min 65535 (o.pull + 1) })) ∧
    (o.frame = none → o.state ≠ .idle →
      exec (.linePull m) s = .next (s.setOutput m { o with
        line := some ⟨0, .fillBlank, List.replicate o.cfg.blankLength o.cfg.blankWord⟩ })) ∧
    (o.frame = none → o.state = .idle →
      exec (.linePull m) s = .next (({ s with eu := s.eu.setBits (.output m) 0x10 } : State).setOutput m
        { o.countBy .protocol 1 with
          line := some ⟨0, .fillBlank, List.replicate o.cfg.blankLength o.cfg.blankWord⟩ }))

/-- FRAME_CLOSE (R107, R108, R77, R109): in SHOWING the frame ends, INCOMPLETE when impaired, the retained slot and L kept; in
IDLE a protocol error; ignored in OFF and after the close in DISABLING; before it the frame ends, the retained slot is left, and
the output enters OFF with DISABLED unless a granted read is outstanding. That a read which a full soft reset left in execution does
not hold it back is the model's choice by assumption 13, and that the cursors keep their values by assumption 20. -/
def Obligations.FrameCloseEnds : Prop :=
  ∀ (m : Fin 6) (s : State) (o : OutputChannel), o = s.output m →
    (o.state = .off ∨ (o.state = .disabling ∧ o.frame = none) → exec (.frameClose m) s = .next s) ∧
    (o.state = .idle → exec (.frameClose m) s = .next
      (({ s with eu := s.eu.setBits (.output m) 0x10 } : State).setOutput m (o.countBy .protocol 1))) ∧
    ∀ f, o.frame = some f →
      (o.state = .showing → exec (.frameClose m) s = .next (({ s with
        eu := if f.impaired then s.eu.setBits (.output m) 0x02 else s.eu,
        arb := { s.arb with outReq := s.arb.outReq.set m none } } : State).setOutput m
        { (if f.impaired then o.countBy .incompleteFrames 1 else o) with
          state := .idle, frame := none, fifo := [], repeatBuf := none, epoch := o.epoch + 1 })) ∧
      (o.state = .disabling → exec (.frameClose m) s = .next (({ s with
        sm := match o.retained with
          | some k => s.sm.leave m k
          | none => s.sm,
        eu := if s.inFlight (.output m) then (if f.impaired then s.eu.setBits (.output m) 0x02 else s.eu)
          else (if f.impaired then s.eu.setBits (.output m) 0x02 else s.eu).setBits (.output m) 0x40,
        arb := { s.arb with outReq := s.arb.outReq.set m none } } : State).setOutput m
        { (if f.impaired then o.countBy .incompleteFrames 1 else o) with
          state := if s.inFlight (.output m) then .disabling else .off
          retained := none, frame := none, fifo := [], repeatBuf := none, epoch := o.epoch + 1 }))

/-! ### Memory requests, refresh and initialisation (chapters 8 and 9) -/

/-- LINE_WRITE_COMPLETION (R42, R45, R48, R146, R147): the words are stored. In RESETTING the discarded entries then leave, the
channel enters OFF; else the line leaves the FIFO, its entry's write in flight becomes no, entries that may leave do so, a
STOPPING channel without entries enters OFF, and the engine raises its next request. Then the completion is a grant moment. -/
def Obligations.LineWriteCompletes : Prop :=
  ∀ (n : Fin 4) (r : MemRequest) (s stored : State), s.mc.exec = some ⟨r, false⟩ → r.kind = .lineWrite →
    r.client = .input n → r.addr + r.count ≤ 16777216 → r.words.length ≤ r.count →
    stored = { s with mc := { s.mc with exec := none }, store := s.store.write r.addr r.words } →
    ((s.input n).state = .resetting →
      exec .lineWriteCompletion s = .next (({ stored with
        sm := s.sm.toFreeAll ((s.input n).fill.map FrameEntry.slot) } : State).setInput n
          { s.input n with fifo := [], fill := [], state := .off }).afterDelivery) ∧
    ((s.input n).state ≠ .resetting → ∀ (l : FifoLine) (rest : List FifoLine), (s.input n).fifo = l :: rest →
      ∀ settled : State, settled = (stored.setInput n { s.input n with
        fifo := rest
        fill := (s.input n).fill.map fun e : FrameEntry =>
          if e.slot = l.slot then { e with writeInFlight := false } else e }).settle n →
      exec .lineWriteCompletion s = .next (((if (settled.input n).state = .stopping then settled.stopCompletion n
        else settled).raiseWrite n).afterDelivery))

/-- LINE_READ_COMPLETION (R98, R20, R148, R77): a line of another epoch or below the pull cursor is dropped, and in DISABLING
after the close the output then enters OFF with DISABLED; else the line joins the FIFO, POISONED with a count on the slot when
some word is, and the engine raises its next request. -/
def Obligations.LineReadCompletes : Prop :=
  ∀ (m : Fin 6) (r : MemRequest) (s read : State) (o : OutputChannel) (ws : List WordRead),
    s.mc.exec = some ⟨r, false⟩ → r.kind = .lineRead → r.client = .output m → r.addr + r.count ≤ 16777216 →
    r.words.length ≤ r.count → o = s.output m → ws = s.store.readWords r.addr r.count →
    read = ({ s with mc := { s.mc with exec := none } } : State).countEcc ws →
    (r.epoch ≠ o.epoch ∨ r.number < o.pull →
      (o.state ≠ .disabling ∨ o.frame ≠ none →
        exec .lineReadCompletion s = .next (read.raiseRead m).afterDelivery) ∧
      (o.state = .disabling → o.frame = none →
        exec .lineReadCompletion s = .next ((({ read with eu := read.eu.setBits (.output m) 0x40 } : State).setOutput m
          { o with state := .off }).raiseRead m).afterDelivery)) ∧
    (r.epoch = o.epoch → o.pull ≤ r.number → ∀ (f : OpenFrame) (k : Nat), o.frame = some f → f.slot = some k →
      exec .lineReadCompletion s = .next ((({ read with
        sm := if ws.any (fun w => w.finding = .uncorrectable) then
            { s.sm with slots := s.sm.slots.modify k fun x =>
              { x with poison := BitVec.ofNat 8 (min 255 (x.poison.toNat + 1)) } }
          else s.sm } : State).setOutput m
        { o with fifo := o.fifo ++
          [⟨r.number, ws.any (fun w => w.finding = .uncorrectable), r.epoch, ws.map WordRead.word⟩] }).raiseRead
        m).afterDelivery)

/-- BLOCK_READ_COMPLETION (R129, R148): the read buffer takes the words with their poison flags, READ_READY, ACCESS_DONE, and
ACCESS_POISON if a word is poisoned. BLOCK_WRITE_COMPLETION (R133, R21): the words are stored, write pending is cleared on the
flush record's slots and on no other, ACC_ADDR advances, the buffer empties, IDLE, ACCESS_DONE. -/
def Obligations.PortCompletions : Prop :=
  (∀ (r : MemRequest) (s read : State) (ws : List WordRead), s.mc.exec = some ⟨r, false⟩ → r.kind = .blockRead →
    r.addr + r.count ≤ 16777216 → r.words.length ≤ r.count → ws = s.store.readWords r.addr r.count →
    read = ({ s with mc := { s.mc with exec := none } } : State).countEcc ws →
    exec .blockReadCompletion s = .next ({ read with
      ap := { s.ap with readBuf := ws.map (fun w => ⟨w.word, w.finding = .uncorrectable⟩), state := .readReady },
      eu := if ws.any (fun w => w.finding = .uncorrectable) then
          (read.eu.setBits .global 0x008).setBits .global 0x020
        else read.eu.setBits .global 0x008 } : State).afterDelivery) ∧
  (∀ (r : MemRequest) (fr : FlushRecord) (s : State), s.mc.exec = some ⟨r, false⟩ → r.kind = .blockWrite →
    r.addr + r.count ≤ 16777216 → r.words.length ≤ r.count → s.ap.flushRecord = some fr →
    exec .blockWriteCompletion s = .next ({ s with
      mc := { s.mc with exec := none },
      store := s.store.write r.addr r.words,
      sm := s.sm.clearPending fr.slots,
      ap := { s.ap with
        addr := s.ap.addr + BitVec.ofNat 32 fr.count, writeBuf := [], flushRecord := none, state := .idle },
      eu := s.eu.setBits .global 0x008 } : State).afterDelivery) ∧
  ∀ (sm : SlotManager) (ks : List Nat),
    (sm.clearPending ks) = { sm with slots := sm.slots.mapIdx fun i x =>
      if i ∈ ks then { x with writePending := false } else x } ∧
    (sm.setPending ks) = { sm with slots := sm.slots.mapIdx fun i x =>
      if i ∈ ks then { x with writePending := true } else x }

/-- SLOT_CLEAR accepted (R121): BUSY, write pending set on the slot, the first block of 1024 blank words requested.
CLEAR_WRITE_COMPLETION (R122): the words are stored; while blocks are left the next is requested, and at the end write pending is
cleared and the command completes with OK, the slot's index and CMD_DONE. -/
def Obligations.SlotClearRuns : Prop :=
  (∀ (k : Nat) (s : State), s.resetAsserted = false → s.cu.running = none → s.sm.built = true →
    k = s.cu.args.arg0.toNat → k < s.sm.count.toNat → (s.sm.slot k).state = .held →
    (s.sm.slot k).writePending = false →
    exec .slotClear s = .next ({ s with
      sm := s.sm.setPending [k],
      cu := ⟨some ⟨0x14, s.cu.args, some ⟨k, s.cu.args.arg2, 0⟩⟩, s.cu.args, 0x14, .ok, 0⟩,
      arb := { s.arb with cuReq := some ⟨⟨.commandUnit, .clearWrite, s.sm.base.toNat + k * s.sm.stride.toNat, 1024,
        List.replicate 1024 s.cu.args.arg2, 0, 0⟩, 0⟩ } } : State).grantMoment) ∧
  ∀ (r : MemRequest) (rc : RunningCommand) (c : ClearProgress) (s : State), s.mc.exec = some ⟨r, false⟩ →
    r.kind = .clearWrite → r.addr + r.count ≤ 16777216 → r.words.length ≤ r.count →
    s.cu.running = some rc → rc.clear = some c →
    (c.progress + 1024 < s.sm.stride.toNat →
      exec .clearWriteCompletion s = .next (({ s with
        mc := { s.mc with exec := none },
        store := s.store.write r.addr r.words,
        cu := { s.cu with running := some { rc with clear := some { c with progress := c.progress + 1024 } } },
        arb := { s.arb with cuReq := some ⟨⟨.commandUnit, .clearWrite,
          s.sm.base.toNat + c.slot * s.sm.stride.toNat + (c.progress + 1024), 1024, List.replicate 1024 c.blank, 0,
          0⟩, 0⟩ } } : State).grantMoment).afterDelivery) ∧
    (s.sm.stride.toNat ≤ c.progress + 1024 →
      exec .clearWriteCompletion s = .next ({ s with
        mc := { s.mc with exec := none },
        store := s.store.write r.addr r.words,
        sm := s.sm.clearPending [c.slot],
        cu := ⟨none, s.cu.args, rc.code, .ok, BitVec.ofNat 32 c.slot⟩,
        eu := s.eu.setBits .global 0x001 } : State).afterDelivery)

/-- REFRESH_TIMER_EXPIRY (R144): the timer restarts with the interval that MC_REFRESH holds; refresh-due is set, a grant moment,
or, where it stands already, REFRESH_BACKLOG counts. REFRESH_COMPLETION (R145) clears refresh-due. ORPHAN_COMPLETION (R151,
R137, R148): a write's words are stored, a read's errors counted, no client hears of it; a deferred port request is raised.
The model's choices in it: an expiry taken late restarts the timer from the count at which it is taken (assumption 29); a refresh
that a full soft reset found in execution completes by either row (assumption 14); the engine whose read was the orphan is tested
again at its completion (assumption 12); and an event that cannot occur is refused (assumption 3): an expiry of a timer that does
not run or has not run its time, and a completion with nothing, another kind or the other orphan mark in execution. -/
def Obligations.RefreshAndOrphan : Prop :=
  (∀ s : State,
    (s.mc.refreshTimer = none → exec .refreshTimerExpiry s = .refused .timerNotRunning) ∧
    ∀ t, s.mc.refreshTimer = some t →
      ((s.timeBase - t.start).toNat < t.interval → exec .refreshTimerExpiry s = .refused .timeNotElapsed) ∧
      (t.interval ≤ (s.timeBase - t.start).toNat →
        (s.mc.refreshDue = false → exec .refreshTimerExpiry s = .next ({ s with mc := { s.mc with
          refreshTimer := some ⟨s.timeBase, s.mc.refreshInterval⟩, refreshDue := true } } : State).grantMoment) ∧
        (s.mc.refreshDue = true → exec .refreshTimerExpiry s = .next { s with mc := { s.mc with
          refreshTimer := some ⟨s.timeBase, s.mc.refreshInterval⟩
          refreshBacklog := BitVec.ofNat 16 (min 65535 (s.mc.refreshBacklog.toNat + 1)) } }))) ∧
  (∀ (s : State) (e : Execution), s.mc.exec = some e → e.request.kind = .refresh →
    exec .refreshCompletion s =
      .next ({ s with mc := { s.mc with exec := none, refreshDue := false } } : State).afterDelivery) ∧
  (∀ (s effect : State) (r : MemRequest), s.mc.exec = some ⟨r, true⟩ → r.addr + r.count ≤ 16777216 →
    r.words.length ≤ r.count →
    effect = (match r.kind with
      | .refresh => ({ s with mc := { s.mc with exec := none, refreshDue := false } } : State)
      | .lineRead | .blockRead => ({ s with mc := { s.mc with exec := none } } : State).countEcc
          (s.store.readWords r.addr r.count)
      | .lineWrite | .blockWrite | .clearWrite =>
        { s with mc := { s.mc with exec := none }, store := s.store.write r.addr r.words }) →
    (s.ap.deferred = none → (∀ m : Fin 6, r.client ≠ .output m) →
      exec .orphanCompletion s = .next effect.afterDelivery) ∧
    (s.ap.deferred = none → ∀ m : Fin 6, r.client = .output m →
      exec .orphanCompletion s = .next (effect.raiseRead m).afterDelivery) ∧
    (∀ d, s.ap.deferred = some d → r.client = .accessPort →
      exec .orphanCompletion s = .next (({ effect with
        ap := { s.ap with deferred := none }, arb := { s.arb with apReq := some ⟨d, 0⟩ } } : State).grantMoment).afterDelivery)) ∧
  (∀ s : State, s.mc.exec = none →
    ∀ c ∈ [Instr.lineWriteCompletion, .lineReadCompletion, .blockReadCompletion, .blockWriteCompletion,
        .clearWriteCompletion, .refreshCompletion, .orphanCompletion],
      exec c s = .refused .noSuchCompletion) ∧
  ∀ (s : State) (e : Execution), s.mc.exec = some e →
    (∀ (c : Instr) (kind : RequestKind), (c, kind) ∈ [(Instr.lineWriteCompletion, RequestKind.lineWrite),
        (.lineReadCompletion, .lineRead), (.blockReadCompletion, .blockRead), (.blockWriteCompletion, .blockWrite),
        (.clearWriteCompletion, .clearWrite)] →
      e.orphan = true ∨ e.request.kind ≠ kind → exec c s = .refused .noSuchCompletion) ∧
    (e.request.kind ≠ .refresh → exec .refreshCompletion s = .refused .noSuchCompletion) ∧
    (e.orphan = false → exec .orphanCompletion s = .refused .noSuchCompletion)

/-- MEMORY_INIT (R113, R141, R111): accepted in UNINIT, and in READY with the pool ABSENT; INITIALIZING, refresh stopped, BUSY,
stage 1 at once or, with a request in execution, after it; in READY with the pool BUILT WRONG_STATE, and in INITIALIZING with an
idle command unit, which R113 says cannot be, WRONG_STATE too (the model's choice, assumption 24). INIT_STAGE_END (R142): the next stage begins.
END_OF_STAGE_5 (R143, R114): READY, the timer started, every word undefined, MEM_READY, the command completed with OK. The end of
a stage that is not running, or of stage 1 or 5 before its time, is refused (the model's choice, assumption 3). -/
def Obligations.MemoryInitialisation : Prop :=
  (∀ s : State, s.resetAsserted = false → s.cu.running = none →
    (s.mc.state = .uninit ∨ (s.mc.state = .ready ∧ s.sm.built = false) →
      exec .memoryInit s = .next { s with
        mc := { s.mc with
          state := .initializing, refreshTimer := none, refreshDue := false,
          stage := if s.mc.exec = none then 1 else 0, stageStart := s.timeBase }
        cu := ⟨some ⟨0x01, s.cu.args, none⟩, s.cu.args, 0x01, .ok, 0⟩ }) ∧
    (s.mc.state = .initializing ∨ (s.mc.state = .ready ∧ s.sm.built = true) →
      exec .memoryInit s = .next { s with
        cu := ⟨none, s.cu.args, 0x01, .wrongState, 0⟩, eu := s.eu.setBits .global 0x002 })) ∧
  (∀ s : State,
    (s.mc.state ≠ .initializing ∨ s.mc.stage = 0 ∨ 5 ≤ s.mc.stage →
      exec .initStageEnd s = .refused .stageNotRunning) ∧
    (s.mc.state = .initializing → s.mc.stage = 1 → (s.timeBase - s.mc.stageStart).toNat < 200 →
      exec .initStageEnd s = .refused .timeNotElapsed) ∧
    (s.mc.state = .initializing → (s.mc.stage = 1 ∧ 200 ≤ (s.timeBase - s.mc.stageStart).toNat) ∨
        (2 ≤ s.mc.stage ∧ s.mc.stage ≤ 4) →
      exec .initStageEnd s = .next { s with mc := { s.mc with
        stage := s.mc.stage + 1, stageStart := s.timeBase } })) ∧
  ∀ s : State,
    (s.mc.state ≠ .initializing ∨ s.mc.stage ≠ 5 → exec .endOfStage5 s = .refused .stageNotRunning) ∧
    (s.mc.state = .initializing → s.mc.stage = 5 → (s.timeBase - s.mc.stageStart).toNat < 2 →
      exec .endOfStage5 s = .refused .timeNotElapsed) ∧
    (s.mc.state = .initializing → s.mc.stage = 5 → 2 ≤ (s.timeBase - s.mc.stageStart).toNat →
      exec .endOfStage5 s = .next ({ s with
        mc := { s.mc with
          state := .ready, stage := 0, refreshDue := false, refreshTimer := some ⟨s.timeBase, s.mc.refreshInterval⟩ },
        store := ⟨[], s.store.undefGen + 1⟩,
        cu := ⟨none, s.cu.args, 0x01, .ok, 0⟩,
        eu := (s.eu.setBits .global 0x040).setBits .global 0x001 } : State).grantMoment)

/-! ### Host commands (chapter 6) -/

/-- A CMD write (R111, R112): in BUSY every command raises CMD_OVERRUN and does nothing else; a code that names no command
completes with BAD_ARGUMENT. INPUT_FLUSH (R124): NO_POOL, BAD_ARGUMENT, or the ready list retired oldest first with its length as
the value. A refused command changes nothing but CMD_RESULT and CMD_ERROR. -/
def Obligations.CommandsTaken : Prop :=
  ∀ (s : State) (refused : BitVec 8 → ResultCode → State), s.resetAsserted = false →
    refused = (fun code result => { s with
      cu := ⟨none, s.cu.args, code, result, 0⟩, eu := s.eu.setBits .global 0x002 }) →
    (s.cu.running ≠ none → ∀ (code : BitVec 8),
      ∀ c ∈ [Instr.memoryInit, .poolBuild, .poolTeardown, .slotClaim, .slotHold, .slotRelease, .slotPublish, .slotClear,
        .inputFlush, .unknownCommand code],
      exec c s = .next { s with eu := s.eu.setBits .global 0x004 }) ∧
    (s.cu.running = none →
      (∀ code : BitVec 8, exec (.unknownCommand code) s = .next (refused 0 .badArgument)) ∧
      (s.sm.built = false → exec .inputFlush s = .next (refused 0x15 .noPool)) ∧
      (s.sm.built = true → 4 ≤ s.cu.args.arg0.toNat → exec .inputFlush s = .next (refused 0x15 .badArgument)) ∧
      (s.sm.built = true → ∀ n : Fin 4, s.cu.args.arg0.toNat = n.val →
        exec .inputFlush s = .next { s with
          sm := (s.sm.setReady n []).retireAll (s.sm.readyOf n)
          cu := ⟨none, s.cu.args, 0x15, .ok, BitVec.ofNat 32 (s.sm.readyOf n).length⟩
          eu := s.eu.setBits .global 0x001 }))

/-- POOL_BUILD (R115, R8, R1, R174): MEMORY_NOT_READY, POOL_PRESENT, BAD_ARGUMENT for a geometry that is not valid, SLOT_BUSY
while a flush or a write left by a full soft reset runs, in this order; else fresh records, all on the free list from S0, empty
ready lists and captures. POOL_TEARDOWN (R116, R22): NO_POOL, CHANNELS_ACTIVE, SLOT_BUSY; else no records and empty lists. -/
def Obligations.PoolCommands : Prop :=
  ∀ (s : State) (refused : BitVec 8 → ResultCode → State), s.resetAsserted = false → s.cu.running = none →
    refused = (fun code result => { s with
      cu := ⟨none, s.cu.args, code, result, 0⟩, eu := s.eu.setBits .global 0x002 }) →
    ((s.mc.state ≠ .ready → exec .poolBuild s = .next (refused 0x02 .memoryNotReady)) ∧
     (s.mc.state = .ready → s.sm.built = true → exec .poolBuild s = .next (refused 0x02 .poolPresent)) ∧
     ∀ valid : Bool, valid = (s.sm.base.toNat % 1024 = 0 ∧ s.sm.stride.toNat % 1024 = 0 ∧ 1024 ≤ s.sm.stride.toNat ∧
        s.sm.stride.toNat ≤ 2097152 ∧ 1 ≤ s.sm.count.toNat ∧ s.sm.count.toNat ≤ 32 ∧
        s.sm.base.toNat + s.sm.count.toNat * s.sm.stride.toNat ≤ s.mc.size.words : Bool) →
      s.mc.state = .ready → s.sm.built = false →
      (valid = false → exec .poolBuild s = .next (refused 0x02 .badArgument)) ∧
      (valid = true → s.ap.state = .writing → exec .poolBuild s = .next (refused 0x02 .slotBusy)) ∧
      (valid = true → ∀ r, s.mc.exec = some ⟨r, true⟩ →
        r.kind = .lineWrite ∨ r.kind = .blockWrite ∨ r.kind = .clearWrite →
        exec .poolBuild s = .next (refused 0x02 .slotBusy)) ∧
      (valid = true → s.ap.state ≠ .writing →
        (∀ e, s.mc.exec = some e → e.orphan = false ∨ e.request.kind = .lineRead ∨ e.request.kind = .blockRead ∨
          e.request.kind = .refresh) →
        exec .poolBuild s = .next { s with
          sm := { s.sm with
            built := true, slots := (List.range s.sm.count.toNat).map SlotRecord.fresh,
            free := List.range s.sm.count.toNat, ready := Vector.replicate 4 [] }
          host := { s.host with recordCapture := none, listCaptures := Vector.replicate 5 none }
          cu := ⟨none, s.cu.args, 0x02, .ok, s.sm.count⟩
          eu := s.eu.setBits .global 0x001 })) ∧
    ((s.sm.built = false → exec .poolTeardown s = .next (refused 0x03 .noPool)) ∧
     (s.sm.built = true → (∃ n, (s.input n).state ≠ .off) ∨ (∃ m, (s.output m).state ≠ .off) →
       exec .poolTeardown s = .next (refused 0x03 .channelsActive)) ∧
     (s.sm.built = true → (∀ n, (s.input n).state = .off) → (∀ m, (s.output m).state = .off) →
       (s.ap.state = .writing → exec .poolTeardown s = .next (refused 0x03 .slotBusy)) ∧
       (s.ap.state ≠ .writing → exec .poolTeardown s = .next { s with
         sm := { s.sm with built := false, slots := [], free := [], ready := Vector.replicate 4 [] }
         host := { s.host with recordCapture := none, listCaptures := Vector.replicate 5 none }
         cu := ⟨none, s.cu.args, 0x03, .ok, 0⟩
         eu := s.eu.setBits .global 0x001 })))

/-- SLOT_CLAIM (R117), SLOT_HOLD (R118), SLOT_RELEASE (R119), SLOT_PUBLISH (R120), and the refusals of SLOT_CLEAR (R121): the
checks in their order with their codes, and the effect of a command that passes them, with its value and CMD_DONE. -/
def Obligations.SlotCommands : Prop :=
  ∀ (s : State) (refused : BitVec 8 → ResultCode → State) (k : Nat), s.resetAsserted = false → s.cu.running = none →
    refused = (fun code result => { s with
      cu := ⟨none, s.cu.args, code, result, 0⟩, eu := s.eu.setBits .global 0x002 }) →
    k = s.cu.args.arg0.toNat →
    (s.sm.built = false →
      exec .slotClaim s = .next (refused 0x10 .noPool) ∧ exec .slotHold s = .next (refused 0x11 .noPool) ∧
      exec .slotRelease s = .next (refused 0x12 .noPool) ∧ exec .slotPublish s = .next (refused 0x13 .noPool) ∧
      exec .slotClear s = .next (refused 0x14 .noPool)) ∧
    (s.sm.built = true →
      (s.sm.free = [] → exec .slotClaim s = .next (refused 0x10 .empty)) ∧
      (∀ (j : Nat) (rest : List Nat), s.sm.free = j :: rest → exec .slotClaim s = .next { s with
        sm := { s.sm with
          free := rest
          slots := s.sm.slots.modify j fun r => { r with
            state := .held, owner := none, sequence := none, timestamp := none, lineLength := none,
            lineCount := none, tag := none, short := false, viewed := false, poison := 0 } }
        cu := ⟨none, s.cu.args, 0x10, .ok, BitVec.ofNat 32 j⟩
        eu := s.eu.setBits .global 0x001 }) ∧
      (4 ≤ k ∨ 2 ≤ s.cu.args.arg1.toNat → exec .slotHold s = .next (refused 0x11 .badArgument)) ∧
      (∀ n : Fin 4, k = n.val → s.cu.args.arg1.toNat < 2 →
        (s.sm.readyOf n = [] → exec .slotHold s = .next (refused 0x11 .empty)) ∧
        ∀ (j : Nat) (rest : List Nat),
          (s.cu.args.arg1 = 0 ∧ s.sm.readyOf n = rest ++ [j]) ∨ (s.cu.args.arg1 = 1 ∧ s.sm.readyOf n = j :: rest) →
          exec .slotHold s = .next { s with
            sm := { s.sm with
              ready := s.sm.ready.set n rest
              slots := s.sm.slots.modify j fun r => { r with state := .held, owner := none } }
            cu := ⟨none, s.cu.args, 0x11, .ok, BitVec.ofNat 32 j⟩
            eu := s.eu.setBits .global 0x001 }) ∧
      (s.sm.count.toNat ≤ k → exec .slotRelease s = .next (refused 0x12 .badArgument) ∧
        exec .slotPublish s = .next (refused 0x13 .badArgument) ∧
        exec .slotClear s = .next (refused 0x14 .badArgument)) ∧
      (k < s.sm.count.toNat →
        ((s.sm.slot k).state ≠ .held → exec .slotRelease s = .next (refused 0x12 .notHeld) ∧
          exec .slotClear s = .next (refused 0x14 .notHeld)) ∧
        ((s.sm.slot k).state = .held → (s.sm.slot k).writePending = true →
          exec .slotRelease s = .next (refused 0x12 .slotBusy) ∧ exec .slotClear s = .next (refused 0x14 .slotBusy)) ∧
        ((s.sm.slot k).state = .held → (s.sm.slot k).writePending = false →
          exec .slotRelease s = .next { s with
            sm := s.sm.retire k
            cu := ⟨none, s.cu.args, 0x12, .ok, BitVec.ofNat 32 k⟩
            eu := s.eu.setBits .global 0x001 }) ∧
        ∀ (inputNo len lines : Nat), inputNo = s.cu.args.arg1.toNat % 256 → len = s.cu.args.arg2.toNat % 65536 →
          lines = s.cu.args.arg2.toNat / 65536 →
          (4 ≤ inputNo ∨ len < 16 ∨ 1024 < len ∨ lines < 1 ∨ 2048 < lines ∨ s.sm.stride.toNat < len * lines →
            exec .slotPublish s = .next (refused 0x13 .badArgument)) ∧
          ∀ n : Fin 4, inputNo = n.val → 16 ≤ len → len ≤ 1024 → 1 ≤ lines → lines ≤ 2048 →
            len * lines ≤ s.sm.stride.toNat →
            ((s.sm.slot k).state ≠ .held → exec .slotPublish s = .next (refused 0x13 .notHeld)) ∧
            ((s.sm.slot k).state = .held → (s.sm.slot k).writePending = true →
              exec .slotPublish s = .next (refused 0x13 .slotBusy)) ∧
            ((s.sm.slot k).state = .held → (s.sm.slot k).writePending = false →
              ((s.input n).state = .resetting → exec .slotPublish s = .next (refused 0x13 .wrongState)) ∧
              ((s.input n).state ≠ .resetting → ∀ p : State,
                p = s.publishSlot n k (fun r => { r with
                  lineLength := some len, lineCount := some lines,
                  tag := if s.cu.args.arg1.getLsbD 8 then some s.cu.args.arg3 else none, short := false }) →
                exec .slotPublish s = .next { p with
                  cu := ⟨none, s.cu.args, 0x13, .ok, s.sm.seqOf n⟩, eu := p.eu.setBits .global 0x001 }))))

/-! ### The access port (chapter 7) -/

/-- READ (R127, R128, R131), FLUSH (R132, R21) and DISCARD (R134) by the port's state: BUSY, RANGE and VIOLATION with what they
change, and the operation that is taken, with its request and, for a flush, write pending and the flush record. The request of
READ or FLUSH waits while the port's old request is in execution after a full soft reset (R137); that it waits for the port's
own request alone is the model's choice by assumption 11. -/
def Obligations.PortOrders : Prop :=
  ∀ (s : State) (raised : AccessPort → SlotManager → MemRequest → State), s.resetAsserted = false →
    raised = (fun ap sm r =>
      if s.execBy .accessPort then { s with sm := sm, ap := { ap with deferred := some r } }
      else ({ s with sm := sm, ap := ap, arb := { s.arb with apReq := some ⟨r, 0⟩ } } : State).grantMoment) →
    ((s.ap.state = .reading ∨ s.ap.state = .writeFilling ∨ s.ap.state = .writing →
        exec .read s = .next { s with ap := { s.ap with error := .busy } }) ∧
     (s.ap.state = .idle ∨ s.ap.state = .readReady →
        (s.mc.state ≠ .ready ∨ s.mc.size.words < s.ap.addr.toNat + s.ap.count →
          exec .read s = .next { s with ap := { s.ap with error := .range } }) ∧
        (s.mc.state = .ready → s.ap.addr.toNat + s.ap.count ≤ s.mc.size.words →
          exec .read s = .next (raised { s.ap with error := .none, readBuf := [], state := .reading } s.sm
            ⟨.accessPort, .blockRead, s.ap.addr.toNat, s.ap.count, [], 0, 0⟩)))) ∧
    ((s.ap.state = .idle → exec .flush s = .next s) ∧
     (s.ap.state = .reading ∨ s.ap.state = .readReady ∨ s.ap.state = .writing →
        exec .flush s = .next { s with ap := { s.ap with error := .busy } }) ∧
     (s.ap.state = .writeFilling → ∀ (a n : Nat), a = s.ap.addr.toNat → n = s.ap.writeBuf.length →
        (s.mc.state ≠ .ready ∨ s.mc.size.words < a + n →
          exec .flush s = .next { s with ap := { s.ap with error := .range } }) ∧
        (s.mc.state = .ready → a + n ≤ s.mc.size.words →
          ((∃ i, i < n ∧ ∃ k, s.sm.slotAt (a + i) = some k ∧
              ((s.sm.slot k).state ≠ .held ∨ (s.sm.slot k).writePending = true)) →
            exec .flush s = .next { s with
              ap := { s.ap with error := .violation, state := .idle, writeBuf := [] }
              eu := s.eu.setBits .global 0x010 }) ∧
          ((∀ i, i < n → ∀ k, s.sm.slotAt (a + i) = some k →
              (s.sm.slot k).state = .held ∧ (s.sm.slot k).writePending = false) →
            ∀ ks : List Nat, ks = ((List.range n).filterMap fun i => s.sm.slotAt (a + i)).dedup →
            exec .flush s = .next (raised
              { s.ap with error := .none, state := .writing, flushRecord := some ⟨a, n, ks⟩ } (s.sm.setPending ks)
              ⟨.accessPort, .blockWrite, a, n, s.ap.writeBuf, 0, 0⟩))))) ∧
    (s.ap.state = .reading ∨ s.ap.state = .writing →
      exec .discard s = .next { s with ap := { s.ap with error := .busy } }) ∧
    (s.ap.state = .idle ∨ s.ap.state = .readReady ∨ s.ap.state = .writeFilling →
      exec .discard s = .next { s with ap := { s.ap with readBuf := [], writeBuf := [], state := .idle, error := .none } })

/-- ACC_DATA_READ (R130), ACC_DATA_WRITE (R131), ACC_ADDR_WRITE and ACC_COUNT_WRITE (R126, R128) by the port's state: the pop of
the oldest word, IDLE when it was the last; the append, up to 16 words; the stored address and count; and every port error. -/
def Obligations.PortRegisters : Prop :=
  ∀ (s : State) (w : Word), s.resetAsserted = false →
    (∀ (x : ReadWord) (rest : List ReadWord), s.ap.state = .readReady → s.ap.readBuf = x :: rest →
      exec .accDataRead s = .next { s with
        ap := { s.ap with readBuf := rest, state := if rest = [] then .idle else .readReady }
        host := { s.host with data := x.word } }) ∧
    (s.ap.state = .idle ∨ s.ap.state = .writeFilling → exec .accDataRead s = .next { s with
      ap := { s.ap with error := .emptyRead }, host := { s.host with data := 0 } }) ∧
    (s.ap.state = .reading ∨ s.ap.state = .writing → exec .accDataRead s = .next { s with
      ap := { s.ap with error := .busy }, host := { s.host with data := 0 } }) ∧
    (s.ap.state = .idle → exec (.accDataWrite w) s = .next { s with
      ap := { s.ap with writeBuf := [w], state := .writeFilling } }) ∧
    (s.ap.state = .writeFilling →
      (s.ap.writeBuf.length < 16 → exec (.accDataWrite w) s = .next { s with
        ap := { s.ap with writeBuf := s.ap.writeBuf ++ [w] } }) ∧
      (16 ≤ s.ap.writeBuf.length → exec (.accDataWrite w) s = .next { s with ap := { s.ap with error := .full } })) ∧
    (s.ap.state = .reading ∨ s.ap.state = .readReady ∨ s.ap.state = .writing →
      exec (.accDataWrite w) s = .next { s with ap := { s.ap with error := .busy } }) ∧
    (s.ap.state = .reading ∨ s.ap.state = .writing →
      exec (.accAddrWrite w) s = .next { s with ap := { s.ap with error := .busy } } ∧
      exec (.accCountWrite w) s = .next { s with ap := { s.ap with error := .busy } }) ∧
    (s.ap.state = .idle ∨ s.ap.state = .readReady ∨ s.ap.state = .writeFilling →
      exec (.accAddrWrite w) s = .next { s with ap := { s.ap with addr := w } } ∧
      (1 ≤ w.toNat → w.toNat ≤ 16 → exec (.accCountWrite w) s = .next { s with
        ap := { s.ap with count := w.toNat } }) ∧
      (w.toNat = 0 ∨ 16 < w.toNat → exec (.accCountWrite w) s = .next { s with
        ap := { s.ap with error := .range } }))

/-! ### Configuration writes -/

/-- ENABLE_ATTEMPT, IMMEDIATE_STOP, STOP_AT_FRAME_END and STOP_MODE_WRITE, each a write of INn_CTRL, by R26's table (R26, R27,
R43, R44): STOP_MODE is stored except in RESETTING; an enable in OFF arms the channel or is refused with its reason and event; a
stop goes to stop completion, in FILLING after the discard or, at the frame's end, as a pending stop; the rest is CONFIG_IGNORED
or no effect. -/
def Obligations.InputControlWrites : Prop :=
  ∀ (n : Fin 4) (mode : StopMode) (s stored : State) (ch : InputChannel), s.resetAsserted = false → ch = s.input n →
    stored = s.setInput n { ch with stopMode := mode } →
    (∀ c ∈ [Instr.enableAttempt n mode, .stopModeWrite n true mode],
      (ch.state = .off → s.sm.built = false → exec c s = .next
        (({ stored with eu := s.eu.setBits (.input n) 0x400 } : State).setInput n
          { ch with stopMode := mode, refusal := .noPool })) ∧
      (ch.state = .off → s.sm.built = true → s.sm.stride.toNat < ch.cfg.lineLength * ch.cfg.linesPerFrame →
        exec c s = .next (({ stored with eu := s.eu.setBits (.input n) 0x400 } : State).setInput n
          { ch with stopMode := mode, refusal := .geometry })) ∧
      (ch.state = .off → s.sm.built = true → ch.cfg.lineLength * ch.cfg.linesPerFrame ≤ s.sm.stride.toNat →
        exec c s = .next (stored.setInput n { ch with
          stopMode := mode, refusal := .none, progress := 0, state := .armed,
          lossTimer := if ch.cfg.lossTimeout ≠ 0 ∧ ch.lost = false then some s.timeBase else none })) ∧
      (ch.state = .armed ∨ ch.state = .filling ∨ ch.state = .skipping → ch.stopPending = false →
        exec c s = .next stored) ∧
      (((ch.state = .armed ∨ ch.state = .filling ∨ ch.state = .skipping) ∧ ch.stopPending = true) ∨
          ch.state = .stopping →
        exec c s = .next { stored with eu := s.eu.setBits .global 0x200 }) ∧
      (ch.state = .resetting → exec c s = .next { s with eu := s.eu.setBits .global 0x200 })) ∧
    ∀ c, (mode = .immediate ∧ c = .immediateStop n) ∨ (mode = .atFrameEnd ∧ c = .stopAtFrameEnd n) ∨
        c = .stopModeWrite n false mode →
      (ch.state = .off ∨ ch.state = .stopping ∨
          ((ch.state = .armed ∨ ch.state = .filling ∨ ch.state = .skipping) ∧ ch.stopPending = true) →
        exec c s = .next stored) ∧
      (ch.state = .resetting → exec c s = .next { s with eu := s.eu.setBits .global 0x200 }) ∧
      (ch.state = .armed ∨ ch.state = .skipping → ch.stopPending = false →
        exec c s = .next (stored.stopCompletion n)) ∧
      (ch.state = .filling → ch.stopPending = false →
        (mode = .atFrameEnd → exec c s = .next (s.setInput n { ch with stopMode := mode, stopPending := true })) ∧
        (mode = .immediate → exec c s = .next ((((s.setInput n
          { ch.count .discardedByStop with stopMode := mode }).closeOpen n .discard false).settle n).raiseWrite
          n |>.stopCompletion n)))

/-- INPUT_CONFIG_WRITE (R25, R12): taken in OFF with every field in range, else CONFIG_IGNORED; a lower quota retires the oldest
entries in excess, oldest first, and counts each of them whose VIEWED was no. -/
def Obligations.InputConfigWrites : Prop :=
  ∀ (n : Fin 4) (w : Word) (s ignored : State) (ch : InputChannel), s.resetAsserted = false →
    ch = s.input n → ignored = { s with eu := s.eu.setBits .global 0x200 } →
    (ch.state ≠ .off → ∀ reg, exec (.inputConfigWrite n reg w) s = .next ignored) ∧
    (ch.state = .off →
      (∀ lo hi : Nat, lo = w.toNat % 2048 → hi = w.toNat / 65536 % 4096 →
        (16 ≤ lo ∧ lo ≤ 1024 ∧ 1 ≤ hi ∧ hi ≤ 2048 → exec (.inputConfigWrite n .geom w) s = .next
          (s.setInput n { ch with cfg := { ch.cfg with lineLength := lo, linesPerFrame := hi } })) ∧
        (lo < 16 ∨ 1024 < lo ∨ hi < 1 ∨ 2048 < hi → exec (.inputConfigWrite n .geom w) s = .next ignored)) ∧
      (∀ lo hi : Nat, lo = w.toNat % 16 → hi = w.toNat / 65536 % 4 →
        (1 ≤ lo ∧ lo ≤ 8 ∧ 1 ≤ hi → ∀ gone kept : List Nat, s.sm.readyOf n = gone ++ kept →
          (kept.length = lo ∨ (kept.length < lo ∧ gone = [])) →
          exec (.inputConfigWrite n .cfg w) s = .next
            (({ s with sm := (s.sm.setReady n kept).retireAll gone } : State).setInput n
              (({ ch with cfg := { ch.cfg with quota := lo, keepShort := w.getLsbD 8, watermark := hi } } :
                InputChannel).countEvicted (gone.countP fun k => (s.sm.slot k).viewed = false)))) ∧
        (lo < 1 ∨ 8 < lo ∨ hi < 1 → exec (.inputConfigWrite n .cfg w) s = .next ignored)) ∧
      exec (.inputConfigWrite n .budget w) s = .next
        (s.setInput n { ch with cfg := { ch.cfg with budget := w.toNat % 65536 } }) ∧
      exec (.inputConfigWrite n .loss w) s = .next
        (s.setInput n { ch with cfg := { ch.cfg with lossTimeout := w.toNat % 65536 } }))

/-- OUTPUT_ENABLE, OUTPUT_DISABLE and OUTPUT_CONFIG_WRITE (R74, R76, R77): the settings are stored in every state when every field
is in range, except that a write of OUTn_CTRL with ENABLE 1 in DISABLING is ignored; an enable in OFF makes the output IDLE
without L and without the loss-reported flag; a disable in IDLE releases the slot and enters OFF with DISABLED, and in SHOWING
begins the handshake. -/
def Obligations.OutputControlWrites : Prop :=
  ∀ (m : Fin 6) (w : Word) (s ignored : State) (o : OutputChannel), s.resetAsserted = false → o = s.output m →
    ignored = { s with eu := s.eu.setBits .global 0x200 } →
    (∀ (c : Instr) (enable : Bool),
      (c = .outputEnable m w ∧ enable = true) ∨ (c = .outputDisable m w ∧ enable = false) ∨
        (c = .outputConfigWrite m .ctrl w ∧ enable = w.getLsbD 0) →
      (w.toNat / 256 % 4 = 3 ∨ (o.state = .disabling ∧ enable = true) → exec c s = .next ignored) ∧
      (w.toNat / 256 % 4 ≠ 3 → ∀ (cfg : OutConfig) (src : Fin 4), src.val = w.toNat / 16 % 4 →
        cfg = { o.cfg with
          source := src
          policy := if w.toNat / 256 % 4 = 0 then .latest else if w.toNat / 256 % 4 = 1 then .sequential else .delay
          delay := w.toNat / 4096 % 8, freeze := w.getLsbD 16, mute := w.getLsbD 17
          lossAction := if w.getLsbD 18 then .blank else .keep
          fillKind := if w.getLsbD 19 then .repeated else .blank
          watermark := w.toNat / 1048576 % 4 } →
        (o.state = .off → enable = true → exec c s = .next
          (s.setOutput m { o with cfg := cfg, state := .idle, last := none, lossReported := none })) ∧
        (o.state = .idle → enable = false → exec c s = .next (({ s with
          sm := match o.retained with
            | some k => s.sm.leave m k
            | none => s.sm,
          eu := s.eu.setBits (.output m) 0x40 } : State).setOutput m { o with
            cfg := cfg, state := .off, retained := none, fifo := [], repeatBuf := none, epoch := o.epoch + 1 })) ∧
        (o.state = .showing → enable = false → exec c s = .next
          (s.setOutput m { o with cfg := cfg, state := .disabling })) ∧
        ((o.state = .off ∨ o.state = .disabling) ∧ enable = false ∨ (o.state = .idle ∨ o.state = .showing) ∧ enable = true →
          exec c s = .next (s.setOutput m { o with cfg := cfg })))) ∧
    (∀ lo hi : Nat, lo = w.toNat % 2048 → hi = w.toNat / 65536 % 4096 →
      (16 ≤ lo ∧ lo ≤ 1024 ∧ 1 ≤ hi ∧ hi ≤ 2048 → exec (.outputConfigWrite m .blank w) s = .next
        (s.setOutput m { o with cfg := { o.cfg with blankLength := lo, blankCount := hi } })) ∧
      (lo < 16 ∨ 1024 < lo ∨ hi < 1 ∨ 2048 < hi → exec (.outputConfigWrite m .blank w) s = .next ignored)) ∧
    exec (.outputConfigWrite m .blankWord w) s = .next (s.setOutput m { o with cfg := { o.cfg with blankWord := w } })

/-- GEOMETRY_WRITE (R1), MC_CFG_WRITE (R138), MC_REFRESH_WRITE (R139) and ARB_CFG_WRITE (R161): stored where the rule takes the
write, with no other change, and else CONFIG_IGNORED. -/
def Obligations.BlockConfigWrites : Prop :=
  ∀ (w : Word) (s ignored : State), s.resetAsserted = false → ignored = { s with eu := s.eu.setBits .global 0x200 } →
    (s.sm.built = true → ∀ reg, exec (.geometryWrite reg w) s = .next ignored) ∧
    (s.sm.built = false →
      exec (.geometryWrite .base w) s = .next { s with sm := { s.sm with base := w } } ∧
      exec (.geometryWrite .stride w) s = .next { s with sm := { s.sm with stride := w } } ∧
      exec (.geometryWrite .slots w) s = .next { s with sm := { s.sm with count := w } }) ∧
    (s.mc.state ≠ .uninit ∨ w.toNat % 4 = 3 → exec (.mcCfgWrite w) s = .next ignored) ∧
    (s.mc.state = .uninit → w.toNat % 4 ≠ 3 → exec (.mcCfgWrite w) s = .next { s with mc := { s.mc with
      size := if w.toNat % 4 = 0 then .words4M else if w.toNat % 4 = 1 then .words8M else .words16M
      profile := if w.toNat / 16 % 4 = 0 then .t100 else if w.toNat / 16 % 4 = 1 then .t133
        else if w.toNat / 16 % 4 = 2 then .t166 else .t200
      modeFirst := w.getLsbD 8 } }) ∧
    (1 ≤ w.toNat → w.toNat ≤ 255 → exec (.mcRefreshWrite w) s = .next { s with
      mc := { s.mc with refreshInterval := w.toNat } }) ∧
    (w.toNat = 0 ∨ 255 < w.toNat → exec (.mcRefreshWrite w) s = .next ignored) ∧
    (w.toNat % 4 = 3 → exec (.arbCfgWrite w) s = .next ignored) ∧
    (w.toNat % 4 ≠ 3 → exec (.arbCfgWrite w) s = .next { s with arb := { s.arb with
      profile := if w.toNat % 4 = 0 then .outputFirst else if w.toNat % 4 = 1 then .inputFirst else .interleaved } })
end

