-- ==== Sys2Proof/Laws/State.lean ====
section
/-! SUPPORT. What each update of the state leaves and sets, field by field: every law holds by rfl. -/

namespace Sys2Proof.Machine

/-! ### Fields that an update leaves as they are -/

@[simp] theorem State.setInput_frame (s : State) (n : Fin 4) (ch : InputChannel) :
    (s.setInput n ch).pending = s.pending ∧ (s.setInput n ch).resetAsserted = s.resetAsserted ∧
    (s.setInput n ch).timeBase = s.timeBase ∧ (s.setInput n ch).sm = s.sm ∧
    (s.setInput n ch).outputs = s.outputs ∧ (s.setInput n ch).cu = s.cu ∧
    (s.setInput n ch).ap = s.ap ∧ (s.setInput n ch).arb = s.arb ∧
    (s.setInput n ch).mc = s.mc ∧ (s.setInput n ch).store = s.store ∧
    (s.setInput n ch).eu = s.eu ∧ (s.setInput n ch).host = s.host :=
  ⟨rfl, rfl, rfl, rfl, rfl, rfl, rfl, rfl, rfl, rfl, rfl, rfl⟩

@[simp] theorem State.modInput_frame (s : State) (n : Fin 4) (f : InputChannel → InputChannel) :
    (s.modInput n f).pending = s.pending ∧ (s.modInput n f).resetAsserted = s.resetAsserted ∧
    (s.modInput n f).timeBase = s.timeBase ∧ (s.modInput n f).sm = s.sm ∧
    (s.modInput n f).outputs = s.outputs ∧ (s.modInput n f).cu = s.cu ∧
    (s.modInput n f).ap = s.ap ∧ (s.modInput n f).arb = s.arb ∧
    (s.modInput n f).mc = s.mc ∧ (s.modInput n f).store = s.store ∧
    (s.modInput n f).eu = s.eu ∧ (s.modInput n f).host = s.host :=
  ⟨rfl, rfl, rfl, rfl, rfl, rfl, rfl, rfl, rfl, rfl, rfl, rfl⟩

@[simp] theorem State.setOutput_frame (s : State) (m : Fin 6) (o : OutputChannel) :
    (s.setOutput m o).pending = s.pending ∧ (s.setOutput m o).resetAsserted = s.resetAsserted ∧
    (s.setOutput m o).timeBase = s.timeBase ∧ (s.setOutput m o).sm = s.sm ∧
    (s.setOutput m o).inputs = s.inputs ∧ (s.setOutput m o).cu = s.cu ∧
    (s.setOutput m o).ap = s.ap ∧ (s.setOutput m o).arb = s.arb ∧
    (s.setOutput m o).mc = s.mc ∧ (s.setOutput m o).store = s.store ∧
    (s.setOutput m o).eu = s.eu ∧ (s.setOutput m o).host = s.host :=
  ⟨rfl, rfl, rfl, rfl, rfl, rfl, rfl, rfl, rfl, rfl, rfl, rfl⟩

@[simp] theorem State.modOutput_frame (s : State) (m : Fin 6) (f : OutputChannel → OutputChannel) :
    (s.modOutput m f).pending = s.pending ∧ (s.modOutput m f).resetAsserted = s.resetAsserted ∧
    (s.modOutput m f).timeBase = s.timeBase ∧ (s.modOutput m f).sm = s.sm ∧
    (s.modOutput m f).inputs = s.inputs ∧ (s.modOutput m f).cu = s.cu ∧
    (s.modOutput m f).ap = s.ap ∧ (s.modOutput m f).arb = s.arb ∧
    (s.modOutput m f).mc = s.mc ∧ (s.modOutput m f).store = s.store ∧
    (s.modOutput m f).eu = s.eu ∧ (s.modOutput m f).host = s.host :=
  ⟨rfl, rfl, rfl, rfl, rfl, rfl, rfl, rfl, rfl, rfl, rfl, rfl⟩

@[simp] theorem State.raiseIn_frame (s : State) (n : Fin 4) (e : InEvent) :
    (s.raiseIn n e).pending = s.pending ∧ (s.raiseIn n e).resetAsserted = s.resetAsserted ∧
    (s.raiseIn n e).timeBase = s.timeBase ∧ (s.raiseIn n e).sm = s.sm ∧
    (s.raiseIn n e).inputs = s.inputs ∧ (s.raiseIn n e).outputs = s.outputs ∧
    (s.raiseIn n e).cu = s.cu ∧ (s.raiseIn n e).ap = s.ap ∧
    (s.raiseIn n e).arb = s.arb ∧ (s.raiseIn n e).mc = s.mc ∧
    (s.raiseIn n e).store = s.store ∧ (s.raiseIn n e).host = s.host :=
  ⟨rfl, rfl, rfl, rfl, rfl, rfl, rfl, rfl, rfl, rfl, rfl, rfl⟩

@[simp] theorem State.raiseOut_frame (s : State) (m : Fin 6) (e : OutEvent) :
    (s.raiseOut m e).pending = s.pending ∧ (s.raiseOut m e).resetAsserted = s.resetAsserted ∧
    (s.raiseOut m e).timeBase = s.timeBase ∧ (s.raiseOut m e).sm = s.sm ∧
    (s.raiseOut m e).inputs = s.inputs ∧ (s.raiseOut m e).outputs = s.outputs ∧
    (s.raiseOut m e).cu = s.cu ∧ (s.raiseOut m e).ap = s.ap ∧
    (s.raiseOut m e).arb = s.arb ∧ (s.raiseOut m e).mc = s.mc ∧
    (s.raiseOut m e).store = s.store ∧ (s.raiseOut m e).host = s.host :=
  ⟨rfl, rfl, rfl, rfl, rfl, rfl, rfl, rfl, rfl, rfl, rfl, rfl⟩

@[simp] theorem State.raiseGlobal_frame (s : State) (e : GlobalEvent) :
    (s.raiseGlobal e).pending = s.pending ∧ (s.raiseGlobal e).resetAsserted = s.resetAsserted ∧
    (s.raiseGlobal e).timeBase = s.timeBase ∧ (s.raiseGlobal e).sm = s.sm ∧
    (s.raiseGlobal e).inputs = s.inputs ∧ (s.raiseGlobal e).outputs = s.outputs ∧
    (s.raiseGlobal e).cu = s.cu ∧ (s.raiseGlobal e).ap = s.ap ∧
    (s.raiseGlobal e).arb = s.arb ∧ (s.raiseGlobal e).mc = s.mc ∧
    (s.raiseGlobal e).store = s.store ∧ (s.raiseGlobal e).host = s.host :=
  ⟨rfl, rfl, rfl, rfl, rfl, rfl, rfl, rfl, rfl, rfl, rfl, rfl⟩

@[simp] theorem State.configIgnored_frame (s : State) :
    (s.configIgnored).pending = s.pending ∧ (s.configIgnored).resetAsserted = s.resetAsserted ∧
    (s.configIgnored).timeBase = s.timeBase ∧ (s.configIgnored).sm = s.sm ∧
    (s.configIgnored).inputs = s.inputs ∧ (s.configIgnored).outputs = s.outputs ∧
    (s.configIgnored).cu = s.cu ∧ (s.configIgnored).ap = s.ap ∧
    (s.configIgnored).arb = s.arb ∧ (s.configIgnored).mc = s.mc ∧
    (s.configIgnored).store = s.store ∧ (s.configIgnored).host = s.host :=
  ⟨rfl, rfl, rfl, rfl, rfl, rfl, rfl, rfl, rfl, rfl, rfl, rfl⟩

@[simp] theorem State.countIn_frame (s : State) (n : Fin 4) (c : InCounter) :
    (s.countIn n c).pending = s.pending ∧ (s.countIn n c).resetAsserted = s.resetAsserted ∧
    (s.countIn n c).timeBase = s.timeBase ∧ (s.countIn n c).sm = s.sm ∧
    (s.countIn n c).outputs = s.outputs ∧ (s.countIn n c).cu = s.cu ∧
    (s.countIn n c).ap = s.ap ∧ (s.countIn n c).arb = s.arb ∧
    (s.countIn n c).mc = s.mc ∧ (s.countIn n c).store = s.store ∧
    (s.countIn n c).eu = s.eu ∧ (s.countIn n c).host = s.host :=
  ⟨rfl, rfl, rfl, rfl, rfl, rfl, rfl, rfl, rfl, rfl, rfl, rfl⟩

@[simp] theorem State.countOut_frame (s : State) (m : Fin 6) (c : OutCounter) :
    (s.countOut m c).pending = s.pending ∧ (s.countOut m c).resetAsserted = s.resetAsserted ∧
    (s.countOut m c).timeBase = s.timeBase ∧ (s.countOut m c).sm = s.sm ∧
    (s.countOut m c).inputs = s.inputs ∧ (s.countOut m c).cu = s.cu ∧
    (s.countOut m c).ap = s.ap ∧ (s.countOut m c).arb = s.arb ∧
    (s.countOut m c).mc = s.mc ∧ (s.countOut m c).store = s.store ∧
    (s.countOut m c).eu = s.eu ∧ (s.countOut m c).host = s.host :=
  ⟨rfl, rfl, rfl, rfl, rfl, rfl, rfl, rfl, rfl, rfl, rfl, rfl⟩

@[simp] theorem State.startExec_frame (s : State) (r : MemRequest) :
    (s.startExec r).pending = s.pending ∧ (s.startExec r).resetAsserted = s.resetAsserted ∧
    (s.startExec r).timeBase = s.timeBase ∧ (s.startExec r).sm = s.sm ∧
    (s.startExec r).inputs = s.inputs ∧ (s.startExec r).outputs = s.outputs ∧
    (s.startExec r).cu = s.cu ∧ (s.startExec r).ap = s.ap ∧
    (s.startExec r).arb = s.arb ∧ (s.startExec r).store = s.store ∧
    (s.startExec r).eu = s.eu ∧ (s.startExec r).host = s.host :=
  ⟨rfl, rfl, rfl, rfl, rfl, rfl, rfl, rfl, rfl, rfl, rfl, rfl⟩

@[simp] theorem State.withdrawWrite_frame (s : State) (n : Fin 4) :
    (s.withdrawWrite n).pending = s.pending ∧ (s.withdrawWrite n).resetAsserted = s.resetAsserted ∧
    (s.withdrawWrite n).timeBase = s.timeBase ∧ (s.withdrawWrite n).sm = s.sm ∧
    (s.withdrawWrite n).inputs = s.inputs ∧ (s.withdrawWrite n).outputs = s.outputs ∧
    (s.withdrawWrite n).cu = s.cu ∧ (s.withdrawWrite n).ap = s.ap ∧
    (s.withdrawWrite n).mc = s.mc ∧ (s.withdrawWrite n).store = s.store ∧
    (s.withdrawWrite n).eu = s.eu ∧ (s.withdrawWrite n).host = s.host :=
  ⟨rfl, rfl, rfl, rfl, rfl, rfl, rfl, rfl, rfl, rfl, rfl, rfl⟩

@[simp] theorem State.withdrawRead_frame (s : State) (m : Fin 6) :
    (s.withdrawRead m).pending = s.pending ∧ (s.withdrawRead m).resetAsserted = s.resetAsserted ∧
    (s.withdrawRead m).timeBase = s.timeBase ∧ (s.withdrawRead m).sm = s.sm ∧
    (s.withdrawRead m).inputs = s.inputs ∧ (s.withdrawRead m).outputs = s.outputs ∧
    (s.withdrawRead m).cu = s.cu ∧ (s.withdrawRead m).ap = s.ap ∧
    (s.withdrawRead m).mc = s.mc ∧ (s.withdrawRead m).store = s.store ∧
    (s.withdrawRead m).eu = s.eu ∧ (s.withdrawRead m).host = s.host :=
  ⟨rfl, rfl, rfl, rfl, rfl, rfl, rfl, rfl, rfl, rfl, rfl, rfl⟩

/-! ### What an update sets -/

@[simp] theorem State.setInput_inputs (s : State) (n : Fin 4) (ch : InputChannel) :
    (s.setInput n ch).inputs = s.inputs.set n ch := rfl

@[simp] theorem State.setOutput_outputs (s : State) (m : Fin 6) (o : OutputChannel) :
    (s.setOutput m o).outputs = s.outputs.set m o := rfl

@[simp] theorem State.raiseIn_eu (s : State) (n : Fin 4) (e : InEvent) :
    (s.raiseIn n e).eu = s.eu.setBits (.input n) (inEventMask e) := rfl

@[simp] theorem State.raiseOut_eu (s : State) (m : Fin 6) (e : OutEvent) :
    (s.raiseOut m e).eu = s.eu.setBits (.output m) (outEventMask e) := rfl

@[simp] theorem State.raiseGlobal_eu (s : State) (e : GlobalEvent) :
    (s.raiseGlobal e).eu = s.eu.setBits .global (globalEventMask e) := rfl

@[simp] theorem State.configIgnored_eu (s : State) :
    s.configIgnored.eu = s.eu.setBits .global (globalEventMask .configIgnored) := rfl

@[simp] theorem State.startExec_mc (s : State) (r : MemRequest) :
    (s.startExec r).mc = { s.mc with exec := some ⟨r, false⟩ } := rfl

@[simp] theorem State.withdrawWrite_arb (s : State) (n : Fin 4) :
    (s.withdrawWrite n).arb = { s.arb with inReq := s.arb.inReq.set n none } := rfl

@[simp] theorem State.withdrawRead_arb (s : State) (m : Fin 6) :
    (s.withdrawRead m).arb = { s.arb with outReq := s.arb.outReq.set m none } := rfl

/-! ### Channels -/

@[simp] theorem State.input_setInput (s : State) (n k : Fin 4) (ch : InputChannel) :
    (s.setInput n ch).input k = if n = k then ch else s.input k := by
  simp [State.input, State.setInput, Vector.getElem_set, Fin.ext_iff]

@[simp] theorem State.input_modInput (s : State) (n k : Fin 4) (f : InputChannel → InputChannel) :
    (s.modInput n f).input k = if n = k then f (s.input n) else s.input k := by
  simp [State.modInput]

@[simp] theorem State.output_setOutput (s : State) (m k : Fin 6) (o : OutputChannel) :
    (s.setOutput m o).output k = if m = k then o else s.output k := by
  simp [State.output, State.setOutput, Vector.getElem_set, Fin.ext_iff]

@[simp] theorem State.output_modOutput (s : State) (m k : Fin 6) (f : OutputChannel → OutputChannel) :
    (s.modOutput m f).output k = if m = k then f (s.output m) else s.output k := by
  simp [State.modOutput]

theorem State.input_eq_of_inputs_eq {s t : State} (h : t.inputs = s.inputs) (n : Fin 4) : t.input n = s.input n := by
  simp [State.input, h]

theorem State.output_eq_of_outputs_eq {s t : State} (h : t.outputs = s.outputs) (m : Fin 6) :
    t.output m = s.output m := by
  simp [State.output, h]

@[simp] theorem State.setInput_setInput (s : State) (n : Fin 4) (a b : InputChannel) :
    (s.setInput n a).setInput n b = s.setInput n b := by
  simp [State.setInput]

@[simp] theorem State.setOutput_setOutput (s : State) (m : Fin 6) (a b : OutputChannel) :
    (s.setOutput m a).setOutput m b = s.setOutput m b := by
  simp [State.setOutput]

/-! ### Slot manager -/

@[simp] theorem SlotManager.readyOf_setReady (sm : SlotManager) (n k : Fin 4) (l : List Nat) :
    (sm.setReady n l).readyOf k = if n = k then l else sm.readyOf k := by
  simp [SlotManager.readyOf, SlotManager.setReady, Vector.getElem_set, Fin.ext_iff]

@[simp] theorem SlotManager.seqOf_setSeq (sm : SlotManager) (n k : Fin 4) (w : Word) :
    (sm.setSeq n w).seqOf k = if n = k then w else sm.seqOf k := by
  simp [SlotManager.seqOf, SlotManager.setSeq, Vector.getElem_set, Fin.ext_iff]

@[simp] theorem SlotManager.setReady_frame (sm : SlotManager) (n : Fin 4) (l : List Nat) :
    (sm.setReady n l).built = sm.built ∧ (sm.setReady n l).base = sm.base ∧ (sm.setReady n l).stride = sm.stride ∧
    (sm.setReady n l).count = sm.count ∧ (sm.setReady n l).slots = sm.slots ∧ (sm.setReady n l).free = sm.free ∧
    (sm.setReady n l).nextSeq = sm.nextSeq :=
  ⟨rfl, rfl, rfl, rfl, rfl, rfl, rfl⟩

@[simp] theorem SlotManager.setSeq_frame (sm : SlotManager) (n : Fin 4) (w : Word) :
    (sm.setSeq n w).built = sm.built ∧ (sm.setSeq n w).base = sm.base ∧ (sm.setSeq n w).stride = sm.stride ∧
    (sm.setSeq n w).count = sm.count ∧ (sm.setSeq n w).slots = sm.slots ∧ (sm.setSeq n w).free = sm.free ∧
    (sm.setSeq n w).ready = sm.ready :=
  ⟨rfl, rfl, rfl, rfl, rfl, rfl, rfl⟩

@[simp] theorem SlotManager.modSlot_frame (sm : SlotManager) (k : Nat) (f : SlotRecord → SlotRecord) :
    (sm.modSlot k f).built = sm.built ∧ (sm.modSlot k f).base = sm.base ∧ (sm.modSlot k f).stride = sm.stride ∧
    (sm.modSlot k f).count = sm.count ∧ (sm.modSlot k f).free = sm.free ∧ (sm.modSlot k f).ready = sm.ready ∧
    (sm.modSlot k f).nextSeq = sm.nextSeq :=
  ⟨rfl, rfl, rfl, rfl, rfl, rfl, rfl⟩

@[simp] theorem SlotManager.toFree_frame (sm : SlotManager) (k : Nat) :
    (sm.toFree k).built = sm.built ∧ (sm.toFree k).base = sm.base ∧ (sm.toFree k).stride = sm.stride ∧
    (sm.toFree k).count = sm.count ∧ (sm.toFree k).ready = sm.ready ∧ (sm.toFree k).nextSeq = sm.nextSeq :=
  ⟨rfl, rfl, rfl, rfl, rfl, rfl⟩

@[simp] theorem SlotManager.join_frame (sm : SlotManager) (m : Fin 6) (k : Nat) :
    (sm.join m k).built = sm.built ∧ (sm.join m k).base = sm.base ∧ (sm.join m k).stride = sm.stride ∧
    (sm.join m k).count = sm.count ∧ (sm.join m k).free = sm.free ∧ (sm.join m k).ready = sm.ready ∧
    (sm.join m k).nextSeq = sm.nextSeq :=
  ⟨rfl, rfl, rfl, rfl, rfl, rfl, rfl⟩

@[simp] theorem SlotManager.modSlot_length (sm : SlotManager) (k : Nat) (f : SlotRecord → SlotRecord) :
    (sm.modSlot k f).slots.length = sm.slots.length := by
  simp [SlotManager.modSlot]

@[simp] theorem SlotManager.slot_modSlot (sm : SlotManager) (k j : Nat) (f : SlotRecord → SlotRecord) :
    (sm.modSlot k f).slot j = if k = j ∧ j < sm.slots.length then f (sm.slot j) else sm.slot j := by
  by_cases hj : j < sm.slots.length
  · by_cases hk : k = j
    · subst hk; simp [SlotManager.slot, SlotManager.modSlot, hj]
    · simp [SlotManager.slot, SlotManager.modSlot, hj, hk]
  · simp [SlotManager.slot, SlotManager.modSlot, hj]

@[simp] theorem SlotManager.slot_setReady (sm : SlotManager) (n : Fin 4) (l : List Nat) (k : Nat) :
    (sm.setReady n l).slot k = sm.slot k := rfl

@[simp] theorem SlotManager.slot_setSeq (sm : SlotManager) (n : Fin 4) (w : Word) (k : Nat) :
    (sm.setSeq n w).slot k = sm.slot k := rfl

@[simp] theorem SlotManager.readyOf_modSlot (sm : SlotManager) (k : Nat) (f : SlotRecord → SlotRecord) (n : Fin 4) :
    (sm.modSlot k f).readyOf n = sm.readyOf n := rfl

@[simp] theorem SlotManager.seqOf_modSlot (sm : SlotManager) (k : Nat) (f : SlotRecord → SlotRecord) (n : Fin 4) :
    (sm.modSlot k f).seqOf n = sm.seqOf n := rfl

@[simp] theorem SlotManager.seqOf_setReady (sm : SlotManager) (n k : Fin 4) (l : List Nat) :
    (sm.setReady n l).seqOf k = sm.seqOf k := rfl

@[simp] theorem SlotManager.readyOf_setSeq (sm : SlotManager) (n k : Fin 4) (w : Word) :
    (sm.setSeq n w).readyOf k = sm.readyOf k := rfl

@[simp] theorem SlotManager.toFree_free (sm : SlotManager) (k : Nat) : (sm.toFree k).free = sm.free ++ [k] := rfl

@[simp] theorem SlotManager.slot_toFree (sm : SlotManager) (k j : Nat) :
    (sm.toFree k).slot j = if k = j ∧ j < sm.slots.length then (sm.slot j).movedTo .free else sm.slot j :=
  sm.slot_modSlot k j _

/-! ### Events (R163) -/

/-- Setting bits changes one status register and no enable. -/
@[simp] theorem EventUnit.setBits_enable (eu : EventUnit) (r : EventReg) (w : Word) :
    (eu.setBits r w).enable = eu.enable := rfl

@[simp] theorem EventUnit.setBits_status (eu : EventUnit) (r : EventReg) (w : Word) (i : Fin 11) :
    (eu.setBits r w).status[i] = if eventRegIdx r = i then eu.status[i] ||| w else eu.status[i] := by
  by_cases h : eventRegIdx r = i
  · subst h; simp [EventUnit.setBits]
  · have h' : (eventRegIdx r).val ≠ i.val := fun e => h (Fin.ext e)
    simp [EventUnit.setBits, h, h']

/-- Distinct event registers have distinct places. -/
theorem eventRegIdx_injective : Function.Injective eventRegIdx := by
  intro a b h
  cases a <;> cases b <;> simp_all [eventRegIdx, Fin.ext_iff] <;> omega

end Sys2Proof.Machine
end

