-- ==== Sys2Proof/Laws/Frames.lean ====
section
/-! SUPPORT. The frame of every shared operation: the parts of the state that it leaves as they are. -/

namespace Sys2Proof.Machine

/-! ### Arbitration (chapter 9) -/

@[simp] theorem State.grantInput_frame (s : State) (n : Fin 4) :
    (s.grantInput n).pending = s.pending ∧ (s.grantInput n).resetAsserted = s.resetAsserted ∧
    (s.grantInput n).timeBase = s.timeBase ∧ (s.grantInput n).sm = s.sm ∧
    (s.grantInput n).outputs = s.outputs ∧ (s.grantInput n).cu = s.cu ∧
    (s.grantInput n).ap = s.ap ∧ (s.grantInput n).store = s.store ∧
    (s.grantInput n).eu = s.eu ∧ (s.grantInput n).host = s.host := by
  unfold State.grantInput
  (repeat' split) <;> simp

@[simp] theorem State.grantOutput_frame (s : State) (m : Fin 6) :
    (s.grantOutput m).pending = s.pending ∧ (s.grantOutput m).resetAsserted = s.resetAsserted ∧
    (s.grantOutput m).timeBase = s.timeBase ∧ (s.grantOutput m).sm = s.sm ∧
    (s.grantOutput m).inputs = s.inputs ∧ (s.grantOutput m).outputs = s.outputs ∧
    (s.grantOutput m).cu = s.cu ∧ (s.grantOutput m).ap = s.ap ∧
    (s.grantOutput m).store = s.store ∧ (s.grantOutput m).eu = s.eu ∧
    (s.grantOutput m).host = s.host := by
  unfold State.grantOutput
  (repeat' split) <;> simp

@[simp] theorem State.grantHost_frame (s : State) (h : HostClient) :
    (s.grantHost h).pending = s.pending ∧ (s.grantHost h).resetAsserted = s.resetAsserted ∧
    (s.grantHost h).timeBase = s.timeBase ∧ (s.grantHost h).sm = s.sm ∧
    (s.grantHost h).inputs = s.inputs ∧ (s.grantHost h).outputs = s.outputs ∧
    (s.grantHost h).cu = s.cu ∧ (s.grantHost h).ap = s.ap ∧
    (s.grantHost h).store = s.store ∧ (s.grantHost h).eu = s.eu ∧
    (s.grantHost h).host = s.host := by
  unfold State.grantHost
  (repeat' split) <;> simp

@[simp] theorem State.applyGrant_frame (s : State) (w : Winner) :
    (s.applyGrant w).pending = s.pending ∧ (s.applyGrant w).resetAsserted = s.resetAsserted ∧
    (s.applyGrant w).timeBase = s.timeBase ∧ (s.applyGrant w).sm = s.sm ∧
    (s.applyGrant w).outputs = s.outputs ∧ (s.applyGrant w).cu = s.cu ∧
    (s.applyGrant w).ap = s.ap ∧ (s.applyGrant w).store = s.store ∧
    (s.applyGrant w).eu = s.eu ∧ (s.applyGrant w).host = s.host := by
  cases w <;> simp only [State.applyGrant] <;> (repeat' split) <;> simp

@[simp] theorem State.grantMoment_frame (s : State) :
    (s.grantMoment).pending = s.pending ∧ (s.grantMoment).resetAsserted = s.resetAsserted ∧
    (s.grantMoment).timeBase = s.timeBase ∧ (s.grantMoment).sm = s.sm ∧
    (s.grantMoment).outputs = s.outputs ∧ (s.grantMoment).cu = s.cu ∧
    (s.grantMoment).ap = s.ap ∧ (s.grantMoment).store = s.store ∧
    (s.grantMoment).eu = s.eu ∧ (s.grantMoment).host = s.host := by
  unfold State.grantMoment
  (repeat' split) <;> simp

@[simp] theorem State.raiseWrite_frame (s : State) (n : Fin 4) :
    (s.raiseWrite n).pending = s.pending ∧ (s.raiseWrite n).resetAsserted = s.resetAsserted ∧
    (s.raiseWrite n).timeBase = s.timeBase ∧ (s.raiseWrite n).sm = s.sm ∧
    (s.raiseWrite n).outputs = s.outputs ∧ (s.raiseWrite n).cu = s.cu ∧
    (s.raiseWrite n).ap = s.ap ∧ (s.raiseWrite n).store = s.store ∧
    (s.raiseWrite n).eu = s.eu ∧ (s.raiseWrite n).host = s.host := by
  unfold State.raiseWrite
  (repeat' split) <;> simp

@[simp] theorem State.raiseRead_frame (s : State) (m : Fin 6) :
    (s.raiseRead m).pending = s.pending ∧ (s.raiseRead m).resetAsserted = s.resetAsserted ∧
    (s.raiseRead m).timeBase = s.timeBase ∧ (s.raiseRead m).sm = s.sm ∧
    (s.raiseRead m).cu = s.cu ∧ (s.raiseRead m).ap = s.ap ∧
    (s.raiseRead m).store = s.store ∧ (s.raiseRead m).eu = s.eu ∧
    (s.raiseRead m).host = s.host := by
  unfold State.raiseRead
  (repeat' split) <;> simp

@[simp] theorem State.raisePort_frame (s : State) (r : MemRequest) :
    (s.raisePort r).pending = s.pending ∧ (s.raisePort r).resetAsserted = s.resetAsserted ∧
    (s.raisePort r).timeBase = s.timeBase ∧ (s.raisePort r).sm = s.sm ∧
    (s.raisePort r).outputs = s.outputs ∧ (s.raisePort r).cu = s.cu ∧
    (s.raisePort r).store = s.store ∧ (s.raisePort r).eu = s.eu ∧
    (s.raisePort r).host = s.host := by
  unfold State.raisePort
  (repeat' split) <;> simp

@[simp] theorem State.raiseClear_frame (s : State) (c : ClearProgress) :
    (s.raiseClear c).pending = s.pending ∧ (s.raiseClear c).resetAsserted = s.resetAsserted ∧
    (s.raiseClear c).timeBase = s.timeBase ∧ (s.raiseClear c).sm = s.sm ∧
    (s.raiseClear c).outputs = s.outputs ∧ (s.raiseClear c).cu = s.cu ∧
    (s.raiseClear c).ap = s.ap ∧ (s.raiseClear c).store = s.store ∧
    (s.raiseClear c).eu = s.eu ∧ (s.raiseClear c).host = s.host := by
  simp [State.raiseClear]

/-! ### Input channels (chapters 2 and 3) -/

@[simp] theorem State.stopCompletion_frame (s : State) (n : Fin 4) :
    (s.stopCompletion n).pending = s.pending ∧ (s.stopCompletion n).resetAsserted = s.resetAsserted ∧
    (s.stopCompletion n).timeBase = s.timeBase ∧ (s.stopCompletion n).sm = s.sm ∧
    (s.stopCompletion n).outputs = s.outputs ∧ (s.stopCompletion n).cu = s.cu ∧
    (s.stopCompletion n).ap = s.ap ∧ (s.stopCompletion n).arb = s.arb ∧
    (s.stopCompletion n).mc = s.mc ∧ (s.stopCompletion n).store = s.store ∧
    (s.stopCompletion n).host = s.host := by
  unfold State.stopCompletion
  (repeat' split) <;> simp

@[simp] theorem State.finishStopping_frame (s : State) (n : Fin 4) :
    (s.finishStopping n).pending = s.pending ∧ (s.finishStopping n).resetAsserted = s.resetAsserted ∧
    (s.finishStopping n).timeBase = s.timeBase ∧ (s.finishStopping n).sm = s.sm ∧
    (s.finishStopping n).outputs = s.outputs ∧ (s.finishStopping n).cu = s.cu ∧
    (s.finishStopping n).ap = s.ap ∧ (s.finishStopping n).arb = s.arb ∧
    (s.finishStopping n).mc = s.mc ∧ (s.finishStopping n).store = s.store ∧
    (s.finishStopping n).host = s.host := by
  unfold State.finishStopping
  (repeat' split) <;> simp

@[simp] theorem State.leaveDiscards_frame (s : State) (n : Fin 4) :
    (s.leaveDiscards n).pending = s.pending ∧ (s.leaveDiscards n).resetAsserted = s.resetAsserted ∧
    (s.leaveDiscards n).timeBase = s.timeBase ∧ (s.leaveDiscards n).outputs = s.outputs ∧
    (s.leaveDiscards n).cu = s.cu ∧ (s.leaveDiscards n).ap = s.ap ∧
    (s.leaveDiscards n).arb = s.arb ∧ (s.leaveDiscards n).mc = s.mc ∧
    (s.leaveDiscards n).store = s.store ∧ (s.leaveDiscards n).eu = s.eu ∧
    (s.leaveDiscards n).host = s.host := by
  simp [State.leaveDiscards]

@[simp] theorem State.publishSlot_frame (s : State) (n : Fin 4) (k : Nat) (f : SlotRecord → SlotRecord) :
    (s.publishSlot n k f).pending = s.pending ∧ (s.publishSlot n k f).resetAsserted = s.resetAsserted ∧
    (s.publishSlot n k f).timeBase = s.timeBase ∧ (s.publishSlot n k f).outputs = s.outputs ∧
    (s.publishSlot n k f).cu = s.cu ∧ (s.publishSlot n k f).ap = s.ap ∧
    (s.publishSlot n k f).arb = s.arb ∧ (s.publishSlot n k f).mc = s.mc ∧
    (s.publishSlot n k f).store = s.store ∧ (s.publishSlot n k f).eu = s.eu ∧
    (s.publishSlot n k f).host = s.host := by
  unfold State.publishSlot
  dsimp only
  (repeat' split) <;> simp

@[simp] theorem State.publishEntry_frame (s : State) (n : Fin 4) (e : FrameEntry) (rest : List FrameEntry) :
    (s.publishEntry n e rest).pending = s.pending ∧ (s.publishEntry n e rest).resetAsserted = s.resetAsserted ∧
    (s.publishEntry n e rest).timeBase = s.timeBase ∧ (s.publishEntry n e rest).outputs = s.outputs ∧
    (s.publishEntry n e rest).cu = s.cu ∧ (s.publishEntry n e rest).ap = s.ap ∧
    (s.publishEntry n e rest).arb = s.arb ∧ (s.publishEntry n e rest).mc = s.mc ∧
    (s.publishEntry n e rest).store = s.store ∧ (s.publishEntry n e rest).host = s.host := by
  unfold State.publishEntry
  dsimp only
  (repeat' split) <;> simp

@[simp] theorem State.publishLoop_frame (s : State) (n : Fin 4) (l : List FrameEntry) :
    (s.publishLoop n l).pending = s.pending ∧ (s.publishLoop n l).resetAsserted = s.resetAsserted ∧
    (s.publishLoop n l).timeBase = s.timeBase ∧ (s.publishLoop n l).outputs = s.outputs ∧
    (s.publishLoop n l).cu = s.cu ∧ (s.publishLoop n l).ap = s.ap ∧
    (s.publishLoop n l).arb = s.arb ∧ (s.publishLoop n l).mc = s.mc ∧
    (s.publishLoop n l).store = s.store ∧ (s.publishLoop n l).host = s.host := by
  induction l generalizing s with
  | nil => simp [State.publishLoop]
  | cons e l ih =>
    unfold State.publishLoop
    split
    · simp [ih]
    · simp

@[simp] theorem State.settle_frame (s : State) (n : Fin 4) :
    (s.settle n).pending = s.pending ∧ (s.settle n).resetAsserted = s.resetAsserted ∧
    (s.settle n).timeBase = s.timeBase ∧ (s.settle n).outputs = s.outputs ∧
    (s.settle n).cu = s.cu ∧ (s.settle n).ap = s.ap ∧
    (s.settle n).arb = s.arb ∧ (s.settle n).mc = s.mc ∧
    (s.settle n).store = s.store ∧ (s.settle n).host = s.host := by
  simp [State.settle]

@[simp] theorem State.closeOpen_frame (s : State) (n : Fin 4) (v : Verdict) (short : Bool) :
    (s.closeOpen n v short).pending = s.pending ∧ (s.closeOpen n v short).resetAsserted = s.resetAsserted ∧
    (s.closeOpen n v short).timeBase = s.timeBase ∧ (s.closeOpen n v short).outputs = s.outputs ∧
    (s.closeOpen n v short).cu = s.cu ∧ (s.closeOpen n v short).ap = s.ap ∧
    (s.closeOpen n v short).mc = s.mc ∧ (s.closeOpen n v short).store = s.store ∧
    (s.closeOpen n v short).eu = s.eu ∧ (s.closeOpen n v short).host = s.host := by
  unfold State.closeOpen
  (repeat' split) <;> simp

@[simp] theorem State.closeFrame_frame (s : State) (n : Fin 4) (v : Verdict) (short : Bool) :
    (s.closeFrame n v short).pending = s.pending ∧ (s.closeFrame n v short).resetAsserted = s.resetAsserted ∧
    (s.closeFrame n v short).timeBase = s.timeBase ∧ (s.closeFrame n v short).outputs = s.outputs ∧
    (s.closeFrame n v short).cu = s.cu ∧ (s.closeFrame n v short).ap = s.ap ∧
    (s.closeFrame n v short).store = s.store ∧ (s.closeFrame n v short).host = s.host := by
  simp [State.closeFrame]

@[simp] theorem State.broken_frame (s : State) (n : Fin 4) :
    (s.broken n).pending = s.pending ∧ (s.broken n).resetAsserted = s.resetAsserted ∧
    (s.broken n).timeBase = s.timeBase ∧ (s.broken n).sm = s.sm ∧
    (s.broken n).outputs = s.outputs ∧ (s.broken n).cu = s.cu ∧
    (s.broken n).ap = s.ap ∧ (s.broken n).arb = s.arb ∧
    (s.broken n).mc = s.mc ∧ (s.broken n).store = s.store ∧
    (s.broken n).host = s.host := by
  simp [State.broken]

@[simp] theorem State.enterOrStop_frame (s : State) (n : Fin 4) (stop : Bool) :
    (s.enterOrStop n stop).pending = s.pending ∧ (s.enterOrStop n stop).resetAsserted = s.resetAsserted ∧
    (s.enterOrStop n stop).timeBase = s.timeBase ∧ (s.enterOrStop n stop).sm = s.sm ∧
    (s.enterOrStop n stop).outputs = s.outputs ∧ (s.enterOrStop n stop).cu = s.cu ∧
    (s.enterOrStop n stop).ap = s.ap ∧ (s.enterOrStop n stop).arb = s.arb ∧
    (s.enterOrStop n stop).mc = s.mc ∧ (s.enterOrStop n stop).store = s.store ∧
    (s.enterOrStop n stop).host = s.host := by
  unfold State.enterOrStop
  (repeat' split) <;> simp

@[simp] theorem State.endFrame_frame (s : State) (n : Fin 4) (st : InState) (v : Verdict) (short : Bool) :
    (s.endFrame n st v short).pending = s.pending ∧ (s.endFrame n st v short).resetAsserted = s.resetAsserted ∧
    (s.endFrame n st v short).timeBase = s.timeBase ∧ (s.endFrame n st v short).outputs = s.outputs ∧
    (s.endFrame n st v short).cu = s.cu ∧ (s.endFrame n st v short).ap = s.ap ∧
    (s.endFrame n st v short).store = s.store ∧ (s.endFrame n st v short).host = s.host := by
  simp [State.endFrame]

@[simp] theorem State.allocate_frame (s : State) (n : Fin 4) (tag : Option Word) (k : Nat) :
    (s.allocate n tag k).pending = s.pending ∧ (s.allocate n tag k).resetAsserted = s.resetAsserted ∧
    (s.allocate n tag k).timeBase = s.timeBase ∧ (s.allocate n tag k).outputs = s.outputs ∧
    (s.allocate n tag k).cu = s.cu ∧ (s.allocate n tag k).ap = s.ap ∧
    (s.allocate n tag k).arb = s.arb ∧ (s.allocate n tag k).mc = s.mc ∧
    (s.allocate n tag k).store = s.store ∧ (s.allocate n tag k).eu = s.eu ∧
    (s.allocate n tag k).host = s.host := by
  simp [State.allocate]

@[simp] theorem State.skip_frame (s : State) (n : Fin 4) (c : InCounter) :
    (s.skip n c).pending = s.pending ∧ (s.skip n c).resetAsserted = s.resetAsserted ∧
    (s.skip n c).timeBase = s.timeBase ∧ (s.skip n c).sm = s.sm ∧
    (s.skip n c).outputs = s.outputs ∧ (s.skip n c).cu = s.cu ∧
    (s.skip n c).ap = s.ap ∧ (s.skip n c).arb = s.arb ∧
    (s.skip n c).mc = s.mc ∧ (s.skip n c).store = s.store ∧
    (s.skip n c).eu = s.eu ∧ (s.skip n c).host = s.host := by
  simp [State.skip]

@[simp] theorem State.reclaim_frame (s : State) (n : Fin 4) (k : Nat) :
    (s.reclaim n k).pending = s.pending ∧ (s.reclaim n k).resetAsserted = s.resetAsserted ∧
    (s.reclaim n k).timeBase = s.timeBase ∧ (s.reclaim n k).outputs = s.outputs ∧
    (s.reclaim n k).cu = s.cu ∧ (s.reclaim n k).ap = s.ap ∧
    (s.reclaim n k).arb = s.arb ∧ (s.reclaim n k).mc = s.mc ∧
    (s.reclaim n k).store = s.store ∧ (s.reclaim n k).eu = s.eu ∧
    (s.reclaim n k).host = s.host := by
  unfold State.reclaim
  (repeat' split) <;> simp

@[simp] theorem State.admit_frame (s : State) (n : Fin 4) (tag : Option Word) :
    (s.admitFrame n tag).pending = s.pending ∧ (s.admitFrame n tag).resetAsserted = s.resetAsserted ∧
    (s.admitFrame n tag).timeBase = s.timeBase ∧ (s.admitFrame n tag).outputs = s.outputs ∧
    (s.admitFrame n tag).cu = s.cu ∧ (s.admitFrame n tag).ap = s.ap ∧
    (s.admitFrame n tag).arb = s.arb ∧ (s.admitFrame n tag).mc = s.mc ∧
    (s.admitFrame n tag).store = s.store ∧ (s.admitFrame n tag).host = s.host := by
  unfold State.admitFrame
  (repeat' split) <;> simp

@[simp] theorem State.signalFound_frame (s : State) (n : Fin 4) :
    (s.signalFound n).pending = s.pending ∧ (s.signalFound n).resetAsserted = s.resetAsserted ∧
    (s.signalFound n).timeBase = s.timeBase ∧ (s.signalFound n).sm = s.sm ∧
    (s.signalFound n).outputs = s.outputs ∧ (s.signalFound n).cu = s.cu ∧
    (s.signalFound n).ap = s.ap ∧ (s.signalFound n).arb = s.arb ∧
    (s.signalFound n).mc = s.mc ∧ (s.signalFound n).store = s.store ∧
    (s.signalFound n).host = s.host := by
  unfold State.signalFound
  (repeat' split) <;> simp

@[simp] theorem State.takeFrameStart_frame (s : State) (n : Fin 4) (tag : Option Word) :
    (s.takeFrameStart n tag).pending = s.pending ∧ (s.takeFrameStart n tag).resetAsserted = s.resetAsserted ∧
    (s.takeFrameStart n tag).timeBase = s.timeBase ∧ (s.takeFrameStart n tag).outputs = s.outputs ∧
    (s.takeFrameStart n tag).cu = s.cu ∧ (s.takeFrameStart n tag).ap = s.ap ∧
    (s.takeFrameStart n tag).arb = s.arb ∧ (s.takeFrameStart n tag).mc = s.mc ∧
    (s.takeFrameStart n tag).store = s.store ∧ (s.takeFrameStart n tag).host = s.host := by
  simp [State.takeFrameStart]

@[simp] theorem State.stray_frame (s : State) (n : Fin 4) :
    (s.stray n).pending = s.pending ∧ (s.stray n).resetAsserted = s.resetAsserted ∧
    (s.stray n).timeBase = s.timeBase ∧ (s.stray n).sm = s.sm ∧
    (s.stray n).outputs = s.outputs ∧ (s.stray n).cu = s.cu ∧
    (s.stray n).ap = s.ap ∧ (s.stray n).arb = s.arb ∧
    (s.stray n).mc = s.mc ∧ (s.stray n).store = s.store ∧
    (s.stray n).host = s.host := by
  simp [State.stray]

@[simp] theorem State.tryEnable_frame (s : State) (n : Fin 4) :
    (s.tryEnable n).pending = s.pending ∧ (s.tryEnable n).resetAsserted = s.resetAsserted ∧
    (s.tryEnable n).timeBase = s.timeBase ∧ (s.tryEnable n).sm = s.sm ∧
    (s.tryEnable n).outputs = s.outputs ∧ (s.tryEnable n).cu = s.cu ∧
    (s.tryEnable n).ap = s.ap ∧ (s.tryEnable n).arb = s.arb ∧
    (s.tryEnable n).mc = s.mc ∧ (s.tryEnable n).store = s.store ∧
    (s.tryEnable n).host = s.host := by
  unfold State.tryEnable
  (repeat' split) <;> simp

@[simp] theorem State.stopNow_frame (s : State) (n : Fin 4) :
    (s.stopNow n).pending = s.pending ∧ (s.stopNow n).resetAsserted = s.resetAsserted ∧
    (s.stopNow n).timeBase = s.timeBase ∧ (s.stopNow n).outputs = s.outputs ∧
    (s.stopNow n).cu = s.cu ∧ (s.stopNow n).ap = s.ap ∧
    (s.stopNow n).store = s.store ∧ (s.stopNow n).host = s.host := by
  unfold State.stopNow
  (repeat' split) <;> simp

@[simp] theorem State.stopAtEnd_frame (s : State) (n : Fin 4) :
    (s.stopAtEnd n).pending = s.pending ∧ (s.stopAtEnd n).resetAsserted = s.resetAsserted ∧
    (s.stopAtEnd n).timeBase = s.timeBase ∧ (s.stopAtEnd n).sm = s.sm ∧
    (s.stopAtEnd n).outputs = s.outputs ∧ (s.stopAtEnd n).cu = s.cu ∧
    (s.stopAtEnd n).ap = s.ap ∧ (s.stopAtEnd n).arb = s.arb ∧
    (s.stopAtEnd n).mc = s.mc ∧ (s.stopAtEnd n).store = s.store ∧
    (s.stopAtEnd n).host = s.host := by
  unfold State.stopAtEnd
  (repeat' split) <;> simp

@[simp] theorem State.writeDisable_frame (s : State) (n : Fin 4) (mode : StopMode) :
    (s.writeDisable n mode).pending = s.pending ∧ (s.writeDisable n mode).resetAsserted = s.resetAsserted ∧
    (s.writeDisable n mode).timeBase = s.timeBase ∧ (s.writeDisable n mode).outputs = s.outputs ∧
    (s.writeDisable n mode).cu = s.cu ∧ (s.writeDisable n mode).ap = s.ap ∧
    (s.writeDisable n mode).store = s.store ∧ (s.writeDisable n mode).host = s.host := by
  unfold State.writeDisable
  (repeat' split) <;> simp

@[simp] theorem State.writeEnable_frame (s : State) (n : Fin 4) :
    (s.writeEnable n).pending = s.pending ∧ (s.writeEnable n).resetAsserted = s.resetAsserted ∧
    (s.writeEnable n).timeBase = s.timeBase ∧ (s.writeEnable n).sm = s.sm ∧
    (s.writeEnable n).outputs = s.outputs ∧ (s.writeEnable n).cu = s.cu ∧
    (s.writeEnable n).ap = s.ap ∧ (s.writeEnable n).arb = s.arb ∧
    (s.writeEnable n).mc = s.mc ∧ (s.writeEnable n).store = s.store ∧
    (s.writeEnable n).host = s.host := by
  unfold State.writeEnable
  (repeat' split) <;> simp

@[simp] theorem State.writeInCtrl_frame (s : State) (n : Fin 4) (enable : Bool) (mode : StopMode) :
    (s.writeInCtrl n enable mode).pending = s.pending ∧ (s.writeInCtrl n enable mode).resetAsserted = s.resetAsserted ∧
    (s.writeInCtrl n enable mode).timeBase = s.timeBase ∧ (s.writeInCtrl n enable mode).outputs = s.outputs ∧
    (s.writeInCtrl n enable mode).cu = s.cu ∧ (s.writeInCtrl n enable mode).ap = s.ap ∧
    (s.writeInCtrl n enable mode).store = s.store ∧ (s.writeInCtrl n enable mode).host = s.host := by
  unfold State.writeInCtrl
  (repeat' split) <;> simp

@[simp] theorem State.trimReady_frame (s : State) (n : Fin 4) (quota : Nat) :
    (s.trimReady n quota).pending = s.pending ∧ (s.trimReady n quota).resetAsserted = s.resetAsserted ∧
    (s.trimReady n quota).timeBase = s.timeBase ∧ (s.trimReady n quota).outputs = s.outputs ∧
    (s.trimReady n quota).cu = s.cu ∧ (s.trimReady n quota).ap = s.ap ∧
    (s.trimReady n quota).arb = s.arb ∧ (s.trimReady n quota).mc = s.mc ∧
    (s.trimReady n quota).store = s.store ∧ (s.trimReady n quota).eu = s.eu ∧
    (s.trimReady n quota).host = s.host := by
  simp [State.trimReady]

@[simp] theorem State.writeInConfig_frame (s : State) (n : Fin 4) (reg : InConfigReg) (w : Word) :
    (s.writeInConfig n reg w).pending = s.pending ∧ (s.writeInConfig n reg w).resetAsserted = s.resetAsserted ∧
    (s.writeInConfig n reg w).timeBase = s.timeBase ∧ (s.writeInConfig n reg w).outputs = s.outputs ∧
    (s.writeInConfig n reg w).cu = s.cu ∧ (s.writeInConfig n reg w).ap = s.ap ∧
    (s.writeInConfig n reg w).arb = s.arb ∧ (s.writeInConfig n reg w).mc = s.mc ∧
    (s.writeInConfig n reg w).store = s.store ∧ (s.writeInConfig n reg w).host = s.host := by
  unfold State.writeInConfig
  (repeat' split) <;> simp

@[simp] theorem State.resetInput_frame (s : State) (n : Fin 4) :
    (s.resetInput n).pending = s.pending ∧ (s.resetInput n).resetAsserted = s.resetAsserted ∧
    (s.resetInput n).timeBase = s.timeBase ∧ (s.resetInput n).outputs = s.outputs ∧
    (s.resetInput n).cu = s.cu ∧ (s.resetInput n).ap = s.ap ∧
    (s.resetInput n).mc = s.mc ∧ (s.resetInput n).store = s.store ∧
    (s.resetInput n).host = s.host := by
  unfold State.resetInput
  dsimp only
  (repeat' split) <;> simp

@[simp] theorem State.finishReset_frame (s : State) (n : Fin 4) :
    (s.finishReset n).pending = s.pending ∧ (s.finishReset n).resetAsserted = s.resetAsserted ∧
    (s.finishReset n).timeBase = s.timeBase ∧ (s.finishReset n).outputs = s.outputs ∧
    (s.finishReset n).cu = s.cu ∧ (s.finishReset n).ap = s.ap ∧
    (s.finishReset n).arb = s.arb ∧ (s.finishReset n).mc = s.mc ∧
    (s.finishReset n).store = s.store ∧ (s.finishReset n).eu = s.eu ∧
    (s.finishReset n).host = s.host := by
  simp [State.finishReset]

@[simp] theorem State.frameStartFilling_frame (s : State) (n : Fin 4) (tag : Option Word) :
    (s.frameStartFilling n tag).pending = s.pending ∧ (s.frameStartFilling n tag).resetAsserted = s.resetAsserted ∧
    (s.frameStartFilling n tag).timeBase = s.timeBase ∧ (s.frameStartFilling n tag).outputs = s.outputs ∧
    (s.frameStartFilling n tag).cu = s.cu ∧ (s.frameStartFilling n tag).ap = s.ap ∧
    (s.frameStartFilling n tag).store = s.store ∧ (s.frameStartFilling n tag).host = s.host := by
  unfold State.frameStartFilling
  (repeat' split) <;> simp

@[simp] theorem State.lineFilling_frame (s : State) (n : Fin 4) (e : FrameEntry) (payload : List Word) :
    (s.lineFilling n e payload).pending = s.pending ∧ (s.lineFilling n e payload).resetAsserted = s.resetAsserted ∧
    (s.lineFilling n e payload).timeBase = s.timeBase ∧ (s.lineFilling n e payload).outputs = s.outputs ∧
    (s.lineFilling n e payload).cu = s.cu ∧ (s.lineFilling n e payload).ap = s.ap ∧
    (s.lineFilling n e payload).store = s.store ∧ (s.lineFilling n e payload).host = s.host := by
  unfold State.lineFilling
  dsimp only
  (repeat' split) <;> simp

@[simp] theorem State.frameEndFilling_frame (s : State) (n : Fin 4) (e : FrameEntry) :
    (s.frameEndFilling n e).pending = s.pending ∧ (s.frameEndFilling n e).resetAsserted = s.resetAsserted ∧
    (s.frameEndFilling n e).timeBase = s.timeBase ∧ (s.frameEndFilling n e).outputs = s.outputs ∧
    (s.frameEndFilling n e).cu = s.cu ∧ (s.frameEndFilling n e).ap = s.ap ∧
    (s.frameEndFilling n e).store = s.store ∧ (s.frameEndFilling n e).host = s.host := by
  unfold State.frameEndFilling
  (repeat' split) <;> simp

@[simp] theorem State.signalLost_frame (s : State) (n : Fin 4) :
    (s.signalLost n).pending = s.pending ∧ (s.signalLost n).resetAsserted = s.resetAsserted ∧
    (s.signalLost n).timeBase = s.timeBase ∧ (s.signalLost n).outputs = s.outputs ∧
    (s.signalLost n).cu = s.cu ∧ (s.signalLost n).ap = s.ap ∧
    (s.signalLost n).store = s.store ∧ (s.signalLost n).host = s.host := by
  unfold State.signalLost
  (repeat' split) <;> simp

/-! ### Output channels (chapters 4 and 5) -/

@[simp] theorem State.release_frame (s : State) (m : Fin 6) :
    (s.release m).pending = s.pending ∧ (s.release m).resetAsserted = s.resetAsserted ∧
    (s.release m).timeBase = s.timeBase ∧ (s.release m).inputs = s.inputs ∧
    (s.release m).cu = s.cu ∧ (s.release m).ap = s.ap ∧
    (s.release m).arb = s.arb ∧ (s.release m).mc = s.mc ∧
    (s.release m).store = s.store ∧ (s.release m).eu = s.eu ∧
    (s.release m).host = s.host := by
  unfold State.release
  (repeat' split) <;> simp

@[simp] theorem State.closeOutput_frame (s : State) (m : Fin 6) :
    (s.closeOutput m).pending = s.pending ∧ (s.closeOutput m).resetAsserted = s.resetAsserted ∧
    (s.closeOutput m).timeBase = s.timeBase ∧ (s.closeOutput m).sm = s.sm ∧
    (s.closeOutput m).inputs = s.inputs ∧ (s.closeOutput m).cu = s.cu ∧
    (s.closeOutput m).ap = s.ap ∧ (s.closeOutput m).mc = s.mc ∧
    (s.closeOutput m).store = s.store ∧ (s.closeOutput m).host = s.host := by
  unfold State.closeOutput
  (repeat' split) <;> simp

@[simp] theorem State.enterDisabled_frame (s : State) (m : Fin 6) :
    (s.enterDisabled m).pending = s.pending ∧ (s.enterDisabled m).resetAsserted = s.resetAsserted ∧
    (s.enterDisabled m).timeBase = s.timeBase ∧ (s.enterDisabled m).sm = s.sm ∧
    (s.enterDisabled m).inputs = s.inputs ∧ (s.enterDisabled m).cu = s.cu ∧
    (s.enterDisabled m).ap = s.ap ∧ (s.enterDisabled m).arb = s.arb ∧
    (s.enterDisabled m).mc = s.mc ∧ (s.enterDisabled m).store = s.store ∧
    (s.enterDisabled m).host = s.host := by
  simp [State.enterDisabled]

@[simp] theorem State.closeDisabling_frame (s : State) (m : Fin 6) :
    (s.closeDisabling m).pending = s.pending ∧ (s.closeDisabling m).resetAsserted = s.resetAsserted ∧
    (s.closeDisabling m).timeBase = s.timeBase ∧ (s.closeDisabling m).inputs = s.inputs ∧
    (s.closeDisabling m).cu = s.cu ∧ (s.closeDisabling m).ap = s.ap ∧
    (s.closeDisabling m).mc = s.mc ∧ (s.closeDisabling m).store = s.store ∧
    (s.closeDisabling m).host = s.host := by
  unfold State.closeDisabling
  dsimp only
  (repeat' split) <;> simp

@[simp] theorem State.protocolError_frame (s : State) (m : Fin 6) :
    (s.protocolError m).pending = s.pending ∧ (s.protocolError m).resetAsserted = s.resetAsserted ∧
    (s.protocolError m).timeBase = s.timeBase ∧ (s.protocolError m).sm = s.sm ∧
    (s.protocolError m).inputs = s.inputs ∧ (s.protocolError m).cu = s.cu ∧
    (s.protocolError m).ap = s.ap ∧ (s.protocolError m).arb = s.arb ∧
    (s.protocolError m).mc = s.mc ∧ (s.protocolError m).store = s.store ∧
    (s.protocolError m).host = s.host := by
  simp [State.protocolError]

@[simp] theorem State.answerOffline_frame (s : State) (m : Fin 6) :
    (s.answerOffline m).pending = s.pending ∧ (s.answerOffline m).resetAsserted = s.resetAsserted ∧
    (s.answerOffline m).timeBase = s.timeBase ∧ (s.answerOffline m).sm = s.sm ∧
    (s.answerOffline m).inputs = s.inputs ∧ (s.answerOffline m).cu = s.cu ∧
    (s.answerOffline m).ap = s.ap ∧ (s.answerOffline m).arb = s.arb ∧
    (s.answerOffline m).mc = s.mc ∧ (s.answerOffline m).store = s.store ∧
    (s.answerOffline m).eu = s.eu ∧ (s.answerOffline m).host = s.host := by
  simp [State.answerOffline]

@[simp] theorem State.openBlank_frame (s : State) (m : Fin 6) (lost : Bool) :
    (s.openBlank m lost).pending = s.pending ∧ (s.openBlank m lost).resetAsserted = s.resetAsserted ∧
    (s.openBlank m lost).timeBase = s.timeBase ∧ (s.openBlank m lost).sm = s.sm ∧
    (s.openBlank m lost).inputs = s.inputs ∧ (s.openBlank m lost).cu = s.cu ∧
    (s.openBlank m lost).ap = s.ap ∧ (s.openBlank m lost).arb = s.arb ∧
    (s.openBlank m lost).mc = s.mc ∧ (s.openBlank m lost).store = s.store ∧
    (s.openBlank m lost).eu = s.eu ∧ (s.openBlank m lost).host = s.host := by
  simp [State.openBlank]

@[simp] theorem State.openShown_frame (s : State) (m : Fin 6) (k : Nat) (status : AnswerStatus) (short lost : Bool) :
    (s.openShown m k status short lost).pending = s.pending ∧ (s.openShown m k status short lost).resetAsserted = s.resetAsserted ∧
    (s.openShown m k status short lost).timeBase = s.timeBase ∧ (s.openShown m k status short lost).sm = s.sm ∧
    (s.openShown m k status short lost).cu = s.cu ∧ (s.openShown m k status short lost).ap = s.ap ∧
    (s.openShown m k status short lost).store = s.store ∧ (s.openShown m k status short lost).eu = s.eu ∧
    (s.openShown m k status short lost).host = s.host := by
  simp [State.openShown]

@[simp] theorem State.bind_frame (s : State) (m : Fin 6) (k : Nat) (short lost : Bool) :
    (s.bind m k short lost).pending = s.pending ∧ (s.bind m k short lost).resetAsserted = s.resetAsserted ∧
    (s.bind m k short lost).timeBase = s.timeBase ∧ (s.bind m k short lost).cu = s.cu ∧
    (s.bind m k short lost).ap = s.ap ∧ (s.bind m k short lost).store = s.store ∧
    (s.bind m k short lost).eu = s.eu ∧ (s.bind m k short lost).host = s.host := by
  simp [State.bind]

@[simp] theorem State.fallback_frame (s : State) (m : Fin 6) (lost : Bool) :
    (s.fallback m lost).pending = s.pending ∧ (s.fallback m lost).resetAsserted = s.resetAsserted ∧
    (s.fallback m lost).timeBase = s.timeBase ∧ (s.fallback m lost).sm = s.sm ∧
    (s.fallback m lost).cu = s.cu ∧ (s.fallback m lost).ap = s.ap ∧
    (s.fallback m lost).store = s.store ∧ (s.fallback m lost).eu = s.eu ∧
    (s.fallback m lost).host = s.host := by
  unfold State.fallback
  (repeat' split) <;> simp

@[simp] theorem State.policyStep_frame (s : State) (m : Fin 6) (lost : Bool) :
    (s.policyStep m lost).pending = s.pending ∧ (s.policyStep m lost).resetAsserted = s.resetAsserted ∧
    (s.policyStep m lost).timeBase = s.timeBase ∧ (s.policyStep m lost).cu = s.cu ∧
    (s.policyStep m lost).ap = s.ap ∧ (s.policyStep m lost).store = s.store ∧
    (s.policyStep m lost).eu = s.eu ∧ (s.policyStep m lost).host = s.host := by
  unfold State.policyStep
  dsimp only
  (repeat' split) <;> simp

@[simp] theorem State.freezeStep_frame (s : State) (m : Fin 6) (lost : Bool) :
    (s.freezeStep m lost).pending = s.pending ∧ (s.freezeStep m lost).resetAsserted = s.resetAsserted ∧
    (s.freezeStep m lost).timeBase = s.timeBase ∧ (s.freezeStep m lost).cu = s.cu ∧
    (s.freezeStep m lost).ap = s.ap ∧ (s.freezeStep m lost).store = s.store ∧
    (s.freezeStep m lost).eu = s.eu ∧ (s.freezeStep m lost).host = s.host := by
  unfold State.freezeStep
  (repeat' split) <;> simp

@[simp] theorem State.reportLoss_frame (s : State) (m : Fin 6) :
    (s.reportLoss m).pending = s.pending ∧ (s.reportLoss m).resetAsserted = s.resetAsserted ∧
    (s.reportLoss m).timeBase = s.timeBase ∧ (s.reportLoss m).sm = s.sm ∧
    (s.reportLoss m).inputs = s.inputs ∧ (s.reportLoss m).cu = s.cu ∧
    (s.reportLoss m).ap = s.ap ∧ (s.reportLoss m).arb = s.arb ∧
    (s.reportLoss m).mc = s.mc ∧ (s.reportLoss m).store = s.store ∧
    (s.reportLoss m).host = s.host := by
  unfold State.reportLoss
  (repeat' split) <;> simp

@[simp] theorem State.lossStep_frame (s : State) (m : Fin 6) (lost : Bool) :
    (s.lossStep m lost).pending = s.pending ∧ (s.lossStep m lost).resetAsserted = s.resetAsserted ∧
    (s.lossStep m lost).timeBase = s.timeBase ∧ (s.lossStep m lost).cu = s.cu ∧
    (s.lossStep m lost).ap = s.ap ∧ (s.lossStep m lost).store = s.store ∧
    (s.lossStep m lost).host = s.host := by
  unfold State.lossStep
  (repeat' split) <;> simp

@[simp] theorem State.select_frame (s : State) (m : Fin 6) :
    (s.select m).pending = s.pending ∧ (s.select m).resetAsserted = s.resetAsserted ∧
    (s.select m).timeBase = s.timeBase ∧ (s.select m).cu = s.cu ∧
    (s.select m).ap = s.ap ∧ (s.select m).store = s.store ∧
    (s.select m).host = s.host := by
  unfold State.select
  (repeat' split) <;> simp

@[simp] theorem State.refetch_frame (s : State) (m : Fin 6) :
    (s.refetch m).pending = s.pending ∧ (s.refetch m).resetAsserted = s.resetAsserted ∧
    (s.refetch m).timeBase = s.timeBase ∧ (s.refetch m).sm = s.sm ∧
    (s.refetch m).cu = s.cu ∧ (s.refetch m).ap = s.ap ∧
    (s.refetch m).store = s.store ∧ (s.refetch m).eu = s.eu ∧
    (s.refetch m).host = s.host := by
  unfold State.refetch
  (repeat' split) <;> simp

@[simp] theorem State.pullLine_frame (s : State) (m : Fin 6) (f : OpenFrame) :
    (s.pullLine m f).pending = s.pending ∧ (s.pullLine m f).resetAsserted = s.resetAsserted ∧
    (s.pullLine m f).timeBase = s.timeBase ∧ (s.pullLine m f).sm = s.sm ∧
    (s.pullLine m f).cu = s.cu ∧ (s.pullLine m f).ap = s.ap ∧
    (s.pullLine m f).store = s.store ∧ (s.pullLine m f).host = s.host := by
  unfold State.pullLine
  dsimp only
  (repeat' split) <;> simp

@[simp] theorem State.overpull_frame (s : State) (m : Fin 6) (f : OpenFrame) :
    (s.overpull m f).pending = s.pending ∧ (s.overpull m f).resetAsserted = s.resetAsserted ∧
    (s.overpull m f).timeBase = s.timeBase ∧ (s.overpull m f).sm = s.sm ∧
    (s.overpull m f).inputs = s.inputs ∧ (s.overpull m f).cu = s.cu ∧
    (s.overpull m f).ap = s.ap ∧ (s.overpull m f).arb = s.arb ∧
    (s.overpull m f).mc = s.mc ∧ (s.overpull m f).store = s.store ∧
    (s.overpull m f).host = s.host := by
  unfold State.overpull
  (repeat' split) <;> simp

@[simp] theorem State.pullBlank_frame (s : State) (m : Fin 6) (f : OpenFrame) :
    (s.pullBlank m f).pending = s.pending ∧ (s.pullBlank m f).resetAsserted = s.resetAsserted ∧
    (s.pullBlank m f).timeBase = s.timeBase ∧ (s.pullBlank m f).sm = s.sm ∧
    (s.pullBlank m f).inputs = s.inputs ∧ (s.pullBlank m f).cu = s.cu ∧
    (s.pullBlank m f).ap = s.ap ∧ (s.pullBlank m f).arb = s.arb ∧
    (s.pullBlank m f).mc = s.mc ∧ (s.pullBlank m f).store = s.store ∧
    (s.pullBlank m f).eu = s.eu ∧ (s.pullBlank m f).host = s.host := by
  simp [State.pullBlank]

@[simp] theorem State.pullClosed_frame (s : State) (m : Fin 6) :
    (s.pullClosed m).pending = s.pending ∧ (s.pullClosed m).resetAsserted = s.resetAsserted ∧
    (s.pullClosed m).timeBase = s.timeBase ∧ (s.pullClosed m).sm = s.sm ∧
    (s.pullClosed m).inputs = s.inputs ∧ (s.pullClosed m).cu = s.cu ∧
    (s.pullClosed m).ap = s.ap ∧ (s.pullClosed m).arb = s.arb ∧
    (s.pullClosed m).mc = s.mc ∧ (s.pullClosed m).store = s.store ∧
    (s.pullClosed m).host = s.host := by
  unfold State.pullClosed
  dsimp only
  (repeat' split) <;> simp

@[simp] theorem State.disableIdle_frame (s : State) (m : Fin 6) :
    (s.disableIdle m).pending = s.pending ∧ (s.disableIdle m).resetAsserted = s.resetAsserted ∧
    (s.disableIdle m).timeBase = s.timeBase ∧ (s.disableIdle m).inputs = s.inputs ∧
    (s.disableIdle m).cu = s.cu ∧ (s.disableIdle m).ap = s.ap ∧
    (s.disableIdle m).arb = s.arb ∧ (s.disableIdle m).mc = s.mc ∧
    (s.disableIdle m).store = s.store ∧ (s.disableIdle m).host = s.host := by
  simp [State.disableIdle]

@[simp] theorem State.writeOutEnable_frame (s : State) (m : Fin 6) (enable : Bool) :
    (s.writeOutEnable m enable).pending = s.pending ∧ (s.writeOutEnable m enable).resetAsserted = s.resetAsserted ∧
    (s.writeOutEnable m enable).timeBase = s.timeBase ∧ (s.writeOutEnable m enable).inputs = s.inputs ∧
    (s.writeOutEnable m enable).cu = s.cu ∧ (s.writeOutEnable m enable).ap = s.ap ∧
    (s.writeOutEnable m enable).arb = s.arb ∧ (s.writeOutEnable m enable).mc = s.mc ∧
    (s.writeOutEnable m enable).store = s.store ∧ (s.writeOutEnable m enable).host = s.host := by
  unfold State.writeOutEnable
  (repeat' split) <;> simp

@[simp] theorem State.writeOutConfig_frame (s : State) (m : Fin 6) (reg : OutConfigReg) (enable : Bool) (w : Word) :
    (s.writeOutConfig m reg enable w).pending = s.pending ∧ (s.writeOutConfig m reg enable w).resetAsserted = s.resetAsserted ∧
    (s.writeOutConfig m reg enable w).timeBase = s.timeBase ∧ (s.writeOutConfig m reg enable w).inputs = s.inputs ∧
    (s.writeOutConfig m reg enable w).cu = s.cu ∧ (s.writeOutConfig m reg enable w).ap = s.ap ∧
    (s.writeOutConfig m reg enable w).arb = s.arb ∧ (s.writeOutConfig m reg enable w).mc = s.mc ∧
    (s.writeOutConfig m reg enable w).store = s.store ∧ (s.writeOutConfig m reg enable w).host = s.host := by
  unfold State.writeOutConfig
  (repeat' split) <;> simp

@[simp] theorem State.resetOutput_frame (s : State) (m : Fin 6) :
    (s.resetOutput m).pending = s.pending ∧ (s.resetOutput m).resetAsserted = s.resetAsserted ∧
    (s.resetOutput m).timeBase = s.timeBase ∧ (s.resetOutput m).inputs = s.inputs ∧
    (s.resetOutput m).cu = s.cu ∧ (s.resetOutput m).ap = s.ap ∧
    (s.resetOutput m).mc = s.mc ∧ (s.resetOutput m).store = s.store ∧
    (s.resetOutput m).host = s.host := by
  simp [State.resetOutput]

@[simp] theorem State.openDisabling_frame (s : State) (m : Fin 6) :
    (s.openDisabling m).pending = s.pending ∧ (s.openDisabling m).resetAsserted = s.resetAsserted ∧
    (s.openDisabling m).timeBase = s.timeBase ∧ (s.openDisabling m).inputs = s.inputs ∧
    (s.openDisabling m).cu = s.cu ∧ (s.openDisabling m).ap = s.ap ∧
    (s.openDisabling m).mc = s.mc ∧ (s.openDisabling m).store = s.store ∧
    (s.openDisabling m).host = s.host := by
  unfold State.openDisabling
  (repeat' split) <;> simp

/-! ### Completions and time (chapter 8) -/

@[simp] theorem State.endExec_frame (s : State) :
    (s.endExec).pending = s.pending ∧ (s.endExec).resetAsserted = s.resetAsserted ∧
    (s.endExec).timeBase = s.timeBase ∧ (s.endExec).sm = s.sm ∧
    (s.endExec).inputs = s.inputs ∧ (s.endExec).outputs = s.outputs ∧
    (s.endExec).cu = s.cu ∧ (s.endExec).ap = s.ap ∧
    (s.endExec).arb = s.arb ∧ (s.endExec).store = s.store ∧
    (s.endExec).eu = s.eu ∧ (s.endExec).host = s.host := by
  simp [State.endExec]

@[simp] theorem State.startWaitingStage_frame (s : State) :
    (s.startWaitingStage).pending = s.pending ∧ (s.startWaitingStage).resetAsserted = s.resetAsserted ∧
    (s.startWaitingStage).timeBase = s.timeBase ∧ (s.startWaitingStage).sm = s.sm ∧
    (s.startWaitingStage).inputs = s.inputs ∧ (s.startWaitingStage).outputs = s.outputs ∧
    (s.startWaitingStage).cu = s.cu ∧ (s.startWaitingStage).ap = s.ap ∧
    (s.startWaitingStage).arb = s.arb ∧ (s.startWaitingStage).store = s.store ∧
    (s.startWaitingStage).eu = s.eu ∧ (s.startWaitingStage).host = s.host := by
  unfold State.startWaitingStage
  (repeat' split) <;> simp

@[simp] theorem State.storeWords_frame (s : State) (r : MemRequest) :
    (s.storeWords r).pending = s.pending ∧ (s.storeWords r).resetAsserted = s.resetAsserted ∧
    (s.storeWords r).timeBase = s.timeBase ∧ (s.storeWords r).sm = s.sm ∧
    (s.storeWords r).inputs = s.inputs ∧ (s.storeWords r).outputs = s.outputs ∧
    (s.storeWords r).cu = s.cu ∧ (s.storeWords r).ap = s.ap ∧
    (s.storeWords r).arb = s.arb ∧ (s.storeWords r).mc = s.mc ∧
    (s.storeWords r).eu = s.eu ∧ (s.storeWords r).host = s.host := by
  simp [State.storeWords]

@[simp] theorem State.afterDelivery_frame (s : State) :
    (s.afterDelivery).pending = s.pending ∧ (s.afterDelivery).resetAsserted = s.resetAsserted ∧
    (s.afterDelivery).timeBase = s.timeBase ∧ (s.afterDelivery).sm = s.sm ∧
    (s.afterDelivery).outputs = s.outputs ∧ (s.afterDelivery).cu = s.cu ∧
    (s.afterDelivery).ap = s.ap ∧ (s.afterDelivery).store = s.store ∧
    (s.afterDelivery).eu = s.eu ∧ (s.afterDelivery).host = s.host := by
  simp [State.afterDelivery]

@[simp] theorem State.countEcc_frame (s : State) (ws : List WordRead) :
    (s.countEcc ws).pending = s.pending ∧ (s.countEcc ws).resetAsserted = s.resetAsserted ∧
    (s.countEcc ws).timeBase = s.timeBase ∧ (s.countEcc ws).sm = s.sm ∧
    (s.countEcc ws).inputs = s.inputs ∧ (s.countEcc ws).outputs = s.outputs ∧
    (s.countEcc ws).cu = s.cu ∧ (s.countEcc ws).ap = s.ap ∧
    (s.countEcc ws).arb = s.arb ∧ (s.countEcc ws).store = s.store ∧
    (s.countEcc ws).host = s.host := by
  unfold State.countEcc
  dsimp only
  (repeat' split) <;> simp

@[simp] theorem State.inputWriteDone_frame (s : State) (n : Fin 4) :
    (s.inputWriteDone n).pending = s.pending ∧ (s.inputWriteDone n).resetAsserted = s.resetAsserted ∧
    (s.inputWriteDone n).timeBase = s.timeBase ∧ (s.inputWriteDone n).outputs = s.outputs ∧
    (s.inputWriteDone n).cu = s.cu ∧ (s.inputWriteDone n).ap = s.ap ∧
    (s.inputWriteDone n).store = s.store ∧ (s.inputWriteDone n).host = s.host := by
  unfold State.inputWriteDone
  (repeat' split) <;> simp

@[simp] theorem State.lineWriteDone_frame (s : State) (r : MemRequest) :
    (s.lineWriteDone r).pending = s.pending ∧ (s.lineWriteDone r).resetAsserted = s.resetAsserted ∧
    (s.lineWriteDone r).timeBase = s.timeBase ∧ (s.lineWriteDone r).outputs = s.outputs ∧
    (s.lineWriteDone r).cu = s.cu ∧ (s.lineWriteDone r).ap = s.ap ∧
    (s.lineWriteDone r).host = s.host := by
  unfold State.lineWriteDone
  (repeat' split) <;> simp

@[simp] theorem State.enterLine_frame (s : State) (m : Fin 6) (r : MemRequest) (ws : List WordRead) :
    (s.enterLine m r ws).pending = s.pending ∧ (s.enterLine m r ws).resetAsserted = s.resetAsserted ∧
    (s.enterLine m r ws).timeBase = s.timeBase ∧ (s.enterLine m r ws).inputs = s.inputs ∧
    (s.enterLine m r ws).cu = s.cu ∧ (s.enterLine m r ws).ap = s.ap ∧
    (s.enterLine m r ws).arb = s.arb ∧ (s.enterLine m r ws).mc = s.mc ∧
    (s.enterLine m r ws).store = s.store ∧ (s.enterLine m r ws).eu = s.eu ∧
    (s.enterLine m r ws).host = s.host := by
  unfold State.enterLine
  dsimp only
  (repeat' split) <;> simp

@[simp] theorem State.judgeLine_frame (s : State) (m : Fin 6) (r : MemRequest) (ws : List WordRead) :
    (s.judgeLine m r ws).pending = s.pending ∧ (s.judgeLine m r ws).resetAsserted = s.resetAsserted ∧
    (s.judgeLine m r ws).timeBase = s.timeBase ∧ (s.judgeLine m r ws).inputs = s.inputs ∧
    (s.judgeLine m r ws).cu = s.cu ∧ (s.judgeLine m r ws).ap = s.ap ∧
    (s.judgeLine m r ws).arb = s.arb ∧ (s.judgeLine m r ws).mc = s.mc ∧
    (s.judgeLine m r ws).store = s.store ∧ (s.judgeLine m r ws).eu = s.eu ∧
    (s.judgeLine m r ws).host = s.host := by
  unfold State.judgeLine
  (repeat' split) <;> simp

@[simp] theorem State.endHandshake_frame (s : State) (m : Fin 6) :
    (s.endHandshake m).pending = s.pending ∧ (s.endHandshake m).resetAsserted = s.resetAsserted ∧
    (s.endHandshake m).timeBase = s.timeBase ∧ (s.endHandshake m).sm = s.sm ∧
    (s.endHandshake m).inputs = s.inputs ∧ (s.endHandshake m).cu = s.cu ∧
    (s.endHandshake m).ap = s.ap ∧ (s.endHandshake m).arb = s.arb ∧
    (s.endHandshake m).mc = s.mc ∧ (s.endHandshake m).store = s.store ∧
    (s.endHandshake m).host = s.host := by
  unfold State.endHandshake
  (repeat' split) <;> simp

@[simp] theorem State.lineReadDone_frame (s : State) (r : MemRequest) :
    (s.lineReadDone r).pending = s.pending ∧ (s.lineReadDone r).resetAsserted = s.resetAsserted ∧
    (s.lineReadDone r).timeBase = s.timeBase ∧ (s.lineReadDone r).cu = s.cu ∧
    (s.lineReadDone r).ap = s.ap ∧ (s.lineReadDone r).store = s.store ∧
    (s.lineReadDone r).host = s.host := by
  unfold State.lineReadDone
  (repeat' split) <;> simp

@[simp] theorem State.blockReadDone_frame (s : State) (r : MemRequest) :
    (s.blockReadDone r).pending = s.pending ∧ (s.blockReadDone r).resetAsserted = s.resetAsserted ∧
    (s.blockReadDone r).timeBase = s.timeBase ∧ (s.blockReadDone r).sm = s.sm ∧
    (s.blockReadDone r).inputs = s.inputs ∧ (s.blockReadDone r).outputs = s.outputs ∧
    (s.blockReadDone r).cu = s.cu ∧ (s.blockReadDone r).arb = s.arb ∧
    (s.blockReadDone r).store = s.store ∧ (s.blockReadDone r).host = s.host := by
  unfold State.blockReadDone
  dsimp only
  (repeat' split) <;> simp

@[simp] theorem State.blockWriteDone_frame (s : State) (r : MemRequest) :
    (s.blockWriteDone r).pending = s.pending ∧ (s.blockWriteDone r).resetAsserted = s.resetAsserted ∧
    (s.blockWriteDone r).timeBase = s.timeBase ∧ (s.blockWriteDone r).inputs = s.inputs ∧
    (s.blockWriteDone r).outputs = s.outputs ∧ (s.blockWriteDone r).cu = s.cu ∧
    (s.blockWriteDone r).arb = s.arb ∧ (s.blockWriteDone r).mc = s.mc ∧
    (s.blockWriteDone r).host = s.host := by
  unfold State.blockWriteDone
  (repeat' split) <;> simp

@[simp] theorem State.completeCommand_frame (s : State) (code : BitVec 8) (r : ResultCode) (v : Word) :
    (s.completeCommand code r v).pending = s.pending ∧ (s.completeCommand code r v).resetAsserted = s.resetAsserted ∧
    (s.completeCommand code r v).timeBase = s.timeBase ∧ (s.completeCommand code r v).sm = s.sm ∧
    (s.completeCommand code r v).inputs = s.inputs ∧ (s.completeCommand code r v).outputs = s.outputs ∧
    (s.completeCommand code r v).ap = s.ap ∧ (s.completeCommand code r v).arb = s.arb ∧
    (s.completeCommand code r v).mc = s.mc ∧ (s.completeCommand code r v).store = s.store ∧
    (s.completeCommand code r v).host = s.host := by
  simp [State.completeCommand]

@[simp] theorem State.clearAdvance_frame (s : State) (rc : RunningCommand) (c : ClearProgress) :
    (s.clearAdvance rc c).pending = s.pending ∧ (s.clearAdvance rc c).resetAsserted = s.resetAsserted ∧
    (s.clearAdvance rc c).timeBase = s.timeBase ∧ (s.clearAdvance rc c).outputs = s.outputs ∧
    (s.clearAdvance rc c).ap = s.ap ∧ (s.clearAdvance rc c).store = s.store ∧
    (s.clearAdvance rc c).host = s.host := by
  unfold State.clearAdvance
  dsimp only
  (repeat' split) <;> simp

@[simp] theorem State.clearWriteDone_frame (s : State) (r : MemRequest) :
    (s.clearWriteDone r).pending = s.pending ∧ (s.clearWriteDone r).resetAsserted = s.resetAsserted ∧
    (s.clearWriteDone r).timeBase = s.timeBase ∧ (s.clearWriteDone r).outputs = s.outputs ∧
    (s.clearWriteDone r).ap = s.ap ∧ (s.clearWriteDone r).host = s.host := by
  unfold State.clearWriteDone
  (repeat' split) <;> simp

@[simp] theorem State.refreshDone_frame (s : State) :
    (s.refreshDone).pending = s.pending ∧ (s.refreshDone).resetAsserted = s.resetAsserted ∧
    (s.refreshDone).timeBase = s.timeBase ∧ (s.refreshDone).sm = s.sm ∧
    (s.refreshDone).inputs = s.inputs ∧ (s.refreshDone).outputs = s.outputs ∧
    (s.refreshDone).cu = s.cu ∧ (s.refreshDone).ap = s.ap ∧
    (s.refreshDone).arb = s.arb ∧ (s.refreshDone).store = s.store ∧
    (s.refreshDone).eu = s.eu ∧ (s.refreshDone).host = s.host := by
  simp [State.refreshDone]

@[simp] theorem State.raiseDeferred_frame (s : State) :
    (s.raiseDeferred).pending = s.pending ∧ (s.raiseDeferred).resetAsserted = s.resetAsserted ∧
    (s.raiseDeferred).timeBase = s.timeBase ∧ (s.raiseDeferred).sm = s.sm ∧
    (s.raiseDeferred).outputs = s.outputs ∧ (s.raiseDeferred).cu = s.cu ∧
    (s.raiseDeferred).store = s.store ∧ (s.raiseDeferred).eu = s.eu ∧
    (s.raiseDeferred).host = s.host := by
  unfold State.raiseDeferred
  (repeat' split) <;> simp

@[simp] theorem State.retestReader_frame (s : State) (c : Client) :
    (s.retestReader c).pending = s.pending ∧ (s.retestReader c).resetAsserted = s.resetAsserted ∧
    (s.retestReader c).timeBase = s.timeBase ∧ (s.retestReader c).sm = s.sm ∧
    (s.retestReader c).cu = s.cu ∧ (s.retestReader c).ap = s.ap ∧
    (s.retestReader c).store = s.store ∧ (s.retestReader c).eu = s.eu ∧
    (s.retestReader c).host = s.host := by
  unfold State.retestReader
  (repeat' split) <;> simp

@[simp] theorem State.orphanEffect_frame (s : State) (r : MemRequest) :
    (s.orphanEffect r).pending = s.pending ∧ (s.orphanEffect r).resetAsserted = s.resetAsserted ∧
    (s.orphanEffect r).timeBase = s.timeBase ∧ (s.orphanEffect r).sm = s.sm ∧
    (s.orphanEffect r).inputs = s.inputs ∧ (s.orphanEffect r).outputs = s.outputs ∧
    (s.orphanEffect r).cu = s.cu ∧ (s.orphanEffect r).ap = s.ap ∧
    (s.orphanEffect r).arb = s.arb ∧ (s.orphanEffect r).host = s.host := by
  unfold State.orphanEffect
  (repeat' split) <;> simp

@[simp] theorem State.refreshExpired_frame (s : State) :
    (s.refreshExpired).pending = s.pending ∧ (s.refreshExpired).resetAsserted = s.resetAsserted ∧
    (s.refreshExpired).timeBase = s.timeBase ∧ (s.refreshExpired).sm = s.sm ∧
    (s.refreshExpired).outputs = s.outputs ∧ (s.refreshExpired).cu = s.cu ∧
    (s.refreshExpired).ap = s.ap ∧ (s.refreshExpired).store = s.store ∧
    (s.refreshExpired).eu = s.eu ∧ (s.refreshExpired).host = s.host := by
  unfold State.refreshExpired
  (repeat' split) <;> simp

@[simp] theorem State.enterReady_frame (s : State) :
    (s.enterReady).pending = s.pending ∧ (s.enterReady).resetAsserted = s.resetAsserted ∧
    (s.enterReady).timeBase = s.timeBase ∧ (s.enterReady).sm = s.sm ∧
    (s.enterReady).outputs = s.outputs ∧ (s.enterReady).ap = s.ap ∧
    (s.enterReady).host = s.host := by
  simp [State.enterReady]

/-! ### Host commands and the access port (chapters 6 and 7) -/

@[simp] theorem State.refuseCommand_frame (s : State) (code : BitVec 8) (r : ResultCode) :
    (s.refuseCommand code r).pending = s.pending ∧ (s.refuseCommand code r).resetAsserted = s.resetAsserted ∧
    (s.refuseCommand code r).timeBase = s.timeBase ∧ (s.refuseCommand code r).sm = s.sm ∧
    (s.refuseCommand code r).inputs = s.inputs ∧ (s.refuseCommand code r).outputs = s.outputs ∧
    (s.refuseCommand code r).ap = s.ap ∧ (s.refuseCommand code r).arb = s.arb ∧
    (s.refuseCommand code r).mc = s.mc ∧ (s.refuseCommand code r).store = s.store ∧
    (s.refuseCommand code r).host = s.host := by
  simp [State.refuseCommand]

@[simp] theorem State.startCommand_frame (s : State) (code : BitVec 8) (c : Option ClearProgress) :
    (s.startCommand code c).pending = s.pending ∧ (s.startCommand code c).resetAsserted = s.resetAsserted ∧
    (s.startCommand code c).timeBase = s.timeBase ∧ (s.startCommand code c).sm = s.sm ∧
    (s.startCommand code c).inputs = s.inputs ∧ (s.startCommand code c).outputs = s.outputs ∧
    (s.startCommand code c).ap = s.ap ∧ (s.startCommand code c).arb = s.arb ∧
    (s.startCommand code c).mc = s.mc ∧ (s.startCommand code c).store = s.store ∧
    (s.startCommand code c).eu = s.eu ∧ (s.startCommand code c).host = s.host := by
  simp [State.startCommand]

@[simp] theorem State.emptyCaptures_frame (s : State) :
    (s.emptyCaptures).pending = s.pending ∧ (s.emptyCaptures).resetAsserted = s.resetAsserted ∧
    (s.emptyCaptures).timeBase = s.timeBase ∧ (s.emptyCaptures).sm = s.sm ∧
    (s.emptyCaptures).inputs = s.inputs ∧ (s.emptyCaptures).outputs = s.outputs ∧
    (s.emptyCaptures).cu = s.cu ∧ (s.emptyCaptures).ap = s.ap ∧
    (s.emptyCaptures).arb = s.arb ∧ (s.emptyCaptures).mc = s.mc ∧
    (s.emptyCaptures).store = s.store ∧ (s.emptyCaptures).eu = s.eu := by
  simp [State.emptyCaptures]

@[simp] theorem State.cmdMemoryInit_frame (s : State) :
    (s.cmdMemoryInit).pending = s.pending ∧ (s.cmdMemoryInit).resetAsserted = s.resetAsserted ∧
    (s.cmdMemoryInit).timeBase = s.timeBase ∧ (s.cmdMemoryInit).sm = s.sm ∧
    (s.cmdMemoryInit).inputs = s.inputs ∧ (s.cmdMemoryInit).outputs = s.outputs ∧
    (s.cmdMemoryInit).ap = s.ap ∧ (s.cmdMemoryInit).arb = s.arb ∧
    (s.cmdMemoryInit).store = s.store ∧ (s.cmdMemoryInit).host = s.host := by
  unfold State.cmdMemoryInit
  (repeat' split) <;> simp

@[simp] theorem State.cmdPoolBuild_frame (s : State) :
    (s.cmdPoolBuild).pending = s.pending ∧ (s.cmdPoolBuild).resetAsserted = s.resetAsserted ∧
    (s.cmdPoolBuild).timeBase = s.timeBase ∧ (s.cmdPoolBuild).inputs = s.inputs ∧
    (s.cmdPoolBuild).outputs = s.outputs ∧ (s.cmdPoolBuild).ap = s.ap ∧
    (s.cmdPoolBuild).arb = s.arb ∧ (s.cmdPoolBuild).mc = s.mc ∧
    (s.cmdPoolBuild).store = s.store := by
  unfold State.cmdPoolBuild
  (repeat' split) <;> simp

@[simp] theorem State.cmdPoolTeardown_frame (s : State) :
    (s.cmdPoolTeardown).pending = s.pending ∧ (s.cmdPoolTeardown).resetAsserted = s.resetAsserted ∧
    (s.cmdPoolTeardown).timeBase = s.timeBase ∧ (s.cmdPoolTeardown).inputs = s.inputs ∧
    (s.cmdPoolTeardown).outputs = s.outputs ∧ (s.cmdPoolTeardown).ap = s.ap ∧
    (s.cmdPoolTeardown).arb = s.arb ∧ (s.cmdPoolTeardown).mc = s.mc ∧
    (s.cmdPoolTeardown).store = s.store := by
  unfold State.cmdPoolTeardown
  (repeat' split) <;> simp

@[simp] theorem State.cmdSlotClaim_frame (s : State) :
    (s.cmdSlotClaim).pending = s.pending ∧ (s.cmdSlotClaim).resetAsserted = s.resetAsserted ∧
    (s.cmdSlotClaim).timeBase = s.timeBase ∧ (s.cmdSlotClaim).inputs = s.inputs ∧
    (s.cmdSlotClaim).outputs = s.outputs ∧ (s.cmdSlotClaim).ap = s.ap ∧
    (s.cmdSlotClaim).arb = s.arb ∧ (s.cmdSlotClaim).mc = s.mc ∧
    (s.cmdSlotClaim).store = s.store ∧ (s.cmdSlotClaim).host = s.host := by
  unfold State.cmdSlotClaim
  (repeat' split) <;> simp

@[simp] theorem State.cmdSlotHold_frame (s : State) :
    (s.cmdSlotHold).pending = s.pending ∧ (s.cmdSlotHold).resetAsserted = s.resetAsserted ∧
    (s.cmdSlotHold).timeBase = s.timeBase ∧ (s.cmdSlotHold).inputs = s.inputs ∧
    (s.cmdSlotHold).outputs = s.outputs ∧ (s.cmdSlotHold).ap = s.ap ∧
    (s.cmdSlotHold).arb = s.arb ∧ (s.cmdSlotHold).mc = s.mc ∧
    (s.cmdSlotHold).store = s.store ∧ (s.cmdSlotHold).host = s.host := by
  unfold State.cmdSlotHold
  (repeat' split) <;> simp

@[simp] theorem State.cmdSlotRelease_frame (s : State) :
    (s.cmdSlotRelease).pending = s.pending ∧ (s.cmdSlotRelease).resetAsserted = s.resetAsserted ∧
    (s.cmdSlotRelease).timeBase = s.timeBase ∧ (s.cmdSlotRelease).inputs = s.inputs ∧
    (s.cmdSlotRelease).outputs = s.outputs ∧ (s.cmdSlotRelease).ap = s.ap ∧
    (s.cmdSlotRelease).arb = s.arb ∧ (s.cmdSlotRelease).mc = s.mc ∧
    (s.cmdSlotRelease).store = s.store ∧ (s.cmdSlotRelease).host = s.host := by
  unfold State.cmdSlotRelease
  (repeat' split) <;> simp

@[simp] theorem State.cmdSlotPublish_frame (s : State) :
    (s.cmdSlotPublish).pending = s.pending ∧ (s.cmdSlotPublish).resetAsserted = s.resetAsserted ∧
    (s.cmdSlotPublish).timeBase = s.timeBase ∧ (s.cmdSlotPublish).outputs = s.outputs ∧
    (s.cmdSlotPublish).ap = s.ap ∧ (s.cmdSlotPublish).arb = s.arb ∧
    (s.cmdSlotPublish).mc = s.mc ∧ (s.cmdSlotPublish).store = s.store ∧
    (s.cmdSlotPublish).host = s.host := by
  unfold State.cmdSlotPublish
  (repeat' split) <;> simp

@[simp] theorem State.startClear_frame (s : State) (k : Nat) :
    (s.startClear k).pending = s.pending ∧ (s.startClear k).resetAsserted = s.resetAsserted ∧
    (s.startClear k).timeBase = s.timeBase ∧ (s.startClear k).outputs = s.outputs ∧
    (s.startClear k).ap = s.ap ∧ (s.startClear k).store = s.store ∧
    (s.startClear k).eu = s.eu ∧ (s.startClear k).host = s.host := by
  simp [State.startClear]

@[simp] theorem State.cmdSlotClear_frame (s : State) :
    (s.cmdSlotClear).pending = s.pending ∧ (s.cmdSlotClear).resetAsserted = s.resetAsserted ∧
    (s.cmdSlotClear).timeBase = s.timeBase ∧ (s.cmdSlotClear).outputs = s.outputs ∧
    (s.cmdSlotClear).ap = s.ap ∧ (s.cmdSlotClear).store = s.store ∧
    (s.cmdSlotClear).host = s.host := by
  unfold State.cmdSlotClear
  (repeat' split) <;> simp

@[simp] theorem State.cmdInputFlush_frame (s : State) :
    (s.cmdInputFlush).pending = s.pending ∧ (s.cmdInputFlush).resetAsserted = s.resetAsserted ∧
    (s.cmdInputFlush).timeBase = s.timeBase ∧ (s.cmdInputFlush).inputs = s.inputs ∧
    (s.cmdInputFlush).outputs = s.outputs ∧ (s.cmdInputFlush).ap = s.ap ∧
    (s.cmdInputFlush).arb = s.arb ∧ (s.cmdInputFlush).mc = s.mc ∧
    (s.cmdInputFlush).store = s.store ∧ (s.cmdInputFlush).host = s.host := by
  unfold State.cmdInputFlush
  (repeat' split) <;> simp

@[simp] theorem State.cmdUnknown_frame (s : State) :
    (s.cmdUnknown).pending = s.pending ∧ (s.cmdUnknown).resetAsserted = s.resetAsserted ∧
    (s.cmdUnknown).timeBase = s.timeBase ∧ (s.cmdUnknown).sm = s.sm ∧
    (s.cmdUnknown).inputs = s.inputs ∧ (s.cmdUnknown).outputs = s.outputs ∧
    (s.cmdUnknown).ap = s.ap ∧ (s.cmdUnknown).arb = s.arb ∧
    (s.cmdUnknown).mc = s.mc ∧ (s.cmdUnknown).store = s.store ∧
    (s.cmdUnknown).host = s.host := by
  simp [State.cmdUnknown]

@[simp] theorem State.portError_frame (s : State) (e : PortError) :
    (s.portError e).pending = s.pending ∧ (s.portError e).resetAsserted = s.resetAsserted ∧
    (s.portError e).timeBase = s.timeBase ∧ (s.portError e).sm = s.sm ∧
    (s.portError e).inputs = s.inputs ∧ (s.portError e).outputs = s.outputs ∧
    (s.portError e).cu = s.cu ∧ (s.portError e).arb = s.arb ∧
    (s.portError e).mc = s.mc ∧ (s.portError e).store = s.store ∧
    (s.portError e).eu = s.eu ∧ (s.portError e).host = s.host := by
  simp [State.portError]

@[simp] theorem State.startRead_frame (s : State) :
    (s.startRead).pending = s.pending ∧ (s.startRead).resetAsserted = s.resetAsserted ∧
    (s.startRead).timeBase = s.timeBase ∧ (s.startRead).sm = s.sm ∧
    (s.startRead).outputs = s.outputs ∧ (s.startRead).cu = s.cu ∧
    (s.startRead).store = s.store ∧ (s.startRead).eu = s.eu ∧
    (s.startRead).host = s.host := by
  unfold State.startRead
  (repeat' split) <;> simp

@[simp] theorem State.portRead_frame (s : State) :
    (s.portRead).pending = s.pending ∧ (s.portRead).resetAsserted = s.resetAsserted ∧
    (s.portRead).timeBase = s.timeBase ∧ (s.portRead).sm = s.sm ∧
    (s.portRead).outputs = s.outputs ∧ (s.portRead).cu = s.cu ∧
    (s.portRead).store = s.store ∧ (s.portRead).eu = s.eu ∧
    (s.portRead).host = s.host := by
  unfold State.portRead
  (repeat' split) <;> simp

@[simp] theorem State.takeFlush_frame (s : State) :
    (s.takeFlush).pending = s.pending ∧ (s.takeFlush).resetAsserted = s.resetAsserted ∧
    (s.takeFlush).timeBase = s.timeBase ∧ (s.takeFlush).outputs = s.outputs ∧
    (s.takeFlush).cu = s.cu ∧ (s.takeFlush).store = s.store ∧
    (s.takeFlush).eu = s.eu ∧ (s.takeFlush).host = s.host := by
  simp [State.takeFlush]

@[simp] theorem State.violateFlush_frame (s : State) :
    (s.violateFlush).pending = s.pending ∧ (s.violateFlush).resetAsserted = s.resetAsserted ∧
    (s.violateFlush).timeBase = s.timeBase ∧ (s.violateFlush).sm = s.sm ∧
    (s.violateFlush).inputs = s.inputs ∧ (s.violateFlush).outputs = s.outputs ∧
    (s.violateFlush).cu = s.cu ∧ (s.violateFlush).arb = s.arb ∧
    (s.violateFlush).mc = s.mc ∧ (s.violateFlush).store = s.store ∧
    (s.violateFlush).host = s.host := by
  simp [State.violateFlush]

@[simp] theorem State.startFlush_frame (s : State) :
    (s.startFlush).pending = s.pending ∧ (s.startFlush).resetAsserted = s.resetAsserted ∧
    (s.startFlush).timeBase = s.timeBase ∧ (s.startFlush).outputs = s.outputs ∧
    (s.startFlush).cu = s.cu ∧ (s.startFlush).store = s.store ∧
    (s.startFlush).host = s.host := by
  unfold State.startFlush
  (repeat' split) <;> simp

@[simp] theorem State.portFlush_frame (s : State) :
    (s.portFlush).pending = s.pending ∧ (s.portFlush).resetAsserted = s.resetAsserted ∧
    (s.portFlush).timeBase = s.timeBase ∧ (s.portFlush).outputs = s.outputs ∧
    (s.portFlush).cu = s.cu ∧ (s.portFlush).store = s.store ∧
    (s.portFlush).host = s.host := by
  unfold State.portFlush
  (repeat' split) <;> simp

@[simp] theorem State.portDiscard_frame (s : State) :
    (s.portDiscard).pending = s.pending ∧ (s.portDiscard).resetAsserted = s.resetAsserted ∧
    (s.portDiscard).timeBase = s.timeBase ∧ (s.portDiscard).sm = s.sm ∧
    (s.portDiscard).inputs = s.inputs ∧ (s.portDiscard).outputs = s.outputs ∧
    (s.portDiscard).cu = s.cu ∧ (s.portDiscard).arb = s.arb ∧
    (s.portDiscard).mc = s.mc ∧ (s.portDiscard).store = s.store ∧
    (s.portDiscard).eu = s.eu ∧ (s.portDiscard).host = s.host := by
  unfold State.portDiscard
  (repeat' split) <;> simp

@[simp] theorem State.drive_frame (s : State) (w : Word) :
    (s.drive w).pending = s.pending ∧ (s.drive w).resetAsserted = s.resetAsserted ∧
    (s.drive w).timeBase = s.timeBase ∧ (s.drive w).sm = s.sm ∧
    (s.drive w).inputs = s.inputs ∧ (s.drive w).outputs = s.outputs ∧
    (s.drive w).cu = s.cu ∧ (s.drive w).ap = s.ap ∧
    (s.drive w).arb = s.arb ∧ (s.drive w).mc = s.mc ∧
    (s.drive w).store = s.store ∧ (s.drive w).eu = s.eu := by
  simp [State.drive]

@[simp] theorem State.popWord_frame (s : State) :
    (s.popWord).pending = s.pending ∧ (s.popWord).resetAsserted = s.resetAsserted ∧
    (s.popWord).timeBase = s.timeBase ∧ (s.popWord).sm = s.sm ∧
    (s.popWord).inputs = s.inputs ∧ (s.popWord).outputs = s.outputs ∧
    (s.popWord).cu = s.cu ∧ (s.popWord).arb = s.arb ∧
    (s.popWord).mc = s.mc ∧ (s.popWord).store = s.store ∧
    (s.popWord).eu = s.eu := by
  unfold State.popWord
  (repeat' split) <;> simp

@[simp] theorem State.readAccData_frame (s : State) :
    (s.readAccData).pending = s.pending ∧ (s.readAccData).resetAsserted = s.resetAsserted ∧
    (s.readAccData).timeBase = s.timeBase ∧ (s.readAccData).sm = s.sm ∧
    (s.readAccData).inputs = s.inputs ∧ (s.readAccData).outputs = s.outputs ∧
    (s.readAccData).cu = s.cu ∧ (s.readAccData).arb = s.arb ∧
    (s.readAccData).mc = s.mc ∧ (s.readAccData).store = s.store ∧
    (s.readAccData).eu = s.eu := by
  unfold State.readAccData
  (repeat' split) <;> simp

@[simp] theorem State.writeAccData_frame (s : State) (w : Word) :
    (s.writeAccData w).pending = s.pending ∧ (s.writeAccData w).resetAsserted = s.resetAsserted ∧
    (s.writeAccData w).timeBase = s.timeBase ∧ (s.writeAccData w).sm = s.sm ∧
    (s.writeAccData w).inputs = s.inputs ∧ (s.writeAccData w).outputs = s.outputs ∧
    (s.writeAccData w).cu = s.cu ∧ (s.writeAccData w).arb = s.arb ∧
    (s.writeAccData w).mc = s.mc ∧ (s.writeAccData w).store = s.store ∧
    (s.writeAccData w).eu = s.eu ∧ (s.writeAccData w).host = s.host := by
  unfold State.writeAccData
  (repeat' split) <;> simp

@[simp] theorem State.writeAccAddr_frame (s : State) (w : Word) :
    (s.writeAccAddr w).pending = s.pending ∧ (s.writeAccAddr w).resetAsserted = s.resetAsserted ∧
    (s.writeAccAddr w).timeBase = s.timeBase ∧ (s.writeAccAddr w).sm = s.sm ∧
    (s.writeAccAddr w).inputs = s.inputs ∧ (s.writeAccAddr w).outputs = s.outputs ∧
    (s.writeAccAddr w).cu = s.cu ∧ (s.writeAccAddr w).arb = s.arb ∧
    (s.writeAccAddr w).mc = s.mc ∧ (s.writeAccAddr w).store = s.store ∧
    (s.writeAccAddr w).eu = s.eu ∧ (s.writeAccAddr w).host = s.host := by
  unfold State.writeAccAddr
  (repeat' split) <;> simp

@[simp] theorem State.writeAccCount_frame (s : State) (w : Word) :
    (s.writeAccCount w).pending = s.pending ∧ (s.writeAccCount w).resetAsserted = s.resetAsserted ∧
    (s.writeAccCount w).timeBase = s.timeBase ∧ (s.writeAccCount w).sm = s.sm ∧
    (s.writeAccCount w).inputs = s.inputs ∧ (s.writeAccCount w).outputs = s.outputs ∧
    (s.writeAccCount w).cu = s.cu ∧ (s.writeAccCount w).arb = s.arb ∧
    (s.writeAccCount w).mc = s.mc ∧ (s.writeAccCount w).store = s.store ∧
    (s.writeAccCount w).eu = s.eu ∧ (s.writeAccCount w).host = s.host := by
  unfold State.writeAccCount
  (repeat' split) <;> simp

@[simp] theorem State.writeAccCtrl_frame (s : State) (w : Word) :
    (s.writeAccCtrl w).pending = s.pending ∧ (s.writeAccCtrl w).resetAsserted = s.resetAsserted ∧
    (s.writeAccCtrl w).timeBase = s.timeBase ∧ (s.writeAccCtrl w).outputs = s.outputs ∧
    (s.writeAccCtrl w).cu = s.cu ∧ (s.writeAccCtrl w).store = s.store ∧
    (s.writeAccCtrl w).host = s.host := by
  unfold State.writeAccCtrl
  (repeat' split) <;> simp

/-! ### Register writes, window reads and resets (chapters 10 and 11) -/

@[simp] theorem State.writeGeometry_frame (s : State) (r : GeometryReg) (w : Word) :
    (s.writeGeometry r w).pending = s.pending ∧ (s.writeGeometry r w).resetAsserted = s.resetAsserted ∧
    (s.writeGeometry r w).timeBase = s.timeBase ∧ (s.writeGeometry r w).inputs = s.inputs ∧
    (s.writeGeometry r w).outputs = s.outputs ∧ (s.writeGeometry r w).cu = s.cu ∧
    (s.writeGeometry r w).ap = s.ap ∧ (s.writeGeometry r w).arb = s.arb ∧
    (s.writeGeometry r w).mc = s.mc ∧ (s.writeGeometry r w).store = s.store ∧
    (s.writeGeometry r w).host = s.host := by
  unfold State.writeGeometry
  (repeat' split) <;> simp

@[simp] theorem State.writeMcCfg_frame (s : State) (w : Word) :
    (s.writeMcCfg w).pending = s.pending ∧ (s.writeMcCfg w).resetAsserted = s.resetAsserted ∧
    (s.writeMcCfg w).timeBase = s.timeBase ∧ (s.writeMcCfg w).sm = s.sm ∧
    (s.writeMcCfg w).inputs = s.inputs ∧ (s.writeMcCfg w).outputs = s.outputs ∧
    (s.writeMcCfg w).cu = s.cu ∧ (s.writeMcCfg w).ap = s.ap ∧
    (s.writeMcCfg w).arb = s.arb ∧ (s.writeMcCfg w).store = s.store ∧
    (s.writeMcCfg w).host = s.host := by
  unfold State.writeMcCfg
  (repeat' split) <;> simp

@[simp] theorem State.writeMcRefresh_frame (s : State) (w : Word) :
    (s.writeMcRefresh w).pending = s.pending ∧ (s.writeMcRefresh w).resetAsserted = s.resetAsserted ∧
    (s.writeMcRefresh w).timeBase = s.timeBase ∧ (s.writeMcRefresh w).sm = s.sm ∧
    (s.writeMcRefresh w).inputs = s.inputs ∧ (s.writeMcRefresh w).outputs = s.outputs ∧
    (s.writeMcRefresh w).cu = s.cu ∧ (s.writeMcRefresh w).ap = s.ap ∧
    (s.writeMcRefresh w).arb = s.arb ∧ (s.writeMcRefresh w).store = s.store ∧
    (s.writeMcRefresh w).host = s.host := by
  unfold State.writeMcRefresh
  (repeat' split) <;> simp

@[simp] theorem State.writeArbCfg_frame (s : State) (w : Word) :
    (s.writeArbCfg w).pending = s.pending ∧ (s.writeArbCfg w).resetAsserted = s.resetAsserted ∧
    (s.writeArbCfg w).timeBase = s.timeBase ∧ (s.writeArbCfg w).sm = s.sm ∧
    (s.writeArbCfg w).inputs = s.inputs ∧ (s.writeArbCfg w).outputs = s.outputs ∧
    (s.writeArbCfg w).cu = s.cu ∧ (s.writeArbCfg w).ap = s.ap ∧
    (s.writeArbCfg w).mc = s.mc ∧ (s.writeArbCfg w).store = s.store ∧
    (s.writeArbCfg w).host = s.host := by
  unfold State.writeArbCfg
  (repeat' split) <;> simp

@[simp] theorem State.clearEvents_frame (s : State) (r : EventReg) (w : Word) :
    (s.clearEvents r w).pending = s.pending ∧ (s.clearEvents r w).resetAsserted = s.resetAsserted ∧
    (s.clearEvents r w).timeBase = s.timeBase ∧ (s.clearEvents r w).sm = s.sm ∧
    (s.clearEvents r w).inputs = s.inputs ∧ (s.clearEvents r w).outputs = s.outputs ∧
    (s.clearEvents r w).cu = s.cu ∧ (s.clearEvents r w).ap = s.ap ∧
    (s.clearEvents r w).arb = s.arb ∧ (s.clearEvents r w).mc = s.mc ∧
    (s.clearEvents r w).store = s.store ∧ (s.clearEvents r w).host = s.host := by
  simp [State.clearEvents]

@[simp] theorem State.writeEnables_frame (s : State) (r : EventReg) (w : Word) :
    (s.writeEnables r w).pending = s.pending ∧ (s.writeEnables r w).resetAsserted = s.resetAsserted ∧
    (s.writeEnables r w).timeBase = s.timeBase ∧ (s.writeEnables r w).sm = s.sm ∧
    (s.writeEnables r w).inputs = s.inputs ∧ (s.writeEnables r w).outputs = s.outputs ∧
    (s.writeEnables r w).cu = s.cu ∧ (s.writeEnables r w).ap = s.ap ∧
    (s.writeEnables r w).arb = s.arb ∧ (s.writeEnables r w).mc = s.mc ∧
    (s.writeEnables r w).store = s.store ∧ (s.writeEnables r w).host = s.host := by
  simp [State.writeEnables]

@[simp] theorem State.clearCounter_frame (s : State) (c : CounterName) :
    (s.clearCounter c).pending = s.pending ∧ (s.clearCounter c).resetAsserted = s.resetAsserted ∧
    (s.clearCounter c).timeBase = s.timeBase ∧ (s.clearCounter c).sm = s.sm ∧
    (s.clearCounter c).cu = s.cu ∧ (s.clearCounter c).ap = s.ap ∧
    (s.clearCounter c).arb = s.arb ∧ (s.clearCounter c).store = s.store ∧
    (s.clearCounter c).eu = s.eu ∧ (s.clearCounter c).host = s.host := by
  unfold State.clearCounter
  (repeat' split) <;> simp

@[simp] theorem State.captureRecord_frame (s : State) (k : Fin 32) :
    (s.captureRecord k).pending = s.pending ∧ (s.captureRecord k).resetAsserted = s.resetAsserted ∧
    (s.captureRecord k).timeBase = s.timeBase ∧ (s.captureRecord k).sm = s.sm ∧
    (s.captureRecord k).inputs = s.inputs ∧ (s.captureRecord k).outputs = s.outputs ∧
    (s.captureRecord k).cu = s.cu ∧ (s.captureRecord k).ap = s.ap ∧
    (s.captureRecord k).arb = s.arb ∧ (s.captureRecord k).mc = s.mc ∧
    (s.captureRecord k).store = s.store ∧ (s.captureRecord k).eu = s.eu := by
  simp [State.captureRecord]

@[simp] theorem State.captureList_frame (s : State) (l : ListName) :
    (s.captureList l).pending = s.pending ∧ (s.captureList l).resetAsserted = s.resetAsserted ∧
    (s.captureList l).timeBase = s.timeBase ∧ (s.captureList l).sm = s.sm ∧
    (s.captureList l).inputs = s.inputs ∧ (s.captureList l).outputs = s.outputs ∧
    (s.captureList l).cu = s.cu ∧ (s.captureList l).ap = s.ap ∧
    (s.captureList l).arb = s.arb ∧ (s.captureList l).mc = s.mc ∧
    (s.captureList l).store = s.store ∧ (s.captureList l).eu = s.eu := by
  simp [State.captureList]

@[simp] theorem State.softReset_frame (s : State) :
    (s.softReset).pending = s.pending ∧ (s.softReset).resetAsserted = s.resetAsserted ∧
    (s.softReset).timeBase = s.timeBase ∧ (s.softReset).store = s.store := by
  simp [State.softReset]

@[simp] theorem State.resetInputs_frame (s : State) (l : List (Fin 4)) :
    (s.resetInputs l).pending = s.pending ∧ (s.resetInputs l).resetAsserted = s.resetAsserted ∧
    (s.resetInputs l).timeBase = s.timeBase ∧ (s.resetInputs l).outputs = s.outputs ∧
    (s.resetInputs l).cu = s.cu ∧ (s.resetInputs l).ap = s.ap ∧
    (s.resetInputs l).mc = s.mc ∧ (s.resetInputs l).store = s.store ∧
    (s.resetInputs l).host = s.host := by
  induction l generalizing s with
  | nil => simp [State.resetInputs]
  | cons n l ih => simp [State.resetInputs, ih]

@[simp] theorem State.resetOutputs_frame (s : State) (l : List (Fin 6)) :
    (s.resetOutputs l).pending = s.pending ∧ (s.resetOutputs l).resetAsserted = s.resetAsserted ∧
    (s.resetOutputs l).timeBase = s.timeBase ∧ (s.resetOutputs l).inputs = s.inputs ∧
    (s.resetOutputs l).cu = s.cu ∧ (s.resetOutputs l).ap = s.ap ∧
    (s.resetOutputs l).mc = s.mc ∧ (s.resetOutputs l).store = s.store ∧
    (s.resetOutputs l).host = s.host := by
  induction l generalizing s with
  | nil => simp [State.resetOutputs]
  | cons n l ih => simp [State.resetOutputs, ih]

@[simp] theorem State.writeResetCtrl_frame (s : State) (w : Word) :
    (s.writeResetCtrl w).pending = s.pending ∧ (s.writeResetCtrl w).resetAsserted = s.resetAsserted ∧
    (s.writeResetCtrl w).timeBase = s.timeBase ∧ (s.writeResetCtrl w).store = s.store := by
  unfold State.writeResetCtrl
  (repeat' split) <;> simp

@[simp] theorem State.readReg_frame (s : State) (r : Reg) :
    (s.readReg r).pending = s.pending ∧ (s.readReg r).resetAsserted = s.resetAsserted ∧
    (s.readReg r).timeBase = s.timeBase ∧ (s.readReg r).sm = s.sm ∧
    (s.readReg r).inputs = s.inputs ∧ (s.readReg r).outputs = s.outputs ∧
    (s.readReg r).cu = s.cu ∧ (s.readReg r).arb = s.arb ∧
    (s.readReg r).mc = s.mc ∧ (s.readReg r).store = s.store ∧
    (s.readReg r).eu = s.eu := by
  unfold State.readReg
  (repeat' split) <;> simp

@[simp] theorem State.writeReg_frame (s : State) (r : Reg) (w : Word) :
    (s.writeReg r w).pending = s.pending ∧ (s.writeReg r w).resetAsserted = s.resetAsserted ∧
    (s.writeReg r w).timeBase = s.timeBase ∧ (s.writeReg r w).store = s.store := by
  cases r <;> simp only [State.writeReg] <;> (try unfold State.writeCmd State.issue) <;> (repeat' split) <;> simp

@[simp] theorem State.writeOffset_frame (s : State) (o : BitVec 12) (w : Word) :
    (s.writeOffset o w).pending = s.pending ∧ (s.writeOffset o w).resetAsserted = s.resetAsserted ∧
    (s.writeOffset o w).timeBase = s.timeBase ∧ (s.writeOffset o w).store = s.store := by
  unfold State.writeOffset
  (repeat' split) <;> simp

@[simp] theorem State.readOffset_frame (s : State) (o : BitVec 12) :
    (s.readOffset o).pending = s.pending ∧ (s.readOffset o).resetAsserted = s.resetAsserted ∧
    (s.readOffset o).timeBase = s.timeBase ∧ (s.readOffset o).sm = s.sm ∧
    (s.readOffset o).inputs = s.inputs ∧ (s.readOffset o).outputs = s.outputs ∧
    (s.readOffset o).cu = s.cu ∧ (s.readOffset o).arb = s.arb ∧
    (s.readOffset o).mc = s.mc ∧ (s.readOffset o).store = s.store ∧
    (s.readOffset o).eu = s.eu := by
  unfold State.readOffset
  (repeat' split) <;> simp

end Sys2Proof.Machine
end

