-- ==== Sys2Proof/Laws/Channels.lean ====
section
/-! SUPPORT. Reading a channel after an operation that leaves the channels of its kind as they are. -/

namespace Sys2Proof.Machine

/-! ### A state written field by field -/

@[simp] theorem State.input_mk (p : List Instr) (r : Bool) (t : Word) (sm : SlotManager) (ins : Vector InputChannel 4)
    (outs : Vector OutputChannel 6) (cu : CommandUnit) (ap : AccessPort) (arb : Arbiter) (mc : MemController)
    (st : FrameStore) (eu : EventUnit) (h : HostInterface) (n : Fin 4) :
    (State.mk p r t sm ins outs cu ap arb mc st eu h).input n = ins[n] := rfl

@[simp] theorem State.output_mk (p : List Instr) (r : Bool) (t : Word) (sm : SlotManager) (ins : Vector InputChannel 4)
    (outs : Vector OutputChannel 6) (cu : CommandUnit) (ap : AccessPort) (arb : Arbiter) (mc : MemController)
    (st : FrameStore) (eu : EventUnit) (h : HostInterface) (m : Fin 6) :
    (State.mk p r t sm ins outs cu ap arb mc st eu h).output m = outs[m] := rfl

/-- The other way round, to bring `s.inputs[n]` back to `s.input n`. -/
theorem State.inputs_getElem (s : State) (n : Fin 4) : s.inputs[n.val] = s.input n := rfl

/-- The other way round, to bring `s.outputs[m]` back to `s.output m`. -/
theorem State.outputs_getElem (s : State) (m : Fin 6) : s.outputs[m.val] = s.output m := rfl

/-! ### Input channels -/

@[simp] theorem State.input_setOutput (s : State) (m : Fin 6) (o : OutputChannel) (i : Fin 4) :
    (s.setOutput m o).input i = s.input i := State.input_eq_of_inputs_eq (by simp) i

@[simp] theorem State.input_modOutput (s : State) (m : Fin 6) (f : OutputChannel → OutputChannel) (i : Fin 4) :
    (s.modOutput m f).input i = s.input i := State.input_eq_of_inputs_eq (by simp) i

@[simp] theorem State.input_raiseIn (s : State) (n : Fin 4) (e : InEvent) (i : Fin 4) :
    (s.raiseIn n e).input i = s.input i := State.input_eq_of_inputs_eq (by simp) i

@[simp] theorem State.input_raiseOut (s : State) (m : Fin 6) (e : OutEvent) (i : Fin 4) :
    (s.raiseOut m e).input i = s.input i := State.input_eq_of_inputs_eq (by simp) i

@[simp] theorem State.input_raiseGlobal (s : State) (e : GlobalEvent) (i : Fin 4) :
    (s.raiseGlobal e).input i = s.input i := State.input_eq_of_inputs_eq (by simp) i

@[simp] theorem State.input_configIgnored (s : State) (i : Fin 4) :
    (s.configIgnored).input i = s.input i := State.input_eq_of_inputs_eq (by simp) i

@[simp] theorem State.input_countOut (s : State) (m : Fin 6) (c : OutCounter) (i : Fin 4) :
    (s.countOut m c).input i = s.input i := State.input_eq_of_inputs_eq (by simp) i

@[simp] theorem State.input_startExec (s : State) (r : MemRequest) (i : Fin 4) :
    (s.startExec r).input i = s.input i := State.input_eq_of_inputs_eq (by simp) i

@[simp] theorem State.input_withdrawWrite (s : State) (n : Fin 4) (i : Fin 4) :
    (s.withdrawWrite n).input i = s.input i := State.input_eq_of_inputs_eq (by simp) i

@[simp] theorem State.input_withdrawRead (s : State) (m : Fin 6) (i : Fin 4) :
    (s.withdrawRead m).input i = s.input i := State.input_eq_of_inputs_eq (by simp) i

@[simp] theorem State.input_grantOutput (s : State) (m : Fin 6) (i : Fin 4) :
    (s.grantOutput m).input i = s.input i := State.input_eq_of_inputs_eq (by simp) i

@[simp] theorem State.input_grantHost (s : State) (h : HostClient) (i : Fin 4) :
    (s.grantHost h).input i = s.input i := State.input_eq_of_inputs_eq (by simp) i

@[simp] theorem State.input_release (s : State) (m : Fin 6) (i : Fin 4) :
    (s.release m).input i = s.input i := State.input_eq_of_inputs_eq (by simp) i

@[simp] theorem State.input_closeOutput (s : State) (m : Fin 6) (i : Fin 4) :
    (s.closeOutput m).input i = s.input i := State.input_eq_of_inputs_eq (by simp) i

@[simp] theorem State.input_enterDisabled (s : State) (m : Fin 6) (i : Fin 4) :
    (s.enterDisabled m).input i = s.input i := State.input_eq_of_inputs_eq (by simp) i

@[simp] theorem State.input_closeDisabling (s : State) (m : Fin 6) (i : Fin 4) :
    (s.closeDisabling m).input i = s.input i := State.input_eq_of_inputs_eq (by simp) i

@[simp] theorem State.input_protocolError (s : State) (m : Fin 6) (i : Fin 4) :
    (s.protocolError m).input i = s.input i := State.input_eq_of_inputs_eq (by simp) i

@[simp] theorem State.input_answerOffline (s : State) (m : Fin 6) (i : Fin 4) :
    (s.answerOffline m).input i = s.input i := State.input_eq_of_inputs_eq (by simp) i

@[simp] theorem State.input_openBlank (s : State) (m : Fin 6) (lost : Bool) (i : Fin 4) :
    (s.openBlank m lost).input i = s.input i := State.input_eq_of_inputs_eq (by simp) i

@[simp] theorem State.input_reportLoss (s : State) (m : Fin 6) (i : Fin 4) :
    (s.reportLoss m).input i = s.input i := State.input_eq_of_inputs_eq (by simp) i

@[simp] theorem State.input_overpull (s : State) (m : Fin 6) (f : OpenFrame) (i : Fin 4) :
    (s.overpull m f).input i = s.input i := State.input_eq_of_inputs_eq (by simp) i

@[simp] theorem State.input_pullBlank (s : State) (m : Fin 6) (f : OpenFrame) (i : Fin 4) :
    (s.pullBlank m f).input i = s.input i := State.input_eq_of_inputs_eq (by simp) i

@[simp] theorem State.input_pullClosed (s : State) (m : Fin 6) (i : Fin 4) :
    (s.pullClosed m).input i = s.input i := State.input_eq_of_inputs_eq (by simp) i

@[simp] theorem State.input_disableIdle (s : State) (m : Fin 6) (i : Fin 4) :
    (s.disableIdle m).input i = s.input i := State.input_eq_of_inputs_eq (by simp) i

@[simp] theorem State.input_writeOutEnable (s : State) (m : Fin 6) (enable : Bool) (i : Fin 4) :
    (s.writeOutEnable m enable).input i = s.input i := State.input_eq_of_inputs_eq (by simp) i

@[simp] theorem State.input_writeOutConfig (s : State) (m : Fin 6) (reg : OutConfigReg) (enable : Bool) (w : Word) (i : Fin 4) :
    (s.writeOutConfig m reg enable w).input i = s.input i := State.input_eq_of_inputs_eq (by simp) i

@[simp] theorem State.input_resetOutput (s : State) (m : Fin 6) (i : Fin 4) :
    (s.resetOutput m).input i = s.input i := State.input_eq_of_inputs_eq (by simp) i

@[simp] theorem State.input_openDisabling (s : State) (m : Fin 6) (i : Fin 4) :
    (s.openDisabling m).input i = s.input i := State.input_eq_of_inputs_eq (by simp) i

@[simp] theorem State.input_endExec (s : State) (i : Fin 4) :
    (s.endExec).input i = s.input i := State.input_eq_of_inputs_eq (by simp) i

@[simp] theorem State.input_startWaitingStage (s : State) (i : Fin 4) :
    (s.startWaitingStage).input i = s.input i := State.input_eq_of_inputs_eq (by simp) i

@[simp] theorem State.input_storeWords (s : State) (r : MemRequest) (i : Fin 4) :
    (s.storeWords r).input i = s.input i := State.input_eq_of_inputs_eq (by simp) i

@[simp] theorem State.input_countEcc (s : State) (ws : List WordRead) (i : Fin 4) :
    (s.countEcc ws).input i = s.input i := State.input_eq_of_inputs_eq (by simp) i

@[simp] theorem State.input_enterLine (s : State) (m : Fin 6) (r : MemRequest) (ws : List WordRead) (i : Fin 4) :
    (s.enterLine m r ws).input i = s.input i := State.input_eq_of_inputs_eq (by simp) i

@[simp] theorem State.input_judgeLine (s : State) (m : Fin 6) (r : MemRequest) (ws : List WordRead) (i : Fin 4) :
    (s.judgeLine m r ws).input i = s.input i := State.input_eq_of_inputs_eq (by simp) i

@[simp] theorem State.input_endHandshake (s : State) (m : Fin 6) (i : Fin 4) :
    (s.endHandshake m).input i = s.input i := State.input_eq_of_inputs_eq (by simp) i

@[simp] theorem State.input_blockReadDone (s : State) (r : MemRequest) (i : Fin 4) :
    (s.blockReadDone r).input i = s.input i := State.input_eq_of_inputs_eq (by simp) i

@[simp] theorem State.input_blockWriteDone (s : State) (r : MemRequest) (i : Fin 4) :
    (s.blockWriteDone r).input i = s.input i := State.input_eq_of_inputs_eq (by simp) i

@[simp] theorem State.input_completeCommand (s : State) (code : BitVec 8) (r : ResultCode) (v : Word) (i : Fin 4) :
    (s.completeCommand code r v).input i = s.input i := State.input_eq_of_inputs_eq (by simp) i

@[simp] theorem State.input_refreshDone (s : State) (i : Fin 4) :
    (s.refreshDone).input i = s.input i := State.input_eq_of_inputs_eq (by simp) i

@[simp] theorem State.input_orphanEffect (s : State) (r : MemRequest) (i : Fin 4) :
    (s.orphanEffect r).input i = s.input i := State.input_eq_of_inputs_eq (by simp) i

@[simp] theorem State.input_refuseCommand (s : State) (code : BitVec 8) (r : ResultCode) (i : Fin 4) :
    (s.refuseCommand code r).input i = s.input i := State.input_eq_of_inputs_eq (by simp) i

@[simp] theorem State.input_startCommand (s : State) (code : BitVec 8) (c : Option ClearProgress) (i : Fin 4) :
    (s.startCommand code c).input i = s.input i := State.input_eq_of_inputs_eq (by simp) i

@[simp] theorem State.input_emptyCaptures (s : State) (i : Fin 4) :
    (s.emptyCaptures).input i = s.input i := State.input_eq_of_inputs_eq (by simp) i

@[simp] theorem State.input_cmdMemoryInit (s : State) (i : Fin 4) :
    (s.cmdMemoryInit).input i = s.input i := State.input_eq_of_inputs_eq (by simp) i

@[simp] theorem State.input_cmdPoolBuild (s : State) (i : Fin 4) :
    (s.cmdPoolBuild).input i = s.input i := State.input_eq_of_inputs_eq (by simp) i

@[simp] theorem State.input_cmdPoolTeardown (s : State) (i : Fin 4) :
    (s.cmdPoolTeardown).input i = s.input i := State.input_eq_of_inputs_eq (by simp) i

@[simp] theorem State.input_cmdSlotClaim (s : State) (i : Fin 4) :
    (s.cmdSlotClaim).input i = s.input i := State.input_eq_of_inputs_eq (by simp) i

@[simp] theorem State.input_cmdSlotHold (s : State) (i : Fin 4) :
    (s.cmdSlotHold).input i = s.input i := State.input_eq_of_inputs_eq (by simp) i

@[simp] theorem State.input_cmdSlotRelease (s : State) (i : Fin 4) :
    (s.cmdSlotRelease).input i = s.input i := State.input_eq_of_inputs_eq (by simp) i

@[simp] theorem State.input_cmdInputFlush (s : State) (i : Fin 4) :
    (s.cmdInputFlush).input i = s.input i := State.input_eq_of_inputs_eq (by simp) i

@[simp] theorem State.input_cmdUnknown (s : State) (i : Fin 4) :
    (s.cmdUnknown).input i = s.input i := State.input_eq_of_inputs_eq (by simp) i

@[simp] theorem State.input_portError (s : State) (e : PortError) (i : Fin 4) :
    (s.portError e).input i = s.input i := State.input_eq_of_inputs_eq (by simp) i

@[simp] theorem State.input_violateFlush (s : State) (i : Fin 4) :
    (s.violateFlush).input i = s.input i := State.input_eq_of_inputs_eq (by simp) i

@[simp] theorem State.input_portDiscard (s : State) (i : Fin 4) :
    (s.portDiscard).input i = s.input i := State.input_eq_of_inputs_eq (by simp) i

@[simp] theorem State.input_drive (s : State) (w : Word) (i : Fin 4) :
    (s.drive w).input i = s.input i := State.input_eq_of_inputs_eq (by simp) i

@[simp] theorem State.input_popWord (s : State) (i : Fin 4) :
    (s.popWord).input i = s.input i := State.input_eq_of_inputs_eq (by simp) i

@[simp] theorem State.input_readAccData (s : State) (i : Fin 4) :
    (s.readAccData).input i = s.input i := State.input_eq_of_inputs_eq (by simp) i

@[simp] theorem State.input_writeAccData (s : State) (w : Word) (i : Fin 4) :
    (s.writeAccData w).input i = s.input i := State.input_eq_of_inputs_eq (by simp) i

@[simp] theorem State.input_writeAccAddr (s : State) (w : Word) (i : Fin 4) :
    (s.writeAccAddr w).input i = s.input i := State.input_eq_of_inputs_eq (by simp) i

@[simp] theorem State.input_writeAccCount (s : State) (w : Word) (i : Fin 4) :
    (s.writeAccCount w).input i = s.input i := State.input_eq_of_inputs_eq (by simp) i

@[simp] theorem State.input_writeGeometry (s : State) (r : GeometryReg) (w : Word) (i : Fin 4) :
    (s.writeGeometry r w).input i = s.input i := State.input_eq_of_inputs_eq (by simp) i

@[simp] theorem State.input_writeMcCfg (s : State) (w : Word) (i : Fin 4) :
    (s.writeMcCfg w).input i = s.input i := State.input_eq_of_inputs_eq (by simp) i

@[simp] theorem State.input_writeMcRefresh (s : State) (w : Word) (i : Fin 4) :
    (s.writeMcRefresh w).input i = s.input i := State.input_eq_of_inputs_eq (by simp) i

@[simp] theorem State.input_writeArbCfg (s : State) (w : Word) (i : Fin 4) :
    (s.writeArbCfg w).input i = s.input i := State.input_eq_of_inputs_eq (by simp) i

@[simp] theorem State.input_clearEvents (s : State) (r : EventReg) (w : Word) (i : Fin 4) :
    (s.clearEvents r w).input i = s.input i := State.input_eq_of_inputs_eq (by simp) i

@[simp] theorem State.input_writeEnables (s : State) (r : EventReg) (w : Word) (i : Fin 4) :
    (s.writeEnables r w).input i = s.input i := State.input_eq_of_inputs_eq (by simp) i

@[simp] theorem State.input_captureRecord (s : State) (k : Fin 32) (i : Fin 4) :
    (s.captureRecord k).input i = s.input i := State.input_eq_of_inputs_eq (by simp) i

@[simp] theorem State.input_captureList (s : State) (l : ListName) (i : Fin 4) :
    (s.captureList l).input i = s.input i := State.input_eq_of_inputs_eq (by simp) i

@[simp] theorem State.input_resetOutputs (s : State) (l : List (Fin 6)) (i : Fin 4) :
    (s.resetOutputs l).input i = s.input i := State.input_eq_of_inputs_eq (by simp) i

@[simp] theorem State.input_readReg (s : State) (r : Reg) (i : Fin 4) :
    (s.readReg r).input i = s.input i := State.input_eq_of_inputs_eq (by simp) i

@[simp] theorem State.input_readOffset (s : State) (o : BitVec 12) (i : Fin 4) :
    (s.readOffset o).input i = s.input i := State.input_eq_of_inputs_eq (by simp) i

/-! ### Output channels -/

@[simp] theorem State.output_setInput (s : State) (n : Fin 4) (ch : InputChannel) (i : Fin 6) :
    (s.setInput n ch).output i = s.output i := State.output_eq_of_outputs_eq (by simp) i

@[simp] theorem State.output_modInput (s : State) (n : Fin 4) (f : InputChannel → InputChannel) (i : Fin 6) :
    (s.modInput n f).output i = s.output i := State.output_eq_of_outputs_eq (by simp) i

@[simp] theorem State.output_raiseIn (s : State) (n : Fin 4) (e : InEvent) (i : Fin 6) :
    (s.raiseIn n e).output i = s.output i := State.output_eq_of_outputs_eq (by simp) i

@[simp] theorem State.output_raiseOut (s : State) (m : Fin 6) (e : OutEvent) (i : Fin 6) :
    (s.raiseOut m e).output i = s.output i := State.output_eq_of_outputs_eq (by simp) i

@[simp] theorem State.output_raiseGlobal (s : State) (e : GlobalEvent) (i : Fin 6) :
    (s.raiseGlobal e).output i = s.output i := State.output_eq_of_outputs_eq (by simp) i

@[simp] theorem State.output_configIgnored (s : State) (i : Fin 6) :
    (s.configIgnored).output i = s.output i := State.output_eq_of_outputs_eq (by simp) i

@[simp] theorem State.output_countIn (s : State) (n : Fin 4) (c : InCounter) (i : Fin 6) :
    (s.countIn n c).output i = s.output i := State.output_eq_of_outputs_eq (by simp) i

@[simp] theorem State.output_startExec (s : State) (r : MemRequest) (i : Fin 6) :
    (s.startExec r).output i = s.output i := State.output_eq_of_outputs_eq (by simp) i

@[simp] theorem State.output_withdrawWrite (s : State) (n : Fin 4) (i : Fin 6) :
    (s.withdrawWrite n).output i = s.output i := State.output_eq_of_outputs_eq (by simp) i

@[simp] theorem State.output_withdrawRead (s : State) (m : Fin 6) (i : Fin 6) :
    (s.withdrawRead m).output i = s.output i := State.output_eq_of_outputs_eq (by simp) i

@[simp] theorem State.output_grantInput (s : State) (n : Fin 4) (i : Fin 6) :
    (s.grantInput n).output i = s.output i := State.output_eq_of_outputs_eq (by simp) i

@[simp] theorem State.output_grantOutput (s : State) (m : Fin 6) (i : Fin 6) :
    (s.grantOutput m).output i = s.output i := State.output_eq_of_outputs_eq (by simp) i

@[simp] theorem State.output_grantHost (s : State) (h : HostClient) (i : Fin 6) :
    (s.grantHost h).output i = s.output i := State.output_eq_of_outputs_eq (by simp) i

@[simp] theorem State.output_applyGrant (s : State) (w : Winner) (i : Fin 6) :
    (s.applyGrant w).output i = s.output i := State.output_eq_of_outputs_eq (by simp) i

@[simp] theorem State.output_grantMoment (s : State) (i : Fin 6) :
    (s.grantMoment).output i = s.output i := State.output_eq_of_outputs_eq (by simp) i

@[simp] theorem State.output_raiseWrite (s : State) (n : Fin 4) (i : Fin 6) :
    (s.raiseWrite n).output i = s.output i := State.output_eq_of_outputs_eq (by simp) i

@[simp] theorem State.output_raisePort (s : State) (r : MemRequest) (i : Fin 6) :
    (s.raisePort r).output i = s.output i := State.output_eq_of_outputs_eq (by simp) i

@[simp] theorem State.output_raiseClear (s : State) (c : ClearProgress) (i : Fin 6) :
    (s.raiseClear c).output i = s.output i := State.output_eq_of_outputs_eq (by simp) i

@[simp] theorem State.output_stopCompletion (s : State) (n : Fin 4) (i : Fin 6) :
    (s.stopCompletion n).output i = s.output i := State.output_eq_of_outputs_eq (by simp) i

@[simp] theorem State.output_finishStopping (s : State) (n : Fin 4) (i : Fin 6) :
    (s.finishStopping n).output i = s.output i := State.output_eq_of_outputs_eq (by simp) i

@[simp] theorem State.output_leaveDiscards (s : State) (n : Fin 4) (i : Fin 6) :
    (s.leaveDiscards n).output i = s.output i := State.output_eq_of_outputs_eq (by simp) i

@[simp] theorem State.output_publishSlot (s : State) (n : Fin 4) (k : Nat) (f : SlotRecord → SlotRecord) (i : Fin 6) :
    (s.publishSlot n k f).output i = s.output i := State.output_eq_of_outputs_eq (by simp) i

@[simp] theorem State.output_publishEntry (s : State) (n : Fin 4) (e : FrameEntry) (rest : List FrameEntry) (i : Fin 6) :
    (s.publishEntry n e rest).output i = s.output i := State.output_eq_of_outputs_eq (by simp) i

@[simp] theorem State.output_publishLoop (s : State) (n : Fin 4) (l : List FrameEntry) (i : Fin 6) :
    (s.publishLoop n l).output i = s.output i := State.output_eq_of_outputs_eq (by simp) i

@[simp] theorem State.output_settle (s : State) (n : Fin 4) (i : Fin 6) :
    (s.settle n).output i = s.output i := State.output_eq_of_outputs_eq (by simp) i

@[simp] theorem State.output_closeOpen (s : State) (n : Fin 4) (v : Verdict) (short : Bool) (i : Fin 6) :
    (s.closeOpen n v short).output i = s.output i := State.output_eq_of_outputs_eq (by simp) i

@[simp] theorem State.output_closeFrame (s : State) (n : Fin 4) (v : Verdict) (short : Bool) (i : Fin 6) :
    (s.closeFrame n v short).output i = s.output i := State.output_eq_of_outputs_eq (by simp) i

@[simp] theorem State.output_broken (s : State) (n : Fin 4) (i : Fin 6) :
    (s.broken n).output i = s.output i := State.output_eq_of_outputs_eq (by simp) i

@[simp] theorem State.output_enterOrStop (s : State) (n : Fin 4) (stop : Bool) (i : Fin 6) :
    (s.enterOrStop n stop).output i = s.output i := State.output_eq_of_outputs_eq (by simp) i

@[simp] theorem State.output_endFrame (s : State) (n : Fin 4) (st : InState) (v : Verdict) (short : Bool) (i : Fin 6) :
    (s.endFrame n st v short).output i = s.output i := State.output_eq_of_outputs_eq (by simp) i

@[simp] theorem State.output_allocate (s : State) (n : Fin 4) (tag : Option Word) (k : Nat) (i : Fin 6) :
    (s.allocate n tag k).output i = s.output i := State.output_eq_of_outputs_eq (by simp) i

@[simp] theorem State.output_skip (s : State) (n : Fin 4) (c : InCounter) (i : Fin 6) :
    (s.skip n c).output i = s.output i := State.output_eq_of_outputs_eq (by simp) i

@[simp] theorem State.output_reclaim (s : State) (n : Fin 4) (k : Nat) (i : Fin 6) :
    (s.reclaim n k).output i = s.output i := State.output_eq_of_outputs_eq (by simp) i

@[simp] theorem State.output_admit (s : State) (n : Fin 4) (tag : Option Word) (i : Fin 6) :
    (s.admitFrame n tag).output i = s.output i := State.output_eq_of_outputs_eq (by simp) i

@[simp] theorem State.output_signalFound (s : State) (n : Fin 4) (i : Fin 6) :
    (s.signalFound n).output i = s.output i := State.output_eq_of_outputs_eq (by simp) i

@[simp] theorem State.output_takeFrameStart (s : State) (n : Fin 4) (tag : Option Word) (i : Fin 6) :
    (s.takeFrameStart n tag).output i = s.output i := State.output_eq_of_outputs_eq (by simp) i

@[simp] theorem State.output_stray (s : State) (n : Fin 4) (i : Fin 6) :
    (s.stray n).output i = s.output i := State.output_eq_of_outputs_eq (by simp) i

@[simp] theorem State.output_tryEnable (s : State) (n : Fin 4) (i : Fin 6) :
    (s.tryEnable n).output i = s.output i := State.output_eq_of_outputs_eq (by simp) i

@[simp] theorem State.output_stopNow (s : State) (n : Fin 4) (i : Fin 6) :
    (s.stopNow n).output i = s.output i := State.output_eq_of_outputs_eq (by simp) i

@[simp] theorem State.output_stopAtEnd (s : State) (n : Fin 4) (i : Fin 6) :
    (s.stopAtEnd n).output i = s.output i := State.output_eq_of_outputs_eq (by simp) i

@[simp] theorem State.output_writeDisable (s : State) (n : Fin 4) (mode : StopMode) (i : Fin 6) :
    (s.writeDisable n mode).output i = s.output i := State.output_eq_of_outputs_eq (by simp) i

@[simp] theorem State.output_writeEnable (s : State) (n : Fin 4) (i : Fin 6) :
    (s.writeEnable n).output i = s.output i := State.output_eq_of_outputs_eq (by simp) i

@[simp] theorem State.output_writeInCtrl (s : State) (n : Fin 4) (enable : Bool) (mode : StopMode) (i : Fin 6) :
    (s.writeInCtrl n enable mode).output i = s.output i := State.output_eq_of_outputs_eq (by simp) i

@[simp] theorem State.output_trimReady (s : State) (n : Fin 4) (quota : Nat) (i : Fin 6) :
    (s.trimReady n quota).output i = s.output i := State.output_eq_of_outputs_eq (by simp) i

@[simp] theorem State.output_writeInConfig (s : State) (n : Fin 4) (reg : InConfigReg) (w : Word) (i : Fin 6) :
    (s.writeInConfig n reg w).output i = s.output i := State.output_eq_of_outputs_eq (by simp) i

@[simp] theorem State.output_resetInput (s : State) (n : Fin 4) (i : Fin 6) :
    (s.resetInput n).output i = s.output i := State.output_eq_of_outputs_eq (by simp) i

@[simp] theorem State.output_finishReset (s : State) (n : Fin 4) (i : Fin 6) :
    (s.finishReset n).output i = s.output i := State.output_eq_of_outputs_eq (by simp) i

@[simp] theorem State.output_frameStartFilling (s : State) (n : Fin 4) (tag : Option Word) (i : Fin 6) :
    (s.frameStartFilling n tag).output i = s.output i := State.output_eq_of_outputs_eq (by simp) i

@[simp] theorem State.output_lineFilling (s : State) (n : Fin 4) (e : FrameEntry) (payload : List Word) (i : Fin 6) :
    (s.lineFilling n e payload).output i = s.output i := State.output_eq_of_outputs_eq (by simp) i

@[simp] theorem State.output_frameEndFilling (s : State) (n : Fin 4) (e : FrameEntry) (i : Fin 6) :
    (s.frameEndFilling n e).output i = s.output i := State.output_eq_of_outputs_eq (by simp) i

@[simp] theorem State.output_signalLost (s : State) (n : Fin 4) (i : Fin 6) :
    (s.signalLost n).output i = s.output i := State.output_eq_of_outputs_eq (by simp) i

@[simp] theorem State.output_endExec (s : State) (i : Fin 6) :
    (s.endExec).output i = s.output i := State.output_eq_of_outputs_eq (by simp) i

@[simp] theorem State.output_startWaitingStage (s : State) (i : Fin 6) :
    (s.startWaitingStage).output i = s.output i := State.output_eq_of_outputs_eq (by simp) i

@[simp] theorem State.output_storeWords (s : State) (r : MemRequest) (i : Fin 6) :
    (s.storeWords r).output i = s.output i := State.output_eq_of_outputs_eq (by simp) i

@[simp] theorem State.output_afterDelivery (s : State) (i : Fin 6) :
    (s.afterDelivery).output i = s.output i := State.output_eq_of_outputs_eq (by simp) i

@[simp] theorem State.output_countEcc (s : State) (ws : List WordRead) (i : Fin 6) :
    (s.countEcc ws).output i = s.output i := State.output_eq_of_outputs_eq (by simp) i

@[simp] theorem State.output_inputWriteDone (s : State) (n : Fin 4) (i : Fin 6) :
    (s.inputWriteDone n).output i = s.output i := State.output_eq_of_outputs_eq (by simp) i

@[simp] theorem State.output_lineWriteDone (s : State) (r : MemRequest) (i : Fin 6) :
    (s.lineWriteDone r).output i = s.output i := State.output_eq_of_outputs_eq (by simp) i

@[simp] theorem State.output_blockReadDone (s : State) (r : MemRequest) (i : Fin 6) :
    (s.blockReadDone r).output i = s.output i := State.output_eq_of_outputs_eq (by simp) i

@[simp] theorem State.output_blockWriteDone (s : State) (r : MemRequest) (i : Fin 6) :
    (s.blockWriteDone r).output i = s.output i := State.output_eq_of_outputs_eq (by simp) i

@[simp] theorem State.output_completeCommand (s : State) (code : BitVec 8) (r : ResultCode) (v : Word) (i : Fin 6) :
    (s.completeCommand code r v).output i = s.output i := State.output_eq_of_outputs_eq (by simp) i

@[simp] theorem State.output_clearAdvance (s : State) (rc : RunningCommand) (c : ClearProgress) (i : Fin 6) :
    (s.clearAdvance rc c).output i = s.output i := State.output_eq_of_outputs_eq (by simp) i

@[simp] theorem State.output_clearWriteDone (s : State) (r : MemRequest) (i : Fin 6) :
    (s.clearWriteDone r).output i = s.output i := State.output_eq_of_outputs_eq (by simp) i

@[simp] theorem State.output_refreshDone (s : State) (i : Fin 6) :
    (s.refreshDone).output i = s.output i := State.output_eq_of_outputs_eq (by simp) i

@[simp] theorem State.output_raiseDeferred (s : State) (i : Fin 6) :
    (s.raiseDeferred).output i = s.output i := State.output_eq_of_outputs_eq (by simp) i

@[simp] theorem State.output_orphanEffect (s : State) (r : MemRequest) (i : Fin 6) :
    (s.orphanEffect r).output i = s.output i := State.output_eq_of_outputs_eq (by simp) i

@[simp] theorem State.output_refreshExpired (s : State) (i : Fin 6) :
    (s.refreshExpired).output i = s.output i := State.output_eq_of_outputs_eq (by simp) i

@[simp] theorem State.output_enterReady (s : State) (i : Fin 6) :
    (s.enterReady).output i = s.output i := State.output_eq_of_outputs_eq (by simp) i

@[simp] theorem State.output_refuseCommand (s : State) (code : BitVec 8) (r : ResultCode) (i : Fin 6) :
    (s.refuseCommand code r).output i = s.output i := State.output_eq_of_outputs_eq (by simp) i

@[simp] theorem State.output_startCommand (s : State) (code : BitVec 8) (c : Option ClearProgress) (i : Fin 6) :
    (s.startCommand code c).output i = s.output i := State.output_eq_of_outputs_eq (by simp) i

@[simp] theorem State.output_emptyCaptures (s : State) (i : Fin 6) :
    (s.emptyCaptures).output i = s.output i := State.output_eq_of_outputs_eq (by simp) i

@[simp] theorem State.output_cmdMemoryInit (s : State) (i : Fin 6) :
    (s.cmdMemoryInit).output i = s.output i := State.output_eq_of_outputs_eq (by simp) i

@[simp] theorem State.output_cmdPoolBuild (s : State) (i : Fin 6) :
    (s.cmdPoolBuild).output i = s.output i := State.output_eq_of_outputs_eq (by simp) i

@[simp] theorem State.output_cmdPoolTeardown (s : State) (i : Fin 6) :
    (s.cmdPoolTeardown).output i = s.output i := State.output_eq_of_outputs_eq (by simp) i

@[simp] theorem State.output_cmdSlotClaim (s : State) (i : Fin 6) :
    (s.cmdSlotClaim).output i = s.output i := State.output_eq_of_outputs_eq (by simp) i

@[simp] theorem State.output_cmdSlotHold (s : State) (i : Fin 6) :
    (s.cmdSlotHold).output i = s.output i := State.output_eq_of_outputs_eq (by simp) i

@[simp] theorem State.output_cmdSlotRelease (s : State) (i : Fin 6) :
    (s.cmdSlotRelease).output i = s.output i := State.output_eq_of_outputs_eq (by simp) i

@[simp] theorem State.output_cmdSlotPublish (s : State) (i : Fin 6) :
    (s.cmdSlotPublish).output i = s.output i := State.output_eq_of_outputs_eq (by simp) i

@[simp] theorem State.output_startClear (s : State) (k : Nat) (i : Fin 6) :
    (s.startClear k).output i = s.output i := State.output_eq_of_outputs_eq (by simp) i

@[simp] theorem State.output_cmdSlotClear (s : State) (i : Fin 6) :
    (s.cmdSlotClear).output i = s.output i := State.output_eq_of_outputs_eq (by simp) i

@[simp] theorem State.output_cmdInputFlush (s : State) (i : Fin 6) :
    (s.cmdInputFlush).output i = s.output i := State.output_eq_of_outputs_eq (by simp) i

@[simp] theorem State.output_cmdUnknown (s : State) (i : Fin 6) :
    (s.cmdUnknown).output i = s.output i := State.output_eq_of_outputs_eq (by simp) i

@[simp] theorem State.output_portError (s : State) (e : PortError) (i : Fin 6) :
    (s.portError e).output i = s.output i := State.output_eq_of_outputs_eq (by simp) i

@[simp] theorem State.output_startRead (s : State) (i : Fin 6) :
    (s.startRead).output i = s.output i := State.output_eq_of_outputs_eq (by simp) i

@[simp] theorem State.output_portRead (s : State) (i : Fin 6) :
    (s.portRead).output i = s.output i := State.output_eq_of_outputs_eq (by simp) i

@[simp] theorem State.output_takeFlush (s : State) (i : Fin 6) :
    (s.takeFlush).output i = s.output i := State.output_eq_of_outputs_eq (by simp) i

@[simp] theorem State.output_violateFlush (s : State) (i : Fin 6) :
    (s.violateFlush).output i = s.output i := State.output_eq_of_outputs_eq (by simp) i

@[simp] theorem State.output_startFlush (s : State) (i : Fin 6) :
    (s.startFlush).output i = s.output i := State.output_eq_of_outputs_eq (by simp) i

@[simp] theorem State.output_portFlush (s : State) (i : Fin 6) :
    (s.portFlush).output i = s.output i := State.output_eq_of_outputs_eq (by simp) i

@[simp] theorem State.output_portDiscard (s : State) (i : Fin 6) :
    (s.portDiscard).output i = s.output i := State.output_eq_of_outputs_eq (by simp) i

@[simp] theorem State.output_drive (s : State) (w : Word) (i : Fin 6) :
    (s.drive w).output i = s.output i := State.output_eq_of_outputs_eq (by simp) i

@[simp] theorem State.output_popWord (s : State) (i : Fin 6) :
    (s.popWord).output i = s.output i := State.output_eq_of_outputs_eq (by simp) i

@[simp] theorem State.output_readAccData (s : State) (i : Fin 6) :
    (s.readAccData).output i = s.output i := State.output_eq_of_outputs_eq (by simp) i

@[simp] theorem State.output_writeAccData (s : State) (w : Word) (i : Fin 6) :
    (s.writeAccData w).output i = s.output i := State.output_eq_of_outputs_eq (by simp) i

@[simp] theorem State.output_writeAccAddr (s : State) (w : Word) (i : Fin 6) :
    (s.writeAccAddr w).output i = s.output i := State.output_eq_of_outputs_eq (by simp) i

@[simp] theorem State.output_writeAccCount (s : State) (w : Word) (i : Fin 6) :
    (s.writeAccCount w).output i = s.output i := State.output_eq_of_outputs_eq (by simp) i

@[simp] theorem State.output_writeAccCtrl (s : State) (w : Word) (i : Fin 6) :
    (s.writeAccCtrl w).output i = s.output i := State.output_eq_of_outputs_eq (by simp) i

@[simp] theorem State.output_writeGeometry (s : State) (r : GeometryReg) (w : Word) (i : Fin 6) :
    (s.writeGeometry r w).output i = s.output i := State.output_eq_of_outputs_eq (by simp) i

@[simp] theorem State.output_writeMcCfg (s : State) (w : Word) (i : Fin 6) :
    (s.writeMcCfg w).output i = s.output i := State.output_eq_of_outputs_eq (by simp) i

@[simp] theorem State.output_writeMcRefresh (s : State) (w : Word) (i : Fin 6) :
    (s.writeMcRefresh w).output i = s.output i := State.output_eq_of_outputs_eq (by simp) i

@[simp] theorem State.output_writeArbCfg (s : State) (w : Word) (i : Fin 6) :
    (s.writeArbCfg w).output i = s.output i := State.output_eq_of_outputs_eq (by simp) i

@[simp] theorem State.output_clearEvents (s : State) (r : EventReg) (w : Word) (i : Fin 6) :
    (s.clearEvents r w).output i = s.output i := State.output_eq_of_outputs_eq (by simp) i

@[simp] theorem State.output_writeEnables (s : State) (r : EventReg) (w : Word) (i : Fin 6) :
    (s.writeEnables r w).output i = s.output i := State.output_eq_of_outputs_eq (by simp) i

@[simp] theorem State.output_captureRecord (s : State) (k : Fin 32) (i : Fin 6) :
    (s.captureRecord k).output i = s.output i := State.output_eq_of_outputs_eq (by simp) i

@[simp] theorem State.output_captureList (s : State) (l : ListName) (i : Fin 6) :
    (s.captureList l).output i = s.output i := State.output_eq_of_outputs_eq (by simp) i

@[simp] theorem State.output_resetInputs (s : State) (l : List (Fin 4)) (i : Fin 6) :
    (s.resetInputs l).output i = s.output i := State.output_eq_of_outputs_eq (by simp) i

@[simp] theorem State.output_readReg (s : State) (r : Reg) (i : Fin 6) :
    (s.readReg r).output i = s.output i := State.output_eq_of_outputs_eq (by simp) i

@[simp] theorem State.output_readOffset (s : State) (o : BitVec 12) (i : Fin 6) :
    (s.readOffset o).output i = s.output i := State.output_eq_of_outputs_eq (by simp) i

end Sys2Proof.Machine
end

