-- ==== Sys2Proof/Laws/Ops.lean ====
section
/-! SUPPORT. What each shared shell of the commands can answer, said once: host cycles, completions, orders, events of time. -/

namespace Sys2Proof.Machine

/-! ### Host cycles (R171, R178) -/

/-- A host write answers a next state, the same one while RESET_N is asserted. -/
theorem hostWrite_next (s t : State) (f : State → State) :
    hostWrite s f = .next t ↔ (s.resetAsserted = true ∧ t = s) ∨ (s.resetAsserted = false ∧ t = f s) := by
  unfold hostWrite
  cases s.resetAsserted <;> simp [eq_comm]

/-- A host read answers a next state; while RESET_N is asserted it only returns 0. -/
theorem hostRead_next (s t : State) (f : State → State) :
    hostRead s f = .next t ↔
      (s.resetAsserted = true ∧ t = { s with host := { s.host with data := 0 } }) ∨
      (s.resetAsserted = false ∧ t = f s) := by
  unfold hostRead
  cases s.resetAsserted <;> simp [eq_comm]

/-- A command written to CMD runs when the unit is not BUSY; otherwise only CMD_OVERRUN is raised (R111). -/
theorem State.issue_cases (s : State) (f : State → State) :
    (s.cu.running = none ∧ s.issue f = f s) ∨ (s.cu.running ≠ none ∧ s.issue f = s.raiseGlobal .cmdOverrun) := by
  unfold State.issue
  cases s.cu.running <;> simp

/-! ### Completions (R146, R147, R151) -/

/-- A completion that answers a next state had a request of its kind in execution, not an orphan, within the store; the
request is delivered and a grant moment follows. -/
theorem completing_next {kind : RequestKind} {s t : State} {deliver : State → MemRequest → State}
    (h : completing kind s deliver = .next t) :
    ∃ r, s.mc.exec = some ⟨r, false⟩ ∧ r.kind = kind ∧ r.inStore = true ∧
      t = (deliver s.endExec r).afterDelivery := by
  unfold completing at h
  split at h
  · cases h
  next e he =>
    obtain ⟨r, orphan⟩ := e
    cases orphan <;> simp only [Bool.false_or, Bool.true_or, reduceIte, reduceCtorEq] at h
    by_cases hk : r.kind = kind <;> simp [hk] at h
    split at h <;> simp at h
    exact ⟨r, he, hk, ‹_›, h.symm⟩

/-- A completion runs when a request of its kind is in execution, not an orphan, and within the store. -/
theorem completing_of {kind : RequestKind} {s : State} {r : MemRequest} (deliver : State → MemRequest → State)
    (he : s.mc.exec = some ⟨r, false⟩) (hk : r.kind = kind) (hs : r.inStore = true) :
    completing kind s deliver = .next (deliver s.endExec r).afterDelivery := by
  simp [completing, he, hk, hs]

/-- A request lies in the store, and carries no more words than it names, exactly when `inStore` says so. -/
theorem MemRequest.inStore_iff (r : MemRequest) :
    r.inStore = true ↔ r.addr + r.count ≤ 16777216 ∧ r.words.length ≤ r.count := by
  unfold MemRequest.inStore Config.storeWords
  rw [Bool.and_eq_true, decide_eq_true_iff, decide_eq_true_iff]

/-- An orphan's completion that answers a next state had an orphan in execution, within the store. -/
theorem execOrphanCompletion_next {s t : State} (h : execOrphanCompletion s = .next t) :
    ∃ r, s.mc.exec = some ⟨r, true⟩ ∧ r.inStore = true ∧
      t = (((s.endExec.orphanEffect r).raiseDeferred).retestReader r.client).afterDelivery := by
  unfold execOrphanCompletion at h
  split at h
  · cases h
  next e he =>
    obtain ⟨r, orphan⟩ := e
    cases orphan <;> simp at h
    split at h <;> simp at h
    exact ⟨r, he, ‹_›, h.symm⟩

/-! ### Events of time (chapters 8 and 11) -/

/-- The refresh timer expires only while it runs, and not before its interval has passed. -/
theorem execRefreshTimerExpiry_next {s t : State} (h : execRefreshTimerExpiry s = .next t) :
    ∃ x, s.mc.refreshTimer = some x ∧ x.interval ≤ elapsedUs x.start s.timeBase ∧ t = s.refreshExpired := by
  unfold execRefreshTimerExpiry at h
  split at h
  · cases h
  · split at h <;> simp at h
    exact ⟨_, ‹_›, Nat.le_of_not_lt ‹_›, h.symm⟩

/-- A stage ends only in INITIALIZING, one of 1 to 4, stage 1 not before its 200 µs; the next begins. -/
theorem execInitStageEnd_next {s t : State} (h : execInitStageEnd s = .next t) :
    s.mc.state = .initializing ∧ 1 ≤ s.mc.stage ∧ s.mc.stage ≤ 4 ∧
      (s.mc.stage = 1 → Config.powerSettleUs ≤ elapsedUs s.mc.stageStart s.timeBase) ∧
      t = { s with mc := { s.mc with stage := s.mc.stage + 1, stageStart := s.timeBase } } := by
  unfold execInitStageEnd at h
  split at h
  next h1 =>
    simp only [Bool.and_eq_true, decide_eq_true_eq] at h1
    split at h
    · cases h
    next h2 =>
      simp only [Host.Outcome.next.injEq] at h
      refine ⟨h1.1.1, h1.1.2, h1.2, fun h3 => ?_, h.symm⟩
      simpa [h3] using h2
  · cases h

/-- Stage 5 ends only in INITIALIZING and not before its 2 µs; the controller enters READY. -/
theorem execEndOfStage5_next {s t : State} (h : execEndOfStage5 s = .next t) :
    s.mc.state = .initializing ∧ s.mc.stage = 5 ∧ Config.holdOffUs ≤ elapsedUs s.mc.stageStart s.timeBase ∧
      t = s.enterReady := by
  unfold execEndOfStage5 at h
  split at h
  next h1 =>
    simp only [Bool.and_eq_true, decide_eq_true_eq] at h1
    split at h <;> simp at h
    exact ⟨h1.1, h1.2, Nat.le_of_not_lt ‹_›, h.symm⟩
  · cases h

/-! ### Arbitration (R155) -/

/-- A grant moment without a free controller in READY, or with nothing to grant, changes nothing. -/
theorem State.grantMoment_cases (s : State) :
    s.grantMoment = s ∨ ∃ w, s.mc.state = .ready ∧ s.mc.exec = none ∧ s.chooseGrant = some w ∧
      s.grantMoment = s.applyGrant w := by
  unfold State.grantMoment
  split
  next h =>
    simp only [Bool.and_eq_true, decide_eq_true_eq, Option.isNone_iff_eq_none] at h
    split
    next w hw => exact .inr ⟨w, h.1, h.2, hw, rfl⟩
    · exact .inl rfl
  · exact .inl rfl

end Sys2Proof.Machine
end

