-- ==== Sys2Proof/Laws/Store.lean ====
section
/-! SUPPORT. The frame store: a read after a write, and the canonical form that every store operation keeps. -/

namespace Sys2Proof.Machine

/-! ### One cell -/

theorem lookupCell_writeCell (cells : List (Nat × StoredWord)) (a b : Nat) (v : StoredWord)
    (h : cells.Pairwise fun c d => c.1 < d.1) :
    lookupCell (writeCell cells a v) b = if b = a then some v else lookupCell cells b := by
  induction cells with
  | nil => by_cases hb : b = a <;> simp [writeCell, lookupCell, hb]
  | cons c rest ih =>
    obtain ⟨k, u⟩ := c
    simp only [List.pairwise_cons] at h
    simp only [writeCell]
    split
    · by_cases hb : b = a <;> simp [lookupCell, hb]
    · split
      · rename_i hk; subst hk
        by_cases hb : b = a <;> simp [lookupCell, hb]
      · rename_i hk
        simp only [lookupCell, ih h.2]
        by_cases hb : b = k
        · subst hb; simp; intro he; exact absurd he.symm hk
        · simp [hb]

theorem fst_mem_writeCell {cells : List (Nat × StoredWord)} {a : Nat} {v : StoredWord} {c : Nat × StoredWord}
    (h : c ∈ writeCell cells a v) : c = (a, v) ∨ c ∈ cells := by
  induction cells with
  | nil => simpa [writeCell] using h
  | cons d rest ih =>
    obtain ⟨k, u⟩ := d
    simp only [writeCell] at h
    split at h
    · simpa using h
    · split at h
      · simp only [List.mem_cons] at h ⊢; tauto
      · simp only [List.mem_cons] at h ⊢
        rcases h with h | h
        · exact .inr (.inl h)
        · rcases ih h with h | h <;> tauto

theorem writeCell_pairwise {cells : List (Nat × StoredWord)} (a : Nat) (v : StoredWord)
    (h : cells.Pairwise fun c d => c.1 < d.1) : (writeCell cells a v).Pairwise fun c d => c.1 < d.1 := by
  induction cells with
  | nil => simp [writeCell]
  | cons d rest ih =>
    obtain ⟨k, u⟩ := d
    simp only [List.pairwise_cons] at h
    simp only [writeCell]
    split
    · rename_i hlt
      refine List.pairwise_cons.2 ⟨?_, List.pairwise_cons.2 h⟩
      intro c hc
      rcases List.mem_cons.1 hc with rfl | hc
      · exact hlt
      · exact hlt.trans (h.1 c hc)
    · split
      · rename_i hk; subst hk; exact List.pairwise_cons.2 h
      · rename_i hlt hk
        refine List.pairwise_cons.2 ⟨?_, ih h.2⟩
        intro c hc
        rcases fst_mem_writeCell hc with rfl | hc
        · have : k < a := by omega
          exact this
        · exact h.1 c hc

/-! ### Runs of cells -/

theorem writeCells_pairwise {cells : List (Nat × StoredWord)} (a : Nat) (ws : List Word)
    (h : cells.Pairwise fun c d => c.1 < d.1) : (writeCells cells a ws).Pairwise fun c d => c.1 < d.1 := by
  induction ws generalizing cells a with
  | nil => exact h
  | cons w ws ih => exact ih (a + 1) (writeCell_pairwise a ⟨w, 0⟩ h)

theorem fst_mem_writeCells {cells : List (Nat × StoredWord)} {a : Nat} {ws : List Word} {c : Nat × StoredWord}
    (h : c ∈ writeCells cells a ws) : (a ≤ c.1 ∧ c.1 < a + ws.length) ∨ c ∈ cells := by
  induction ws generalizing cells a with
  | nil => exact .inr h
  | cons w ws ih =>
    rcases ih h with h | h
    · simp only [List.length_cons]; omega
    · rcases fst_mem_writeCell h with rfl | h
      · simp
      · exact .inr h

/-- A read of one cell after a run of writes: the word written there with no bit in error, or what was there. -/
theorem lookupCell_writeCells (cells : List (Nat × StoredWord)) (a b : Nat) (ws : List Word)
    (h : cells.Pairwise fun c d => c.1 < d.1) :
    lookupCell (writeCells cells a ws) b =
      if a ≤ b ∧ b < a + ws.length then some ⟨ws.getD (b - a) 0, 0⟩ else lookupCell cells b := by
  induction ws generalizing cells a with
  | nil => simp [writeCells]
  | cons w ws ih =>
    simp only [writeCells, List.length_cons]
    rw [ih _ _ (writeCell_pairwise a ⟨w, 0⟩ h), lookupCell_writeCell _ _ _ _ h]
    by_cases hb : b = a
    · subst hb; simp
    · by_cases hin : a + 1 ≤ b ∧ b < a + 1 + ws.length
      · have h1 : a ≤ b ∧ b < a + (ws.length + 1) := by omega
        have h2 : b - a = (b - (a + 1)) + 1 := by omega
        simp [hin, h1, h2]
      · have h1 : ¬(a ≤ b ∧ b < a + (ws.length + 1)) := by omega
        rw [if_neg hin, if_neg h1, if_neg hb]

/-! ### Reads after writes (R146, R148) -/

/-- A read after a write gives the word written, with fresh check bits, inside the run and what was there outside it. -/
theorem FrameStore.read_write (st : FrameStore) (a b : Nat) (ws : List Word) (h : st.wf) :
    (st.write a ws).read b =
      if a ≤ b ∧ b < a + ws.length then ⟨ws.getD (b - a) 0, 0⟩ else st.read b := by
  simp only [FrameStore.read, FrameStore.write, lookupCell_writeCells _ _ _ _ h.1]
  split <;> rfl

/-- A word with no bit in error is read clean (R148). -/
theorem eccRead_fresh (w : Word) : eccRead ⟨w, 0⟩ = ⟨w, .clean⟩ := by
  have h : errorBits 0 = 0 := by simp [errorBits]
  rw [eccRead, h]
  rfl

/-! ### The canonical form is kept -/

theorem FrameStore.wf_write (st : FrameStore) (a : Nat) (ws : List Word) (h : st.wf)
    (hb : a + ws.length ≤ Config.storeWords) : (st.write a ws).wf := by
  refine ⟨writeCells_pairwise a ws h.1, fun c hc => ?_⟩
  rcases fst_mem_writeCells hc with hc | hc
  · omega
  · exact h.2 c hc

theorem FrameStore.wf_forget (st : FrameStore) (a n : Nat) (h : st.wf) : (st.forget a n).wf :=
  ⟨h.1.filter _, fun c hc => h.2 c (List.mem_filter.1 hc).1⟩

theorem FrameStore.wf_forgetAll (st : FrameStore) : st.forgetAll.wf := by simp [FrameStore.wf, FrameStore.forgetAll]

theorem lookupCell_mem {cells : List (Nat × StoredWord)} {a : Nat} {v : StoredWord}
    (h : lookupCell cells a = some v) : (a, v) ∈ cells := by
  induction cells with
  | nil => simp [lookupCell] at h
  | cons c rest ih =>
    obtain ⟨k, u⟩ := c
    simp only [lookupCell] at h
    split at h
    · rename_i hk; subst hk; cases h; simp
    · exact List.mem_cons_of_mem _ (ih h)

theorem FrameStore.wf_decayWord (st : FrameStore) (d : Nat × BitVec 39) (h : st.wf) : (st.decayWord d).wf := by
  unfold FrameStore.decayWord
  split
  · rename_i c hc
    refine ⟨writeCell_pairwise _ _ h.1, fun x hx => ?_⟩
    rcases fst_mem_writeCell hx with rfl | hx
    · have := h.2 _ (lookupCell_mem hc)
      exact this
    · exact h.2 x hx
  · exact h

theorem FrameStore.wf_decay (st : FrameStore) (ds : List (Nat × BitVec 39)) (h : st.wf) : (st.decay ds).wf := by
  induction ds generalizing st with
  | nil => exact h
  | cons d ds ih => exact ih _ (st.wf_decayWord d h)

/-- The store after reset is in canonical form. -/
theorem reset_store_wf : State.reset.store.wf := by simp [FrameStore.wf, State.reset]

end Sys2Proof.Machine
end

