-- ==== Sys2Proof/Tests/Slice0.lean ====
section
/-! SUPPORT. Tests: ill-formed commands are refused by WellFormed; values that the spec's tables and examples give; and for
each statement with hypotheses a witness, concrete states and operands that meet them together. -/

namespace Sys2Proof.Tests
open Sys2Proof Sys2Proof.Machine

-- One theorem after another: each waits for the kernel, and many of them at once would need a thread each.
set_option Elab.async false

/-! ### Well-formed commands -/

theorem test_wf_line_empty : (Instr.line 0 []).wellFormed = false := by decide
theorem test_wf_line_too_long : (Instr.line 0 (List.replicate 1025 0)).wellFormed = false := by decide +kernel
theorem test_wf_line_bounds :
    (Instr.line 0 [7]).wellFormed = true ∧ (Instr.line 3 (List.replicate 1024 0)).wellFormed = true := by decide +kernel
theorem test_wf_unknown_known_code : (Instr.unknownCommand 0x14).wellFormed = false := by decide
theorem test_wf_unknown : (Instr.unknownCommand 0x16).wellFormed = true := by decide
theorem test_wf_enable_without_bit : (Instr.outputEnable 0 0x10).wellFormed = false := by decide
theorem test_wf_disable_with_bit : (Instr.outputDisable 0 0x11).wellFormed = false := by decide
theorem test_wf_charge_beyond_store : (Instr.lossOfCharge [(16777216, 1)]).wellFormed = false := by decide
theorem test_wf_charge_no_bit : (Instr.lossOfCharge [(0, 0)]).wellFormed = false := by decide
theorem test_wf_charge : (Instr.lossOfCharge [(16777215, 0x4000000000)]).wellFormed = true := by decide

/-! ### States to test with -/

/-- The state after a command, or the same state where it stops. -/
def after (c : Instr) (s : State) : State :=
  match exec c s with
  | .next t => t
  | _ => s

/-- READY, and a pool of five slots of 1024 words. -/
def base : State := { State.reset with
  sm := { SlotManager.reset with
    built := true, stride := 1024, count := 5, slots := (List.range 5).map SlotRecord.fresh, free := List.range 5 }
  mc := { MemController.reset with state := .ready, refreshTimer := some ⟨0, 7⟩ } }

/-- `base` with other CMD_ARG registers. -/
def args (a0 a1 a2 : Word) : State := { base with cu := { base.cu with args := ⟨a0, a1, a2, 9⟩ } }

/-- `base` with slot k's record changed. -/
def withSlot (s : State) (k : Nat) (f : SlotRecord → SlotRecord) : State := { s with sm := s.sm.modSlot k f }

/-- An input of frames of two lines of 16 words. -/
def chan (st : InState) : InputChannel := { InputChannel.reset with
  cfg := { InConfig.reset with lineLength := 16, linesPerFrame := 2 }, state := st }

/-- `base` with IN0 replaced. -/
def onIn (ch : InputChannel) : State := base.setInput 0 ch

/-- A frame entry of two expected lines. -/
def entry (k : Nat) (st : EntryStatus) (received : Nat) : FrameEntry := ⟨k, st, received, 2, false, false⟩

/-- A line of 16 words. -/
def words16 : List Word := List.replicate 16 7

/-- An output in a state. -/
def outp (st : OutState) : OutputChannel := { OutputChannel.reset 0 with state := st }

/-- `base` with OUT0 replaced. -/
def onOut (o : OutputChannel) : State := base.setOutput 0 o

/-- An open frame of two lines of 16 words. -/
def frame (st : AnswerStatus) (slot : Option Nat) : OpenFrame := ⟨st, slot, 16, 2, .blank, 5, 1, false, false, false⟩

/-- A request of two words. -/
def req (c : Client) (k : RequestKind) : MemRequest := ⟨c, k, 100, 2, [1, 2], 0, 0⟩

/-- A state with a request in execution. -/
def executing (s : State) (r : MemRequest) (orphan : Bool) : State := { s with mc := { s.mc with exec := some ⟨r, orphan⟩ } }

/-- `base` with the access port in a state. -/
def port (st : PortState) : State := { base with ap := { base.ap with state := st } }

/-- RESET_N asserted. -/
def held : State := after .pinReset base

/-- The outcome is a next state. -/
def isNext (o : Host.Outcome State Fault Refusal) : Bool :=
  match o with
  | .next _ => true
  | _ => false

theorem exists_next {o : Host.Outcome State Fault Refusal} (h : isNext o = true) : ∃ t, o = .next t := by
  cases o with
  | next t => exact ⟨t, rfl⟩
  | fault f => cases h
  | refused r => cases h

/-! ### Values that the spec's tables and examples give -/

/-- R142: the whole sequence for T100 takes 202.690 µs, with MODE_FIRST too. -/
theorem test_sequence_t100 :
    Config.sequenceTenthsNs .t100 false = 2026900 ∧ Config.sequenceTenthsNs .t100 true = 2026900 := by decide

/-- R142, formed in the same way: 200 µs + 22.5 ns + 8 × 68 ns + 15 ns + 2 µs, and so on. -/
theorem test_sequence_others :
    Config.sequenceTenthsNs .t133 false = 2025815 ∧ Config.sequenceTenthsNs .t166 false = 2025580 ∧
    Config.sequenceTenthsNs .t200 false = 2025450 := by decide

/-- R2's example: the reset geometry's slots S0 and S7, and the scratch region behind them. -/
theorem test_slot_layout :
    ({ SlotManager.reset with built := true } : SlotManager).slotAt 307199 = some 0 ∧
    ({ SlotManager.reset with built := true } : SlotManager).slotAt 307200 = some 1 ∧
    ({ SlotManager.reset with built := true } : SlotManager).slotAt 2457599 = some 7 ∧
    ({ SlotManager.reset with built := true } : SlotManager).slotAt 2457600 = none := by decide +kernel

/-- R25, R173: INn_GEOM reads 640 in bits 10 to 0 and 480 in bits 27 to 16 after reset. -/
theorem test_geom_reads : State.reset.regValue (.inConfig 2 .geom) = 0x01E00280 := by decide +kernel

/-- R172: the offsets of a few registers. -/
theorem test_register_map :
    regAt 0x104 = some (.inConfig 0 .geom) ∧ regAt 0x2AC = none ∧ regAt 0x32C = some .summary ∧
    regAt 0x6A0 = none ∧ regAt 0x800 = some (.record 0 0) ∧ regAt 0xFFC = none := by decide +kernel

/-- R174: the record of a fresh slot S4 reads state FREE in bits 10 to 8 of word 0. -/
theorem test_record_word0 : (after (.recordCapture 4) base).host.data = 0x104 := by decide +kernel

/-- R117: a claim takes the free-list head, S0. -/
theorem test_claim :
    (after .slotClaim base).cu.value = 0 ∧ (after .slotClaim base).sm.free = [1, 2, 3, 4] ∧
    ((after .slotClaim base).sm.slot 0).state = .held := by decide +kernel

/-- R111: a CMD write in BUSY raises CMD_OVERRUN, bit 2 of EVT_GLOBAL. -/
theorem test_overrun :
    (after .slotClaim { base with cu := { base.cu with running := some ⟨1, base.cu.args, none⟩ } }).eu.status[(10 : Fin 11)]
      = 0x4 := by decide +kernel

/-- R30, R54: a FRAME START in ARMED takes S0. -/
theorem test_frame_start :
    ((after (.frameStart 0 (some 5)) (onIn (chan .armed))).input 0).state = .filling ∧
    ((after (.frameStart 0 (some 5)) (onIn (chan .armed))).sm.slot 0).tag = some 5 := by decide +kernel

/-- R88, R73: MUTE answers BLANK, with the blank geometry. -/
theorem test_mute :
    ((after (.frameOpen 0) (onOut { outp .idle with cfg := { OutConfig.reset 0 with mute := true } })).output 0).answer =
      some ⟨.blank, 0, none, none, 640, 480, none, false, false, false⟩ := by decide +kernel

/-- R105: a pull in IDLE is a protocol error, answered by a blank line numbered 0. -/
theorem test_pull_idle :
    ((after (.linePull 0) (onOut (outp .idle))).output 0).line = some ⟨0, .fillBlank, List.replicate 640 0⟩ ∧
    (after (.linePull 0) (onOut (outp .idle))).eu.status[(4 : Fin 11)] = 0x10 := by decide +kernel

/-- R131, R130: a port word appended in IDLE; a read of ACC_DATA there is EMPTY_READ and returns 0. -/
theorem test_port_words :
    (after (.accDataWrite 9) base).ap.writeBuf = [9] ∧ (after .accDataRead base).ap.error = .emptyRead := by
  decide +kernel

/-- 0.5: sequence order wraps. -/
theorem test_sequence_order : seqAfter 0 0xFFFFFFFF = true ∧ seqAfter 0x80000000 0 = false ∧ seqAfter 5 5 = false := by
  decide

/-! ### Witnesses: the hypotheses of each statement, met together, clause by clause -/

theorem test_QueueHandled_hyps : base.pending = [] ∧ ∃ t, exec .pinReset base = .next t := ⟨rfl, exists_next (by decide +kernel)⟩

theorem test_PinReset_hyps : held.resetAsserted = true := by decide +kernel

theorem test_FullSoftResetState_hyps :
    (base.resetAsserted = false ∧ base.mc.state = .ready ∧ base.sm.built = true) ∧
    (State.reset.resetAsserted = false ∧ State.reset.mc.state ≠ .ready) ∧
    (({ base with sm := SlotManager.reset } : State).mc.state = .ready ∧
      ({ base with sm := SlotManager.reset } : State).sm.built = false) := by decide +kernel

/-- A filling IN0 with one open entry and its line in execution. -/
def writing : State := executing { onIn { chan .filling with
  fill := [{ entry 0 .opened 1 with writeInFlight := true }], fifo := [⟨0, 0, words16⟩] } with
  sm := base.sm.modSlot 0 fun r => r.allocated 0 16 none } (req (.input 0) .lineWrite) false

theorem test_ChannelResets_hyps :
    (onIn (chan .resetting)).resetAsserted = false ∧ ((onIn (chan .resetting)).input 0).state = .resetting ∧
    (writing.input 0).state ≠ .resetting ∧ writing.inFlight (.input 0) = true ∧
    ((onIn (chan .off)).input 0).state ≠ .resetting ∧ (onIn (chan .off)).inFlight (.input 0) = false := by
  decide +kernel

theorem test_RegisterWriteDispatch_hyps :
    base.resetAsserted = false ∧
    ((0x115 : Word).setWidth 8 = 0x15#8 ∧ (0x15#8, Instr.inputFlush) ∈ [(0x14#8, Instr.slotClear), (0x15#8, .inputFlush)]) ∧
    ((0x04 : Word).setWidth 8 = 0x04#8 ∧ 0x04#8 ∉ commandCodes ∧ 0x00#8 ∉ commandCodes ∧ 0xFF#8 ∉ commandCodes) ∧
    ((0x1 : Word).getLsbD 0 = true ∧ (0xFFFFFFFE : Word).getLsbD 0 = false) ∧
    ((0x5 : Word).setWidth 2 = 1#2 ∧ (0x2 : Word).setWidth 2 = 2#2 ∧ (0xFFFFFFFF : Word).setWidth 2 = 3#2 ∧
      (0x4 : Word).setWidth 2 = 0#2) ∧
    (eventRegIdx (.input 0) = 0 ∧ eventRegIdx (.output 5) = 9 ∧ eventRegIdx .global = 10) ∧
    (0x800 ≤ (0x800 : BitVec 12).toNat ∧ ((0x003 : BitVec 12) &&& 0xFFC) ∈ [(0x000 : BitVec 12)] ∧
      (0x114 : BitVec 12).toNat / 4 = 0x45 ∧ (0x17B : BitVec 12).toNat / 4 = 0x46 + 8 * 3 ∧
      0x63 ≤ (0x18C : BitVec 12).toNat / 4 ∧ (0x23B : BitVec 12).toNat / 4 ≤ 0x66 + 8 * 5) ∧
    (regAt 0x008 = none ∧ regAt 0x0FF = none ∧ regAt 0x1FF = none ∧ regAt 0x36C = none ∧ regAt 0x7FF = none ∧
      regAt 0xFFC = none) := by decide +kernel

theorem test_ResetCtrlAndCaptures_hyps :
    base.resetAsserted = false ∧ ((0x1 : Word).getLsbD 0 = true ∧ (0x200F00 : Word).getLsbD 0 = false) ∧
    (base.sm.built = true ∧ (4 : Fin 32).val < base.sm.count.toNat ∧ ¬ (5 : Fin 32).val < base.sm.count.toNat) ∧
    (ListName.free = .free ∧ (0 : Fin 5) = 0 ∧ base.sm.free = [0, 1, 2, 3, 4]) ∧
    (ListName.ready 3 = .ready 3 ∧ (4 : Fin 5) = Fin.succ 3 ∧ base.sm.readyOf 3 = []) := by decide +kernel

theorem test_ResetCtrlAndCaptures_read_hyps :
    (∀ r, regAt 0x050 = some r → r ≠ .accData ∧ (∀ k, r ≠ .record k 0) ∧ ∀ l, r ≠ .listLength l) ∧
    (∀ r, regAt 0xFFC = some r → r ≠ .accData ∧ (∀ k, r ≠ .record k 0) ∧ ∀ l, r ≠ .listLength l) := by
  have h1 : regAt 0x050 = some .timestamp := by decide +kernel
  have h2 : regAt 0xFFC = none := by decide +kernel
  rw [h1, h2]
  constructor <;> intro r h <;> simp at h
  subst h
  simp

theorem test_TimeAndStoreChange_hyps :
    base.resetAsserted = false ∧
    (Instr.lineWriteCompletion ∈ [Instr.lineWriteCompletion, .blockWriteCompletion, .clearWriteCompletion,
        .orphanCompletion] ∧
      writing.mc.exec = some ⟨req (.input 0) .lineWrite, false⟩ ∧ (req (.input 0) .lineWrite).kind = .lineWrite ∧
      writing.store.wf) ∧
    (∃ t, exec .lineWriteCompletion writing = .next t) ∧ ∃ t, exec .resetNDeassertion writing = .next t :=
  ⟨by decide +kernel, by decide +kernel, exists_next (by decide +kernel), exists_next (by decide +kernel)⟩

theorem test_StoreCanonicalKept_hyps : writing.store.wf ∧ ∃ t, step writing = .next t := ⟨by decide +kernel, exists_next (by decide +kernel)⟩

theorem test_EventsStickyCountersRise_hyps :
    (∃ t, exec .timeBaseAdvance (base.raiseIn 3 .enableRefused) = .next t) ∧
    (base.raiseIn 3 .enableRefused).eu.status[(3 : Fin 11)].getLsbD 10 = true :=
  ⟨exists_next (by decide +kernel), by decide +kernel⟩

/-- `base` with a command that waits. -/
def waiting : State := { base with pending := [.timeBaseAdvance] }

theorem test_invariants_hyps_step : ∃ t, step waiting = .next t := exists_next (by decide +kernel)

theorem test_FillContextsKept_hyps : waiting.fillsOk := by
  intro n
  have h : waiting.input n = InputChannel.reset := by revert n; decide +kernel
  rw [h]
  simp [InputChannel.fillOk, InputChannel.reset, InConfig.reset]

theorem test_SlotLocationsKept_hyps : waiting.locationsOk := by
  have hl : waiting.sm.slots.length = 5 := by decide +kernel
  have hf : ∀ k, k < 5 → (waiting.sm.slot k).state = .free ∧ (waiting.sm.slot k).owner = none := by decide +kernel
  have hr : ∀ n, waiting.sm.readyOf n = [] := by decide +kernel
  have hi : ∀ n, (waiting.input n).fill = [] := by decide +kernel
  have hfree : waiting.sm.free = List.range 5 := rfl
  refine ⟨fun _ => by decide +kernel, fun h => absurd h (by decide), ?_, ?_, ?_, ?_, ?_⟩
  · rw [hfree]; decide
  · intro k
    rw [hfree, hl, List.mem_range]
    exact ⟨fun h => ⟨h, (hf k h).1⟩, fun h => h.1⟩
  · intro n
    rw [hr n, hl]
    exact ⟨by decide, fun k => ⟨fun h => (by cases h), fun h => (by have := (hf k h.1).1; rw [this] at h; cases h.2.1)⟩⟩
  · intro n
    simp only [State.inFill, hi n, hl]
    refine ⟨by decide, fun k => ⟨fun h => by simp at h, fun h => ?_⟩, fun k => ⟨fun h => by simp at h, fun h => ?_⟩⟩
    · have := (hf k h.1).1; rw [this] at h; cases h.2.1
    · have := (hf k h.1).1; rw [this] at h; cases h.2.1
  · intro k h
    rw [hl] at h
    rw [(hf k h).1, (hf k h).2]
    decide

/-- `base` with S0 and S1 in the ready list of IN0, at its quota of two. -/
def ready2 : State := { base with sm := { (base.sm.setReady 0 [0, 1]) with free := [2, 3, 4] } }

/-- IN0 has published S0 as sequence 2^32 - 1 and S1 as sequence 0, across the wrap; a command waits. -/
def numbered : State := { ready2 with
  pending := [.timeBaseAdvance]
  sm := ((ready2.sm.setSeq 0 1).modSlot 0 fun r =>
      { r with state := .ready, owner := some 0, sequence := some 0xFFFFFFFF }).modSlot 1 fun r =>
    { r with state := .ready, owner := some 0, sequence := some 0 } }

theorem test_SlotLocationsKept_sequences_hyps :
    numbered.locationsOk ∧ numbered.sequencesOk ∧ numbered.sequencesWithin 4294967293 ∧
      numbered.sequencesWithin 2147483648 ∧ ∃ t, step numbered = .next t := by
  have hl : numbered.sm.slots.length = 5 := by decide +kernel
  have hk : ∀ k, k < 5 → (k < 2 → (numbered.sm.slot k).state = .ready ∧ (numbered.sm.slot k).owner = some 0) ∧
      (2 ≤ k → (numbered.sm.slot k).state = .free ∧ (numbered.sm.slot k).owner = none) := by decide +kernel
  have hr0 : numbered.sm.readyOf 0 = [0, 1] := by decide +kernel
  have hr : ∀ n, n ≠ 0 → numbered.sm.readyOf n = [] := by decide +kernel
  have hi : ∀ n, (numbered.input n).fill = [] := by decide +kernel
  have hfree : numbered.sm.free = [2, 3, 4] := rfl
  have hb : numbered.sm.behind 0 0 = 2 ∧ numbered.sm.behind 0 1 = 1 := by decide +kernel
  have hs : (numbered.sm.slot 0).sequence.isSome = true ∧ (numbered.sm.slot 1).sequence.isSome = true := by decide +kernel
  have hw : ∀ d, 2 ≤ d → numbered.sequencesWithin d := by
    intro d hd n k h
    by_cases hn : n = 0
    · subst hn; simp only [hr0, List.mem_cons, List.not_mem_nil, or_false] at h
      rcases h with rfl | rfl
      · rw [hb.1]; exact hd
      · rw [hb.2]; omega
    · rw [hr n hn] at h; cases h
  refine ⟨⟨fun _ => by decide +kernel, fun h => absurd h (by decide), ?_, ?_, ?_, ?_, ?_⟩, ?_, hw _ (by decide), hw _ (by decide),
    exists_next (by decide +kernel)⟩
  · rw [hfree]; decide
  · intro k
    rw [hfree, hl]
    constructor
    · intro h
      simp only [List.mem_cons, List.not_mem_nil, or_false] at h
      have hlt : k < 5 := by omega
      exact ⟨hlt, ((hk k hlt).2 (by omega)).1⟩
    · intro ⟨h, hst⟩
      by_cases h2 : k < 2
      · rw [((hk k h).1 h2).1] at hst; cases hst
      · simp only [List.mem_cons, List.not_mem_nil, or_false]; omega
  · intro n
    by_cases hn : n = 0
    · subst hn
      rw [hr0, hl]
      refine ⟨by decide, fun k => ⟨fun h => ?_, fun h => ?_⟩⟩
      · simp only [List.mem_cons, List.not_mem_nil, or_false] at h
        have hlt : k < 5 := by omega
        exact ⟨hlt, (hk k hlt).1 (by omega)⟩
      · by_cases h2 : k < 2
        · simp only [List.mem_cons, List.not_mem_nil, or_false]; omega
        · have := ((hk k h.1).2 (by omega)).1; rw [this] at h; cases h.2.1
    · rw [hr n hn, hl]
      refine ⟨by decide, fun k => ⟨fun h => (by cases h), fun h => ?_⟩⟩
      by_cases h2 : k < 2
      · have := ((hk k h.1).1 h2).2; rw [this] at h; exact absurd (Option.some.inj h.2.2).symm hn
      · have := ((hk k h.1).2 (by omega)).2; rw [this] at h; cases h.2.2
  · intro n
    have hno : ∀ k, k < 5 → (numbered.sm.slot k).state ≠ .filling ∧ (numbered.sm.slot k).state ≠ .closed := by decide +kernel
    simp only [State.inFill, hi n, hl]
    exact ⟨by decide, fun k => ⟨fun h => by simp at h, fun h => absurd h.2.1 (hno k h.1).1⟩,
      fun k => ⟨fun h => by simp at h, fun h => absurd h.2.1 (hno k h.1).2⟩⟩
  · intro k h
    rw [hl] at h
    by_cases h2 : k < 2
    · rw [((hk k h).1 h2).1, ((hk k h).1 h2).2]; decide
    · rw [((hk k h).2 (by omega)).1, ((hk k h).2 (by omega)).2]; decide
  · intro n
    by_cases hn : n = 0
    · subst hn
      rw [hr0]
      refine ⟨fun k h => ?_, ?_⟩
      · simp only [List.mem_cons, List.not_mem_nil, or_false] at h
        rcases h with rfl | rfl
        · exact ⟨hs.1, by rw [hb.1]; decide⟩
        · exact ⟨hs.2, by rw [hb.2]⟩
      · simp [hb.1, hb.2]
    · rw [hr n hn]
      exact ⟨fun k h => (by cases h), List.Pairwise.nil⟩

theorem test_ReaderSetsKept_hyps : waiting.framesOk ∧ waiting.readersOk := by
  have ho : ∀ m, (waiting.output m).retained = none ∧ (waiting.output m).frame = none ∧
      (waiting.output m).state = .off := by decide +kernel
  have hr : ∀ k, k < 5 → (waiting.sm.slot k).readers = 0 := by decide +kernel
  have hl : waiting.sm.slots.length = 5 := by decide +kernel
  refine ⟨fun m => ?_, fun m k => ?_, fun m _ => (ho m).1⟩
  · simp [ho m]
  · rw [(ho m).1, hl]
    refine ⟨fun h => (by cases h), fun h => ?_⟩
    rw [hr k h.1] at h
    simp at h

theorem test_FramesDrainingPendingKept_hyps : waiting.drainingOk ∧ waiting.pendingOk := by
  refine ⟨fun r hr => ?_, fun r hr => ?_⟩ <;> revert r <;> decide +kernel

theorem test_SettingsAndBuffersKept_hyps :
    waiting.settingsOk ∧ waiting.quotasOk ∧ waiting.lineFifosOk ∧ waiting.hostBoundsOk := by
  have h1 : ∀ n, waiting.input n = InputChannel.reset := by decide +kernel
  have h2 : ∀ m, (waiting.output m).cfg = OutConfig.reset (waiting.output m).cfg.source := by decide +kernel
  refine ⟨⟨fun n => ?_, fun m => ?_, by decide, by decide⟩, by unfold State.quotasOk; decide +kernel, by unfold State.lineFifosOk; decide +kernel,
    fun r h => (by cases h), fun r h => (by cases h), by decide⟩
  · rw [h1]; simp [InConfig.ok, InputChannel.reset, InConfig.reset]
  · rw [h2]; simp [OutConfig.ok, OutConfig.reset]

theorem test_RequestsKept_hyps : waiting.clientsOk ∧ waiting.oneRequestEach ∧ waiting.prefetchOk := by
  have h1 : ∀ n : Fin 4, waiting.arb.inReq[n] = none := by decide +kernel
  have h2 : ∀ m : Fin 6, waiting.arb.outReq[m] = none := by decide +kernel
  refine ⟨⟨fun n r h => ?_, fun m r h => ?_, fun r h => (by cases h), fun r h => (by cases h), fun r h => (by cases h)⟩,
    ⟨by decide +kernel, by decide +kernel⟩, by unfold State.prefetchOk; decide +kernel⟩
  · rw [h1] at h; cases h
  · rw [h2] at h; cases h

/-- OUT0 shows S1 with lines 1 and 2 in its FIFO, line 1 the next to be pulled, and its read of line 3 in execution. -/
def midFrame : State := { (onOut { outp .showing with
    frame := some { frame .picture (some 1) with lineCount := 8 }, pull := 1, fetch := 4, epoch := 5
    fifo := [⟨1, false, 5, words16⟩, ⟨2, true, 5, words16⟩] }) with
  mc := { base.mc with exec := some ⟨{ req (.output 0) .lineRead with epoch := 5, number := 3 }, false⟩ }
  pending := [.linePull 0] }

theorem test_RequestsKept_lines_hyps :
    midFrame.clientsOk ∧ midFrame.oneRequestEach ∧ midFrame.prefetchOk ∧ midFrame.framesOk ∧ midFrame.linesOrdered ∧
      midFrame.epochsAhead ∧ ∃ t, step midFrame = .next t := by
  have h1 : ∀ n : Fin 4, midFrame.arb.inReq[n] = none := by decide +kernel
  have h2 : ∀ m : Fin 6, midFrame.arb.outReq[m] = none := by decide +kernel
  have hx : midFrame.mc.exec = some ⟨{ req (.output 0) .lineRead with epoch := 5, number := 3 }, false⟩ := by decide +kernel
  have h0 : midFrame.output 0 = { outp .showing with
      frame := some { frame .picture (some 1) with lineCount := 8 }, pull := 1, fetch := 4, epoch := 5
      fifo := [⟨1, false, 5, words16⟩, ⟨2, true, 5, words16⟩] } := by decide +kernel
  have hm : ∀ m : Fin 6, m ≠ 0 → (midFrame.output m).frame = none ∧ (midFrame.output m).fifo = [] ∧
      (midFrame.output m).state = .off := by decide +kernel
  have hr : ∀ m r, midFrame.readsFor m r → m = 0 ∧ r.epoch = 5 ∧ r.number = 3 := by
    intro m r h
    rcases h with h | ⟨h, hc⟩
    · rw [h2] at h; cases h
    · rw [hx] at h; cases h; cases hc; exact ⟨rfl, rfl, rfl⟩
  refine ⟨⟨fun n r h => ?_, fun m r h => ?_, fun r h => (by cases h), fun r h => (by cases h), fun r h => (by cases h)⟩,
    ⟨by decide +kernel, by decide +kernel⟩, by unfold State.prefetchOk; decide +kernel, fun m => ?_, fun m => ?_, fun m r h => ?_,
    exists_next (by decide +kernel)⟩
  · rw [h1] at h; cases h
  · rw [h2] at h; cases h
  · by_cases h : m = 0
    · subst h; rw [h0]; simp [outp]
    · simp [hm m h]
  · by_cases h : m = 0
    · subst h
      rw [h0]
      refine ⟨?_, ?_, ?_, fun r hrd _ => ?_⟩
      · simp
      · simp
      · simp [OutputChannel.showsPicture, frame]
      · rw [(hr 0 r hrd).2.2]; simp [OutputChannel.showsPicture, frame]
    · refine ⟨?_, ?_, ?_, fun r hrd _ => absurd (hr m r hrd).1 h⟩ <;> simp [hm m h]
  · obtain ⟨rfl, he, -⟩ := hr m r h
    rw [h0, he]; decide

theorem test_ResetStateHeld_hyps : held.resetHeld ∧ held.resetAsserted = true ∧ ∃ t, step held = .next t :=
  ⟨fun _ => by decide +kernel, by decide +kernel, exists_next (by decide +kernel)⟩

theorem test_LineWordsInSlot_hyps :
    (base.sm.built = true ∧ base.sm.geometryValid .words4M = true ∧ 4 < base.sm.count.toNat ∧
      512 * 2 ≤ base.sm.stride.toNat ∧ 1 < 2 ∧ 511 < 512) ∧
    (State.reset.sm.built = false ∧ base.sm.base.toNat + base.sm.count.toNat * base.sm.stride.toNat ≤ 5120) := by
  decide +kernel

theorem test_RetireLeaveJoin_hyps :
    4 < base.sm.slots.length ∧ (base.sm.slot 4).readers = 0 ∧
    (((withSlot base 4 fun r => { r with readers := 0x21 }).sm.slot 4).readers ≠ 0) ∧
    ((base.sm.slot 4).state ≠ .draining) ∧
    (((withSlot base 4 fun r => { r with state := .draining, readers := 0x21 }).sm.slot 4).readers &&&
      ~~~(1#6 <<< 5) ≠ 0) ∧
    ((withSlot base 4 fun r => { r with state := .draining, readers := 0x20 }).sm.slot 4).state = .draining ∧
    (((withSlot base 4 fun r => { r with state := .draining, readers := 0x20 }).sm.slot 4).readers &&&
      ~~~(1#6 <<< 5) = 0) := by decide +kernel

theorem test_PublicationClaim_hyps :
    ((base.sm.readyOf 0).length < (base.input 0).cfg.quota) ∧
    (ready2.sm.readyOf 0 = 0 :: [1] ∧ (ready2.input 0).cfg.quota ≤ [1].length + 1) := by decide +kernel

theorem test_EccAndCharge_hyps :
    (38 < 39 ∧ 0 < 38) ∧ base.store.wf ∧
    (({ base with mc := { base.mc with refreshInterval := 0 } } : State).mc.state = .ready ∧
      ({ base with mc := { base.mc with refreshInterval := 0 } } : State).mc.refreshInterval ≤
        Config.deviceRefreshLimit) ∧
    (State.reset.mc.state ≠ .ready ∧ State.reset.store.wf) :=
  ⟨by decide, by decide, ⟨rfl, Nat.zero_le _⟩, by decide⟩

/-- `base` with requests pending at the arbiter and FIFOs that make those of IN0 and OUT0 urgent. -/
def contended : State := { (onIn { chan .filling with fifo := [⟨0, 0, words16⟩, ⟨0, 1, words16⟩] }).setOutput 0
    { outp .showing with frame := some (frame .picture (some 1)) } with
  arb := { base.arb with
    inReq := (base.arb.inReq.set 0 (some (req (.input 0) .lineWrite))).set 1 (some (req (.input 1) .lineWrite))
    outReq := (base.arb.outReq.set 0 (some (req (.output 0) .lineRead))).set 5 (some (req (.output 5) .lineRead))
    apReq := some ⟨req .accessPort .blockRead, 8⟩
    cuReq := some ⟨req .commandUnit .clearWrite, 7⟩ } }

/-- `contended` with an arbiter changed. -/
def contend (f : Arbiter → Arbiter) : State := { contended with arb := f contended.arb }

theorem test_GrantOrder_hyps :
    (({ base with mc := { base.mc with refreshDue := true } } : State).mc.refreshDue = true) ∧
    (contended.mc.refreshDue = false ∧ contended.urgentOutput 0 = true ∧ contended.arb.profile = .outputFirst) ∧
    ((contend fun a => { a with profile := .inputFirst }).urgentInput 0 = true ∧
      (contend fun a => { a with profile := .inputFirst }).arb.profile = .inputFirst) ∧
    ((contend fun a => { a with outReq := base.arb.outReq, inReq := base.arb.inReq }).arb.hostPending true .accessPort = true ∧
      (∀ m, (contend fun a => { a with outReq := base.arb.outReq, inReq := base.arb.inReq }).urgentOutput m = false) ∧
      (∀ n, (contend fun a => { a with outReq := base.arb.outReq, inReq := base.arb.inReq }).urgentInput n = false)) ∧
    ((∀ h ∈ [HostClient.accessPort, .commandUnit], (contend fun a => { a with apReq := none }).arb.hostPending true h = false) ∧
      rotate 0 (contend fun a => { a with apReq := none }).normalPending = some 1 ∧
      rotate 0 (base.normalPending) = none ∧
      (contend fun a => { a with apReq := none }).arb.hostPending false .commandUnit = true) ∧
    (rotate (5 : Fin 6) (fun i => i.val < 2) = some 0) ∧
    ((3 : Fin 10).val = (3 : Fin 4).val ∧ (9 : Fin 10).val = (5 : Fin 6).val + 4) := by decide +kernel

theorem test_GrantMoment_hyps :
    (State.reset.mc.state ≠ .ready ∧ base.chooseGrant = none) ∧
    (({ base with mc := { base.mc with refreshDue := true } } : State).chooseGrant = some .refresh) ∧
    (contended.mc.state = .ready ∧ contended.mc.exec = none ∧ contended.chooseGrant = some (.urgentOutput 0) ∧
      contended.arb.outReq[(0 : Fin 6)] = some (req (.output 0) .lineRead)) ∧
    ((contend fun a => { a with profile := .inputFirst }).chooseGrant = some (.urgentInput 0) ∧
      (contend fun a => { a with profile := .inputFirst }).arb.inReq[(0 : Fin 4)] = some (req (.input 0) .lineWrite)) ∧
    ((contend fun a => { a with outReq := base.arb.outReq, inReq := a.inReq.set 0 none, apReq := none }).chooseGrant =
        some (.normal 1) ∧ normalClient 1 = .input 1 ∧
      (contend fun a => { a with outReq := base.arb.outReq, inReq := a.inReq.set 0 none, apReq := none }).arb.inReq[(1 : Fin 4)]
        = some (req (.input 1) .lineWrite)) ∧
    ((contend fun a => { a with outReq := a.outReq.set 0 none, inReq := base.arb.inReq, apReq := none }).chooseGrant =
        some (.normal 9) ∧ normalClient 9 = .output 5 ∧
      (contend fun a => { a with outReq := a.outReq.set 0 none, inReq := base.arb.inReq, apReq := none }).arb.outReq[(5 : Fin 6)]
        = some (req (.output 5) .lineRead)) ∧
    ((contend fun a => { a with outReq := base.arb.outReq, inReq := base.arb.inReq }).chooseGrant =
        some (.host .accessPort) ∧
      (contend fun a => { a with outReq := base.arb.outReq, inReq := base.arb.inReq }).arb.apReq =
        some ⟨req .accessPort .blockRead, 8⟩) ∧
    ((contend fun a => { a with outReq := base.arb.outReq, inReq := base.arb.inReq, apReq := none }).chooseGrant =
        some (.host .commandUnit) ∧
      (contend fun a => { a with outReq := base.arb.outReq, inReq := base.arb.inReq, apReq := none }).arb.cuReq =
        some ⟨req .commandUnit .clearWrite, 7⟩) := by decide +kernel

/-- IN0 with a line in its FIFO and no request; OUT0 showing S1 with nothing read. -/
def engines : State := { ({ contended with arb := base.arb } : State) with
  sm := base.sm.modSlot 0 fun r => r.allocated 0 16 none }

theorem test_EnginesRaise_hyps :
    ((base.input 0).fifo = [] ∧ contended.arb.inReq[(0 : Fin 4)].isSome = true ∧ writing.execBy (.input 0) = true) ∧
    ((engines.input 0).fifo = ⟨0, 0, words16⟩ :: [⟨0, 1, words16⟩] ∧ engines.arb.inReq[(0 : Fin 4)] = none ∧
      engines.execBy (.input 0) = false ∧ (engines.sm.slot 0).lineLength = some 16) ∧
    ((base.output 0).frame = none ∧
      ((onOut { outp .showing with fifo := List.replicate 4 ⟨0, false, 0, []⟩ }).output 0).fifo.length = 4) ∧
    ((engines.output 0).frame = some (frame .picture (some 1)) ∧ (frame .picture (some 1)).slot = some 1 ∧
      engines.arb.outReq[(0 : Fin 6)] = none ∧ engines.execBy (.output 0) = false ∧ (engines.output 0).fetch < 2 ∧
      (engines.output 0).fifo.length < 4) ∧
    (((onOut { outp .showing with frame := some (frame .blank none) }).output 0).frame = some (frame .blank none) ∧
      ((onOut { outp .showing with frame := some (frame .picture (some 1)), fetch := 2 }).output 0).fetch = 2) ∧
    (contended.arb.outReq[(0 : Fin 6)] = some (req (.output 0) .lineRead) ∧ (req (.output 0) .lineRead).number < 1 ∧
      (contended.output 0).pull ≤ (req (.output 0) .lineRead).number) := by decide +kernel

theorem test_EventUnitRules_hyps :
    base.resetAsserted = false ∧ (∃ n : Fin 4, EventReg.input 3 = .input n ∧ (3 : Fin 11).val = n.val ∧ (0x7FF : Word) = 0x7FF) ∧
    (∃ m : Fin 6, EventReg.output 5 = .output m ∧ (9 : Fin 11).val = m.val + 4 ∧ (0x7F : Word) = 0x7F) :=
  ⟨rfl, ⟨3, rfl, rfl, rfl⟩, 5, rfl, rfl, rfl⟩

/-- An input with a budget, progress and entries. -/
def budgeted (st : InState) (budget : Nat) (progress : Count) (fill : List FrameEntry) : InputChannel :=
  { chan st with cfg := { (chan st).cfg with budget := budget }, progress := progress, fill := fill }

theorem test_FrameStartAdmits_hyps :
    (((onIn (chan .armed)).input 0).state = .armed ∧ ((onIn (chan .armed)).input 0).cfg.budget = 0 ∧
      ((onIn (chan .armed)).input 0).fill.countP FrameEntry.isClosed < 2 ∧ (onIn (chan .armed)).sm.free = 0 :: [1, 2, 3, 4]) ∧
    (((onIn (budgeted .skipping 3 1 [entry 4 (.closed .publish) 2])).input 0).state = .skipping ∧
      (1 : Count).toNat + [entry 4 (.closed .publish) 2].countP FrameEntry.countsForBudget < 3) ∧
    (({ ready2 with sm := { ready2.sm with free := [] } } : State).sm.free = [] ∧
      (ready2.sm.readyOf 0).dropLast.find? (fun j => (ready2.sm.slot j).readers = 0) = some 0) := by decide +kernel

theorem test_FrameStartRefused_hyps :
    (3 ≠ 0 ∧ InCounter.skippedBudget = .skippedBudget ∧
      3 ≤ (2 : Count).toNat + [entry 4 (.closed .publish) 2].countP FrameEntry.countsForBudget) ∧
    (((onIn (chan .armed)).input 0).state = .armed ∧ 2 ≤ [entry 3 (.closed .discard) 0, entry 4 (.closed .publish) 2].countP
      FrameEntry.isClosed) ∧
    (∀ j ∈ (base.sm.readyOf 0).dropLast, (base.sm.slot j).readers ≠ 0) := by decide +kernel

theorem test_FrameStartInFilling_hyps :
    ((onIn { chan .filling with stopPending := true, fill := [entry 0 .opened 1] }).input 0).state = .filling ∧
    ((onIn { chan .filling with stopPending := true, fill := [entry 0 .opened 1] }).input 0).stopPending = true ∧
    (writing.input 0).state = .filling ∧ (writing.input 0).stopPending = false := by decide +kernel

theorem test_CloseOfOpenEntry_hyps :
    ((writing.input 0).fill = [] ++ [{ entry 0 .opened 1 with writeInFlight := true }] ∧
      (writing.input 0).fifo = ⟨0, 0, words16⟩ :: [] ∧ ({ entry 0 .opened 1 with writeInFlight := true } : FrameEntry).writeInFlight = true) ∧
    ((∀ x ∈ [entry 1 (.closed .publish) 2], x.isClosed = true) ∧ (entry 0 .opened 1).status = .opened ∧
      (entry 0 .opened 1).writeInFlight = false) ∧
    ((onIn { chan .filling with fill := [entry 0 .opened 0] }).input 0).fifo = [] := by decide +kernel

theorem test_EntriesLeave_hyps :
    (entry 0 .opened 1).status ≠ .closed .publish ∧ (writing.input 0).fifo.any (fun l => l.slot = 0) = true ∧
    ((entry 0 (.closed .publish) 2).status = .closed .publish ∧
      ((onIn { chan .filling with fill := [entry 0 (.closed .publish) 2] }).input 0).fifo.any (fun l => l.slot = 0) = false) ∧
    (base.input 0).fill = [] ∧ (writing.input 0).fill ≠ [] := by decide +kernel

/-- IN0 in FILLING with lines received, entry S0 open. -/
def filling (received fifo : Nat) : State :=
  { onIn { chan .filling with fill := [entry 0 .opened received], fifo := List.replicate fifo ⟨0, 0, words16⟩ } with
    sm := base.sm.modSlot 0 fun r => r.allocated 0 16 none }

theorem test_LineAccepted_hyps :
    ((filling 1 2).input 0).state = .filling ∧ ((filling 1 2).input 0).fill = [] ++ [entry 0 .opened 1] ∧
    (entry 0 .opened 1).status = .opened ∧ words16.length = ((filling 1 2).input 0).cfg.lineLength ∧
    (entry 0 .opened 1).received < (entry 0 .opened 1).expected ∧ ((filling 1 2).input 0).fifo.length < 3 := by
  decide +kernel

theorem test_LineRefused_hyps :
    (filling 2 3).fillsOk ∧ ((filling 2 3).input 0).state = .filling ∧
    ((filling 2 3).input 0).fill = [] ++ [entry 0 .opened 2] ∧ (entry 0 .opened 2).status = .opened ∧
    ([7] : List Word).length ≠ ((filling 2 3).input 0).cfg.lineLength ∧
    (entry 0 .opened 2).expected ≤ (entry 0 .opened 2).received ∧ 3 ≤ ((filling 2 3).input 0).fifo.length ∧
    (words16.length = ((filling 1 3).input 0).cfg.lineLength ∧ ((filling 1 3).input 0).fill = [] ++ [entry 0 .opened 1] ∧
      (entry 0 .opened 1).received < (entry 0 .opened 1).expected ∧ 3 ≤ ((filling 1 3).input 0).fifo.length) := by
  refine ⟨?_, by decide +kernel⟩
  intro n
  have h : ∀ n : Fin 4, n ≠ 0 → (filling 2 3).input n = InputChannel.reset := by decide +kernel
  by_cases hn : n = 0
  · subst hn
    have h0 : (filling 2 3).input 0 =
        { chan .filling with fill := [entry 0 .opened 2], fifo := List.replicate 3 ⟨0, 0, words16⟩ } := by decide +kernel
    rw [h0]
    simp [InputChannel.fillOk, chan, entry, FrameEntry.isClosed, InputChannel.reset, InConfig.reset]
  · rw [h n hn]
    simp [InputChannel.fillOk, InputChannel.reset, InConfig.reset]

theorem test_FrameEndVerdict_hyps :
    ((filling 2 0).input 0).state = .filling ∧ ((filling 2 0).input 0).fill = [] ++ [entry 0 .opened 2] ∧
    ((entry 0 .opened 2).received = (entry 0 .opened 2).expected) ∧
    (1 ≤ (entry 0 .opened 1).received ∧ (entry 0 .opened 1).received < (entry 0 .opened 1).expected ∧
      ({ (chan .filling).cfg with keepShort := true } : InConfig).keepShort = true) ∧
    ((entry 0 .opened 0).received < (entry 0 .opened 0).expected ∧ (entry 0 .opened 0).received = 0) ∧
    ((filling 1 0).input 0).cfg.keepShort = false := by decide +kernel

theorem test_MessagesWithoutFrame_hyps :
    ((onIn (chan .skipping)).input 0).state = .skipping ∧ ((onIn (chan .armed)).input 0).state = .armed ∧
    (base.input 0).state = .off ∧ ((onIn (chan .stopping)).input 0).state = .stopping ∧
    ((onIn (chan .resetting)).input 0).state = .resetting := by decide +kernel

/-- IN0 with a loss timer of 1 ms that started at 0, at a time base value. -/
def timed (st : InState) (now : Word) : State := { onIn { chan st with
  cfg := { (chan st).cfg with lossTimeout := 1 }, lossTimer := some 0, fill := if st = .filling then [entry 0 .opened 1] else [] }
  with timeBase := now }

theorem test_LossTimerExpires_hyps :
    (base.input 0).lossTimer = none ∧
    (((timed .armed 999).input 0).lossTimer = some 0 ∧ ((timed .armed 999).timeBase - 0).toNat < 1 * 1000) ∧
    (((timed .armed 1000).input 0).cfg.lossTimeout * 1000 ≤ ((timed .armed 1000).timeBase - 0).toNat ∧
      ((timed .armed 1000).input 0).state ≠ .filling) ∧ ((timed .filling 1000).input 0).state = .filling := by
  decide +kernel

theorem test_PushLinkFrame_hyps :
    Instr.frameEnd 0 = .frameEnd 0 ∧ (∃ t, exec (.frameEnd 0) (filling 2 0) = .next t) ∧
    (∃ t, exec (.lossTimerExpiry 0) (timed .filling 1000) = .next t) :=
  ⟨rfl, exists_next (by decide +kernel), exists_next (by decide +kernel)⟩

theorem test_FrameOpenNotIdle_hyps :
    (base.output 0).state = .off ∧ ((onOut (outp .disabling)).output 0).state = .disabling ∧
    ((onOut (outp .disabling)).output 0).frame = none ∧
    ((onOut { outp .disabling with frame := some (frame .blank none) }).output 0).frame = some (frame .blank none) ∧
    (contended.output 0).state = .showing := by decide +kernel

/-- OUT0 in IDLE with settings and a retained slot. -/
def idle (f : OutConfig → OutConfig) (retained : Option Nat) : State :=
  { onOut { outp .idle with cfg := f (OutConfig.reset 0), retained := retained } with
    inputs := base.inputs.set 0 { chan .armed with lost := true }
    sm := ((base.sm.setReady 0 [0, 1]).modSlot 0 fun r => { r with state := .ready, sequence := some 3 }).modSlot 1 fun r =>
      { r with state := .ready, sequence := some 4 } }

theorem test_FrameOpenBlank_hyps :
    (((idle (fun c => { c with mute := true }) (some 0)).output 0).state = .idle ∧
      ((idle (fun c => { c with mute := true }) (some 0)).output 0).cfg.mute = true) ∧
    (((idle (fun c => { c with lossAction := .blank }) none).output 0).cfg.mute = false ∧
      ((idle (fun c => { c with lossAction := .blank }) none).input 0).lost = true ∧
      ((idle (fun c => { c with lossAction := .blank }) none).output 0).cfg.lossAction = .blank) := by decide +kernel

theorem test_FrameOpenRetained_hyps :
    (((idle (fun c => { c with freeze := true }) (some 0)).output 0).state = .idle ∧
      ((idle (fun c => { c with freeze := true }) (some 0)).output 0).cfg.mute = false ∧
      ((idle (fun c => { c with freeze := true }) (some 0)).output 0).cfg.lossAction = .keep ∧
      ((idle (fun c => { c with freeze := true }) (some 0)).output 0).cfg.freeze = true ∧
      ((idle (fun c => { c with freeze := true }) (some 0)).output 0).retained = some 0) ∧
    ((onOut { outp .idle with retained := some 0 }).output 0).cfg.freeze = false ∧
    choosePolicy base.sm (base.sm.readyOf 0) .latest 0 none = none ∧
    ((onOut { outp .idle with retained := some 0 }).output 0).retained = some 0 ∧
    ((onOut (outp .idle)).output 0).retained = none := by decide +kernel

theorem test_PolicyChoice_hyps :
    ([0, 1] = [0] ++ [1] ∧ [0, 1] = 0 :: [1] ∧ 1 < [0, 1].length ∧ [0, 1].length ≤ 2) ∧
    keepLast (some ⟨3, 0⟩) 0 4 = some ⟨3, 0⟩ := by decide +kernel

theorem test_FrameOpenBinds_hyps :
    ((idle id (some 0)).output 0).state = .idle ∧ ((idle id (some 0)).output 0).cfg.mute = false ∧
    ((idle id (some 0)).output 0).cfg.lossAction = .keep ∧ ((idle id (some 0)).output 0).cfg.freeze = false ∧
    choosePolicy (idle id (some 0)).sm ((idle id (some 0)).sm.readyOf 0) .latest 0 none = some (1, false) ∧
    ((idle id (some 0)).sm.slot 1).sequence.getD 0 = 4 := by decide +kernel

theorem test_LinePull_hyps :
    ((onOut { outp .showing with frame := some (frame .picture (some 1)), pull := 1, fifo := [⟨1, false, 0, words16⟩] }).output
      0).frame = some (frame .picture (some 1)) ∧
    1 < (frame .picture (some 1)).lineCount ∧ (⟨1, true, 0, words16⟩ : PrefetchLine).poisoned = true ∧
    (∀ l ∈ ([⟨0, false, 0, words16⟩] : List PrefetchLine).head?, l.number ≠ 1) ∧
    (∀ l ∈ ([] : List PrefetchLine).head?, l.number ≠ 1) ∧
    (frame .blank none).lineCount ≤ 2 ∧ (frame .blank none).status = .blank ∧ 1 < (frame .blank none).lineCount ∧
    ((base.output 0).frame = none ∧ (base.output 0).state ≠ .idle) ∧ ((onOut (outp .idle)).output 0).state = .idle := by
  decide +kernel

theorem test_FrameCloseEnds_hyps :
    (base.output 0).state = .off ∧ ((onOut (outp .disabling)).output 0).state = .disabling ∧
    ((onOut (outp .disabling)).output 0).frame = none ∧ ((onOut (outp .idle)).output 0).state = .idle ∧
    ((contended.output 0).frame = some (frame .picture (some 1)) ∧ (contended.output 0).state = .showing) ∧
    ((onOut { outp .disabling with frame := some (frame .blank none) }).output 0).frame = some (frame .blank none) := by
  decide +kernel

theorem test_LineWriteCompletes_hyps :
    writing.mc.exec = some ⟨req (.input 0) .lineWrite, false⟩ ∧ (req (.input 0) .lineWrite).kind = .lineWrite ∧
    (req (.input 0) .lineWrite).client = .input 0 ∧ (req (.input 0) .lineWrite).addr + 2 ≤ 16777216 ∧
    (req (.input 0) .lineWrite).words.length ≤ 2 ∧ (writing.input 0).state ≠ .resetting ∧
    (writing.input 0).fifo = ⟨0, 0, words16⟩ :: [] ∧
    ((executing (onIn (chan .resetting)) (req (.input 0) .lineWrite) false).input 0).state = .resetting ∧
    ({ req (.input 0) .lineWrite with addr := 16777214 } : MemRequest).addr + 2 ≤ 16777216 := by decide +kernel

/-- OUT0 with its line read in execution. -/
def reading (o : OutputChannel) : State := executing (onOut o) (req (.output 0) .lineRead) false

theorem test_LineReadCompletes_hyps :
    (reading (outp .off)).mc.exec = some ⟨req (.output 0) .lineRead, false⟩ ∧ (req (.output 0) .lineRead).kind = .lineRead ∧
    (req (.output 0) .lineRead).client = .output 0 ∧ (req (.output 0) .lineRead).addr + 2 ≤ 16777216 ∧
    (req (.output 0) .lineRead).words.length ≤ 2 ∧
    ((req (.output 0) .lineRead).epoch ≠ ((reading { outp .idle with epoch := 1 }).output 0).epoch ∧
      ((reading { outp .idle with epoch := 1 }).output 0).state ≠ .disabling) ∧
    ((req (.output 0) .lineRead).number < ((reading { outp .disabling with pull := 1 }).output 0).pull ∧
      ((reading { outp .disabling with pull := 1 }).output 0).frame = none) ∧
    ((req (.output 0) .lineRead).epoch = ((reading { outp .showing with frame := some (frame .picture (some 1)) }).output 0).epoch ∧
      ((reading { outp .showing with frame := some (frame .picture (some 1)) }).output 0).pull ≤ (req (.output 0) .lineRead).number ∧
      ((reading { outp .showing with frame := some (frame .picture (some 1)) }).output 0).frame = some (frame .picture (some 1))) := by
  decide +kernel

theorem test_PortCompletions_hyps :
    (executing base (req .accessPort .blockRead) false).mc.exec = some ⟨req .accessPort .blockRead, false⟩ ∧
    (req .accessPort .blockRead).kind = .blockRead ∧ (req .accessPort .blockRead).addr + 2 ≤ 16777216 ∧
    (req .accessPort .blockWrite).kind = .blockWrite ∧ (req .accessPort .blockWrite).words.length ≤ 2 ∧
    (executing { base with ap := { base.ap with flushRecord := some ⟨100, 2, []⟩ } } (req .accessPort .blockWrite)
      false).ap.flushRecord = some ⟨100, 2, []⟩ := by decide +kernel

/-- S4 held, and the argument registers name it. -/
def heldSlot : State := withSlot (args 4 0x103 0x2000200) 4 fun r => { r with state := .held }

/-- A SLOT CLEAR running on S4, with its write in execution. -/
def clearing (progress : Nat) : State := executing { heldSlot with
  cu := { heldSlot.cu with running := some ⟨0x14, heldSlot.cu.args, some ⟨4, 5, progress⟩⟩ }
  sm := { heldSlot.sm with stride := 2048 } } (req .commandUnit .clearWrite) false

theorem test_SlotClearRuns_hyps :
    (heldSlot.resetAsserted = false ∧ heldSlot.cu.running = none ∧ heldSlot.sm.built = true ∧
      4 = heldSlot.cu.args.arg0.toNat ∧ 4 < heldSlot.sm.count.toNat ∧ (heldSlot.sm.slot 4).state = .held ∧
      (heldSlot.sm.slot 4).writePending = false) ∧
    ((clearing 0).mc.exec = some ⟨req .commandUnit .clearWrite, false⟩ ∧ (req .commandUnit .clearWrite).kind = .clearWrite ∧
      (clearing 0).cu.running = some ⟨0x14, heldSlot.cu.args, some ⟨4, 5, 0⟩⟩ ∧
      0 + 1024 < (clearing 0).sm.stride.toNat ∧ (clearing 1024).sm.stride.toNat ≤ 1024 + 1024) := by decide +kernel

theorem test_RefreshAndOrphan_hyps :
    State.reset.mc.refreshTimer = none ∧
    (base.mc.refreshTimer = some ⟨0, 7⟩ ∧ (({ base with timeBase := 6 } : State).timeBase - 0).toNat < 7 ∧
      7 ≤ (({ base with timeBase := 7 } : State).timeBase - 0).toNat ∧ base.mc.refreshDue = false ∧
      ({ base.mc with refreshDue := true } : MemController).refreshDue = true) ∧
    ((executing base refreshRequest false).mc.exec = some ⟨refreshRequest, false⟩ ∧ refreshRequest.kind = .refresh) ∧
    ((executing base (req (.input 0) .lineWrite) true).mc.exec = some ⟨req (.input 0) .lineWrite, true⟩ ∧
      (req (.input 0) .lineWrite).addr + 2 ≤ 16777216 ∧ base.ap.deferred = none ∧
      ∀ m : Fin 6, (req (.input 0) .lineWrite).client ≠ .output m) ∧
    ((req (.output 5) .lineRead).client = .output 5) ∧
    ({ base.ap with deferred := some (req .accessPort .blockRead) } : AccessPort).deferred =
      some (req .accessPort .blockRead) ∧ base.mc.exec = none ∧
    ((executing base (req (.input 0) .lineWrite) true).mc.exec = some ⟨req (.input 0) .lineWrite, true⟩ ∧
      (req (.input 0) .lineWrite).kind ≠ .lineRead ∧ (req (.input 0) .lineWrite).kind ≠ .refresh ∧
      (⟨req (.input 0) .lineWrite, false⟩ : Execution).orphan = false) := by decide +kernel

/-- INITIALIZING at a stage and a time base value. -/
def init (stage : Nat) (now : Word) : State :=
  { base with mc := { base.mc with state := .initializing, stage := stage }, timeBase := now }

theorem test_MemoryInitialisation_hyps :
    (State.reset.resetAsserted = false ∧ State.reset.cu.running = none ∧ State.reset.mc.state = .uninit) ∧
    (({ base with sm := SlotManager.reset } : State).mc.state = .ready ∧
      ({ base with sm := SlotManager.reset } : State).sm.built = false) ∧
    ((init 1 0).mc.state = .initializing ∧ base.mc.state = .ready ∧ base.sm.built = true) ∧
    ((init 0 0).mc.stage = 0 ∧ 5 ≤ (init 5 0).mc.stage ∧ State.reset.mc.state ≠ .initializing) ∧
    ((init 1 199).mc.stage = 1 ∧ ((init 1 199).timeBase - (init 1 199).mc.stageStart).toNat < 200 ∧
      200 ≤ ((init 1 200).timeBase - (init 1 200).mc.stageStart).toNat) ∧
    (2 ≤ (init 2 0).mc.stage ∧ (init 4 0).mc.stage ≤ 4) ∧
    ((init 5 1).mc.stage = 5 ∧ ((init 5 1).timeBase - (init 5 1).mc.stageStart).toNat < 2 ∧
      2 ≤ ((init 5 2).timeBase - (init 5 2).mc.stageStart).toNat ∧ (init 4 2).mc.stage ≠ 5) := by decide +kernel

theorem test_CommandsTaken_hyps :
    (base.resetAsserted = false ∧ (clearing 0).resetAsserted = false ∧ (clearing 0).cu.running ≠ none ∧
      base.cu.running = none) ∧ State.reset.sm.built = false ∧
    ((args 4 0 0).sm.built = true ∧ 4 ≤ (args 4 0 0).cu.args.arg0.toNat ∧
      (args 3 0 0).cu.args.arg0.toNat = (3 : Fin 4).val) := by decide +kernel

/-- READY with the pool ABSENT and the smallest valid geometry. -/
def noPool : State := { base with sm := { SlotManager.reset with stride := 1024, count := 1 } }

theorem test_PoolCommands_hyps :
    (noPool.resetAsserted = false ∧ noPool.cu.running = none ∧ noPool.mc.state = .ready ∧ noPool.sm.built = false) ∧
    (State.reset.mc.state ≠ .ready ∧ base.mc.state = .ready ∧ base.sm.built = true) ∧
    (true = (noPool.sm.base.toNat % 1024 = 0 ∧ noPool.sm.stride.toNat % 1024 = 0 ∧ 1024 ≤ noPool.sm.stride.toNat ∧
      noPool.sm.stride.toNat ≤ 2097152 ∧ 1 ≤ noPool.sm.count.toNat ∧ noPool.sm.count.toNat ≤ 32 ∧
      noPool.sm.base.toNat + noPool.sm.count.toNat * noPool.sm.stride.toNat ≤ noPool.mc.size.words : Bool)) ∧
    (false = (({ noPool.sm with count := 33 } : SlotManager).count.toNat ≤ 32 : Bool)) ∧
    (port .writing).ap.state = .writing ∧ noPool.ap.state ≠ .writing ∧
    (executing noPool (req (.input 0) .lineWrite) true).mc.exec = some ⟨req (.input 0) .lineWrite, true⟩ ∧
    (∃ n, ((onIn (chan .stopping)).input n).state ≠ .off) ∧ (∃ m, ((onOut (outp .disabling)).output m).state ≠ .off) ∧
    ((∀ n, (base.input n).state = .off) ∧ ∀ m, (base.output m).state = .off) := by decide +kernel

theorem test_PoolCommands_exec_hyps :
    (∀ e, noPool.mc.exec = some e → e.orphan = false ∨ e.request.kind = .lineRead ∨ e.request.kind = .blockRead ∨
      e.request.kind = .refresh) := by
  intro e h
  cases h

theorem test_SlotCommands_hyps :
    (base.resetAsserted = false ∧ base.cu.running = none ∧ State.reset.sm.built = false ∧ base.sm.built = true) ∧
    (({ base.sm with free := [] } : SlotManager).free = [] ∧ base.sm.free = 0 :: [1, 2, 3, 4]) ∧
    (4 ≤ (args 4 0 0).cu.args.arg0.toNat ∧ 2 ≤ (args 0 2 0).cu.args.arg1.toNat) ∧
    ((args 3 1 0).cu.args.arg0.toNat = (3 : Fin 4).val ∧ (args 3 1 0).cu.args.arg1.toNat < 2 ∧ base.sm.readyOf 3 = [] ∧
      ready2.cu.args.arg1 = 0 ∧ ready2.sm.readyOf 0 = [0] ++ [1] ∧ (args 3 1 0).cu.args.arg1 = 1 ∧
      ready2.sm.readyOf 0 = 0 :: [1]) ∧
    ((args 5 0 0).sm.count.toNat ≤ (args 5 0 0).cu.args.arg0.toNat ∧ (args 4 0 0).cu.args.arg0.toNat < 5 ∧
      (base.sm.slot 4).state ≠ .held) ∧
    ((heldSlot.sm.slot 4).state = .held ∧ (heldSlot.sm.slot 4).writePending = false ∧
      ((withSlot heldSlot 4 fun r => { r with writePending := true }).sm.slot 4).writePending = true) ∧
    (4 ≤ (args 4 4 0).cu.args.arg1.toNat % 256 ∧ (args 4 0 0).cu.args.arg2.toNat % 65536 < 16 ∧
      2048 < (args 4 0 0x8010010).cu.args.arg2.toNat / 65536) ∧
    (heldSlot.cu.args.arg1.toNat % 256 = (3 : Fin 4).val ∧ 16 ≤ heldSlot.cu.args.arg2.toNat % 65536 ∧
      heldSlot.cu.args.arg2.toNat % 65536 ≤ 1024 ∧ 1 ≤ heldSlot.cu.args.arg2.toNat / 65536 ∧
      heldSlot.cu.args.arg2.toNat % 65536 * (heldSlot.cu.args.arg2.toNat / 65536) ≤ 1024 * 256) := by decide +kernel

/-- The arguments of a frame of 16 × 64 words, which fills the stride exactly. -/
theorem test_SlotCommands_publish_hyps :
    (args 4 3 0x400010).cu.args.arg2.toNat % 65536 * ((args 4 3 0x400010).cu.args.arg2.toNat / 65536) ≤
      (args 4 3 0x400010).sm.stride.toNat ∧
    (args 4 3 0x410010).sm.stride.toNat <
      (args 4 3 0x410010).cu.args.arg2.toNat % 65536 * ((args 4 3 0x410010).cu.args.arg2.toNat / 65536) ∧
    (heldSlot.input 3).state ≠ .resetting ∧ ((onIn (chan .resetting)).input 0).state = .resetting := by decide +kernel

/-- WRITE_FILLING with two words at an address. -/
def flushing (a : Word) : State := { base with
  ap := { base.ap with state := .writeFilling, writeBuf := [1, 2], addr := a } }

theorem test_PortOrders_hyps :
    (base.resetAsserted = false ∧ (port .reading).ap.state = .reading ∧ (port .writing).ap.state = .writing ∧
      base.ap.state = .idle ∧ (port .readReady).ap.state = .readReady) ∧
    (State.reset.mc.state ≠ .ready ∧
      ({ base with ap := { base.ap with addr := 4194304 } } : State).mc.size.words < 4194304 + base.ap.count ∧
      base.mc.state = .ready ∧ 4194303 + base.ap.count ≤ base.mc.size.words) ∧
    ((flushing 4194303).ap.state = .writeFilling ∧ (flushing 4194303).mc.size.words < 4194303 + 2 ∧
      (flushing 4194302).ap.addr.toNat + 2 ≤ (flushing 4194302).mc.size.words) ∧
    ((flushing 5119).sm.slotAt 5119 = some 4 ∧ ((flushing 5119).sm.slot 4).state ≠ .held ∧
      (flushing 5120).sm.slotAt 5120 = none) := by decide +kernel

theorem test_PortRegisters_hyps :
    base.resetAsserted = false ∧
    ({ base.ap with state := .readReady, readBuf := [⟨1, false⟩] } : AccessPort).readBuf = ⟨1, false⟩ :: [] ∧
    base.ap.state = .idle ∧ (port .reading).ap.state = .reading ∧ (port .writeFilling).ap.state = .writeFilling ∧
    (port .writeFilling).ap.writeBuf.length < 16 ∧
    16 ≤ ({ base.ap with writeBuf := List.replicate 16 0 } : AccessPort).writeBuf.length ∧
    (1 ≤ (1 : Word).toNat ∧ (16 : Word).toNat ≤ 16 ∧ (0 : Word).toNat = 0 ∧ 16 < (17 : Word).toNat) := by decide +kernel

theorem test_InputControlWrites_hyps :
    (base.resetAsserted = false ∧ (base.input 0).state = .off ∧ State.reset.sm.built = false ∧ base.sm.built = true ∧
      base.sm.stride.toNat < (base.input 0).cfg.lineLength * (base.input 0).cfg.linesPerFrame ∧
      (chan .off).cfg.lineLength * (chan .off).cfg.linesPerFrame ≤ base.sm.stride.toNat) ∧
    ((chan .armed).state = .armed ∧ (chan .armed).stopPending = false ∧
      ({ chan .filling with stopPending := true } : InputChannel).stopPending = true ∧ (chan .stopping).state = .stopping ∧
      (chan .resetting).state = .resetting) ∧
    (StopMode.immediate = .immediate ∧ Instr.immediateStop 0 = .immediateStop 0 ∧ Instr.stopAtFrameEnd 3 = .stopAtFrameEnd 3) := by
  decide +kernel

theorem test_InputConfigWrites_hyps :
    (base.resetAsserted = false ∧ (base.input 0).state = .off ∧ (chan .armed).state ≠ .off) ∧
    ((0x8000400 : Word).toNat % 2048 = 1024 ∧ (0x8000400 : Word).toNat / 65536 % 4096 = 2048 ∧
      (0x1000F : Word).toNat % 2048 < 16 ∧ 2048 < (0x8010010 : Word).toNat / 65536 % 4096) ∧
    ((0x10001 : Word).toNat % 16 = 1 ∧ (0x10001 : Word).toNat / 65536 % 4 = 1 ∧ 8 < (0x10009 : Word).toNat % 16 ∧
      (0x1 : Word).toNat / 65536 % 4 < 1 ∧ ready2.sm.readyOf 0 = [0] ++ [1] ∧ [1].length = 1) := by decide +kernel

theorem test_OutputControlWrites_hyps :
    (base.resetAsserted = false ∧ (0x300 : Word).toNat / 256 % 4 = 3 ∧ (outp .disabling).state = .disabling ∧
      (0x37701 : Word).toNat / 256 % 4 = 3 ∧ (0x37231 : Word).toNat / 256 % 4 ≠ 3 ∧
      (3 : Fin 4).val = (0x37231 : Word).toNat / 16 % 4) ∧
    (base.output 0).state = .off ∧ (outp .idle).state = .idle ∧ (outp .showing).state = .showing ∧
    (1024 = (0x8000400 : Word).toNat % 2048 ∧ 2048 = (0x8000400 : Word).toNat / 65536 % 4096 ∧
      (0x1000F : Word).toNat % 2048 < 16) := by decide +kernel

theorem test_BlockConfigWrites_hyps :
    (base.resetAsserted = false ∧ base.sm.built = true ∧ State.reset.sm.built = false) ∧
    (base.mc.state ≠ .uninit ∧ State.reset.mc.state = .uninit ∧ (0x103 : Word).toNat % 4 = 3 ∧ (0x132 : Word).toNat % 4 ≠ 3) ∧
    (1 ≤ (255 : Word).toNat ∧ (255 : Word).toNat ≤ 255 ∧ (0 : Word).toNat = 0 ∧ 255 < (256 : Word).toNat) := by
  decide +kernel

end Sys2Proof.Tests
end

