-- ==== Sys2Proof/Proofs/Effects.lean ====
section
/-! What a step can do, said once: every command comes down to one of a few meanings, with what the dispatch has tested. -/

namespace Sys2Proof.Machine

/-! ### The meanings -/

/-- What a command taken by the idle command unit does (R112 to R124). -/
inductive CommandEffect (s : State) : State → Prop
  | memoryInit : CommandEffect s s.cmdMemoryInit
  | poolBuild : CommandEffect s s.cmdPoolBuild
  | poolTeardown : CommandEffect s s.cmdPoolTeardown
  | slotClaim : CommandEffect s s.cmdSlotClaim
  | slotHold : CommandEffect s s.cmdSlotHold
  | slotRelease : CommandEffect s s.cmdSlotRelease
  | slotPublish : CommandEffect s s.cmdSlotPublish
  | slotClear : CommandEffect s s.cmdSlotClear
  | inputFlush : CommandEffect s s.cmdInputFlush
  | unknown : CommandEffect s s.cmdUnknown

/-- What a host access does while RESET_N is not asserted (R171 to R177). -/
inductive HostEffect (s : State) : State → Prop
  | ignored : HostEffect s s
  | command {t : State} (idle : s.cu.running = none) (e : CommandEffect s t) : HostEffect s t
  | overrun (busy : s.cu.running ≠ none) : HostEffect s (s.raiseGlobal .cmdOverrun)
  | arguments (a : CmdArgs) : HostEffect s { s with cu := { s.cu with args := a } }
  | portRead : HostEffect s s.portRead
  | portFlush : HostEffect s s.portFlush
  | portDiscard : HostEffect s s.portDiscard
  | readAccData : HostEffect s s.readAccData
  | writeAccData (w : Word) : HostEffect s (s.writeAccData w)
  | writeAccAddr (w : Word) : HostEffect s (s.writeAccAddr w)
  | writeAccCount (w : Word) : HostEffect s (s.writeAccCount w)
  | writeInCtrl (n : Fin 4) (enable : Bool) (mode : StopMode) : HostEffect s (s.writeInCtrl n enable mode)
  | writeInConfig (n : Fin 4) (reg : InConfigReg) (w : Word) : HostEffect s (s.writeInConfig n reg w)
  | writeOutConfig (m : Fin 6) (reg : OutConfigReg) (enable : Bool) (w : Word) :
      HostEffect s (s.writeOutConfig m reg enable w)
  | writeGeometry (reg : GeometryReg) (w : Word) : HostEffect s (s.writeGeometry reg w)
  | writeMcCfg (w : Word) : HostEffect s (s.writeMcCfg w)
  | writeMcRefresh (w : Word) : HostEffect s (s.writeMcRefresh w)
  | writeArbCfg (w : Word) : HostEffect s (s.writeArbCfg w)
  | clearEvents (reg : EventReg) (w : Word) : HostEffect s (s.clearEvents reg w)
  | writeEnables (reg : EventReg) (w : Word) : HostEffect s (s.writeEnables reg w)
  | clearCounter (c : CounterName) : HostEffect s (s.clearCounter c)
  | captureRecord (k : Fin 32) : HostEffect s (s.captureRecord k)
  | captureList (l : ListName) : HostEffect s (s.captureList l)
  | softReset : HostEffect s s.softReset
  | channelResets (ns : List (Fin 4)) (ms : List (Fin 6)) : HostEffect s ((s.resetInputs ns).resetOutputs ms)

/-- What a command does that answers a next state. -/
inductive Effect (s : State) : State → Prop
  | idle : Effect s s
  | hostEffect {t : State} (released : s.resetAsserted = false) (e : HostEffect s t) : Effect s t
  | heldRead (held : s.resetAsserted = true) : Effect s { s with host := { s.host with data := 0 } }
  -- the push link (chapter 2)
  | takeFrameStart (n : Fin 4) (tag : Option Word) (h : (s.input n).state = .armed ∨ (s.input n).state = .skipping) :
      Effect s (s.takeFrameStart n tag)
  | frameStartFilling (n : Fin 4) (tag : Option Word) (h : (s.input n).state = .filling) :
      Effect s (s.frameStartFilling n tag)
  | stray (n : Fin 4) (h : (s.input n).state = .armed) : Effect s (s.stray n)
  | lineFilling (n : Fin 4) (e : FrameEntry) (payload : List Word) (h : (s.input n).state = .filling)
      (open_ : (s.input n).openEntry = some e) : Effect s (s.lineFilling n e payload)
  | frameEndFilling (n : Fin 4) (e : FrameEntry) (h : (s.input n).state = .filling)
      (open_ : (s.input n).openEntry = some e) : Effect s (s.frameEndFilling n e)
  | frameEndSkipping (n : Fin 4) (h : (s.input n).state = .skipping) :
      Effect s (s.modInput n fun ch => { ch with state := .armed })
  | signalLost (n : Fin 4) (start : Word) (h : (s.input n).lossTimer = some start) : Effect s (s.signalLost n)
  -- the pull link (chapters 4 and 5)
  | answerOffline (m : Fin 6) (h : (s.output m).state = .off) : Effect s (s.answerOffline m)
  | select (m : Fin 6) (h : (s.output m).state = .idle) : Effect s (s.select m)
  | reopen (m : Fin 6) (h : (s.output m).state = .showing) : Effect s (((s.protocolError m).closeOutput m).select m)
  | openDisabling (m : Fin 6) (h : (s.output m).state = .disabling) : Effect s (s.openDisabling m)
  | pullClosed (m : Fin 6) (h : (s.output m).frame = none) : Effect s (s.pullClosed m)
  | overpull (m : Fin 6) (f : OpenFrame) (h : (s.output m).frame = some f) (beyond : f.lineCount ≤ (s.output m).pull) :
      Effect s (s.overpull m f)
  | pullBlank (m : Fin 6) (f : OpenFrame) (h : (s.output m).frame = some f) (within : (s.output m).pull < f.lineCount)
      (blank : f.status = .blank) : Effect s (s.pullBlank m f)
  | pullLine (m : Fin 6) (f : OpenFrame) (h : (s.output m).frame = some f) (within : (s.output m).pull < f.lineCount)
      (picture : f.status ≠ .blank) : Effect s (s.pullLine m f)
  | closeIdle (m : Fin 6) (h : (s.output m).state = .idle) : Effect s (s.protocolError m)
  | closeShowing (m : Fin 6) (h : (s.output m).state = .showing) :
      Effect s ((s.closeOutput m).modOutput m fun o => { o with state := .idle })
  | closeDisabling (m : Fin 6) (h : (s.output m).state = .disabling) (open_ : (s.output m).frame.isSome = true) :
      Effect s (s.closeDisabling m)
  -- time (chapters 8 and 11)
  | refreshExpired (x : RefreshTimer) (h : s.mc.refreshTimer = some x)
      (passed : x.interval ≤ elapsedUs x.start s.timeBase) : Effect s s.refreshExpired
  | nextStage (h : s.mc.state = .initializing) (first : 1 ≤ s.mc.stage) (last : s.mc.stage ≤ 4) :
      Effect s { s with mc := { s.mc with stage := s.mc.stage + 1, stageStart := s.timeBase } }
  | enterReady (h : s.mc.state = .initializing) (last : s.mc.stage = 5) : Effect s s.enterReady
  | advanceTime (released : s.resetAsserted = false) : Effect s { s with timeBase := s.timeBase + 1 }
  | loseCharge (decay : List (Nat × BitVec 39)) (leaks : s.chargeMayLeak = true) :
      Effect s { s with store := s.store.decay (decay.filter fun d => d.1 < Config.storeWords) }
  -- completions (chapter 8)
  | lineWriteDone (r : MemRequest) (h : s.mc.exec = some ⟨r, false⟩) (kind : r.kind = .lineWrite)
      (inside : r.inStore = true) : Effect s (s.endExec.lineWriteDone r).afterDelivery
  | lineReadDone (r : MemRequest) (h : s.mc.exec = some ⟨r, false⟩) (kind : r.kind = .lineRead)
      (inside : r.inStore = true) : Effect s (s.endExec.lineReadDone r).afterDelivery
  | blockReadDone (r : MemRequest) (h : s.mc.exec = some ⟨r, false⟩) (kind : r.kind = .blockRead)
      (inside : r.inStore = true) : Effect s (s.endExec.blockReadDone r).afterDelivery
  | blockWriteDone (r : MemRequest) (h : s.mc.exec = some ⟨r, false⟩) (kind : r.kind = .blockWrite)
      (inside : r.inStore = true) : Effect s (s.endExec.blockWriteDone r).afterDelivery
  | clearWriteDone (r : MemRequest) (h : s.mc.exec = some ⟨r, false⟩) (kind : r.kind = .clearWrite)
      (inside : r.inStore = true) : Effect s (s.endExec.clearWriteDone r).afterDelivery
  | refreshDone (e : Execution) (h : s.mc.exec = some e) (kind : e.request.kind = .refresh) :
      Effect s s.endExec.refreshDone.afterDelivery
  | orphanDone (r : MemRequest) (h : s.mc.exec = some ⟨r, true⟩) (inside : r.inStore = true) :
      Effect s (((s.endExec.orphanEffect r).raiseDeferred).retestReader r.client).afterDelivery
  -- RESET_N (chapter 11)
  | pinReset : Effect s s.pinReset
  | deassert : Effect s { s with resetAsserted := false }

/-! ### Host accesses -/

theorem HostEffect.issue {s : State} {f : State → State} (e : CommandEffect s (f s)) : HostEffect s (s.issue f) := by
  rcases s.issue_cases f with ⟨idle, h⟩ | ⟨busy, h⟩ <;> rw [h]
  · exact .command idle e
  · exact .overrun busy

theorem HostEffect.writeCmd (s : State) (w : Word) : HostEffect s (s.writeCmd w) := by
  unfold State.writeCmd
  split <;> exact .issue (by constructor)

theorem HostEffect.writeAccCtrl (s : State) (w : Word) : HostEffect s (s.writeAccCtrl w) := by
  unfold State.writeAccCtrl
  split
  · exact .portRead
  · exact .portFlush
  · exact .portDiscard
  · exact .ignored

theorem HostEffect.writeResetCtrl (s : State) (w : Word) : HostEffect s (s.writeResetCtrl w) := by
  unfold State.writeResetCtrl
  split
  · exact .softReset
  · exact .channelResets _ _

theorem HostEffect.writeReg (s : State) (r : Reg) (w : Word) : HostEffect s (s.writeReg r w) := by
  cases r with
  | resetCtrl => exact .writeResetCtrl s w
  | cmd => exact .writeCmd s w
  | accCtrl => exact .writeAccCtrl s w
  | cmdArg i => exact .arguments _
  | geometry reg => exact .writeGeometry reg w
  | arbCfg => exact .writeArbCfg w
  | mcCfg => exact .writeMcCfg w
  | mcRefresh => exact .writeMcRefresh w
  | inCtrl n => exact .writeInCtrl n _ _
  | inConfig n reg => exact .writeInConfig n reg w
  | outConfig m reg => exact .writeOutConfig m reg _ w
  | accAddr => exact .writeAccAddr w
  | accCount => exact .writeAccCount w
  | accData => exact .writeAccData w
  | eventStatus reg => exact .clearEvents reg w
  | eventEnable reg => exact .writeEnables reg w
  | counter c => exact .clearCounter c
  | _ => exact .ignored

theorem HostEffect.writeOffset (s : State) (offset : BitVec 12) (w : Word) : HostEffect s (s.writeOffset offset w) := by
  unfold State.writeOffset
  split
  · exact .writeReg s _ w
  · exact .ignored

/-- A host write cycle: nothing while RESET_N is asserted, and else what the access does. -/
theorem Effect.hostWrite {s t u : State} (h : hostWrite s (fun _ => u) = .next t) (e : HostEffect s u) :
    Effect s t := by
  rcases (hostWrite_next s t _).1 h with ⟨_, rfl⟩ | ⟨released, rfl⟩
  · exact .idle
  · exact .hostEffect released e

/-- A host read cycle: 0 is returned while RESET_N is asserted, and else what the access does. -/
theorem Effect.hostRead {s t u : State} (h : hostRead s (fun _ => u) = .next t) (e : HostEffect s u) :
    Effect s t := by
  rcases (hostRead_next s t _).1 h with ⟨held, rfl⟩ | ⟨released, rfl⟩
  · exact .heldRead held
  · exact .hostEffect released e

/-! ### Messages and events -/

theorem execFrameStart_effect {n : Fin 4} {tag : Option Word} {s t : State} (h : execFrameStart n tag s = .next t) :
    Effect s t := by
  unfold execFrameStart at h
  split at h <;> cases h
  · exact .takeFrameStart n tag (.inl ‹_›)
  · exact .takeFrameStart n tag (.inr ‹_›)
  · exact .frameStartFilling n tag ‹_›
  all_goals exact .idle

theorem execLine_effect {n : Fin 4} {payload : List Word} {s t : State} (h : execLine n payload s = .next t) :
    Effect s t := by
  unfold execLine at h
  split at h
  · cases h; exact .stray n ‹_›
  · split at h <;> cases h
    · exact .lineFilling n _ payload ‹_› ‹_›
    · exact .idle
  all_goals cases h; exact .idle

theorem execFrameEnd_effect {n : Fin 4} {s t : State} (h : execFrameEnd n s = .next t) : Effect s t := by
  unfold execFrameEnd at h
  split at h
  · cases h; exact .stray n ‹_›
  · split at h <;> cases h
    · exact .frameEndFilling n _ ‹_› ‹_›
    · exact .idle
  · cases h; exact .frameEndSkipping n ‹_›
  all_goals cases h; exact .idle

theorem execLossTimerExpiry_effect {n : Fin 4} {s t : State} (h : execLossTimerExpiry n s = .next t) : Effect s t := by
  unfold execLossTimerExpiry at h
  split at h
  · cases h
  · split at h <;> cases h
    exact .signalLost n _ ‹_›

theorem execFrameOpen_effect {m : Fin 6} {s t : State} (h : execFrameOpen m s = .next t) : Effect s t := by
  unfold execFrameOpen at h
  split at h <;> cases h
  · exact .answerOffline m ‹_›
  · exact .select m ‹_›
  · exact .reopen m ‹_›
  · exact .openDisabling m ‹_›

theorem execLinePull_effect {m : Fin 6} {s t : State} (h : execLinePull m s = .next t) : Effect s t := by
  unfold execLinePull at h
  split at h
  · cases h; exact .pullClosed m ‹_›
  · split at h
    · cases h; exact .overpull m _ ‹_› ‹_›
    · split at h <;> cases h
      · exact .pullBlank m _ ‹_› (Nat.lt_of_not_le ‹_›) ‹_›
      · exact .pullLine m _ ‹_› (Nat.lt_of_not_le ‹_›) ‹_›

theorem execFrameClose_effect {m : Fin 6} {s t : State} (h : execFrameClose m s = .next t) : Effect s t := by
  unfold execFrameClose at h
  split at h <;> cases h
  · exact .idle
  · exact .closeIdle m ‹_›
  · exact .closeShowing m ‹_›
  · split
    · exact .closeDisabling m ‹_› ‹_›
    · exact .idle

theorem execRefreshCompletion_effect {s t : State} (h : execRefreshCompletion s = .next t) : Effect s t := by
  unfold execRefreshCompletion at h
  split at h
  · cases h
  · split at h <;> cases h
    exact .refreshDone _ ‹_› ‹_›

/-- A completion's effect, from the meaning of its delivery. -/
theorem completing_effect {kind : RequestKind} {s t : State} {deliver : State → MemRequest → State}
    (h : completing kind s deliver = .next t)
    (e : ∀ r, s.mc.exec = some ⟨r, false⟩ → r.kind = kind → r.inStore = true →
      Effect s (deliver s.endExec r).afterDelivery) : Effect s t := by
  obtain ⟨r, hexec, hkind, inside, rfl⟩ := completing_next h
  exact e r hexec hkind inside

theorem execTimeBaseAdvance_effect {s t : State} (h : execTimeBaseAdvance s = .next t) : Effect s t := by
  unfold execTimeBaseAdvance at h
  cases h
  split
  · exact .idle
  next h => exact .advanceTime (by simpa using h)

theorem execLossOfCharge_effect {decay : List (Nat × BitVec 39)} {s t : State}
    (h : execLossOfCharge decay s = .next t) : Effect s t := by
  unfold execLossOfCharge at h
  split at h <;> cases h
  exact .loseCharge decay ‹_›

/-! ### Every command -/

/-- Every command that answers a next state has one of the effects. -/
theorem exec_effect {c : Instr} {s t : State} (h : exec c s = .next t) : Effect s t := by
  cases c with
  | frameStart n tag => exact execFrameStart_effect h
  | line n payload => exact execLine_effect h
  | frameEnd n => exact execFrameEnd_effect h
  | frameOpen m => exact execFrameOpen_effect h
  | linePull m => exact execLinePull_effect h
  | frameClose m => exact execFrameClose_effect h
  | lossTimerExpiry n => exact execLossTimerExpiry_effect h
  | refreshTimerExpiry =>
    obtain ⟨x, hx, passed, rfl⟩ := execRefreshTimerExpiry_next h
    exact .refreshExpired x hx passed
  | initStageEnd =>
    obtain ⟨hs, first, last, _, rfl⟩ := execInitStageEnd_next h
    exact .nextStage hs first last
  | endOfStage5 =>
    obtain ⟨hs, last, _, rfl⟩ := execEndOfStage5_next h
    exact .enterReady hs last
  | lineWriteCompletion => exact completing_effect h fun r => .lineWriteDone r
  | lineReadCompletion => exact completing_effect h fun r => .lineReadDone r
  | blockReadCompletion => exact completing_effect h fun r => .blockReadDone r
  | blockWriteCompletion => exact completing_effect h fun r => .blockWriteDone r
  | clearWriteCompletion => exact completing_effect h fun r => .clearWriteDone r
  | refreshCompletion => exact execRefreshCompletion_effect h
  | orphanCompletion =>
    obtain ⟨r, hexec, inside, rfl⟩ := execOrphanCompletion_next h
    exact .orphanDone r hexec inside
  | memoryInit => exact .hostWrite h (.issue .memoryInit)
  | poolBuild => exact .hostWrite h (.issue .poolBuild)
  | poolTeardown => exact .hostWrite h (.issue .poolTeardown)
  | slotClaim => exact .hostWrite h (.issue .slotClaim)
  | slotHold => exact .hostWrite h (.issue .slotHold)
  | slotRelease => exact .hostWrite h (.issue .slotRelease)
  | slotPublish => exact .hostWrite h (.issue .slotPublish)
  | slotClear => exact .hostWrite h (.issue .slotClear)
  | inputFlush => exact .hostWrite h (.issue .inputFlush)
  | unknownCommand code => exact .hostWrite h (.issue .unknown)
  | read => exact .hostWrite h .portRead
  | flush => exact .hostWrite h .portFlush
  | discard => exact .hostWrite h .portDiscard
  | accDataRead => exact .hostRead h .readAccData
  | accDataWrite w => exact .hostWrite h (.writeAccData w)
  | accAddrWrite w => exact .hostWrite h (.writeAccAddr w)
  | accCountWrite w => exact .hostWrite h (.writeAccCount w)
  | enableAttempt n mode => exact .hostWrite h (.writeInCtrl n true mode)
  | immediateStop n => exact .hostWrite h (.writeInCtrl n false .immediate)
  | stopAtFrameEnd n => exact .hostWrite h (.writeInCtrl n false .atFrameEnd)
  | inputConfigWrite n reg w => exact .hostWrite h (.writeInConfig n reg w)
  | outputEnable m w => exact .hostWrite h (.writeOutConfig m .ctrl true w)
  | outputDisable m w => exact .hostWrite h (.writeOutConfig m .ctrl false w)
  | outputConfigWrite m reg w => exact .hostWrite h (.writeOutConfig m reg (w.getLsbD 0) w)
  | geometryWrite reg w => exact .hostWrite h (.writeGeometry reg w)
  | mcCfgWrite w => exact .hostWrite h (.writeMcCfg w)
  | mcRefreshWrite w => exact .hostWrite h (.writeMcRefresh w)
  | arbCfgWrite w => exact .hostWrite h (.writeArbCfg w)
  | eventClear reg w => exact .hostWrite h (.clearEvents reg w)
  | eventEnableWrite reg w => exact .hostWrite h (.writeEnables reg w)
  | counterClear c w => exact .hostWrite h (.clearCounter c)
  | recordCapture k => exact .hostRead h (.captureRecord k)
  | listCapture l => exact .hostRead h (.captureList l)
  | registerWrite offset w => exact .hostWrite h (.writeOffset s offset w)
  | fullSoftReset => exact .hostWrite h .softReset
  | inputChannelReset n => exact .hostWrite h (.channelResets [n] [])
  | outputChannelReset m => exact .hostWrite h (.channelResets [] [m])
  | pinReset => cases h; exact .pinReset
  | resetNDeassertion => cases h; exact .deassert
  | stopModeWrite n enable mode => exact .hostWrite h (.writeInCtrl n enable mode)
  | timeBaseAdvance => exact execTimeBaseAdvance_effect h
  | lossOfCharge decay => exact execLossOfCharge_effect h

/-- Every step has one of the effects on the state with the queue's rest. -/
theorem step_effect {s t : State} (h : step s = .next t) : ∃ rest, Effect { s with pending := rest } t := by
  unfold step at h
  split at h
  · cases h; exact ⟨s.pending, .idle⟩
  · exact ⟨_, exec_effect h⟩

end Sys2Proof.Machine
end

