-- ==== Sys2Proof/Proofs/Quiet.lean ====
section
/-! Quiet changes: those that move no slot, add no entry, and write no setting. Most operations of the model are quiet, so
each invariant about slots, readers and sizes has to look only at the others. -/

namespace Sys2Proof.Machine

-- One theorem after another, as in the tests: many of them at once would need a thread each.
set_option Elab.async false

/-! ### Slot managers that differ in nothing that places a slot -/

/-- The two slot managers hold the same slots in the same lists, with the same owners and sequence numbers. The geometry
may differ while there is no pool. -/
structure SlotManager.Alike (sm sm' : SlotManager) : Prop where
  built : sm'.built = sm.built
  count : sm.built = true → sm'.count = sm.count
  length : sm'.slots.length = sm.slots.length
  free : sm'.free = sm.free
  ready : sm'.ready = sm.ready
  nextSeq : sm'.nextSeq = sm.nextSeq
  state : ∀ k, (sm'.slot k).state = (sm.slot k).state
  owner : ∀ k, (sm'.slot k).owner = (sm.slot k).owner
  sequence : ∀ k, (sm'.slot k).sequence = (sm.slot k).sequence

namespace SlotManager.Alike

theorem refl (sm : SlotManager) : sm.Alike sm := by constructor <;> simp

theorem trans {a b c : SlotManager} (h : a.Alike b) (h' : b.Alike c) : a.Alike c where
  built := h'.built.trans h.built
  count hb := (h'.count (h.built.trans hb)).trans (h.count hb)
  length := h'.length.trans h.length
  free := h'.free.trans h.free
  ready := h'.ready.trans h.ready
  nextSeq := h'.nextSeq.trans h.nextSeq
  state k := (h'.state k).trans (h.state k)
  owner k := (h'.owner k).trans (h.owner k)
  sequence k := (h'.sequence k).trans (h.sequence k)

/-- A change of a record that keeps its state, owner and sequence number. -/
theorem modSlot (sm : SlotManager) (k : Nat) {f : SlotRecord → SlotRecord}
    (hst : ∀ r, (f r).state = r.state := by intro; rfl) (how : ∀ r, (f r).owner = r.owner := by intro; rfl)
    (hsq : ∀ r, (f r).sequence = r.sequence := by intro; rfl) : sm.Alike (sm.modSlot k f) := by
  constructor <;> intros <;> simp <;> split <;> simp [*]

theorem setPending (sm : SlotManager) (ks : List Nat) : sm.Alike (sm.setPending ks) := by
  induction ks generalizing sm with
  | nil => exact refl sm
  | cons k ks ih => exact (modSlot sm k).trans (ih _)

theorem clearPending (sm : SlotManager) (ks : List Nat) : sm.Alike (sm.clearPending ks) := by
  induction ks generalizing sm with
  | nil => exact refl sm
  | cons k ks ih => exact (modSlot sm k).trans (ih _)

theorem setGeometry (sm : SlotManager) (reg : GeometryReg) (w : Word) (h : sm.built = false) :
    sm.Alike (sm.setGeometry reg w) := by
  cases reg <;> constructor <;> simp [SlotManager.setGeometry, SlotManager.slot, h]

end SlotManager.Alike

/-- The reader set of slot Sk (R17). -/
def SlotManager.readers (sm : SlotManager) (k : Nat) : BitVec 6 := (sm.slot k).readers

/-- A change of a record that keeps its readers. -/
theorem SlotManager.readers_modSlot (sm : SlotManager) (k : Nat) {f : SlotRecord → SlotRecord}
    (hrd : ∀ r, (f r).readers = r.readers := by intro; rfl) : (sm.modSlot k f).readers = sm.readers := by
  funext j
  simp only [SlotManager.readers, SlotManager.slot_modSlot]
  split <;> simp [hrd]

theorem SlotManager.readers_setPending (sm : SlotManager) (ks : List Nat) :
    (sm.setPending ks).readers = sm.readers := by
  induction ks generalizing sm with
  | nil => rfl
  | cons k ks ih => exact (ih _).trans (sm.readers_modSlot k)

theorem SlotManager.readers_clearPending (sm : SlotManager) (ks : List Nat) :
    (sm.clearPending ks).readers = sm.readers := by
  induction ks generalizing sm with
  | nil => rfl
  | cons k ks ih => exact (ih _).trans (sm.readers_modSlot k)

theorem SlotManager.readers_setGeometry (sm : SlotManager) (reg : GeometryReg) (w : Word) :
    (sm.setGeometry reg w).readers = sm.readers := by cases reg <;> rfl

/-! ### Quiet changes of the state -/

/-- The slot of an entry, with whether the entry is CLOSED. -/
def FrameEntry.mark (e : FrameEntry) : Nat × Bool := (e.slot, e.isClosed)

/-- The slots of a fill context's entries, in order, each with whether its entry is CLOSED. -/
def InputChannel.entries (ch : InputChannel) : List (Nat × Bool) := ch.fill.map FrameEntry.mark

/-- Nothing moves: slots, fill contexts and settings are kept; no line FIFO grows beyond its 3 places, no output enters OFF or
changes its retained slot, and pass-over counts and write buffer stay within their sizes. -/
structure Quiet (s t : State) : Prop where
  sm : s.sm.Alike t.sm
  readers : t.sm.readers = s.sm.readers
  cfgIn : ∀ n, (t.input n).cfg = (s.input n).cfg
  entries : ∀ n, (t.input n).entries = (s.input n).entries
  lines : ∀ n, (t.input n).fifo.length ≤ max 3 (s.input n).fifo.length
  cfgOut : ∀ m, (t.output m).cfg = (s.output m).cfg
  retained : ∀ m, (t.output m).retained = (s.output m).retained
  off : ∀ m, (t.output m).state = .off → (s.output m).state = .off
  interval : t.mc.refreshInterval = s.mc.refreshInterval
  count : t.ap.count = s.ap.count
  hostBounds : s.hostBoundsOk → t.hostBoundsOk

namespace Quiet

variable {s t : State}

theorem refl (s : State) : Quiet s s := by
  constructor <;> simp [SlotManager.Alike.refl]

theorem trans {u : State} (h : Quiet s t) (h' : Quiet t u) : Quiet s u where
  sm := h.sm.trans h'.sm
  readers := h'.readers.trans h.readers
  cfgIn n := (h'.cfgIn n).trans (h.cfgIn n)
  entries n := (h'.entries n).trans (h.entries n)
  lines n := by have := h.lines n; have := h'.lines n; omega
  cfgOut m := (h'.cfgOut m).trans (h.cfgOut m)
  retained m := (h'.retained m).trans (h.retained m)
  off m := h.off m ∘ h'.off m
  interval := h'.interval.trans h.interval
  count := h'.count.trans h.count
  hostBounds := h'.hostBounds ∘ h.hostBounds

/-- A change of no field that the invariants read. -/
theorem of_eq (h : Quiet s t) {u : State} (hsm : u.sm = t.sm := by rfl) (hin : u.inputs = t.inputs := by rfl)
    (hout : u.outputs = t.outputs := by rfl) (hmc : u.mc.refreshInterval = t.mc.refreshInterval := by rfl)
    (hap : u.ap = t.ap := by rfl) (harb : u.arb = t.arb := by rfl) : Quiet s u :=
  h.trans {
    sm := hsm ▸ .refl _
    readers := by rw [hsm]
    cfgIn n := by rw [State.input_eq_of_inputs_eq hin]
    entries n := by rw [State.input_eq_of_inputs_eq hin]
    lines n := by rw [State.input_eq_of_inputs_eq hin]; omega
    cfgOut m := by rw [State.output_eq_of_outputs_eq hout]
    retained m := by rw [State.output_eq_of_outputs_eq hout]
    off m := by rw [State.output_eq_of_outputs_eq hout]; exact id
    interval := hmc
    count := by rw [hap]
    hostBounds := by simp [State.hostBoundsOk, hap, harb] }

/-- A change of the slot manager that moves no slot. -/
theorem setSm (h : Quiet s t) {sm : SlotManager} (hsm : t.sm.Alike sm) (hreaders : sm.readers = t.sm.readers) :
    Quiet s { t with sm := sm } :=
  h.trans { refl t with sm := hsm, readers := hreaders }

theorem setInput (h : Quiet s t) {n : Fin 4} {ch : InputChannel} (hcfg : ch.cfg = (t.input n).cfg)
    (hfill : ch.entries = (t.input n).entries) (hfifo : ch.fifo.length ≤ max 3 (t.input n).fifo.length) :
    Quiet s (t.setInput n ch) :=
  h.trans { refl t with
    cfgIn i := by by_cases hi : n = i <;> simp [hi]; exact hi ▸ hcfg
    entries i := by by_cases hi : n = i <;> simp [hi]; exact hi ▸ hfill
    lines i := by by_cases hi : n = i <;> simp [hi]; subst hi; omega
    cfgOut := by simp
    retained := by simp
    off := by simp }

theorem modInput (h : Quiet s t) {n : Fin 4} {f : InputChannel → InputChannel}
    (hcfg : ∀ ch, (f ch).cfg = ch.cfg) (hfill : ∀ ch, (f ch).entries = ch.entries)
    (hfifo : ∀ ch, (f ch).fifo.length ≤ max 3 ch.fifo.length) : Quiet s (t.modInput n f) :=
  h.setInput (hcfg _) (hfill _) (hfifo _)

/-- A change of an input that leaves its settings, fill context and line FIFO. -/
theorem modInput_of_eq (h : Quiet s t) {n : Fin 4} {f : InputChannel → InputChannel}
    (hcfg : ∀ ch, (f ch).cfg = ch.cfg := by intro; rfl) (hfill : ∀ ch, (f ch).fill = ch.fill := by intro; rfl)
    (hfifo : ∀ ch, (f ch).fifo = ch.fifo := by intro; rfl) : Quiet s (t.modInput n f) :=
  h.modInput hcfg (fun ch => by simp [InputChannel.entries, hfill]) fun ch => by rw [hfifo]; omega

theorem setOutput (h : Quiet s t) {m : Fin 6} {o : OutputChannel} (hcfg : o.cfg = (t.output m).cfg := by rfl)
    (hret : o.retained = (t.output m).retained := by rfl)
    (hoff : o.state = .off → (t.output m).state = .off := by exact id) :
    Quiet s (t.setOutput m o) :=
  h.trans { refl t with
    cfgIn := by simp
    entries := by simp
    lines := by simp
    cfgOut i := by by_cases hi : m = i <;> simp [hi]; exact hi ▸ hcfg
    retained i := by by_cases hi : m = i <;> simp [hi]; exact hi ▸ hret
    off i := by by_cases hi : m = i <;> simp [hi]; exact hi ▸ hoff }

theorem modOutput (h : Quiet s t) {m : Fin 6} {f : OutputChannel → OutputChannel}
    (hcfg : ∀ o, (f o).cfg = o.cfg := by intro; rfl) (hret : ∀ o, (f o).retained = o.retained := by intro; rfl)
    (hoff : ∀ o, (f o).state = .off → o.state = .off := by exact fun _ => id) :
    Quiet s (t.modOutput m f) :=
  h.setOutput (hcfg _) (hret _) (hoff _)

/-- A change of the access port that leaves its word count and does not lengthen its write buffer beyond 16 words. -/
theorem setAp (h : Quiet s t) {ap : AccessPort} (hcount : ap.count = t.ap.count := by rfl)
    (hbuf : ap.writeBuf.length ≤ max 16 t.ap.writeBuf.length := by simp) : Quiet s { t with ap := ap } :=
  h.trans { refl t with
    count := hcount
    hostBounds := fun ⟨hap, hcu, hlen⟩ => ⟨hap, hcu, by simp only; omega⟩ }

/-- A change of the arbiter that keeps the pass-over counts within 8. -/
theorem setArb (h : Quiet s t) {a : Arbiter}
    (hap : (∀ r, t.arb.apReq = some r → r.passed ≤ 8) → ∀ r, a.apReq = some r → r.passed ≤ 8 := by exact id)
    (hcu : (∀ r, t.arb.cuReq = some r → r.passed ≤ 8) → ∀ r, a.cuReq = some r → r.passed ≤ 8 := by exact id) :
    Quiet s { t with arb := a } :=
  h.trans { refl t with hostBounds := fun ⟨h1, h2, h3⟩ => ⟨hap h1, hcu h2, h3⟩ }

/-! ### Events and counters -/

theorem raiseIn (h : Quiet s t) {n : Fin 4} {e : InEvent} : Quiet s (t.raiseIn n e) := h.of_eq

theorem raiseOut (h : Quiet s t) {m : Fin 6} {e : OutEvent} : Quiet s (t.raiseOut m e) := h.of_eq

theorem raiseGlobal (h : Quiet s t) {e : GlobalEvent} : Quiet s (t.raiseGlobal e) := h.of_eq

theorem configIgnored (h : Quiet s t) : Quiet s t.configIgnored := h.raiseGlobal

theorem countIn (h : Quiet s t) {n : Fin 4} {c : InCounter} : Quiet s (t.countIn n c) :=
  h.modInput_of_eq

theorem countOut (h : Quiet s t) {m : Fin 6} {c : OutCounter} : Quiet s (t.countOut m c) :=
  h.modOutput

/-! ### Arbitration (chapter 9) -/

theorem startExec (h : Quiet s t) {r : MemRequest} : Quiet s (t.startExec r) := h.of_eq

theorem withdrawWrite (h : Quiet s t) {n : Fin 4} : Quiet s (t.withdrawWrite n) := h.setArb

theorem withdrawRead (h : Quiet s t) {m : Fin 6} : Quiet s (t.withdrawRead m) := h.setArb

/-- A pass-over leaves every count within 8 (R160). -/
theorem passed_le_of_pass (q : Option HostRequest) : ∀ r, q.map HostRequest.pass = some r → r.passed ≤ 8 := by
  intro r hr
  obtain ⟨x, _, rfl⟩ := Option.map_eq_some_iff.1 hr
  exact Nat.min_le_left _ _

theorem markInFlight (h : Quiet s t) {n : Fin 4} : Quiet s (t.modInput n InputChannel.markInFlight) := by
  refine h.modInput (fun ch => ?_) (fun ch => ?_) fun ch => ?_
  all_goals unfold InputChannel.markInFlight; split
  all_goals simp [InputChannel.entries]
  intro e _
  split <;> simp [FrameEntry.mark, FrameEntry.isClosed]

theorem grantInput (h : Quiet s t) {n : Fin 4} : Quiet s (t.grantInput n) := by
  unfold State.grantInput
  split
  · exact h
  · exact (h.setArb (by exact fun _ => passed_le_of_pass _) (by exact fun _ => passed_le_of_pass _)).markInFlight.startExec

theorem grantOutput (h : Quiet s t) {m : Fin 6} : Quiet s (t.grantOutput m) := by
  unfold State.grantOutput
  split
  · exact h
  · exact (h.setArb (by exact fun _ => passed_le_of_pass _) (by exact fun _ => passed_le_of_pass _)).startExec

theorem grantHost (h : Quiet s t) {c : HostClient} : Quiet s (t.grantHost c) := by
  unfold State.grantHost
  split
  · exact h
  · cases c
    · exact (h.setArb (hap := by simp)).startExec
    · exact (h.setArb (hcu := by simp)).startExec

theorem applyGrant (h : Quiet s t) {w : Winner} : Quiet s (t.applyGrant w) := by
  cases w with
  | refresh => exact h.startExec
  | urgentOutput m => exact (h.setArb).grantOutput
  | urgentInput n => exact (h.setArb).grantInput
  | normal i =>
    simp only [State.applyGrant]
    split
    · exact (h.setArb).grantInput
    · exact (h.setArb).grantOutput
    · exact h
  | host c => exact h.grantHost

theorem grantMoment (h : Quiet s t) : Quiet s t.grantMoment := by
  rcases t.grantMoment_cases with hg | ⟨w, _, _, _, hg⟩ <;> rw [hg]
  · exact h
  · exact h.applyGrant

theorem raiseWrite (h : Quiet s t) {n : Fin 4} : Quiet s (t.raiseWrite n) := by
  unfold State.raiseWrite
  split
  · exact h
  · split
    · exact h
    · exact (h.setArb).grantMoment

theorem raiseRead (h : Quiet s t) {m : Fin 6} : Quiet s (t.raiseRead m) := by
  unfold State.raiseRead
  split
  · exact h
  · exact ((h.setArb).modOutput).grantMoment

theorem raisePort (h : Quiet s t) {r : MemRequest} : Quiet s (t.raisePort r) := by
  unfold State.raisePort
  split
  · exact h.setAp
  · exact (h.setArb (hap := by simp)).grantMoment

theorem raiseClear (h : Quiet s t) {c : ClearProgress} : Quiet s (t.raiseClear c) :=
  (h.setArb (hcu := by simp)).grantMoment

/-! ### Input channels (chapters 2 and 3) -/

theorem stopCompletion (h : Quiet s t) {n : Fin 4} : Quiet s (t.stopCompletion n) := by
  unfold State.stopCompletion
  split
  · exact (h.modInput_of_eq).raiseIn
  · exact h.modInput_of_eq

theorem finishStopping (h : Quiet s t) {n : Fin 4} : Quiet s (t.finishStopping n) := by
  unfold State.finishStopping
  split
  · exact h.stopCompletion
  · exact h

theorem broken (h : Quiet s t) {n : Fin 4} : Quiet s (t.broken n) := h.countIn.raiseIn

theorem enterOrStop (h : Quiet s t) {n : Fin 4} {stop : Bool} : Quiet s (t.enterOrStop n stop) := by
  unfold State.enterOrStop
  split
  · exact h.stopCompletion
  · exact h

theorem enterState (h : Quiet s t) {n : Fin 4} {st : InState} : Quiet s (t.modInput n fun ch => { ch with state := st }) :=
  h.modInput_of_eq

theorem skip (h : Quiet s t) {n : Fin 4} {c : InCounter} : Quiet s (t.skip n c) := h.countIn.enterState

theorem stray (h : Quiet s t) {n : Fin 4} : Quiet s (t.stray n) := h.countIn.raiseIn

theorem restartLossTimer (h : Quiet s t) {n : Fin 4} {now : Word} :
    Quiet s (t.modInput n fun ch => ch.restartLossTimer now) := by
  refine h.modInput_of_eq (fun ch => ?_) (fun ch => ?_) fun ch => ?_
  all_goals unfold InputChannel.restartLossTimer; split <;> rfl

theorem signalFound (h : Quiet s t) {n : Fin 4} : Quiet s (t.signalFound n) := by
  unfold State.signalFound
  split
  · exact (h.modInput_of_eq).raiseIn
  · exact h

theorem tryEnable (h : Quiet s t) {n : Fin 4} : Quiet s (t.tryEnable n) := by
  unfold State.tryEnable
  split
  · exact h.modInput_of_eq
  · exact (h.modInput_of_eq).raiseIn

theorem stopAtEnd (h : Quiet s t) {n : Fin 4} : Quiet s (t.stopAtEnd n) := by
  unfold State.stopAtEnd
  split
  · exact h.modInput_of_eq
  · exact h.stopCompletion

theorem writeEnable (h : Quiet s t) {n : Fin 4} : Quiet s (t.writeEnable n) := by
  have hrunning : Quiet s (if (t.input n).stopPending then t.configIgnored else t) := by
    split
    · exact h.configIgnored
    · exact h
  unfold State.writeEnable
  split
  case h_1 => exact h.tryEnable
  case h_2 | h_3 | h_4 => exact hrunning
  case h_5 => exact h.configIgnored
  case h_6 => exact h

theorem lineWritten (h : Quiet s t) {n : Fin 4} : Quiet s (t.modInput n InputChannel.lineWritten) := by
  refine h.modInput (fun ch => ?_) (fun ch => ?_) fun ch => ?_
  all_goals unfold InputChannel.lineWritten; split
  all_goals simp [InputChannel.entries, *]
  intro e _
  split <;> simp [FrameEntry.mark, FrameEntry.isClosed]

theorem acceptLine (h : Quiet s t) {n : Fin 4} {e : FrameEntry} {payload : List Word}
    (room : (t.input n).fifo.length < Config.lineFifoPlaces) :
    Quiet s (t.modInput n fun ch => ch.acceptLine e payload) := by
  refine h.setInput rfl ?_ ?_
  · simp only [InputChannel.acceptLine, InputChannel.entries, List.map_map]
    refine List.map_congr_left fun x _ => ?_
    simp only [Function.comp_apply]
    split <;> simp [FrameEntry.mark, FrameEntry.isClosed]
  · simp only [InputChannel.acceptLine, Config.lineFifoPlaces, List.length_append, List.length_singleton] at room ⊢
    omega

/-! ### Output channels (chapters 4 and 5) -/

theorem closeOutput (h : Quiet s t) {m : Fin 6} : Quiet s (t.closeOutput m) := by
  unfold State.closeOutput
  split
  · exact h
  · dsimp only
    split
    · exact h.countOut.raiseOut.modOutput.withdrawRead
    · exact h.modOutput.withdrawRead

theorem protocolError (h : Quiet s t) {m : Fin 6} : Quiet s (t.protocolError m) := h.countOut.raiseOut

theorem answerOffline (h : Quiet s t) {m : Fin 6} : Quiet s (t.answerOffline m) :=
  h.modOutput

theorem openBlank (h : Quiet s t) {m : Fin 6} {lost : Bool} : Quiet s (t.openBlank m lost) :=
  h.modOutput (hoff := by intro _ hoff; cases hoff)

theorem openShown (h : Quiet s t) {m : Fin 6} {k : Nat} {status : AnswerStatus} {short lost : Bool} :
    Quiet s (t.openShown m k status short lost) :=
  (h.modOutput (hoff := by intro _ hoff; cases hoff)).raiseRead

theorem reportLoss (h : Quiet s t) {m : Fin 6} : Quiet s (t.reportLoss m) := by
  unfold State.reportLoss
  split
  · exact h
  · exact (h.modOutput).raiseOut

theorem fallback (h : Quiet s t) {m : Fin 6} {lost : Bool} : Quiet s (t.fallback m lost) := by
  unfold State.fallback
  split
  · exact h.countOut.openShown
  · exact h.openBlank

theorem refetch (h : Quiet s t) {m : Fin 6} : Quiet s (t.refetch m) := by
  unfold State.refetch
  split
  · exact h.withdrawRead.raiseRead
  · exact h.raiseRead

/-- An output that only sent a fill line: its settings, state and retained slot. -/
theorem sendFill_eq (o : OutputChannel) (f : OpenFrame) (k : Nat) :
    ∃ kind payload, o.sendFill f k = o.send k kind payload := by
  unfold OutputChannel.sendFill
  split <;> exact ⟨_, _, rfl⟩

theorem pullPoisoned (h : Quiet s t) {m : Fin 6} {f : OpenFrame} {k : Nat} :
    Quiet s (t.setOutput m ((t.output m).pullPoisoned f k)) := by
  obtain ⟨kind, payload, hs⟩ := sendFill_eq (t.output m) f k
  simp only [OutputChannel.pullPoisoned, hs]
  exact h.setOutput

theorem pullMissing (h : Quiet s t) {m : Fin 6} {f : OpenFrame} {k : Nat} :
    Quiet s (t.setOutput m ((t.output m).pullMissing f k)) := by
  obtain ⟨kind, payload, hs⟩ := sendFill_eq (t.output m) f k
  simp only [OutputChannel.pullMissing, hs]
  exact h.setOutput

theorem pullLine (h : Quiet s t) {m : Fin 6} {f : OpenFrame} : Quiet s (t.pullLine m f) := by
  unfold State.pullLine
  refine refetch ?_
  split
  · split
    · split
      · exact h.pullPoisoned.raiseOut
      · exact h.setOutput
    · split
      · exact h.pullMissing
      · exact h.pullMissing.raiseOut
  · split
    · exact h.pullMissing
    · exact h.pullMissing.raiseOut

theorem overpull (h : Quiet s t) {m : Fin 6} {f : OpenFrame} : Quiet s (t.overpull m f) := by
  unfold State.overpull
  split
  · exact h.setOutput
  · exact (h.setOutput).raiseOut

theorem pullBlank (h : Quiet s t) {m : Fin 6} {f : OpenFrame} : Quiet s (t.pullBlank m f) := h.setOutput

theorem pullClosed (h : Quiet s t) {m : Fin 6} : Quiet s (t.pullClosed m) := by
  unfold State.pullClosed
  dsimp only
  split
  · exact (h.setOutput).protocolError
  · exact h.setOutput

/-! ### Completions and time (chapter 8) -/

theorem endExec (h : Quiet s t) : Quiet s t.endExec := h.of_eq

theorem startWaitingStage (h : Quiet s t) : Quiet s t.startWaitingStage := by
  unfold State.startWaitingStage
  split
  · exact h.of_eq
  · exact h

theorem afterDelivery (h : Quiet s t) : Quiet s t.afterDelivery := h.startWaitingStage.grantMoment

theorem storeWords (h : Quiet s t) {r : MemRequest} : Quiet s (t.storeWords r) := h.of_eq

theorem countEcc (h : Quiet s t) {ws : List WordRead} : Quiet s (t.countEcc ws) := by
  unfold State.countEcc
  dsimp only
  split <;> split
  · exact h.of_eq
  · exact h.of_eq.raiseGlobal
  · exact h.of_eq.raiseGlobal
  · exact h.of_eq.raiseGlobal.raiseGlobal

theorem enterLine (h : Quiet s t) {m : Fin 6} {r : MemRequest} {ws : List WordRead} : Quiet s (t.enterLine m r ws) := by
  have hline := h.modOutput (m := m) (f := fun o =>
    { o with fifo := o.fifo ++ [⟨r.number, anyPoisoned ws, r.epoch, ws.map WordRead.word⟩] })
    (fun _ => rfl) (fun _ => rfl) fun _ => id
  unfold State.enterLine
  dsimp only
  split
  · exact hline.setSm (.modSlot _ _) (SlotManager.readers_modSlot _ _)
  · exact hline

theorem judgeLine (h : Quiet s t) {m : Fin 6} {r : MemRequest} {ws : List WordRead} : Quiet s (t.judgeLine m r ws) := by
  unfold State.judgeLine
  split
  · exact h
  · split
    · exact h
    · exact h.enterLine

theorem blockReadDone (h : Quiet s t) {r : MemRequest} : Quiet s (t.blockReadDone r) := by
  have hread : Quiet s _ := (h.countEcc (ws := t.store.readWords r.addr r.count)).setAp (ap := { (t.countEcc _).ap with
    readBuf := (t.store.readWords r.addr r.count).map readWordOf, state := .readReady }) rfl (Nat.le_max_right _ _)
  unfold State.blockReadDone
  dsimp only
  split
  · exact hread.raiseGlobal.raiseGlobal
  · exact hread.raiseGlobal

theorem blockWriteDone (h : Quiet s t) {r : MemRequest} : Quiet s (t.blockWriteDone r) := by
  unfold State.blockWriteDone
  split
  · exact h.storeWords
  · exact ((h.storeWords.setSm (.clearPending _ _) (SlotManager.readers_clearPending _ _)).setAp).raiseGlobal

theorem completeCommand (h : Quiet s t) {code : BitVec 8} {r : ResultCode} {v : Word} :
    Quiet s (t.completeCommand code r v) := h.of_eq

theorem clearAdvance (h : Quiet s t) {rc : RunningCommand} {c : ClearProgress} : Quiet s (t.clearAdvance rc c) := by
  unfold State.clearAdvance
  dsimp only
  split
  · exact (h.of_eq).raiseClear
  · exact (h.setSm (.clearPending _ _) (SlotManager.readers_clearPending _ _)).completeCommand

theorem clearWriteDone (h : Quiet s t) {r : MemRequest} : Quiet s (t.clearWriteDone r) := by
  unfold State.clearWriteDone
  split
  · exact h.storeWords
  · split
    · exact h.storeWords
    · exact h.storeWords.clearAdvance

theorem refreshDone (h : Quiet s t) : Quiet s t.refreshDone := h.of_eq

theorem raiseDeferred (h : Quiet s t) : Quiet s t.raiseDeferred := by
  unfold State.raiseDeferred
  split
  · exact h
  · exact (h.setAp).raisePort

theorem retestReader (h : Quiet s t) {c : Client} : Quiet s (t.retestReader c) := by
  unfold State.retestReader
  split
  · exact h.raiseRead
  · exact h

theorem orphanEffect (h : Quiet s t) {r : MemRequest} : Quiet s (t.orphanEffect r) := by
  unfold State.orphanEffect
  split
  case h_1 | h_2 | h_3 => exact h.storeWords
  case h_4 | h_5 => exact h.countEcc
  case h_6 => exact h.refreshDone

theorem refreshExpired (h : Quiet s t) : Quiet s t.refreshExpired := by
  unfold State.refreshExpired
  split
  · exact h.of_eq
  · exact (h.of_eq).grantMoment

theorem enterReady (h : Quiet s t) : Quiet s t.enterReady :=
  (h.of_eq).raiseGlobal.completeCommand.grantMoment

/-! ### Host commands and the access port (chapters 6 and 7) -/

theorem refuseCommand (h : Quiet s t) {code : BitVec 8} {r : ResultCode} : Quiet s (t.refuseCommand code r) :=
  h.completeCommand

theorem startCommand (h : Quiet s t) {code : BitVec 8} {c : Option ClearProgress} : Quiet s (t.startCommand code c) :=
  h.of_eq

theorem emptyCaptures (h : Quiet s t) : Quiet s t.emptyCaptures := h.of_eq

theorem cmdMemoryInit (h : Quiet s t) : Quiet s t.cmdMemoryInit := by
  unfold State.cmdMemoryInit
  split
  · exact (h.of_eq).startCommand
  · exact h.refuseCommand

theorem startClear (h : Quiet s t) {k : Nat} : Quiet s (t.startClear k) :=
  (h.setSm (.setPending _ _) (t.sm.readers_setPending _)).startCommand.raiseClear

theorem cmdSlotClear (h : Quiet s t) : Quiet s t.cmdSlotClear := by
  unfold State.cmdSlotClear
  split
  · exact h.refuseCommand
  · split
    · exact h.refuseCommand
    · split
      · exact h.refuseCommand
      · split
        · exact h.refuseCommand
        · exact h.startClear

theorem cmdUnknown (h : Quiet s t) : Quiet s t.cmdUnknown := h.refuseCommand

theorem portError (h : Quiet s t) {e : PortError} : Quiet s (t.portError e) := h.setAp

theorem portRead (h : Quiet s t) : Quiet s t.portRead := by
  have hstart : Quiet s t.startRead := by
    unfold State.startRead
    split
    · exact (h.setAp).raisePort
    · exact h.portError
  unfold State.portRead
  split
  case h_1 | h_2 => exact hstart
  all_goals exact h.portError

theorem takeFlush (h : Quiet s t) : Quiet s t.takeFlush :=
  ((h.setSm (.setPending _ _) (t.sm.readers_setPending _)).setAp).raisePort

theorem violateFlush (h : Quiet s t) : Quiet s t.violateFlush := (h.setAp).raiseGlobal

theorem startFlush (h : Quiet s t) : Quiet s t.startFlush := by
  unfold State.startFlush
  split
  · exact h.portError
  · split
    · exact h.takeFlush
    · exact h.violateFlush

theorem portFlush (h : Quiet s t) : Quiet s t.portFlush := by
  unfold State.portFlush
  split
  · exact h
  · exact h.startFlush
  all_goals exact h.portError

theorem portDiscard (h : Quiet s t) : Quiet s t.portDiscard := by
  unfold State.portDiscard
  split
  · exact h.portError
  · exact h.setAp

theorem drive (h : Quiet s t) {w : Word} : Quiet s (t.drive w) := h.of_eq

theorem popWord (h : Quiet s t) : Quiet s t.popWord := by
  unfold State.popWord
  split
  · exact h.drive
  · exact (h.setAp).drive

theorem readAccData (h : Quiet s t) : Quiet s t.readAccData := by
  unfold State.readAccData
  split
  · exact h.popWord
  all_goals exact h.portError.drive

theorem writeAccData (h : Quiet s t) {w : Word} : Quiet s (t.writeAccData w) := by
  unfold State.writeAccData
  split
  · exact h.setAp
  · split
    next room =>
      refine h.setAp rfl ?_
      simp only [Config.bufferWords, List.length_append, List.length_singleton] at room ⊢
      omega
    · exact h.portError
  all_goals exact h.portError

theorem writeAccAddr (h : Quiet s t) {w : Word} : Quiet s (t.writeAccAddr w) := by
  unfold State.writeAccAddr
  split
  · exact h.portError
  · exact h.setAp

/-! ### Register writes and window reads (chapters 10 and 11) -/

theorem writeGeometry (h : Quiet s t) {reg : GeometryReg} {w : Word} : Quiet s (t.writeGeometry reg w) := by
  unfold State.writeGeometry
  split
  · exact h.configIgnored
  next absent => exact h.setSm (.setGeometry _ _ _ (by simpa using absent)) (SlotManager.readers_setGeometry _ _ _)

theorem writeMcCfg (h : Quiet s t) {w : Word} : Quiet s (t.writeMcCfg w) := by
  unfold State.writeMcCfg
  split
  · exact h.configIgnored
  · split
    · exact h.configIgnored
    · exact h.of_eq

theorem writeArbCfg (h : Quiet s t) {w : Word} : Quiet s (t.writeArbCfg w) := by
  unfold State.writeArbCfg
  split
  · exact h.configIgnored
  · exact h.setArb

theorem clearCounter (h : Quiet s t) {c : CounterName} : Quiet s (t.clearCounter c) := by
  unfold State.clearCounter
  split
  · exact h.modInput_of_eq
  · exact h.modOutput
  all_goals exact h.of_eq

end Quiet

end Sys2Proof.Machine
end

