-- ==== Sys2Proof/Proofs/Locations.lean ====
section
/-! Where every slot is while a command runs. A slot on its way from one list to another is in limbo: in no list, its record
not yet that of its next place. `SlotManager.Sound` says that every other slot is where its record says (R6), and that the
sequence numbers of the ready lists are in order (R11). -/

namespace Sys2Proof.Machine

-- One theorem after another, as in the tests: many of them at once would need a thread each.
set_option Elab.async false

/-! ### Places -/

/-- The lists that can hold a slot: the free list, the ready lists and the fill contexts, whose entries are OPEN or CLOSED. -/
inductive Place
  | free
  | ready (n : Fin 4)
  | fill (n : Fin 4) (closed : Bool)

/-- The list that a record names as its slot's place; none for DRAINING and HELD, which are no lists (R6). -/
def SlotRecord.place (r : SlotRecord) : Option Place :=
  match r.state, r.owner with
  | .free, _ => some .free
  | .ready, some n => some (.ready n)
  | .filling, some n => some (.fill n false)
  | .closed, some n => some (.fill n true)
  | _, _ => none

/-- The record has an owner exactly in the states that have one (R5). -/
def SlotRecord.ownerOk (r : SlotRecord) : Prop :=
  r.owner.isSome = true ↔ r.state = .filling ∨ r.state = .closed ∨ r.state = .ready

/-- The entries of the four fill contexts. -/
abbrev Fills := Fin 4 → List (Nat × Bool)

/-- A list holds a slot. -/
def SlotManager.holds (sm : SlotManager) (fills : Fills) : Place → Nat → Prop
  | .free, k => k ∈ sm.free
  | .ready n, k => k ∈ sm.readyOf n
  | .fill n closed, k => (k, closed) ∈ fills n

/-- No list holds a slot twice. -/
structure SlotManager.ListsNodup (sm : SlotManager) (fills : Fills) : Prop where
  free : sm.free.Nodup
  ready : ∀ n, (sm.readyOf n).Nodup
  fill : ∀ n, ((fills n).map Prod.fst).Nodup

/-- The ready lists' sequence numbers rise from oldest to newest, and no entry lies more than `d` behind its counter. -/
def SlotManager.Sequenced (d : Nat) (sm : SlotManager) : Prop :=
  ∀ n, (∀ k ∈ sm.readyOf n, (sm.slot k).sequence.isSome = true ∧ 1 ≤ sm.behind n k ∧ sm.behind n k ≤ d) ∧
    (sm.readyOf n).Pairwise fun older newer => sm.behind n newer < sm.behind n older

/-- Every slot but those in limbo is in the one place that its record names, those in limbo are in none; and, when `q` holds,
the ready lists are in sequence. -/
structure SlotManager.Sound (q : Prop) (d : Nat) (sm : SlotManager) (fills : Fills) (limbo : List Nat) : Prop where
  built : sm.built = true → sm.slots.length = sm.count.toNat
  absent : sm.built = false → sm.slots = []
  nodup : sm.ListsNodup fills
  limboNodup : limbo.Nodup
  limboLt : ∀ k ∈ limbo, k < sm.slots.length
  limboOut : ∀ k ∈ limbo, ∀ p, ¬ sm.holds fills p k
  placed : ∀ k, k ∉ limbo → ∀ p, sm.holds fills p k ↔ k < sm.slots.length ∧ (sm.slot k).place = some p
  owner : ∀ k, k ∉ limbo → k < sm.slots.length → (sm.slot k).ownerOk
  sequenced : q → sm.Sequenced d

/-! ### Records and places -/

theorem SlotRecord.place_congr {r r' : SlotRecord} (hs : r'.state = r.state) (ho : r'.owner = r.owner) :
    r'.place = r.place := by simp [SlotRecord.place, hs, ho]

theorem SlotRecord.ownerOk_congr {r r' : SlotRecord} (hs : r'.state = r.state) (ho : r'.owner = r.owner) :
    r'.ownerOk ↔ r.ownerOk := by simp [SlotRecord.ownerOk, hs, ho]

theorem SlotRecord.place_eq_free {r : SlotRecord} : r.place = some .free ↔ r.state = .free := by
  unfold SlotRecord.place
  split <;> simp_all

theorem SlotRecord.place_eq_ready {r : SlotRecord} {n : Fin 4} :
    r.place = some (.ready n) ↔ r.state = .ready ∧ r.owner = some n := by
  unfold SlotRecord.place
  split <;> simp_all

theorem SlotRecord.place_eq_open {r : SlotRecord} {n : Fin 4} :
    r.place = some (.fill n false) ↔ r.state = .filling ∧ r.owner = some n := by
  unfold SlotRecord.place
  split <;> simp_all

theorem SlotRecord.place_eq_closed {r : SlotRecord} {n : Fin 4} :
    r.place = some (.fill n true) ↔ r.state = .closed ∧ r.owner = some n := by
  unfold SlotRecord.place
  split <;> simp_all

/-- A DRAINING or HELD slot is in no list. -/
theorem SlotRecord.place_eq_none {r : SlotRecord} (h : r.state = .draining ∨ r.state = .held) : r.place = none := by
  unfold SlotRecord.place
  rcases h with h | h <;> simp [h]

/-- Beyond the records there are only fresh ones, which are FREE. -/
theorem SlotManager.slot_lt_of_state_ne_free {sm : SlotManager} {k : Nat} (h : (sm.slot k).state ≠ .free) :
    k < sm.slots.length := by
  by_contra hk
  exact h (by simp [SlotManager.slot, hk, SlotRecord.fresh])

/-! ### Sequence numbers -/

theorem SlotManager.Sequenced.mono {d d' : Nat} {sm : SlotManager} (h : sm.Sequenced d) (hd : d ≤ d') :
    sm.Sequenced d' := fun n =>
  ⟨fun k hk => by obtain ⟨h1, h2, h3⟩ := (h n).1 k hk; exact ⟨h1, h2, h3.trans hd⟩, (h n).2⟩

/-- Ready lists that only lose entries stay in sequence. -/
theorem SlotManager.Sequenced.shrink {d : Nat} {sm sm' : SlotManager} (h : sm.Sequenced d)
    (hl : ∀ n, (sm'.readyOf n).Sublist (sm.readyOf n))
    (hs : ∀ n, ∀ k ∈ sm'.readyOf n, sm'.seqOf n = sm.seqOf n ∧ (sm'.slot k).sequence = (sm.slot k).sequence) :
    sm'.Sequenced d := by
  intro n
  have hb : ∀ k ∈ sm'.readyOf n, sm'.behind n k = sm.behind n k := fun k hk => by
    simp [SlotManager.behind, hs n k hk]
  refine ⟨fun k hk => ?_, ((h n).2.sublist (hl n)).imp_of_mem fun {a b} ha hb' hlt => ?_⟩
  · rw [(hs n k hk).2, hb k hk]
    exact (h n).1 k ((hl n).subset hk)
  · rwa [hb _ ha, hb _ hb']

namespace SlotManager.Sound

variable {q : Prop} {d : Nat} {sm sm' : SlotManager} {fills fills' : Fills} {limbo : List Nat} {k : Nat}

theorem mono {d' : Nat} (h : sm.Sound q d fills limbo) (hd : d ≤ d') : sm.Sound q d' fills limbo :=
  { h with sequenced := fun hq => (h.sequenced hq).mono hd }

/-- A slot manager that differs in nothing that places a slot. -/
theorem alike (h : sm.Sound q d fills limbo) (ha : sm.Alike sm') : sm'.Sound q d fills limbo := by
  have hready : ∀ n, sm'.readyOf n = sm.readyOf n := fun n => by simp [SlotManager.readyOf, ha.ready]
  have hholds : ∀ p j, sm'.holds fills p j ↔ sm.holds fills p j := fun p j => by
    cases p <;> simp [SlotManager.holds, hready, ha.free]
  have hplace : ∀ j, (sm'.slot j).place = (sm.slot j).place := fun j => SlotRecord.place_congr (ha.state j) (ha.owner j)
  exact {
    built := fun hb => by
      have hb' : sm.built = true := ha.built ▸ hb
      rw [ha.length, ha.count hb', h.built hb']
    absent := fun hb => by
      have := h.absent (ha.built ▸ hb)
      exact List.length_eq_zero_iff.1 (by rw [ha.length, this, List.length_nil])
    nodup := ⟨ha.free ▸ h.nodup.free, fun n => hready n ▸ h.nodup.ready n, h.nodup.fill⟩
    limboNodup := h.limboNodup
    limboLt := ha.length ▸ h.limboLt
    limboOut := fun j hj p => by rw [hholds]; exact h.limboOut j hj p
    placed := fun j hj p => by rw [hholds, ha.length, hplace]; exact h.placed j hj p
    owner := fun j hj hlt => (SlotRecord.ownerOk_congr (ha.state j) (ha.owner j)).2 (h.owner j hj (ha.length ▸ hlt))
    sequenced := fun hq => (h.sequenced hq).shrink (fun n => by rw [hready]) fun n j _ =>
      ⟨by simp [SlotManager.seqOf, ha.nextSeq], ha.sequence j⟩ }

/-- A slot in limbo may get any record. -/
theorem modSlot (h : sm.Sound q d fills limbo) (hk : k ∈ limbo) (f : SlotRecord → SlotRecord) :
    (sm.modSlot k f).Sound q d fills limbo := by
  have hslot : ∀ j, j ≠ k → (sm.modSlot k f).slot j = sm.slot j := fun j hj => by
    rw [SlotManager.slot_modSlot, if_neg fun hc => hj hc.1.symm]
  have hholds : ∀ p j, (sm.modSlot k f).holds fills p j ↔ sm.holds fills p j := fun p j => by cases p <;> rfl
  have hlen : (sm.modSlot k f).slots.length = sm.slots.length := sm.modSlot_length k f
  exact {
    built := hlen ▸ h.built
    absent := fun hb => List.length_eq_zero_iff.1 (by rw [hlen, h.absent hb, List.length_nil])
    nodup := ⟨h.nodup.free, h.nodup.ready, h.nodup.fill⟩
    limboNodup := h.limboNodup
    limboLt := hlen ▸ h.limboLt
    limboOut := fun j hj p => by rw [hholds]; exact h.limboOut j hj p
    placed := fun j hj p => by
      rw [hholds, hlen, hslot j fun hc => hj (hc ▸ hk)]
      exact h.placed j hj p
    owner := fun j hj hlt => by
      rw [hslot j fun hc => hj (hc ▸ hk)]
      exact h.owner j hj (hlen ▸ hlt)
    sequenced := fun hq => (h.sequenced hq).shrink (fun n => .refl _) fun n j hj =>
      ⟨rfl, by rw [hslot j fun hc => h.limboOut k hk (.ready n) (hc ▸ hj)]⟩ }

/-! ### Taking slots out of a list -/

/-- Slots leave for limbo the lists, those with `ps`, that held them. -/
theorem take (h : sm.Sound q d fills limbo) (ps : Place → Prop) {moved : List Nat}
    (hslots : sm'.slots = sm.slots ∧ sm'.built = sm.built ∧ sm'.count = sm.count) (hnodup : sm'.ListsNodup fills')
    (hmoved : moved.Nodup) (hheld : ∀ j ∈ moved, ∃ p, ps p ∧ sm.holds fills p j)
    (hsame : ∀ p, ¬ ps p → ∀ j, sm'.holds fills' p j ↔ sm.holds fills p j)
    (hleft : ∀ p, ps p → ∀ j, sm'.holds fills' p j ↔ sm.holds fills p j ∧ j ∉ moved)
    (hseq : sm.Sequenced d → sm'.Sequenced d) : sm'.Sound q d fills' (moved ++ limbo) := by
  obtain ⟨hs, hbuilt, hcount⟩ := hslots
  have hslot : ∀ j, sm'.slot j = sm.slot j := fun j => by simp [SlotManager.slot, hs]
  have hplace : ∀ j ∈ moved, j ∉ limbo ∧ ∃ p, ps p ∧ j < sm.slots.length ∧ (sm.slot j).place = some p := fun j hj => by
    obtain ⟨p, hp, hheld⟩ := hheld j hj
    have hout : j ∉ limbo := fun hl => h.limboOut j hl p hheld
    exact ⟨hout, p, hp, (h.placed j hout p).1 hheld⟩
  have hholds : ∀ p j, sm'.holds fills' p j ↔ sm.holds fills p j ∧ j ∉ moved := fun p j => by
    by_cases hp : ps p
    · exact hleft p hp j
    · rw [hsame p hp, iff_self_and]
      intro hj hm
      obtain ⟨hout, p', hp', _, hplace⟩ := hplace j hm
      have := ((h.placed j hout p).1 hj).2
      exact hp (Option.some_injective _ (this.symm.trans hplace) ▸ hp')
  exact {
    built := fun hb => by rw [hs, hcount, h.built (hbuilt ▸ hb)]
    absent := fun hb => by rw [hs, h.absent (hbuilt ▸ hb)]
    nodup := hnodup
    limboNodup := List.nodup_append.2 ⟨hmoved, h.limboNodup, fun a ha b hb hab => (hplace a ha).1 (hab ▸ hb)⟩
    limboLt := fun j hj => by
      rw [hs]
      refine (List.mem_append.1 hj).elim (fun hm => ?_) (h.limboLt j)
      obtain ⟨_, _, _, hlt, _⟩ := hplace j hm
      exact hlt
    limboOut := fun j hj p' => by
      rw [hholds]
      exact (List.mem_append.1 hj).elim (fun hm hc => hc.2 hm) fun hl hc => h.limboOut j hl p' hc.1
    placed := fun j hj p' => by
      rw [List.mem_append, not_or] at hj
      rw [hholds, hs, hslot, and_iff_left hj.1]
      exact h.placed j hj.2 p'
    owner := fun j hj hlt => by
      rw [List.mem_append, not_or] at hj
      rw [hslot]
      exact h.owner j hj.2 (hs ▸ hlt)
    sequenced := fun hq => hseq (h.sequenced hq) }

/-- The head of the free list is taken. -/
theorem takeFree (h : sm.Sound q d fills limbo) {rest : List Nat} (hf : sm.free = k :: rest) :
    ({ sm with free := rest } : SlotManager).Sound q d fills (k :: limbo) := by
  have hnd := h.nodup.free
  rw [hf, List.nodup_cons] at hnd
  refine h.take (· = .free) (moved := [k]) ⟨rfl, rfl, rfl⟩ ⟨hnd.2, h.nodup.ready, h.nodup.fill⟩
    (List.nodup_singleton k) ?_ ?_ ?_ fun hs => hs.shrink (fun _ => .refl _) fun _ _ _ => ⟨rfl, rfl⟩
  · simp [SlotManager.holds, hf]
  · intro p hp j
    cases p
    case free => exact absurd rfl hp
    all_goals rfl
  · rintro p rfl j
    simp only [SlotManager.holds, hf, List.mem_cons, List.not_mem_nil, or_false]
    grind

/-- Entries are taken out of a ready list, the others keep their order. -/
theorem takeReady (h : sm.Sound q d fills limbo) (n : Fin 4) {moved l : List Nat}
    (hp : (moved ++ l).Perm (sm.readyOf n)) (hl : l.Sublist (sm.readyOf n)) :
    (sm.setReady n l).Sound q d fills (moved ++ limbo) := by
  have hnd := List.nodup_append.1 (hp.nodup_iff.2 (h.nodup.ready n))
  refine h.take (· = .ready n) ⟨rfl, rfl, rfl⟩ ⟨h.nodup.free, fun i => ?_, h.nodup.fill⟩ hnd.1 ?_ ?_ ?_ ?_
  · rw [SlotManager.readyOf_setReady]
    split
    · exact hnd.2.1
    · exact h.nodup.ready i
  · exact fun j hj => ⟨_, rfl, hp.mem_iff.1 (List.mem_append_left _ hj)⟩
  · intro p hpn j
    cases p
    case ready i =>
      have hi : n ≠ i := fun hc => hpn (hc ▸ rfl)
      simp [SlotManager.holds, hi]
    all_goals rfl
  · rintro p rfl j
    simp only [SlotManager.holds, SlotManager.readyOf_setReady, if_true, ← hp.mem_iff, List.mem_append]
    have := hnd.2.2
    grind
  · refine fun hs => hs.shrink (fun i => ?_) fun _ _ _ => ⟨rfl, rfl⟩
    rw [SlotManager.readyOf_setReady]
    split
    next hi => exact hi ▸ hl
    · exact .refl _

/-- Entries are taken out of a fill context. -/
theorem takeFill (h : sm.Sound q d fills limbo) (n : Fin 4) {moved l : List (Nat × Bool)}
    (hp : (moved ++ l).Perm (fills n)) :
    sm.Sound q d (Function.update fills n l) (moved.map Prod.fst ++ limbo) := by
  have hnd := h.nodup.fill n
  rw [← (hp.map Prod.fst).nodup_iff, List.map_append, List.nodup_append] at hnd
  refine h.take (fun p => ∃ closed, p = .fill n closed) ⟨rfl, rfl, rfl⟩
    ⟨h.nodup.free, h.nodup.ready, fun i => ?_⟩ hnd.1 (fun j hj => ?_) (fun p hpn j => ?_) ?_ id
  · by_cases hi : i = n
    · subst hi; simpa using hnd.2.1
    · simpa [hi] using h.nodup.fill i
  · obtain ⟨⟨_, closed⟩, he, rfl⟩ := List.mem_map.1 hj
    exact ⟨_, ⟨closed, rfl⟩, hp.mem_iff.1 (List.mem_append_left _ he)⟩
  · cases p
    case fill i closed =>
      have hi : i ≠ n := fun hc => hpn ⟨closed, hc ▸ rfl⟩
      simp [SlotManager.holds, hi]
    all_goals rfl
  · rintro p ⟨closed, rfl⟩ j
    have hdisjoint := hnd.2.2
    simp only [SlotManager.holds, Function.update_self, ← hp.mem_iff, List.mem_append, List.mem_map] at hdisjoint ⊢
    grind

/-- A DRAINING or HELD slot goes into limbo. -/
theorem takeAway (h : sm.Sound q d fills limbo) (hk : k < sm.slots.length) (hl : k ∉ limbo)
    (hs : (sm.slot k).state = .draining ∨ (sm.slot k).state = .held) : sm.Sound q d fills (k :: limbo) := by
  have hnone := SlotRecord.place_eq_none hs
  exact { h with
    limboNodup := List.nodup_cons.2 ⟨hl, h.limboNodup⟩
    limboLt := List.forall_mem_cons.2 ⟨hk, h.limboLt⟩
    limboOut := List.forall_mem_cons.2 ⟨fun p => by simp [h.placed k hl p, hnone], h.limboOut⟩
    placed := fun j hj => h.placed j fun hc => hj (List.mem_cons_of_mem _ hc)
    owner := fun j hj => h.owner j fun hc => hj (List.mem_cons_of_mem _ hc) }

/-! ### Putting a slot into a list -/

/-- A slot leaves limbo for the place that its record names, if it names one. -/
theorem put (h : sm.Sound q d fills (k :: limbo)) {d' : Nat}
    (hslots : sm'.slots = sm.slots ∧ sm'.built = sm.built ∧ sm'.count = sm.count) (hnodup : sm'.ListsNodup fills')
    (hholds : ∀ p j, sm'.holds fills' p j ↔ sm.holds fills p j ∨ ((sm.slot k).place = some p ∧ j = k))
    (howner : (sm.slot k).ownerOk) (hseq : sm.Sequenced d → sm'.Sequenced d') : sm'.Sound q d' fills' limbo := by
  obtain ⟨hs, hbuilt, hcount⟩ := hslots
  have hslot : ∀ j, sm'.slot j = sm.slot j := fun j => by simp [SlotManager.slot, hs]
  obtain ⟨hk, hnd⟩ := List.nodup_cons.1 h.limboNodup
  obtain ⟨hklt, hlt⟩ := List.forall_mem_cons.1 h.limboLt
  obtain ⟨hkout, hout⟩ := List.forall_mem_cons.1 h.limboOut
  exact {
    built := fun hb => by rw [hs, hcount, h.built (hbuilt ▸ hb)]
    absent := fun hb => by rw [hs, h.absent (hbuilt ▸ hb)]
    nodup := hnodup
    limboNodup := hnd
    limboLt := hs ▸ hlt
    limboOut := fun j hj p => by
      rw [hholds]
      exact fun hc => hc.elim (hout j hj p) fun hc => hk (hc.2 ▸ hj)
    placed := fun j hj p => by
      rw [hholds, hs, hslot]
      by_cases hjk : j = k
      · subst hjk; simp [hkout p, hklt]
      · simp [hjk, h.placed j (by simp [hjk, hj]) p]
    owner := fun j hj hjlt => by
      rw [hslot]
      by_cases hjk : j = k
      · exact hjk ▸ howner
      · exact h.owner j (by simp [hjk, hj]) (hs ▸ hjlt)
    sequenced := fun hq => hseq (h.sequenced hq) }

/-- A DRAINING or HELD slot without owner needs no list. -/
theorem putAway (h : sm.Sound q d fills (k :: limbo)) (hs : (sm.slot k).state = .draining ∨ (sm.slot k).state = .held)
    (ho : (sm.slot k).owner = none) : sm.Sound q d fills limbo :=
  h.put ⟨rfl, rfl, rfl⟩ h.nodup (fun p j => by simp [SlotRecord.place_eq_none hs])
    (by rcases hs with hs | hs <;> simp [SlotRecord.ownerOk, hs, ho]) id

theorem putFree (h : sm.Sound q d fills (k :: limbo)) (hs : (sm.slot k).state = .free) (ho : (sm.slot k).owner = none) :
    ({ sm with free := sm.free ++ [k] } : SlotManager).Sound q d fills limbo := by
  have hplace := SlotRecord.place_eq_free.2 hs
  have hout : k ∉ sm.free := h.limboOut k (by simp) .free
  refine h.put ⟨rfl, rfl, rfl⟩ ⟨?_, h.nodup.ready, h.nodup.fill⟩ (fun p j => ?_)
    (by simp [SlotRecord.ownerOk, hs, ho]) fun hsq => hsq.shrink (fun _ => .refl _) fun _ _ _ => ⟨rfl, rfl⟩
  · simpa [List.nodup_append, h.nodup.free] using fun a ha (hc : a = k) => hout (hc ▸ ha)
  · rw [hplace]
    cases p <;> simp [SlotManager.holds, SlotManager.readyOf]

theorem putFill (h : sm.Sound q d fills (k :: limbo)) {n : Fin 4} {closed : Bool} {l : List (Nat × Bool)}
    (hp : l.Perm ((k, closed) :: fills n)) (hplace : (sm.slot k).place = some (.fill n closed)) :
    sm.Sound q d (Function.update fills n l) limbo := by
  have hout : ∀ i c, (k, c) ∉ fills i := fun i c => h.limboOut k (by simp) (.fill i c)
  refine h.put ⟨rfl, rfl, rfl⟩ ⟨h.nodup.free, h.nodup.ready, fun i => ?_⟩ (fun p j => ?_) ?_ id
  · by_cases hi : i = n
    · subst hi
      rw [Function.update_self, (hp.map _).nodup_iff, List.map_cons, List.nodup_cons]
      refine ⟨fun hc => ?_, h.nodup.fill i⟩
      obtain ⟨⟨_, c⟩, hmem, rfl⟩ := List.mem_map.1 hc
      exact hout i c hmem
    · simpa [hi] using h.nodup.fill i
  · rw [hplace]
    cases p
    case fill i c =>
      by_cases hi : i = n
      · subst hi
        simp only [SlotManager.holds, Function.update_self, hp.mem_iff, List.mem_cons, Prod.mk.injEq, Option.some.injEq,
          Place.fill.injEq]
        grind
      · have hi' : n ≠ i := fun hc => hi hc.symm
        simp [SlotManager.holds, hi, hi']
    all_goals simp [SlotManager.holds]
  · cases closed
    · obtain ⟨hs, ho⟩ := SlotRecord.place_eq_open.1 hplace
      simp [SlotRecord.ownerOk, hs, ho]
    · obtain ⟨hs, ho⟩ := SlotRecord.place_eq_closed.1 hplace
      simp [SlotRecord.ownerOk, hs, ho]

/-- A slot that took the next sequence number joins a ready list at its newest end, and the counter steps on (R61). -/
theorem putReady (h : sm.Sound q d fills (k :: limbo)) {n : Fin 4} (hplace : (sm.slot k).place = some (.ready n))
    (hseq : (sm.slot k).sequence = some (sm.seqOf n)) (hd : d + 1 < 2 ^ 32) :
    ((sm.setReady n (sm.readyOf n ++ [k])).setSeq n (sm.seqOf n + 1)).Sound q (d + 1) fills limbo := by
  have hout : ∀ i, k ∉ sm.readyOf i := fun i => h.limboOut k (by simp) (.ready i)
  obtain ⟨hs, ho⟩ := SlotRecord.place_eq_ready.1 hplace
  refine h.put ⟨rfl, rfl, rfl⟩ ⟨h.nodup.free, fun i => ?_, h.nodup.fill⟩ (fun p j => ?_)
    (by simp [SlotRecord.ownerOk, hs, ho]) fun hsq i => ?_
  · by_cases hi : n = i
    · subst hi
      simpa [List.nodup_append, h.nodup.ready n] using fun a ha (hc : a = k) => hout n (hc ▸ ha)
    · simpa [hi] using h.nodup.ready i
  · rw [hplace]
    cases p
    case ready i => by_cases hi : n = i <;> simp [SlotManager.holds, hi]
    all_goals simp [SlotManager.holds]
  · obtain ⟨hb, hpw⟩ := hsq i
    by_cases hi : n = i
    · subst hi
      -- the counter steps on by one, so every older entry lies one further behind
      have hold : ∀ j, 1 ≤ sm.behind n j → sm.behind n j ≤ d →
          ((sm.setReady n (sm.readyOf n ++ [k])).setSeq n (sm.seqOf n + 1)).behind n j = sm.behind n j + 1 := by
        intro j h1 h2
        simp only [SlotManager.behind, SlotManager.seqOf_setSeq, if_true, SlotManager.slot_setSeq,
          SlotManager.slot_setReady] at h1 h2 ⊢
        bv_omega
      have hnew : ((sm.setReady n (sm.readyOf n ++ [k])).setSeq n (sm.seqOf n + 1)).behind n k = 1 := by
        simp [SlotManager.behind, hseq]
      simp only [SlotManager.readyOf_setSeq, SlotManager.readyOf_setReady, if_true, SlotManager.slot_setSeq,
        SlotManager.slot_setReady]
      refine ⟨fun j hj => ?_, List.pairwise_append.2 ⟨hpw.imp_of_mem fun {a b} ha hb' hlt => ?_,
        List.pairwise_singleton _ _, fun a ha b hb' => ?_⟩⟩
      · rcases List.mem_append.1 hj with hj | hj
        · obtain ⟨h1, h2, h3⟩ := hb j hj
          rw [hold j h2 h3]
          exact ⟨h1, by omega, by omega⟩
        · rw [List.mem_singleton.1 hj, hnew, hseq]
          exact ⟨rfl, by omega, by omega⟩
      · obtain ⟨_, ha1, ha2⟩ := hb a ha
        obtain ⟨_, hb1, hb2⟩ := hb b hb'
        rw [hold a ha1 ha2, hold b hb1 hb2]
        omega
      · obtain ⟨_, ha1, ha2⟩ := hb a ha
        rw [List.mem_singleton.1 hb', hnew, hold a ha1 ha2]
        omega
    · have hbehind : ∀ j, ((sm.setReady n (sm.readyOf n ++ [k])).setSeq n (sm.seqOf n + 1)).behind i j = sm.behind i j :=
        fun j => by simp [SlotManager.behind, hi]
      simp only [hbehind, SlotManager.readyOf_setSeq, SlotManager.readyOf_setReady, hi, if_false, SlotManager.slot_setSeq,
        SlotManager.slot_setReady]
      exact ⟨fun j hj => by obtain ⟨h1, h2, h3⟩ := hb j hj; exact ⟨h1, h2, by omega⟩, hpw⟩

/-- The counter of an input without ready entries may be set (R23). -/
theorem setSeq (h : sm.Sound q d fills limbo) {n : Fin 4} (hn : sm.readyOf n = []) (w : Word) :
    (sm.setSeq n w).Sound q d fills limbo := by
  have hholds : ∀ p j, (sm.setSeq n w).holds fills p j ↔ sm.holds fills p j := fun p j => by cases p <;> rfl
  exact {
    built := h.built
    absent := h.absent
    nodup := ⟨h.nodup.free, h.nodup.ready, h.nodup.fill⟩
    limboNodup := h.limboNodup
    limboLt := h.limboLt
    limboOut := fun j hj p => by rw [hholds]; exact h.limboOut j hj p
    placed := fun j hj p => by rw [hholds]; exact h.placed j hj p
    owner := h.owner
    sequenced := fun hq => (h.sequenced hq).shrink (fun _ => .refl _) fun i j hj => by
      have hi : n ≠ i := fun hc => by subst hc; rw [SlotManager.readyOf_setSeq, hn] at hj; cases hj
      simp [hi] }

/-! ### The slot manager's primitives (R10, R16, R19) -/

theorem toFree (h : sm.Sound q d fills (k :: limbo)) : (sm.toFree k).Sound q d fills limbo := by
  have hk : k < sm.slots.length := h.limboLt k (by simp)
  exact (h.modSlot (by simp) fun r => r.movedTo .free).putFree (by simp [hk, SlotRecord.movedTo])
    (by simp [hk, SlotRecord.movedTo])

theorem retire (h : sm.Sound q d fills (k :: limbo)) : (sm.retire k).Sound q d fills limbo := by
  have hk : k < sm.slots.length := h.limboLt k (by simp)
  unfold SlotManager.retire
  split
  · exact h.toFree
  · exact (h.modSlot (by simp) fun r => r.movedTo .draining).putAway (by simp [hk, SlotRecord.movedTo])
      (by simp [hk, SlotRecord.movedTo])

theorem retireAll {ks : List Nat} (h : sm.Sound q d fills (ks ++ limbo)) : (sm.retireAll ks).Sound q d fills limbo := by
  induction ks generalizing sm with
  | nil => exact h
  | cons k ks ih => exact ih h.retire

theorem toFreeAll {ks : List Nat} (h : sm.Sound q d fills (ks ++ limbo)) : (sm.toFreeAll ks).Sound q d fills limbo := by
  induction ks generalizing sm with
  | nil => exact h
  | cons k ks ih => exact ih h.toFree

theorem leave (h : sm.Sound q d fills []) (m : Fin 6) (k : Nat) : (sm.leave m k).Sound q d fills [] := by
  have hleft := h.alike (.modSlot sm k (f := fun r => { r with readers := r.readers &&& ~~~readerBit m }))
  unfold SlotManager.leave
  dsimp only
  split
  next hc =>
    simp only [Bool.and_eq_true, decide_eq_true_eq] at hc
    have hk : k < (sm.modSlot k _).slots.length := slot_lt_of_state_ne_free (by rw [hc.1]; exact nofun)
    exact (hleft.takeAway hk List.not_mem_nil (.inl hc.1)).toFree
  · exact hleft

end SlotManager.Sound

end Sys2Proof.Machine
end

