-- ==== Sys2Proof/Proofs/SlotsKept.lean ====
section
/-! Every operation of the model keeps every slot in its place and the ready lists in sequence (R6, R11). -/

namespace Sys2Proof.Machine

-- One theorem after another, as in the tests: many of them at once would need a thread each.
set_option Elab.async false

/-- The entries of every fill context. -/
def State.fills (s : State) : Fills := fun n => (s.input n).entries

/-- The slots of a state are in their places, but for those in limbo. -/
abbrev State.Sound (q : Prop) (d : Nat) (s : State) (limbo : List Nat) : Prop := s.sm.Sound q d s.fills limbo

/-- A fill context holds at most two entries, and only the last may be OPEN (R29). -/
def State.Shaped (s : State) (n : Fin 4) : Prop :=
  (s.fills n).length ≤ 2 ∧ ∀ e ∈ (s.fills n).dropLast, e.2 = true

/-! ### The invariants of Safety.lean -/

theorem SlotManager.readyOf_retireAll (sm : SlotManager) (ks : List Nat) (n : Fin 4) :
    (sm.retireAll ks).readyOf n = sm.readyOf n := by
  induction ks generalizing sm with
  | nil => rfl
  | cons k ks ih =>
    rw [SlotManager.retireAll, ih]
    unfold SlotManager.retire
    split <;> rfl

theorem mem_fills_iff {s : State} {n : Fin 4} {k : Nat} {closed : Bool} :
    (k, closed) ∈ s.fills n ↔ s.inFill n closed k := by
  simp [State.fills, InputChannel.entries, FrameEntry.mark, State.inFill]

theorem fills_map_fst (s : State) (n : Fin 4) : (s.fills n).map Prod.fst = (s.input n).fill.map FrameEntry.slot := by
  simp [State.fills, InputChannel.entries, FrameEntry.mark, Function.comp_def]

theorem State.Sound.of_locationsOk {q : Prop} {d : Nat} {s : State} (h : s.locationsOk) (hq : q → s.sm.Sequenced d) :
    s.Sound q d [] := by
  obtain ⟨hbuilt, habsent, hfreeNodup, hfree, hready, hfill, howner⟩ := h
  exact {
    built := hbuilt
    absent := habsent
    nodup := ⟨hfreeNodup, fun n => (hready n).1, fun n => fills_map_fst s n ▸ (hfill n).1⟩
    limboNodup := List.nodup_nil
    limboLt := fun k hk => nomatch hk
    limboOut := fun k hk => nomatch hk
    placed := fun k _ p => by
      match p with
      | .free => rw [SlotRecord.place_eq_free]; exact hfree k
      | .ready n => rw [SlotRecord.place_eq_ready]; exact (hready n).2 k
      | .fill n false =>
        rw [SlotRecord.place_eq_open]
        exact mem_fills_iff.trans ((hfill n).2.1 k)
      | .fill n true =>
        rw [SlotRecord.place_eq_closed]
        exact mem_fills_iff.trans ((hfill n).2.2 k)
    owner := fun k _ => howner k
    sequenced := hq }

theorem State.Sound.locationsOk {q : Prop} {d : Nat} {s : State} (h : s.Sound q d []) : s.locationsOk := by
  have hplaced : ∀ p k, s.sm.holds s.fills p k ↔ k < s.sm.slots.length ∧ (s.sm.slot k).place = some p :=
    fun p k => h.placed k List.not_mem_nil p
  refine ⟨h.built, h.absent, h.nodup.free, fun k => ?_, fun n => ⟨h.nodup.ready n, fun k => ?_⟩,
    fun n => ⟨fills_map_fst s n ▸ h.nodup.fill n, fun k => ?_, fun k => ?_⟩, fun k => h.owner k List.not_mem_nil⟩
  · rw [← SlotRecord.place_eq_free]; exact hplaced .free k
  · rw [← SlotRecord.place_eq_ready]; exact hplaced (.ready n) k
  · rw [← SlotRecord.place_eq_open, ← mem_fills_iff]; exact hplaced (.fill n false) k
  · rw [← SlotRecord.place_eq_closed, ← mem_fills_iff]; exact hplaced (.fill n true) k

/-- The two statements about sequence numbers together say that the ready lists are in sequence. -/
theorem sequenced_iff {s : State} {d : Nat} : s.sm.Sequenced d ↔ s.sequencesOk ∧ s.sequencesWithin d := by
  constructor
  · intro h
    exact ⟨fun n => ⟨fun k hk => ⟨((h n).1 k hk).1, ((h n).1 k hk).2.1⟩, (h n).2⟩, fun n k hk => ((h n).1 k hk).2.2⟩
  · intro ⟨hok, hwithin⟩ n
    exact ⟨fun k hk => ⟨((hok n).1 k hk).1, ((hok n).1 k hk).2, hwithin n k hk⟩, (hok n).2⟩

theorem State.Shaped.of_fillOk {s : State} {n : Fin 4} (h : (s.input n).fillOk) : s.Shaped n := by
  obtain ⟨hlen, hclosed, _⟩ := h
  refine ⟨by simpa [State.fills, InputChannel.entries] using hlen, fun e he => ?_⟩
  simp only [State.fills, InputChannel.entries, ← List.map_dropLast] at he
  obtain ⟨x, hx, rfl⟩ := List.mem_map.1 he
  exact hclosed x hx

/-! ### Changes that move no slot -/

theorem fills_modInput (s : State) (n : Fin 4) (f : InputChannel → InputChannel) :
    (s.modInput n f).fills = Function.update s.fills n (f (s.input n)).entries := by
  funext i
  by_cases hi : n = i
  · subst hi; simp [State.fills]
  · simp [State.fills, hi, Function.update_of_ne (Ne.symm hi)]

theorem Quiet.fills {s t : State} (h : Quiet s t) : t.fills = s.fills := funext h.entries

section

variable {q : Prop} {d : Nat} {s t : State} {limbo : List Nat}

theorem Quiet.sound (h : Quiet s t) (hs : s.Sound q d limbo) : t.Sound q d limbo := by
  unfold State.Sound
  rw [h.fills]
  exact hs.alike h.sm

theorem Quiet.shaped (h : Quiet s t) {n : Fin 4} (hs : s.Shaped n) : t.Shaped n := by
  unfold State.Shaped
  rw [h.fills]
  exact hs

theorem State.Sound.of_eq (hs : s.Sound q d limbo) (hsm : t.sm = s.sm) (hin : t.inputs = s.inputs) : t.Sound q d limbo := by
  have hfills : t.fills = s.fills := by funext n; simp [State.fills, State.input_eq_of_inputs_eq hin]
  unfold State.Sound
  rwa [hfills, hsm]

/-- A new slot manager beside the same fill contexts. -/
theorem State.Sound.setSm {sm : SlotManager} (h : sm.Sound q d s.fills limbo) : ({ s with sm := sm } : State).Sound q d limbo := h

/-- A change of an input, with the slot manager that its new fill context asks for. -/
theorem State.Sound.modInput {n : Fin 4} {f : InputChannel → InputChannel} {l : List (Nat × Bool)}
    (h : s.sm.Sound q d (Function.update s.fills n l) limbo) (hl : (f (s.input n)).entries = l) :
    (s.modInput n f).Sound q d limbo := by
  unfold State.Sound
  rw [fills_modInput, hl]
  exact h

/-! ### Publication (R61 to R65) -/

/-- The oldest ready entry is retired; no other slot moves. -/
theorem SlotManager.Sound.evictOldest {sm : SlotManager} {fills : Fills} (h : sm.Sound q d fills limbo) (n : Fin 4) :
    (sm.evictOldest n).Sound q d fills limbo := by
  unfold SlotManager.evictOldest
  split
  · exact h
  next k rest hr =>
    exact (h.takeReady n (moved := [k]) (l := rest) (by rw [hr]; rfl) (by rw [hr]; exact List.sublist_cons_self k rest)).retire

theorem SlotManager.seqOf_evictOldest (sm : SlotManager) (n i : Fin 4) : (sm.evictOldest n).seqOf i = sm.seqOf i := by
  unfold SlotManager.evictOldest SlotManager.retire
  (repeat' split) <;> rfl

/-- A slot in limbo is published by an input or by the host. -/
theorem State.Sound.publishSlot {k : Nat} (h : s.Sound q d (k :: limbo)) (n : Fin 4) (f : SlotRecord → SlotRecord)
    (hd : d + 1 < 2 ^ 32) : (s.publishSlot n k f).Sound q (d + 1) limbo := by
  have hevict : ∀ full : Bool,
      (if full then s.sm.evictOldest n else s.sm).Sound q d s.fills (k :: limbo) ∧
      (if full then s.sm.evictOldest n else s.sm).seqOf n = s.sm.seqOf n := fun full => by
    cases full
    · exact ⟨h, rfl⟩
    · exact ⟨h.evictOldest n, s.sm.seqOf_evictOldest n n⟩
  obtain ⟨hsound, hseq⟩ := hevict (s.sm.atQuota n (s.input n).cfg.quota)
  have hk := hsound.limboLt k (by simp)
  have hput := (hsound.modSlot (k := k) (by simp) fun r => { f r with
    sequence := some (s.sm.seqOf n), timestamp := some s.timeBase, state := .ready, owner := some n }).putReady
    (n := n) (by simp [hk, SlotRecord.place]) (by simp [hk, hseq]) hd
  rw [SlotManager.seqOf_modSlot, hseq] at hput
  unfold State.publishSlot
  dsimp only
  split
  · exact (Quiet.refl _).countIn.sound hput
  · exact hput

theorem entries_publishSlot (s : State) (n i : Fin 4) (k : Nat) (f : SlotRecord → SlotRecord) :
    ((s.publishSlot n k f).input i).entries = (s.input i).entries := by
  unfold State.publishSlot
  dsimp only
  split
  · exact ((Quiet.refl _).countIn.entries i)
  · rfl

/-- A publication, once its slot has been published, only counts and may complete the job. -/
theorem Quiet.publishEntry {n : Fin 4} {e : FrameEntry} {rest : List FrameEntry} :
    Quiet ((s.modInput n fun ch => { ch with fill := rest }).publishSlot n e.slot fun r => { r with short := e.shortMark })
      (s.publishEntry n e rest) := by
  unfold State.publishEntry
  dsimp only
  split
  · exact (Quiet.refl _).modInput_of_eq.raiseIn.raiseIn.stopCompletion
  · exact (Quiet.refl _).modInput_of_eq.raiseIn

theorem State.Sound.publishEntry {n : Fin 4} {e : FrameEntry} {rest : List FrameEntry} (h : s.Sound q d limbo)
    (hfill : (s.input n).entries = (e :: rest).map FrameEntry.mark) (hd : d + 1 < 2 ^ 32) :
    (s.publishEntry n e rest).Sound q (d + 1) limbo := by
  have htake : s.sm.Sound q d (Function.update s.fills n (rest.map FrameEntry.mark)) (e.slot :: limbo) :=
    h.takeFill n (moved := [e.mark]) (by rw [State.fills, hfill]; rfl)
  exact Quiet.publishEntry.sound (State.Sound.publishSlot (State.Sound.modInput htake rfl) n _ hd)

theorem entries_publishEntry (s : State) (n : Fin 4) (e : FrameEntry) (rest : List FrameEntry) :
    ((s.publishEntry n e rest).input n).entries = rest.map FrameEntry.mark := by
  rw [Quiet.publishEntry.entries n, entries_publishSlot]
  simp [InputChannel.entries]

theorem State.Sound.publishLoop {n : Fin 4} {l : List FrameEntry} (h : s.Sound q d limbo)
    (hfill : (s.input n).entries = l.map FrameEntry.mark) (hd : d + l.length < 2 ^ 32) :
    (s.publishLoop n l).Sound q (d + l.length) limbo := by
  induction l generalizing s d with
  | nil => exact h
  | cons e rest ih =>
    rw [List.length_cons] at hd ⊢
    unfold State.publishLoop
    split
    · have hnext := ih (h.publishEntry hfill (by omega)) (entries_publishEntry s n e rest) (by omega)
      exact hnext.mono (by omega)
    · exact h.mono (by omega)

/-! ### Leaving the fill context (R58, R59) -/

theorem State.Sound.leaveDiscards (h : s.Sound q d limbo) (n : Fin 4) : (s.leaveDiscards n).Sound q d limbo := by
  have htake := h.takeFill n (moved := ((s.input n).fill.filter (s.input n).discardable).map FrameEntry.mark)
    (l := ((s.input n).fill.filter fun e => !(s.input n).discardable e).map FrameEntry.mark)
    (by rw [← List.map_append]; exact (List.filter_append_perm _ _).map _)
  rw [List.map_map] at htake
  exact State.Sound.modInput htake.toFreeAll rfl

theorem fills_leaveDiscards_length (s : State) (n : Fin 4) :
    (((s.leaveDiscards n).input n).fill).length ≤ (s.fills n).length := by
  simp only [State.leaveDiscards, State.input_modInput, if_true, State.fills, InputChannel.entries, List.length_map]
  exact List.length_filter_le _ _

theorem State.Sound.settle {n : Fin 4} (h : s.Sound q d limbo) (hlen : (s.fills n).length ≤ 2) (hd : d + 2 < 2 ^ 32) :
    (s.settle n).Sound q (d + 2) limbo := by
  have hle := fills_leaveDiscards_length s n
  exact ((h.leaveDiscards n).publishLoop rfl (by omega)).mono (by omega)

/-! ### Closing the open entry (R32) -/

theorem FrameEntry.isClosed_iff (e : FrameEntry) : e.isClosed = true ↔ e.status ≠ .opened := by
  unfold FrameEntry.isClosed
  split <;> simp [*]

/-- Once every OPEN entry of a list has closed, all are CLOSED. -/
theorem map_mark_closed (l : List FrameEntry) (v : Verdict) (short : Bool) :
    (l.map fun x => if x.status = .opened then { x with status := .closed v, shortMark := short } else x).map
      FrameEntry.mark = l.map fun x => (x.slot, true) := by
  rw [List.map_map]
  refine List.map_congr_left fun x _ => ?_
  by_cases hx : x.status = .opened
  · simp [FrameEntry.mark, FrameEntry.isClosed, hx]
  · simpa [FrameEntry.mark, hx] using x.isClosed_iff.2 hx

/-- An OPEN entry closes in place, and its record with it. -/
theorem SlotManager.Sound.closeEntry {sm : SlotManager} {fills : Fills} (h : sm.Sound q d fills limbo) {n : Fin 4}
    {k : Nat} {l l' : List (Nat × Bool)} {f : SlotRecord → SlotRecord} (hl : (fills n).Perm ((k, false) :: l))
    (hl' : l'.Perm ((k, true) :: l)) (hstate : ∀ r, (f r).state = .closed) (howner : ∀ r, (f r).owner = r.owner) :
    (sm.modSlot k f).Sound q d (Function.update fills n l') limbo := by
  have htake := h.takeFill n (moved := [(k, false)]) (l := l) hl.symm
  obtain ⟨hklimbo, _⟩ := List.nodup_cons.1 htake.limboNodup
  obtain ⟨hk, hplace⟩ := (h.placed k hklimbo (.fill n false)).1 (hl.mem_iff.2 (by simp))
  obtain ⟨_, hown⟩ := SlotRecord.place_eq_open.1 hplace
  have hput := (htake.modSlot (k := k) (by simp) f).putFill (n := n) (closed := true) (l := l') (by simpa using hl')
    (SlotRecord.place_eq_closed.2 (by simp [hk, hstate, howner, hown]))
  simpa using hput

/-- In a well-shaped fill context the OPEN entry is the last one. -/
theorem openEntry_last {n : Fin 4} (hs : s.Shaped n) {e : FrameEntry} (he : (s.input n).openEntry = some e) :
    ∃ closed, (s.input n).fill = closed ++ [e] ∧
      s.fills n = closed.map (fun x => (x.slot, true)) ++ [(e.slot, false)] := by
  have hopen : e.status = .opened := by simpa using List.find?_some he
  have hmem : e ∈ (s.input n).fill := List.mem_of_find?_eq_some he
  obtain ⟨init, x, hfill⟩ : ∃ init x, (s.input n).fill = init ++ [x] :=
    ⟨_, _, (List.dropLast_append_getLast (List.ne_nil_of_mem hmem)).symm⟩
  have hclosed : ∀ y ∈ init, y.mark = (y.slot, true) := fun y hy => by
    have := hs.2 y.mark (by
      rw [State.fills, InputChannel.entries, hfill, ← List.map_dropLast, List.dropLast_concat]
      exact List.mem_map_of_mem hy)
    exact Prod.ext rfl this
  rw [hfill, List.mem_append, List.mem_singleton] at hmem
  rcases hmem with hmem | rfl
  · have := congrArg Prod.snd (hclosed e hmem)
    exact absurd hopen (e.isClosed_iff.1 this)
  · refine ⟨init, hfill, ?_⟩
    rw [State.fills, InputChannel.entries, hfill, List.map_append, List.map_congr_left hclosed]
    simp [FrameEntry.mark, FrameEntry.isClosed, hopen]

theorem State.Sound.closeOpen (h : s.Sound q d limbo) {n : Fin 4} (hs : s.Shaped n) (v : Verdict) (short : Bool) :
    (s.closeOpen n v short).Sound q d limbo := by
  unfold State.closeOpen
  split
  · exact h
  next e he =>
    obtain ⟨closed, hfill, hmarks⟩ := openEntry_last hs he
    have hclose := h.closeEntry (n := n) (k := e.slot) (l' := (s.input n).fill.map fun x => (x.slot, true))
      (f := fun r => { r with state := .closed, lineCount := some e.received })
      (hmarks ▸ List.perm_append_singleton _ _)
      (by rw [hfill, List.map_append]; exact List.perm_append_singleton _ _) (fun _ => rfl) fun _ => rfl
    have hclosedOpen := State.Sound.modInput (s := { s with sm := _ }) (f := fun ch => { ch with
        fill := ch.fill.map fun x => if x.status = .opened then { x with status := .closed v, shortMark := short } else x
        fifo := if v = .discard then dropLines e ch.fifo else ch.fifo }) hclose (map_mark_closed _ v short)
    dsimp only
    split
    · exact hclosedOpen.of_eq rfl rfl
    · exact hclosedOpen

theorem fills_closeOpen_length (s : State) (n : Fin 4) (v : Verdict) (short : Bool) :
    ((s.closeOpen n v short).fills n).length = (s.fills n).length := by
  unfold State.closeOpen
  split
  · rfl
  · dsimp only
    split <;> simp [State.fills, InputChannel.entries, State.inputs_getElem]

theorem State.Sound.closeFrame (h : s.Sound q d limbo) {n : Fin 4} (hs : s.Shaped n) (v : Verdict) (short : Bool)
    (hd : d + 2 < 2 ^ 32) : (s.closeFrame n v short).Sound q (d + 2) limbo :=
  (Quiet.refl _).raiseWrite.sound
    ((h.closeOpen hs v short).settle (by rw [fills_closeOpen_length]; exact hs.1) hd)

theorem State.Sound.endFrame (h : s.Sound q d limbo) {n : Fin 4} (hs : s.Shaped n) (st : InState) (v : Verdict)
    (short : Bool) (hd : d + 2 < 2 ^ 32) : (s.endFrame n st v short).Sound q (d + 2) limbo :=
  have henter : Quiet s _ := (Quiet.refl s).enterState (n := n) (st := st)
  (Quiet.refl _).enterOrStop.sound ((henter.sound h).closeFrame (henter.shaped hs) v short hd)

/-! ### Admission (R30, R54, R55) -/

theorem State.Sound.allocate {k : Nat} (h : s.Sound q d (k :: limbo)) (n : Fin 4) (tag : Option Word) :
    (s.allocate n tag k).Sound q d limbo := by
  have hk := h.limboLt k (by simp)
  have hput := (h.modSlot (k := k) (by simp) fun r => r.allocated n (s.input n).cfg.lineLength tag).putFill
    (n := n) (closed := false) (l := s.fills n ++ [(k, false)]) (List.perm_append_singleton _ _)
    (SlotRecord.place_eq_open.2 (by simp [hk, SlotRecord.allocated]))
  exact State.Sound.modInput (s := { s with sm := _ }) hput (List.map_append ..)

theorem State.Sound.reclaim {k : Nat} (h : s.Sound q d limbo) {n : Fin 4} (hk : k ∈ s.sm.readyOf n) :
    (s.reclaim n k).Sound q d (k :: limbo) := by
  have htake : ({ s with sm := s.sm.setReady n ((s.sm.readyOf n).erase k) } : State).Sound q d (k :: limbo) :=
    h.takeReady n (moved := [k]) (List.perm_cons_erase hk).symm List.erase_sublist
  unfold State.reclaim
  refine Quiet.sound ?_ htake
  dsimp only
  split
  · exact (Quiet.refl _).countIn
  · exact (Quiet.refl _).countIn.countIn

theorem State.Sound.admitFrame (h : s.Sound q d limbo) (n : Fin 4) (tag : Option Word) :
    (s.admitFrame n tag).Sound q d limbo := by
  unfold State.admitFrame
  split
  · exact (Quiet.refl s).skip.sound h
  · split
    · exact (Quiet.refl s).skip.raiseIn.sound h
    · split
      next k rest hfree =>
        have htake : ({ s with sm := { s.sm with free := rest } } : State).Sound q d (k :: limbo) := h.takeFree hfree
        exact htake.allocate n tag
      · split
        next k hk =>
          have hmem : k ∈ s.sm.readyOf n := List.mem_of_mem_dropLast (List.mem_of_find?_eq_some hk)
          exact (h.reclaim hmem).allocate n tag
        · exact (Quiet.refl s).skip.raiseIn.sound h

theorem State.Sound.takeFrameStart (h : s.Sound q d limbo) (n : Fin 4) (tag : Option Word) :
    (s.takeFrameStart n tag).Sound q d limbo :=
  ((Quiet.refl s).restartLossTimer.signalFound.sound h).admitFrame n tag

/-! ### Messages of the push link (chapter 2) -/

theorem State.Sound.frameStartFilling (h : s.Sound q d limbo) {n : Fin 4} (hs : s.Shaped n) (tag : Option Word)
    (hd : d + 2 < 2 ^ 32) : (s.frameStartFilling n tag).Sound q (d + 2) limbo := by
  have hbroken : Quiet s (s.broken n) := (Quiet.refl s).broken
  have hclose := (hbroken.sound h).closeFrame (hbroken.shaped hs) .discard false hd
  unfold State.frameStartFilling
  dsimp only
  split
  · exact (Quiet.refl _).stopCompletion.sound hclose
  · exact hclose.takeFrameStart n tag

theorem State.Sound.lineFilling (h : s.Sound q d limbo) {n : Fin 4} (hs : s.Shaped n) (e : FrameEntry)
    (payload : List Word) (hd : d + 2 < 2 ^ 32) : (s.lineFilling n e payload).Sound q (d + 2) limbo := by
  have hbroken : Quiet s (s.broken n) := (Quiet.refl s).broken
  have hover : Quiet s ((s.countIn n .linesOverflowed).raiseIn n .lineOverflow) := (Quiet.refl s).countIn.raiseIn
  unfold State.lineFilling
  dsimp only
  split
  · exact (hbroken.sound h).endFrame (hbroken.shaped hs) _ _ _ hd
  · split
    · exact (hbroken.sound h).endFrame (hbroken.shaped hs) _ _ _ hd
    · split
      · exact (hover.sound h).endFrame (hover.shaped hs) _ _ _ hd
      next hroom => exact ((Quiet.refl s).acceptLine (Nat.lt_of_not_le hroom)).raiseWrite.sound (h.mono (by omega))

theorem State.Sound.frameEndFilling (h : s.Sound q d limbo) {n : Fin 4} (hs : s.Shaped n) (e : FrameEntry)
    (hd : d + 2 < 2 ^ 32) : (s.frameEndFilling n e).Sound q (d + 2) limbo := by
  have hbroken : Quiet s (s.broken n) := (Quiet.refl s).broken
  unfold State.frameEndFilling
  split
  · exact h.endFrame hs _ _ _ hd
  · split
    · exact h.endFrame hs _ _ _ hd
    · exact (hbroken.sound h).endFrame (hbroken.shaped hs) _ _ _ hd

theorem State.Sound.signalLost (h : s.Sound q d limbo) {n : Fin 4} (hs : s.Shaped n) (hd : d + 2 < 2 ^ 32) :
    (s.signalLost n).Sound q (d + 2) limbo := by
  unfold State.signalLost
  dsimp only
  split
  · have hlost := (Quiet.refl s).modInput_of_eq (n := n) (f := fun ch => { ch with lost := true, lossTimer := none })
      |>.countIn (n := n) (c := .signalLosses) |>.raiseIn (n := n) (e := .signalLost) |>.broken (n := n)
    exact (hlost.sound h).endFrame (hlost.shaped hs) _ _ _ hd
  · exact (Quiet.refl s).modInput_of_eq.countIn.raiseIn.enterState.sound (h.mono (by omega))

/-! ### Writes of the input registers (R12, R25, R26) -/

theorem State.Sound.stopNow (h : s.Sound q d limbo) {n : Fin 4} (hs : s.Shaped n) (hd : d + 2 < 2 ^ 32) :
    (s.stopNow n).Sound q (d + 2) limbo := by
  have hcount : Quiet s (s.countIn n .discardedByStop) := (Quiet.refl s).countIn
  unfold State.stopNow
  refine (Quiet.refl _).stopCompletion.sound ?_
  split
  · exact (hcount.sound h).closeFrame (hcount.shaped hs) _ _ hd
  · exact h.mono (by omega)

theorem State.Sound.writeDisable (h : s.Sound q d limbo) {n : Fin 4} (hs : s.Shaped n) (mode : StopMode)
    (hd : d + 2 < 2 ^ 32) : (s.writeDisable n mode).Sound q (d + 2) limbo := by
  have hkeep : s.Sound q (d + 2) limbo := h.mono (by omega)
  have hstop : (if (s.input n).stopPending then s else
      match mode with
      | .immediate => s.stopNow n
      | .atFrameEnd => s.stopAtEnd n).Sound q (d + 2) limbo := by
    split
    · exact hkeep
    · cases mode
      · exact h.stopNow hs hd
      · exact (Quiet.refl s).stopAtEnd.sound hkeep
  unfold State.writeDisable
  cases (s.input n).state
  case armed | filling | skipping => exact hstop
  all_goals exact hkeep

theorem State.Sound.writeInCtrl (h : s.Sound q d limbo) {n : Fin 4} (hs : s.Shaped n) (enable : Bool) (mode : StopMode)
    (hd : d + 2 < 2 ^ 32) : (s.writeInCtrl n enable mode).Sound q (d + 2) limbo := by
  have hmode := (Quiet.refl s).modInput_of_eq (n := n) (f := fun ch => { ch with stopMode := mode })
  unfold State.writeInCtrl
  dsimp only
  split
  · exact (Quiet.refl s).configIgnored.sound (h.mono (by omega))
  · split
    · exact hmode.writeEnable.sound (h.mono (by omega))
    · exact (hmode.sound h).writeDisable (hmode.shaped hs) mode hd

theorem State.Sound.trimReady (h : s.Sound q d limbo) (n : Fin 4) (quota : Nat) :
    (s.trimReady n quota).Sound q d limbo := by
  have hperm : (s.sm.excess n quota ++ (s.sm.readyOf n).drop (s.sm.excess n quota).length).Perm (s.sm.readyOf n) := by
    simp [SlotManager.excess, List.take_append_drop]
  have htrim := State.Sound.setSm (h.takeReady n hperm (List.drop_sublist _ _)).retireAll
  unfold State.trimReady
  refine Quiet.sound ?_ htrim
  exact (Quiet.refl _).modInput_of_eq

theorem State.Sound.writeInConfig (h : s.Sound q d limbo) (n : Fin 4) (reg : InConfigReg) (w : Word) :
    (s.writeInConfig n reg w).Sound q d limbo := by
  unfold State.writeInConfig
  split
  · split
    · exact (Quiet.refl s).configIgnored.sound h
    next cfg _ =>
      have hset : (s.modInput n fun ch => { ch with cfg := cfg }).Sound q d limbo :=
        State.Sound.modInput (l := s.fills n) (by rwa [Function.update_eq_self]) rfl
      dsimp only
      split
      · exact hset.trimReady n cfg.quota
      · exact hset
  · exact (Quiet.refl s).configIgnored.sound h

/-! ### Line writes (R42, R48) -/

theorem State.Sound.finishReset (h : s.Sound q d limbo) (n : Fin 4) : (s.finishReset n).Sound q d limbo := by
  have htake := h.takeFill n (moved := s.fills n) (l := []) (by simp)
  rw [fills_map_fst] at htake
  exact State.Sound.modInput (s := { s with sm := _ }) htake.toFreeAll rfl

theorem State.Sound.inputWriteDone (h : s.Sound q d limbo) {n : Fin 4} (hlen : (s.fills n).length ≤ 2)
    (hd : d + 2 < 2 ^ 32) : (s.inputWriteDone n).Sound q (d + 2) limbo := by
  have hwritten : Quiet s (s.modInput n InputChannel.lineWritten) := (Quiet.refl s).lineWritten
  unfold State.inputWriteDone
  split
  · exact (h.finishReset n).mono (by omega)
  · have hsettled := (hwritten.sound h).settle (n := n) (by rwa [hwritten.fills]) hd
    exact (Quiet.refl _).finishStopping.raiseWrite.sound hsettled

theorem State.Sound.lineWriteDone (h : s.Sound q d limbo) (hlen : ∀ n, (s.fills n).length ≤ 2)
    (hd : d + 2 < 2 ^ 32) (r : MemRequest) : (s.lineWriteDone r).Sound q (d + 2) limbo := by
  have hstore : Quiet s (s.storeWords r) := (Quiet.refl s).storeWords
  unfold State.lineWriteDone
  split
  · exact (hstore.sound h).inputWriteDone (by rw [hstore.fills]; exact hlen _) hd
  · exact hstore.sound (h.mono (by omega))

/-! ### Channel resets (R47, R90) -/

theorem SlotManager.Sound.resetInput {sm : SlotManager} {fills : Fills} (h : sm.Sound q d fills limbo) (n : Fin 4) :
    (sm.resetInput n).Sound q d fills limbo :=
  (h.takeReady n (moved := sm.readyOf n) (l := []) (by simp) (List.nil_sublist _)).retireAll.setSeq
    (by rw [SlotManager.readyOf_retireAll]; simp) 0

/-- The OPEN entries of a fill context close, one after another. -/
theorem SlotManager.Sound.closeRecords {sm : SlotManager} {fills : Fills} {n : Fin 4} {done : List (Nat × Bool)}
    (es : List FrameEntry) (h : sm.Sound q d fills limbo) (hfill : fills n = done ++ es.map FrameEntry.mark) :
    (sm.closeRecords es).Sound q d (Function.update fills n (done ++ es.map fun e => (e.slot, true))) limbo := by
  induction es generalizing sm fills done with
  | nil =>
    change sm.Sound q d (Function.update fills n (done ++ [])) limbo
    rwa [show done ++ [] = fills n from hfill.symm, Function.update_eq_self]
  | cons e es ih =>
    -- the entries before `e` are done, and so is `e` once its record is closed
    have hnext : ∀ {sm' : SlotManager} {fills' : Fills}, sm'.Sound q d fills' limbo →
        fills' n = (done ++ [(e.slot, true)]) ++ es.map FrameEntry.mark → Function.update fills' n = Function.update fills n →
        (sm'.closeRecords es).Sound q d (Function.update fills n (done ++ (e :: es).map fun e => (e.slot, true))) limbo :=
      fun h' hfill' hupdate => by simpa [hupdate] using ih h' hfill'
    unfold SlotManager.closeRecords
    split
    next hopen =>
      have hmark : e.mark = (e.slot, false) := by simp [FrameEntry.mark, FrameEntry.isClosed, hopen]
      have hclose := h.closeEntry (n := n) (k := e.slot) (l := done ++ es.map FrameEntry.mark)
        (l' := (done ++ [(e.slot, true)]) ++ es.map FrameEntry.mark)
        (f := fun r => { r with state := .closed, lineCount := some e.received })
        (by rw [hfill, List.map_cons, hmark]; exact List.perm_middle) (by simp) (fun _ => rfl) fun _ => rfl
      exact hnext hclose (by simp) (by funext l; simp)
    next hclosed =>
      have hmark : e.mark = (e.slot, true) := Prod.ext rfl (e.isClosed_iff.2 hclosed)
      exact hnext h (by simp [hfill, hmark]) rfl

theorem State.Sound.resetInput (h : s.Sound q d limbo) (n : Fin 4) : (s.resetInput n).Sound q d limbo := by
  have hclosed := (SlotManager.Sound.resetInput h n).closeRecords (n := n) (done := []) (s.input n).fill rfl
  unfold State.resetInput
  dsimp only
  split
  · exact ((Quiet.refl s).of_eq.setInput (by rfl) (by rfl) (by exact Nat.le_max_right _ _)).sound h
  · cases hw : s.inFlight (.input n)
    · have hfree := hclosed.takeFill n (moved := (s.input n).fill.map fun e => (e.slot, true)) (l := []) (by simp)
      rw [List.map_map, Function.update_idem] at hfree
      exact State.Sound.modInput (s := State.withdrawWrite { s with sm := _, eu := _ } n) (f := fun _ => _)
        hfree.toFreeAll rfl
    · refine State.Sound.modInput (s := State.withdrawWrite { s with sm := _, eu := _ } n) (f := fun _ => _) hclosed ?_
      simp [InputChannel.afterReset, InputChannel.entries, FrameEntry.mark, FrameEntry.isClosed, Function.comp_def]

theorem State.Sound.resetInputs (h : s.Sound q d limbo) (ns : List (Fin 4)) : (s.resetInputs ns).Sound q d limbo := by
  induction ns generalizing s with
  | nil => exact h
  | cons n ns ih => exact ih (h.resetInput n)

/-! ### Output channels: release, binding, selection (R19, R77, R87) -/

theorem State.Sound.release (h : s.Sound q d []) (m : Fin 6) : (s.release m).Sound q d [] := by
  unfold State.release
  split
  · exact h
  next k _ => exact State.Sound.of_eq (s := { s with sm := s.sm.leave m k }) (h.leave m k) rfl rfl

theorem State.Sound.enterDisabled (h : s.Sound q d limbo) (m : Fin 6) : (s.enterDisabled m).Sound q d limbo :=
  h.of_eq rfl rfl

theorem State.Sound.closeDisabling (h : s.Sound q d []) (m : Fin 6) : (s.closeDisabling m).Sound q d [] := by
  have hrelease := (((Quiet.refl s).closeOutput (m := m)).sound h).release m
  unfold State.closeDisabling
  dsimp only
  split
  · exact hrelease
  · exact hrelease.enterDisabled m

theorem State.Sound.openDisabling (h : s.Sound q d []) (m : Fin 6) : (s.openDisabling m).Sound q d [] := by
  unfold State.openDisabling
  split
  · exact (Quiet.refl _).answerOffline.sound (((Quiet.refl s).protocolError.sound h).closeDisabling m)
  · exact (Quiet.refl s).answerOffline.sound h

theorem SlotManager.Sound.rebind {sm : SlotManager} {fills : Fills} (h : sm.Sound q d fills []) (m : Fin 6)
    (retained : Option Nat) (k : Nat) : (sm.rebind m retained k).Sound q d fills [] := by
  have hjoin : (sm.join m k).Sound q d fills [] := h.alike (.modSlot sm k)
  unfold SlotManager.rebind
  split
  · exact h
  · cases retained
    · exact hjoin
    · exact hjoin.leave m _

theorem State.Sound.bind (h : s.Sound q d []) (m : Fin 6) (k : Nat) (short lost : Bool) :
    (s.bind m k short lost).Sound q d [] := by
  unfold State.bind
  exact (Quiet.refl _).openShown.sound
    (State.Sound.of_eq (s := { s with sm := s.sm.rebind m _ k }) (h.rebind m _ k) rfl rfl)

theorem State.Sound.policyStep (h : s.Sound q d []) (m : Fin 6) (lost : Bool) : (s.policyStep m lost).Sound q d [] := by
  have hlast : Quiet s (s.modOutput m fun o =>
      { o with last := keepLast o.last (s.output m).cfg.source (s.sm.seqOf (s.output m).cfg.source) }) :=
    (Quiet.refl s).modOutput
  unfold State.policyStep
  dsimp only
  split
  · exact (hlast.sound h).bind m _ _ _
  · exact hlast.fallback.sound h

theorem State.Sound.lossStep (h : s.Sound q d []) (m : Fin 6) (lost : Bool) : (s.lossStep m lost).Sound q d [] := by
  have hreport : Quiet s (s.modOutput m fun o => { o with lossReported := keepLossReport o.lossReported o.cfg.source lost }) :=
    (Quiet.refl s).modOutput
  unfold State.lossStep
  dsimp only
  split
  · exact (Quiet.refl _).openBlank.sound ((hreport.reportLoss.sound h).release m)
  · unfold State.freezeStep
    split
    · exact hreport.countOut.openShown.sound h
    · exact (hreport.sound h).policyStep m lost

theorem State.Sound.select (h : s.Sound q d []) (m : Fin 6) : (s.select m).Sound q d [] := by
  unfold State.select
  dsimp only
  split
  · exact (Quiet.refl _).openBlank.sound (h.release m)
  · exact h.lossStep m _

theorem State.Sound.writeOutConfig (h : s.Sound q d []) (m : Fin 6) (reg : OutConfigReg) (enable : Bool) (w : Word) :
    (s.writeOutConfig m reg enable w).Sound q d [] := by
  unfold State.writeOutConfig
  split
  · exact (Quiet.refl s).configIgnored.sound h
  · split
    · exact (Quiet.refl s).configIgnored.sound h
    next cfg _ =>
      have hset : (s.modOutput m fun o => { o with cfg := cfg }).Sound q d [] := h.of_eq rfl rfl
      dsimp only
      split
      · unfold State.writeOutEnable
        split
        · exact hset.of_eq rfl rfl
        · unfold State.disableIdle
          exact State.Sound.enterDisabled ((hset.release m).of_eq rfl rfl) m
        · exact hset.of_eq rfl rfl
        · exact hset
      · exact hset

theorem State.Sound.resetOutput (h : s.Sound q d []) (m : Fin 6) : (s.resetOutput m).Sound q d [] :=
  (h.release m).of_eq rfl rfl

theorem State.Sound.resetOutputs (h : s.Sound q d []) (ms : List (Fin 6)) : (s.resetOutputs ms).Sound q d [] := by
  induction ms generalizing s with
  | nil => exact h
  | cons m ms ih => exact ih (h.resetOutput m)

theorem State.Sound.lineReadDone (h : s.Sound q d []) (r : MemRequest) : (s.lineReadDone r).Sound q d [] := by
  unfold State.lineReadDone
  dsimp only
  split
  next m _ =>
    have hjudged := (Quiet.refl s).countEcc (ws := s.store.readWords r.addr r.count)
      |>.judgeLine (m := m) (r := r) (ws := s.store.readWords r.addr r.count)
    refine (Quiet.refl _).raiseRead.sound ?_
    unfold State.endHandshake
    split
    · exact (hjudged.sound h).enterDisabled m
    · exact hjudged.sound h
  · exact (Quiet.refl s).countEcc.sound h

/-! ### Host commands (R8, R22, R115 to R124) -/

/-- While the pool is ABSENT every list and every fill context is empty. -/
theorem SlotManager.Sound.lists_empty {sm : SlotManager} {fills : Fills} (h : sm.Sound q d fills []) (hs : sm.slots = []) :
    ∀ p k, ¬ sm.holds fills p k := fun p k hk => by
  have := ((h.placed k List.not_mem_nil p).1 hk).1
  simp [hs] at this

/-- A pool without entries in the fill contexts, with every slot FREE. -/
theorem SlotManager.Sound.fresh {sm : SlotManager} {fills : Fills} (hbuilt : sm.built = true → sm.slots.length = sm.count.toNat)
    (habsent : sm.built = false → sm.slots = []) (hslots : sm.slots = (List.range sm.slots.length).map SlotRecord.fresh)
    (hfree : sm.free = List.range sm.slots.length) (hready : ∀ n, sm.readyOf n = []) (hfill : ∀ n, fills n = []) :
    sm.Sound q d fills [] := by
  have hslot : ∀ k, sm.slot k = SlotRecord.fresh k := fun k => by
    unfold SlotManager.slot
    rw [hslots]
    by_cases hk : k < sm.slots.length <;> simp [hk]
  have hplace : ∀ k, (SlotRecord.fresh k).place = some .free := fun k => rfl
  exact {
    built := hbuilt
    absent := habsent
    nodup := ⟨hfree ▸ List.nodup_range, fun n => by simp [hready], fun n => by simp [hfill]⟩
    limboNodup := List.nodup_nil
    limboLt := by simp
    limboOut := by simp
    placed := fun k _ p => by cases p <;> simp [SlotManager.holds, hslot, hplace, hready, hfill, hfree]
    owner := fun k _ _ => by simp [hslot, SlotRecord.ownerOk, SlotRecord.fresh]
    sequenced := fun _ n => by simp [hready] }

theorem State.Sound.cmdPoolBuild (h : s.Sound q d []) : s.cmdPoolBuild.Sound q d [] := by
  have hrefuse : ∀ r, (s.refuseCommand 0x02 r).Sound q d [] := fun r => (Quiet.refl s).refuseCommand.sound h
  unfold State.cmdPoolBuild
  split
  · exact hrefuse _
  · split
    · exact hrefuse _
    next habsent =>
      have hempty := h.lists_empty (h.absent (by simpa using habsent))
      split
      · exact hrefuse _
      · split
        · exact hrefuse _
        · have hbuild : ({ s with sm := s.sm.build } : State).Sound q d [] :=
            .fresh (by simp [SlotManager.build]) (by simp [SlotManager.build]) (by simp [SlotManager.build])
              (by simp [SlotManager.build]) (fun n => by simp [SlotManager.build, SlotManager.readyOf])
              fun n => List.eq_nil_iff_forall_not_mem.2 fun e he => hempty (.fill n e.2) e.1 he
          exact (Quiet.refl _).emptyCaptures.completeCommand.sound hbuild

theorem State.Sound.cmdPoolTeardown (h : s.Sound q d []) (hoff : ∀ n, (s.input n).state = .off → (s.input n).fill = []) :
    s.cmdPoolTeardown.Sound q d [] := by
  have hrefuse : ∀ r, (s.refuseCommand 0x03 r).Sound q d [] := fun r => (Quiet.refl s).refuseCommand.sound h
  unfold State.cmdPoolTeardown
  split
  · exact hrefuse _
  · split
    · exact hrefuse _
    next hall =>
      have hstate : ∀ n, (s.input n).state = .off := fun n => by
        simp only [Bool.not_eq_true', Bool.not_eq_false, State.allOff, Bool.and_eq_true, List.all_eq_true] at hall
        simpa using hall.1 n (List.mem_finRange n)
      split
      · exact hrefuse _
      · have hgone : ({ s with sm := s.sm.teardown } : State).Sound q d [] :=
          .fresh (by simp [SlotManager.teardown]) (by simp [SlotManager.teardown]) (by simp [SlotManager.teardown])
            (by simp [SlotManager.teardown]) (fun n => by simp [SlotManager.teardown, SlotManager.readyOf])
            fun n => by
              change (s.input n).fill.map FrameEntry.mark = []
              rw [hoff n (hstate n), List.map_nil]
        exact (Quiet.refl _).emptyCaptures.completeCommand.sound hgone

theorem State.Sound.cmdSlotClaim (h : s.Sound q d []) : s.cmdSlotClaim.Sound q d [] := by
  unfold State.cmdSlotClaim
  split
  · exact (Quiet.refl s).refuseCommand.sound h
  · split
    · exact (Quiet.refl s).refuseCommand.sound h
    next k rest hfree =>
      have htake := h.takeFree hfree
      have hk := htake.limboLt k (by simp)
      have hclaim := (htake.modSlot (k := k) (by simp) SlotRecord.claimed).putAway
        (by simp [hk, SlotRecord.claimed]) (by simp [hk, SlotRecord.claimed])
      exact (Quiet.refl _).completeCommand.sound (State.Sound.setSm hclaim)

theorem SlotManager.Sound.hold {sm : SlotManager} {fills : Fills} (h : sm.Sound q d fills []) {n : Fin 4} {e : ListEnd}
    {k : Nat} (hk : endEntry e (sm.readyOf n) = some k) : (sm.hold n e k).Sound q d fills [] := by
  have hends : ([k] ++ dropEnd e (sm.readyOf n)).Perm (sm.readyOf n) ∧
      (dropEnd e (sm.readyOf n)).Sublist (sm.readyOf n) := by
    cases e
    · obtain ⟨l, hl⟩ := List.getLast?_eq_some_iff.1 hk
      simp only [dropEnd, hl, List.dropLast_concat]
      exact ⟨(List.perm_append_singleton k l).symm, List.sublist_append_left l [k]⟩
    · obtain ⟨l, hl⟩ := List.head?_eq_some_iff.1 hk
      simp only [dropEnd, hl, List.tail_cons]
      exact ⟨.refl _, List.sublist_cons_self k l⟩
  have htake := h.takeReady n hends.1 hends.2
  have hlt := htake.limboLt k (by simp)
  exact (htake.modSlot (k := k) (by simp) fun r => r.movedTo .held).putAway
    (by simp [show k < sm.slots.length from hlt, SlotRecord.movedTo])
    (by simp [show k < sm.slots.length from hlt, SlotRecord.movedTo])

theorem State.Sound.cmdSlotHold (h : s.Sound q d []) : s.cmdSlotHold.Sound q d [] := by
  unfold State.cmdSlotHold
  split
  · exact (Quiet.refl s).refuseCommand.sound h
  · split
    · split
      · exact (Quiet.refl s).refuseCommand.sound h
      next hk => exact (Quiet.refl _).completeCommand.sound (State.Sound.setSm (h.hold hk))
    · exact (Quiet.refl s).refuseCommand.sound h

/-- A HELD slot can go into limbo. -/
theorem SlotManager.Sound.takeHeld {sm : SlotManager} {fills : Fills} (h : sm.Sound q d fills []) {k : Nat}
    (hk : (sm.slot k).state = .held) : sm.Sound q d fills [k] :=
  h.takeAway (SlotManager.slot_lt_of_state_ne_free (by rw [hk]; exact nofun)) List.not_mem_nil (.inr hk)

theorem State.Sound.cmdSlotRelease (h : s.Sound q d []) : s.cmdSlotRelease.Sound q d [] := by
  have hrefuse : ∀ r, (s.refuseCommand 0x12 r).Sound q d [] := fun r => (Quiet.refl s).refuseCommand.sound h
  unfold State.cmdSlotRelease
  split
  · exact hrefuse _
  · split
    · exact hrefuse _
    · split
      · exact hrefuse _
      next hheld =>
        split
        · exact hrefuse _
        · exact (Quiet.refl _).completeCommand.sound (State.Sound.setSm (h.takeHeld (not_not.1 hheld)).retire)

theorem State.Sound.cmdSlotPublish (h : s.Sound q d []) (hd : d + 1 < 2 ^ 32) : s.cmdSlotPublish.Sound q (d + 1) [] := by
  have hrefuse : ∀ r, (s.refuseCommand 0x13 r).Sound q (d + 1) [] := fun r =>
    (Quiet.refl s).refuseCommand.sound (h.mono (by omega))
  unfold State.cmdSlotPublish
  split
  · exact hrefuse _
  · split
    · exact hrefuse _
    · split
      · exact hrefuse _
      next hheld =>
        split
        · exact hrefuse _
        · split
          · exact hrefuse _
          · exact (Quiet.refl _).completeCommand.sound
              (State.Sound.publishSlot (h.takeHeld (not_not.1 hheld)) _ _ hd)

theorem State.Sound.cmdInputFlush (h : s.Sound q d []) : s.cmdInputFlush.Sound q d [] := by
  unfold State.cmdInputFlush
  split
  · exact (Quiet.refl s).refuseCommand.sound h
  · split
    · exact (Quiet.refl s).refuseCommand.sound h
    next n _ =>
      have hflush := (h.takeReady n (moved := s.sm.readyOf n) (l := []) (by simp) (List.nil_sublist _)).retireAll
      exact (Quiet.refl _).completeCommand.sound (State.Sound.setSm hflush)

/-! ### Every step -/

/-- Every input at its reset values. -/
theorem State.input_of_reset (hin : s.inputs = State.reset.inputs) (n : Fin 4) : s.input n = InputChannel.reset := by
  simp [State.input, hin, State.reset]

/-- The state after reset has no pool and empty fill contexts. -/
theorem State.Sound.of_reset (hsm : s.sm = SlotManager.reset) (hin : s.inputs = State.reset.inputs) :
    s.Sound q d [] := by
  have hinput := State.input_of_reset hin
  unfold State.Sound
  rw [hsm]
  exact .fresh (by simp [SlotManager.reset]) (by simp [SlotManager.reset]) (by simp [SlotManager.reset])
    (by simp [SlotManager.reset]) (fun n => by simp [SlotManager.reset, SlotManager.readyOf])
    fun n => by simp [State.fills, hinput, InputChannel.entries, InputChannel.reset]

theorem State.Sound.commandEffect (h : s.Sound q d []) (hs : s.fillsOk) (hd : d + 1 < 2 ^ 32) (e : CommandEffect s t) :
    t.Sound q (d + 1) [] := by
  have hmono : ∀ {u : State}, u.Sound q d [] → u.Sound q (d + 1) [] := fun h => h.mono (by omega)
  cases e with
  | memoryInit => exact hmono ((Quiet.refl s).cmdMemoryInit.sound h)
  | poolBuild => exact hmono h.cmdPoolBuild
  | poolTeardown =>
    refine hmono (h.cmdPoolTeardown fun n => ?_)
    obtain ⟨_, _, _, _, hoff, _⟩ := hs n
    exact hoff
  | slotClaim => exact hmono h.cmdSlotClaim
  | slotHold => exact hmono h.cmdSlotHold
  | slotRelease => exact hmono h.cmdSlotRelease
  | slotPublish => exact h.cmdSlotPublish hd
  | slotClear => exact hmono ((Quiet.refl s).cmdSlotClear.sound h)
  | inputFlush => exact hmono h.cmdInputFlush
  | unknown => exact hmono ((Quiet.refl s).cmdUnknown.sound h)

theorem State.Sound.hostEffect (h : s.Sound q d []) (hs : s.fillsOk) (hd : d + 2 < 2 ^ 32) (e : HostEffect s t) :
    t.Sound q (d + 2) [] := by
  have hmono : ∀ {u : State}, u.Sound q d [] → u.Sound q (d + 2) [] := fun h => h.mono (by omega)
  have hquiet : ∀ {u : State}, Quiet s u → u.Sound q (d + 2) [] := fun hu => hmono (hu.sound h)
  have hrefl := Quiet.refl s
  cases e with
  | ignored => exact hmono h
  | command _ e => exact (h.commandEffect hs (by omega) e).mono (by omega)
  | overrun => exact hquiet hrefl.raiseGlobal
  | arguments a => exact hquiet hrefl.of_eq
  | portRead => exact hquiet hrefl.portRead
  | portFlush => exact hquiet hrefl.portFlush
  | portDiscard => exact hquiet hrefl.portDiscard
  | readAccData => exact hquiet hrefl.readAccData
  | writeAccData w => exact hquiet hrefl.writeAccData
  | writeAccAddr w => exact hquiet hrefl.writeAccAddr
  | writeAccCount w => exact hmono (h.of_eq (by simp) (by simp))
  | writeInCtrl n enable mode => exact h.writeInCtrl (.of_fillOk (hs n)) enable mode hd
  | writeInConfig n reg w => exact hmono (h.writeInConfig n reg w)
  | writeOutConfig m reg enable w => exact hmono (h.writeOutConfig m reg enable w)
  | writeGeometry reg w => exact hquiet hrefl.writeGeometry
  | writeMcCfg w => exact hquiet hrefl.writeMcCfg
  | writeMcRefresh w => exact hmono (h.of_eq (by simp) (by simp))
  | writeArbCfg w => exact hquiet hrefl.writeArbCfg
  | clearEvents reg w => exact hquiet hrefl.of_eq
  | writeEnables reg w => exact hquiet hrefl.of_eq
  | clearCounter c => exact hquiet hrefl.clearCounter
  | captureRecord k => exact hquiet hrefl.of_eq
  | captureList l => exact hquiet hrefl.of_eq
  | softReset => exact .of_reset rfl rfl
  | channelResets ns ms => exact hmono ((h.resetInputs ns).resetOutputs ms)

/-- No effect of a step moves a slot anywhere but to the place that its record names; at most two publications follow one
another. -/
theorem State.Sound.effect (h : s.Sound q d []) (hs : s.fillsOk) (hd : d + 2 < 2 ^ 32) (e : Effect s t) :
    t.Sound q (d + 2) [] := by
  have hmono : ∀ {u : State}, u.Sound q d [] → u.Sound q (d + 2) [] := fun h => h.mono (by omega)
  have hquiet : ∀ {u : State}, Quiet s u → u.Sound q (d + 2) [] := fun hu => hmono (hu.sound h)
  have hshaped : ∀ n, s.Shaped n := fun n => .of_fillOk (hs n)
  have hrefl := Quiet.refl s
  cases e with
  | idle => exact hmono h
  | hostEffect _ e => exact h.hostEffect hs hd e
  | heldRead => exact hquiet hrefl.of_eq
  | takeFrameStart n tag => exact hmono (h.takeFrameStart n tag)
  | frameStartFilling n tag => exact h.frameStartFilling (hshaped n) tag hd
  | stray n => exact hquiet hrefl.stray
  | lineFilling n e payload => exact h.lineFilling (hshaped n) e payload hd
  | frameEndFilling n e => exact h.frameEndFilling (hshaped n) e hd
  | frameEndSkipping n => exact hquiet hrefl.enterState
  | signalLost n => exact h.signalLost (hshaped n) hd
  | answerOffline m => exact hquiet hrefl.answerOffline
  | select m => exact hmono (h.select m)
  | reopen m => exact hmono ((hrefl.protocolError.closeOutput.sound h).select m)
  | openDisabling m => exact hmono (h.openDisabling m)
  | pullClosed m => exact hquiet hrefl.pullClosed
  | overpull m f => exact hquiet hrefl.overpull
  | pullBlank m f => exact hquiet hrefl.pullBlank
  | pullLine m f => exact hquiet hrefl.pullLine
  | closeIdle m => exact hquiet hrefl.protocolError
  | closeShowing m => exact hquiet (hrefl.closeOutput.modOutput (hoff := by intro _ hoff; cases hoff))
  | closeDisabling m => exact hmono (h.closeDisabling m)
  | refreshExpired => exact hquiet hrefl.refreshExpired
  | nextStage => exact hquiet hrefl.of_eq
  | enterReady => exact hquiet hrefl.enterReady
  | advanceTime => exact hquiet hrefl.of_eq
  | loseCharge decay => exact hquiet hrefl.of_eq
  | lineWriteDone r =>
    have hend := hrefl.endExec
    exact (Quiet.refl _).afterDelivery.sound
      ((hend.sound h).lineWriteDone (fun n => (hend.shaped (hshaped n)).1) hd r)
  | lineReadDone r => exact hmono ((Quiet.refl _).afterDelivery.sound ((hrefl.endExec.sound h).lineReadDone r))
  | blockReadDone r => exact hquiet hrefl.endExec.blockReadDone.afterDelivery
  | blockWriteDone r => exact hquiet hrefl.endExec.blockWriteDone.afterDelivery
  | clearWriteDone r => exact hquiet hrefl.endExec.clearWriteDone.afterDelivery
  | refreshDone e => exact hquiet hrefl.endExec.refreshDone.afterDelivery
  | orphanDone r => exact hquiet hrefl.endExec.orphanEffect.raiseDeferred.retestReader.afterDelivery
  | pinReset => exact .of_reset rfl rfl
  | deassert => exact hquiet hrefl.of_eq

/-- Of two ready entries within half the number range behind the counter, the newer one's number is after the older one's. -/
theorem seqAfter_of_behind_lt {sm : SlotManager} {n : Fin 4} {older newer : Nat} (h1 : 1 ≤ sm.behind n newer)
    (hlt : sm.behind n newer < sm.behind n older) (hle : sm.behind n older ≤ 2147483648) :
    seqAfter ((sm.slot newer).sequence.getD 0) ((sm.slot older).sequence.getD 0) = true := by
  simp only [SlotManager.behind, seqAfter, Bool.and_eq_true, decide_eq_true_eq] at *
  generalize sm.seqOf n = next at *
  generalize (sm.slot newer).sequence.getD 0 = a at *
  generalize (sm.slot older).sequence.getD 0 = b at *
  bv_omega

end

/-- Settles O14: `State.Sound` with an empty limbo is the two invariants together, and every effect of a step keeps it. -/
theorem slotLocationsKept : Obligations.SlotLocationsKept := by
  refine ⟨fun s t hfills hlocations hstep => ?_, fun s hseq hwithin n => ?_⟩
  · obtain ⟨rest, heffect⟩ := step_effect hstep
    have hsound : s.Sound (s.sequencesOk ∧ s.sequencesWithin 4294967293) 4294967293 [] :=
      .of_locationsOk hlocations sequenced_iff.2
    have hnext := State.Sound.effect (s := { s with pending := rest }) hsound hfills (by norm_num) heffect
    exact ⟨hnext.locationsOk, fun hok hwithin => (sequenced_iff.1 (hnext.sequenced ⟨hok, hwithin⟩)).1⟩
  · obtain ⟨hbehind, hpairwise⟩ := hseq n
    exact hpairwise.imp_of_mem fun {older newer} holder hnewer hlt =>
      seqAfter_of_behind_lt (hbehind newer hnewer).2 hlt (hwithin n older holder)

end Sys2Proof.Machine
end

