-- ==== Sys2Proof/Proofs/Steady.lean ====
section
/-! Steady changes: those that change no reader set and no retained slot, and keep settings, ready lists, line FIFOs and the
host's buffers within their sizes. Quiet changes are steady, and so are all operations of the inputs and of the slot commands. -/

namespace Sys2Proof.Machine

-- One theorem after another, as in the tests: many of them at once would need a thread each.
set_option Elab.async false

/-! ### Changes of the slot manager -/

/-- The reader sets are kept, and no ready list grows. -/
structure SlotManager.Steady (sm sm' : SlotManager) : Prop where
  readers : sm'.readers = sm.readers
  ready : ∀ n, (sm'.readyOf n).length ≤ (sm.readyOf n).length

namespace SlotManager.Steady

variable {sm sm' : SlotManager}

theorem refl (sm : SlotManager) : sm.Steady sm := ⟨rfl, fun _ => le_rfl⟩

theorem trans {sm'' : SlotManager} (h : sm.Steady sm') (h' : sm'.Steady sm'') : sm.Steady sm'' :=
  ⟨h'.readers.trans h.readers, fun n => (h'.ready n).trans (h.ready n)⟩

/-- A change of a record that keeps its readers. -/
theorem modSlot (h : sm.Steady sm') {k : Nat} {f : SlotRecord → SlotRecord}
    (hrd : ∀ r, (f r).readers = r.readers := by intro; rfl) : sm.Steady (sm'.modSlot k f) :=
  h.trans ⟨sm'.readers_modSlot k hrd, fun _ => le_rfl⟩

theorem setFree (h : sm.Steady sm') {l : List Nat} : sm.Steady { sm' with free := l } := h.trans ⟨rfl, fun _ => le_rfl⟩

theorem setSeq (h : sm.Steady sm') {n : Fin 4} {w : Word} : sm.Steady (sm'.setSeq n w) :=
  h.trans ⟨rfl, fun _ => le_rfl⟩

theorem setReady (h : sm.Steady sm') {n : Fin 4} {l : List Nat} (hl : l.length ≤ (sm'.readyOf n).length) :
    sm.Steady (sm'.setReady n l) := by
  refine h.trans ⟨rfl, fun i => ?_⟩
  rw [SlotManager.readyOf_setReady]
  split
  next hi => exact hi ▸ hl
  next => exact le_rfl

theorem toFree (h : sm.Steady sm') {k : Nat} : sm.Steady (sm'.toFree k) := h.modSlot.setFree

theorem retire (h : sm.Steady sm') {k : Nat} : sm.Steady (sm'.retire k) := by
  unfold SlotManager.retire
  split
  · exact h.toFree
  · exact h.modSlot

theorem retireAll (h : sm.Steady sm') {ks : List Nat} : sm.Steady (sm'.retireAll ks) := by
  induction ks generalizing sm' with
  | nil => exact h
  | cons k ks ih => exact ih h.retire

theorem toFreeAll (h : sm.Steady sm') {ks : List Nat} : sm.Steady (sm'.toFreeAll ks) := by
  induction ks generalizing sm' with
  | nil => exact h
  | cons k ks ih => exact ih h.toFree

theorem closeRecords (h : sm.Steady sm') {es : List FrameEntry} : sm.Steady (sm'.closeRecords es) := by
  induction es generalizing sm' with
  | nil => exact h
  | cons e es ih =>
    unfold SlotManager.closeRecords
    split
    · exact ih h.modSlot
    · exact ih h

theorem resetInput (h : sm.Steady sm') {n : Fin 4} : sm.Steady (sm'.resetInput n) :=
  (h.setReady (Nat.zero_le _)).retireAll.setSeq

theorem hold (h : sm.Steady sm') {n : Fin 4} {e : ListEnd} {k : Nat} : sm.Steady (sm'.hold n e k) := by
  refine (h.setReady ?_).modSlot
  cases e <;> simp [dropEnd]

end SlotManager.Steady

/-- A publication at a quota of at least 1 evicts the oldest entry of a full list before it adds one (R63). -/
theorem SlotManager.Steady.evict (sm : SlotManager) (n : Fin 4) {quota : Nat} :
    sm.Steady (if sm.atQuota n quota then sm.evictOldest n else sm) ∧
      (1 ≤ quota → (sm.readyOf n).length ≤ quota →
        ((if sm.atQuota n quota then sm.evictOldest n else sm).readyOf n).length < quota) := by
  split
  · unfold SlotManager.evictOldest
    split
    next hready => exact ⟨.refl sm, fun hquota _ => by rw [hready]; exact hquota⟩
    next k rest hready =>
      have hrest := (SlotManager.Steady.refl sm).setReady (n := n) (l := rest) (by simp [hready])
      refine ⟨hrest.retire, fun _ hle => ?_⟩
      have hlen := ((SlotManager.Steady.refl _).retire (sm' := sm.setReady n rest) (k := k)).ready n
      simp only [hready, SlotManager.readyOf_setReady, if_true, List.length_cons] at hle hlen
      omega
  next hfull =>
    refine ⟨.refl sm, fun _ _ => ?_⟩
    simpa [SlotManager.atQuota] using hfull

/-! ### Lines and settings (R25, R32) -/

theorem dropLines_length_le (e : FrameEntry) (l : List FifoLine) : (dropLines e l).length ≤ l.length := by
  cases l with
  | nil => exact le_rfl
  | cons x rest =>
    have hle := List.length_filter_le (fun x : FifoLine => decide (x.slot ≠ e.slot)) rest
    unfold dropLines
    dsimp only
    split <;> simp only [List.length_cons] <;> omega

theorem inRange_iff {lo hi x : Nat} : inRange lo hi x = true ↔ lo ≤ x ∧ x ≤ hi := by simp [inRange]

/-- A field of a written register lies below the power of two of its width. -/
theorem field_lt (w : Word) (lo width : Nat) : field w lo width < 2 ^ width := (w.extractLsb' lo width).isLt

/-- A configuration write that is taken leaves every setting of the input in its range (R25). -/
theorem inConfigWrite_ok {cfg cfg' : InConfig} {reg : InConfigReg} {w : Word} (hok : cfg.ok)
    (h : inConfigWrite cfg reg w = some cfg') : cfg'.ok := by
  obtain ⟨hlength, hlines, hquota, hwatermark, hbudget, hloss⟩ := hok
  cases reg with
  | geom =>
    simp only [inConfigWrite, Option.ite_none_right_eq_some, Option.some.injEq, Bool.and_eq_true, inRange_iff] at h
    obtain ⟨⟨hlength', hlines'⟩, rfl⟩ := h
    exact ⟨hlength', hlines', hquota, hwatermark, hbudget, hloss⟩
  | cfg =>
    simp only [inConfigWrite, Option.ite_none_right_eq_some, Option.some.injEq, Bool.and_eq_true, inRange_iff] at h
    obtain ⟨⟨hquota', hwatermark'⟩, rfl⟩ := h
    exact ⟨hlength, hlines, hquota', hwatermark', hbudget, hloss⟩
  | budget =>
    cases h
    exact ⟨hlength, hlines, hquota, hwatermark, Nat.le_of_lt_succ (field_lt w 0 16), hloss⟩
  | loss =>
    cases h
    exact ⟨hlength, hlines, hquota, hwatermark, hbudget, Nat.le_of_lt_succ (field_lt w 0 16)⟩

/-- Only INn_CFG holds the quota. -/
theorem inConfigWrite_quota {cfg cfg' : InConfig} {reg : InConfigReg} {w : Word}
    (h : inConfigWrite cfg reg w = some cfg') (hreg : reg ≠ .cfg) : cfg'.quota = cfg.quota := by
  cases reg with
  | cfg => exact absurd rfl hreg
  | geom =>
    simp only [inConfigWrite, Option.ite_none_right_eq_some, Option.some.injEq] at h
    obtain ⟨_, rfl⟩ := h
    rfl
  | budget => cases h; rfl
  | loss => cases h; rfl

/-! ### Changes of the state -/

/-- What is in range or within its size stays so (R11, R25, R74, R34, R126, R160). -/
structure KeepsBounds (s t : State) : Prop where
  settings : s.settingsOk → t.settingsOk
  quotas : s.settingsOk → s.quotasOk → t.quotasOk
  lines : s.lineFifosOk → t.lineFifosOk
  hostBounds : s.hostBoundsOk → t.hostBoundsOk

/-- Reader sets and retained slots are kept, no output enters OFF, and the sizes are kept. -/
structure Steady (s t : State) : Prop where
  readers : t.sm.readers = s.sm.readers
  retained : ∀ m, (t.output m).retained = (s.output m).retained
  off : ∀ m, (t.output m).state = .off → (s.output m).state = .off
  bounds : KeepsBounds s t

namespace KeepsBounds

variable {s t : State}

theorem refl (s : State) : KeepsBounds s s := ⟨id, fun _ => id, id, id⟩

theorem trans {u : State} (h : KeepsBounds s t) (h' : KeepsBounds t u) : KeepsBounds s u where
  settings := h'.settings ∘ h.settings
  quotas hs hq := h'.quotas (h.settings hs) (h.quotas hs hq)
  lines := h'.lines ∘ h.lines
  hostBounds := h'.hostBounds ∘ h.hostBounds

end KeepsBounds

theorem Quiet.keepsBounds {s t : State} (h : Quiet s t) : KeepsBounds s t where
  settings := fun ⟨hin, hout, hmc, hap⟩ =>
    ⟨fun n => h.cfgIn n ▸ hin n, fun m => h.cfgOut m ▸ hout m, h.interval ▸ hmc, h.count ▸ hap⟩
  quotas _ hq n := by
    rw [h.cfgIn n, SlotManager.readyOf, h.sm.ready]
    exact hq n
  lines hl n := by
    have := h.lines n
    have := hl n
    omega
  hostBounds := h.hostBounds

theorem Quiet.steady {s t : State} (h : Quiet s t) : Steady s t := ⟨h.readers, h.retained, h.off, h.keepsBounds⟩

namespace KeepsBounds

variable {s t : State}

theorem quiet {u : State} (h : KeepsBounds s t) (h' : Quiet t u) : KeepsBounds s u := h.trans h'.keepsBounds

/-- A change of the slot manager after which every ready list is within its quota. -/
theorem setSm (h : KeepsBounds s t) {sm : SlotManager}
    (hready : t.settingsOk → t.quotasOk → ∀ n, (sm.readyOf n).length ≤ (t.input n).cfg.quota) :
    KeepsBounds s { t with sm := sm } :=
  h.trans { refl t with quotas := hready }

/-- A change of an input with what its new settings and its line FIFO ask for. -/
theorem setInput (h : KeepsBounds s t) {n : Fin 4} {ch : InputChannel} (hok : (t.input n).cfg.ok → ch.cfg.ok)
    (hquota : (t.sm.readyOf n).length ≤ (t.input n).cfg.quota → (t.sm.readyOf n).length ≤ ch.cfg.quota)
    (hfifo : (t.input n).fifo.length ≤ 3 → ch.fifo.length ≤ 3) : KeepsBounds s (t.setInput n ch) := by
  refine h.trans { refl t with
    settings := fun ⟨hin, hrest⟩ => ⟨fun i => ?_, hrest⟩
    quotas := fun _ hq i => ?_
    lines := fun hl i => ?_ }
  all_goals rw [State.input_setInput]; split
  next hi => exact hok (hin n)
  next => exact hin i
  next hi => subst hi; exact hquota (hq n)
  next => exact hq i
  next => exact hfifo (hl n)
  next => exact hl i

/-- A change of an output with what its new settings ask for. -/
theorem modOutput (h : KeepsBounds s t) {m : Fin 6} {f : OutputChannel → OutputChannel}
    (hok : (t.output m).cfg.ok → (f (t.output m)).cfg.ok := by exact id) : KeepsBounds s (t.modOutput m f) := by
  refine h.trans { refl t with settings := fun ⟨hin, hout, hrest⟩ => ⟨hin, fun i => ?_, hrest⟩ }
  rw [State.output_modOutput]
  split
  · exact hok (hout m)
  · exact hout i

end KeepsBounds

namespace Steady

variable {s t : State}

theorem refl (s : State) : Steady s s := (Quiet.refl s).steady

theorem trans {u : State} (h : Steady s t) (h' : Steady t u) : Steady s u :=
  ⟨h'.readers.trans h.readers, fun m => (h'.retained m).trans (h.retained m), fun m => h.off m ∘ h'.off m,
    h.bounds.trans h'.bounds⟩

theorem quiet {u : State} (h : Steady s t) (h' : Quiet t u) : Steady s u := h.trans h'.steady

theorem setSm (h : Steady s t) {sm : SlotManager} (hsm : t.sm.Steady sm) : Steady s { t with sm := sm } :=
  h.trans { refl t with
    readers := hsm.readers
    bounds := (KeepsBounds.refl t).setSm fun _ hq n => (hsm.ready n).trans (hq n) }

/-- A change of an input that keeps its settings, and a line FIFO of at most 3 lines so. -/
theorem setInput (h : Steady s t) {n : Fin 4} {ch : InputChannel} (hcfg : ch.cfg = (t.input n).cfg := by rfl)
    (hfifo : (t.input n).fifo.length ≤ 3 → ch.fifo.length ≤ 3 := by exact id) : Steady s (t.setInput n ch) :=
  h.trans { refl t with
    retained := by simp
    off := by simp
    bounds := (KeepsBounds.refl t).setInput (hcfg ▸ id) (hcfg ▸ id) hfifo }

theorem modInput (h : Steady s t) {n : Fin 4} {f : InputChannel → InputChannel}
    (hcfg : (f (t.input n)).cfg = (t.input n).cfg := by rfl)
    (hfifo : (t.input n).fifo.length ≤ 3 → (f (t.input n)).fifo.length ≤ 3 := by exact id) :
    Steady s (t.modInput n f) := h.setInput hcfg hfifo

/-! ### Publication and the fill context (R58 to R65) -/

theorem publishSlot (h : Steady s t) {n : Fin 4} {k : Nat} {f : SlotRecord → SlotRecord}
    (hf : ∀ r, (f r).readers = r.readers := by intro; rfl) : Steady s (t.publishSlot n k f) := by
  obtain ⟨hevict, hroom⟩ := SlotManager.Steady.evict t.sm n (quota := (t.input n).cfg.quota)
  unfold State.publishSlot
  dsimp only
  generalize (if t.sm.atQuota n (t.input n).cfg.quota then t.sm.evictOldest n else t.sm) = sm at hevict hroom
  have hrecord : t.sm.Steady (sm.modSlot k fun r => { f r with
      sequence := some (t.sm.seqOf n), timestamp := some t.timeBase, state := .ready, owner := some n }) :=
    hevict.modSlot hf
  have hlist : Steady t { t with sm := ((sm.modSlot k fun r => { f r with
      sequence := some (t.sm.seqOf n), timestamp := some t.timeBase, state := .ready, owner := some n }).setReady n
        (sm.readyOf n ++ [k])).setSeq n (t.sm.seqOf n + 1) } := { refl t with
    readers := hrecord.readers
    bounds := (KeepsBounds.refl t).setSm fun hs hq i => by
      rw [SlotManager.readyOf_setSeq, SlotManager.readyOf_setReady]
      split
      next hi =>
        subst hi
        obtain ⟨hin, _⟩ := hs
        obtain ⟨_, _, ⟨hquota, _⟩, _⟩ := hin n
        simpa using hroom hquota (hq n)
      next => exact (hrecord.ready i).trans (hq i) }
  split
  · exact (h.trans hlist).quiet (Quiet.refl _).countIn
  · exact h.trans hlist

theorem leaveDiscards (h : Steady s t) {n : Fin 4} : Steady s (t.leaveDiscards n) := by
  unfold State.leaveDiscards
  exact (h.setSm (SlotManager.Steady.refl _).toFreeAll).modInput

theorem publishEntry (h : Steady s t) {n : Fin 4} {e : FrameEntry} {rest : List FrameEntry} :
    Steady s (t.publishEntry n e rest) := h.modInput.publishSlot.quiet Quiet.publishEntry

theorem publishLoop (h : Steady s t) {n : Fin 4} {l : List FrameEntry} : Steady s (t.publishLoop n l) := by
  induction l generalizing t with
  | nil => exact h
  | cons e rest ih =>
    unfold State.publishLoop
    split
    · exact ih h.publishEntry
    · exact h

theorem settle (h : Steady s t) {n : Fin 4} : Steady s (t.settle n) := h.leaveDiscards.publishLoop

theorem closeOpen (h : Steady s t) {n : Fin 4} {v : Verdict} {short : Bool} :
    Steady s (t.closeOpen n v short) := by
  unfold State.closeOpen
  split
  · exact h
  next e _ =>
    have hclose := (h.setSm (sm := t.sm.modSlot e.slot fun r => { r with state := .closed, lineCount := some e.received })
      (SlotManager.Steady.refl _).modSlot).modInput (n := n) (f := fun ch => { ch with
        fill := ch.fill.map fun x => if x.status = .opened then { x with status := .closed v, shortMark := short } else x
        fifo := if v = .discard then dropLines e ch.fifo else ch.fifo }) rfl fun hle => by
          dsimp only
          split
          · exact (dropLines_length_le e _).trans hle
          · exact hle
    dsimp only
    split
    · exact hclose.quiet (Quiet.refl _).withdrawWrite
    · exact hclose

theorem closeFrame (h : Steady s t) {n : Fin 4} {v : Verdict} {short : Bool} :
    Steady s (t.closeFrame n v short) := h.closeOpen.settle.quiet (Quiet.refl _).raiseWrite

theorem endFrame (h : Steady s t) {n : Fin 4} {st : InState} {v : Verdict} {short : Bool} :
    Steady s (t.endFrame n st v short) :=
  (h.quiet (Quiet.refl t).enterState).closeFrame.quiet (Quiet.refl _).enterOrStop

theorem allocate (h : Steady s t) {n : Fin 4} {tag : Option Word} {k : Nat} :
    Steady s (t.allocate n tag k) := (h.setSm (SlotManager.Steady.refl _).modSlot).modInput

theorem reclaim (h : Steady s t) {n : Fin 4} {k : Nat} : Steady s (t.reclaim n k) := by
  have htake := (h.setSm ((SlotManager.Steady.refl _).setReady (n := n)
    (List.erase_sublist (a := k)).length_le)).quiet ((Quiet.refl _).countIn (n := n) (c := .reclaimed))
  unfold State.reclaim
  dsimp only
  split
  · exact htake
  · exact htake.quiet (Quiet.refl _).countIn

theorem admitFrame (h : Steady s t) {n : Fin 4} {tag : Option Word} : Steady s (t.admitFrame n tag) := by
  unfold State.admitFrame
  split
  · exact h.quiet (Quiet.refl t).skip
  · split
    · exact h.quiet (Quiet.refl t).skip.raiseIn
    · split
      · exact (h.setSm (SlotManager.Steady.refl _).setFree).allocate
      · split
        · exact h.reclaim.allocate
        · exact h.quiet (Quiet.refl t).skip.raiseIn

theorem takeFrameStart (h : Steady s t) {n : Fin 4} {tag : Option Word} :
    Steady s (t.takeFrameStart n tag) := (h.quiet (Quiet.refl t).restartLossTimer.signalFound).admitFrame

theorem frameStartFilling (h : Steady s t) {n : Fin 4} {tag : Option Word} :
    Steady s (t.frameStartFilling n tag) := by
  have hclose : Steady s ((t.broken n).closeFrame n .discard false) := (h.quiet (Quiet.refl t).broken).closeFrame
  unfold State.frameStartFilling
  dsimp only
  split
  · exact hclose.quiet (Quiet.refl _).stopCompletion
  · exact hclose.takeFrameStart

theorem lineFilling (h : Steady s t) {n : Fin 4} {e : FrameEntry} {payload : List Word} :
    Steady s (t.lineFilling n e payload) := by
  unfold State.lineFilling
  dsimp only
  split
  · exact (h.quiet (Quiet.refl t).broken).endFrame
  · split
    · exact (h.quiet (Quiet.refl t).broken).endFrame
    · split
      · exact (h.quiet (Quiet.refl t).countIn.raiseIn).endFrame
      next hroom => exact h.quiet ((Quiet.refl t).acceptLine (Nat.lt_of_not_le hroom)).raiseWrite

theorem frameEndFilling (h : Steady s t) {n : Fin 4} {e : FrameEntry} : Steady s (t.frameEndFilling n e) := by
  unfold State.frameEndFilling
  split
  · exact h.endFrame
  · split
    · exact h.endFrame
    · exact (h.quiet (Quiet.refl t).broken).endFrame

theorem signalLost (h : Steady s t) {n : Fin 4} : Steady s (t.signalLost n) := by
  unfold State.signalLost
  dsimp only
  split
  · exact endFrame (quiet h (Quiet.refl t).modInput_of_eq.countIn.raiseIn.broken)
  · exact h.quiet (Quiet.refl t).modInput_of_eq.countIn.raiseIn.enterState

theorem stopNow (h : Steady s t) {n : Fin 4} : Steady s (t.stopNow n) := by
  unfold State.stopNow
  dsimp only
  split
  · exact (h.quiet (Quiet.refl t).countIn).closeFrame.quiet (Quiet.refl _).stopCompletion
  · exact h.quiet (Quiet.refl t).stopCompletion

theorem writeDisable (h : Steady s t) {n : Fin 4} {mode : StopMode} : Steady s (t.writeDisable n mode) := by
  have hstop : Steady s (if (t.input n).stopPending then t else
      match mode with
      | .immediate => t.stopNow n
      | .atFrameEnd => t.stopAtEnd n) := by
    split
    · exact h
    · cases mode with
      | immediate => exact h.stopNow
      | atFrameEnd => exact h.quiet (Quiet.refl t).stopAtEnd
  unfold State.writeDisable
  split
  case h_1 | h_2 | h_3 => exact hstop
  all_goals exact h

theorem writeInCtrl (h : Steady s t) {n : Fin 4} {enable : Bool} {mode : StopMode} :
    Steady s (t.writeInCtrl n enable mode) := by
  unfold State.writeInCtrl
  dsimp only
  split
  · exact h.quiet (Quiet.refl t).configIgnored
  · split
    · exact h.quiet (Quiet.refl t).modInput_of_eq.writeEnable
    · exact (h.quiet (Quiet.refl t).modInput_of_eq).writeDisable

/-- New settings of an input, where its ready list is within the new quota. -/
theorem setConfig (h : Steady s t) {n : Fin 4} {ch : InputChannel} (hok : (t.input n).cfg.ok → ch.cfg.ok)
    (hquota : (t.sm.readyOf n).length ≤ (t.input n).cfg.quota → (t.sm.readyOf n).length ≤ ch.cfg.quota)
    (hfifo : ch.fifo = (t.input n).fifo) : Steady s (t.setInput n ch) :=
  h.trans { refl t with
    retained := by simp
    off := by simp
    bounds := (KeepsBounds.refl t).setInput hok hquota (hfifo ▸ id) }

/-- New settings of an input, with the ready list trimmed to the new quota (R12). -/
theorem setConfigTrimmed (h : Steady s t) {n : Fin 4} {cfg : InConfig} (hok : (t.input n).cfg.ok → cfg.ok) :
    Steady s ((t.modInput n fun ch => { ch with cfg := cfg }).trimReady n cfg.quota) := by
  have htrim := (SlotManager.Steady.refl t.sm).setReady (n := n)
    (l := (t.sm.readyOf n).drop (t.sm.excess n cfg.quota).length) (by simp)
  have hretire := htrim.retireAll (ks := t.sm.excess n cfg.quota)
  have hset := (h.setSm hretire).setConfig (n := n) (ch := ({ t.input n with cfg := cfg } : InputChannel).countEvicted
    ((t.sm.excess n cfg.quota).countP fun k => !(t.sm.slot k).viewed)) hok (fun _ => by
      rw [SlotManager.readyOf_retireAll]
      simp only [SlotManager.readyOf_setReady, if_true, SlotManager.excess, List.length_drop, List.length_take,
        InputChannel.countEvicted]
      omega) rfl
  simpa [State.trimReady, State.modInput, State.setInput] using hset

theorem writeInConfig (h : Steady s t) {n : Fin 4} {reg : InConfigReg} {w : Word} :
    Steady s (t.writeInConfig n reg w) := by
  unfold State.writeInConfig
  split
  · split
    · exact h.quiet (Quiet.refl t).configIgnored
    next cfg hcfg =>
      dsimp only
      split
      · exact h.setConfigTrimmed fun hok => inConfigWrite_ok hok hcfg
      next hreg =>
        exact h.setConfig (fun hok => inConfigWrite_ok hok hcfg)
          (fun hle => (inConfigWrite_quota hcfg hreg).symm ▸ hle) rfl
  · exact h.quiet (Quiet.refl t).configIgnored

theorem lineWriteDone (h : Steady s t) {r : MemRequest} : Steady s (t.lineWriteDone r) := by
  unfold State.lineWriteDone
  split
  · unfold State.inputWriteDone
    split
    · exact ((h.quiet (Quiet.refl t).storeWords).setSm (SlotManager.Steady.refl _).toFreeAll).modInput
        rfl fun _ => Nat.zero_le _
    · exact (h.quiet (Quiet.refl t).storeWords.lineWritten).settle.quiet (Quiet.refl _).finishStopping.raiseWrite
  · exact h.quiet (Quiet.refl t).storeWords

theorem resetInput (h : Steady s t) {n : Fin 4} : Steady s (t.resetInput n) := by
  have hclose := ((SlotManager.Steady.refl t.sm).resetInput (n := n)).closeRecords (es := (t.input n).fill)
  have hafter : ∀ {sm : SlotManager} (writing : Bool), t.sm.Steady sm →
      Steady s ((({ t with sm := sm, eu := t.eu.clearReg (.input n) } : State).withdrawWrite n).setInput n
        ((t.input n).afterReset writing)) := fun writing hsm => by
    refine ((h.setSm hsm).quiet (Quiet.refl _).of_eq.withdrawWrite).setInput rfl fun _ => ?_
    cases writing <;> simp [InputChannel.afterReset, InputChannel.reset]
  unfold State.resetInput
  dsimp only
  split
  · exact (h.quiet (Quiet.refl t).of_eq).setInput
  · cases t.inFlight (.input n) with
    | true => exact hafter true hclose
    | false => exact hafter false hclose.toFreeAll

theorem resetInputs (h : Steady s t) {ns : List (Fin 4)} : Steady s (t.resetInputs ns) := by
  induction ns generalizing t with
  | nil => exact h
  | cons n ns ih => exact ih h.resetInput

/-! ### Registers and commands of the host -/

theorem refuseCommand (h : Steady s t) {code : BitVec 8} {r : ResultCode} :
    Steady s (t.refuseCommand code r) := h.quiet (Quiet.refl t).refuseCommand

theorem writeMcRefresh (h : Steady s t) {w : Word} : Steady s (t.writeMcRefresh w) := by
  unfold State.writeMcRefresh
  split
  next hrange =>
    exact h.trans { refl t with bounds := { KeepsBounds.refl t with
      settings := fun ⟨hin, hout, _, hcount⟩ => ⟨hin, hout, inRange_iff.1 hrange, hcount⟩ } }
  next => exact h.quiet (Quiet.refl t).configIgnored

theorem writeAccCount (h : Steady s t) {w : Word} : Steady s (t.writeAccCount w) := by
  unfold State.writeAccCount
  split
  · exact h.quiet (Quiet.refl t).portError
  · split
    next hrange =>
      exact h.trans { refl t with bounds := { KeepsBounds.refl t with
        settings := fun ⟨hin, hout, hmc, _⟩ => ⟨hin, hout, hmc, inRange_iff.1 hrange⟩ } }
    next => exact h.quiet (Quiet.refl t).portError

theorem cmdSlotClaim (h : Steady s t) : Steady s t.cmdSlotClaim := by
  unfold State.cmdSlotClaim
  split
  · exact h.refuseCommand
  · split
    · exact h.refuseCommand
    · exact (h.setSm (SlotManager.Steady.refl _).setFree.modSlot).quiet (Quiet.refl _).completeCommand

theorem cmdSlotHold (h : Steady s t) : Steady s t.cmdSlotHold := by
  unfold State.cmdSlotHold
  split
  · exact h.refuseCommand
  · split
    · split
      · exact h.refuseCommand
      · exact (h.setSm (SlotManager.Steady.refl _).hold).quiet (Quiet.refl _).completeCommand
    · exact h.refuseCommand

theorem cmdSlotRelease (h : Steady s t) : Steady s t.cmdSlotRelease := by
  unfold State.cmdSlotRelease
  split
  · exact h.refuseCommand
  · split
    · exact h.refuseCommand
    · split
      · exact h.refuseCommand
      · split
        · exact h.refuseCommand
        · exact (h.setSm (SlotManager.Steady.refl _).retire).quiet (Quiet.refl _).completeCommand

theorem cmdSlotPublish (h : Steady s t) : Steady s t.cmdSlotPublish := by
  unfold State.cmdSlotPublish
  split
  · exact h.refuseCommand
  · split
    · exact h.refuseCommand
    · split
      · exact h.refuseCommand
      · split
        · exact h.refuseCommand
        · split
          · exact h.refuseCommand
          · exact h.publishSlot.quiet (Quiet.refl _).completeCommand

theorem cmdInputFlush (h : Steady s t) : Steady s t.cmdInputFlush := by
  unfold State.cmdInputFlush
  split
  · exact h.refuseCommand
  · split
    · exact h.refuseCommand
    · exact (h.setSm ((SlotManager.Steady.refl _).setReady (Nat.zero_le _)).retireAll).quiet
        (Quiet.refl _).completeCommand

end Steady

end Sys2Proof.Machine
end


-- ==== Sys2Proof/Proofs/Readers.lean ====
section
/-! The reader sets: an output is in a slot's reader set exactly while it retains the slot (R17). Only join, leave and the
operations that use them change a reader set. -/

namespace Sys2Proof.Machine

-- One theorem after another, as in the tests: many of them at once would need a thread each.
set_option Elab.async false

theorem SlotManager.readers_of_length_le {sm : SlotManager} {k : Nat} (hk : sm.slots.length ≤ k) : sm.readers k = 0 := by
  simp [SlotManager.readers, SlotManager.slot, hk, SlotRecord.fresh]

theorem SlotManager.readers_toFree (sm : SlotManager) (k : Nat) : (sm.toFree k).readers = sm.readers :=
  sm.readers_modSlot k

/-! ### Join and leave (R18, R19) -/

/-- Outputs and reader sets agree: an output is in the reader set of the slot it retains and in no other. -/
def ReadersAgree (retained : Fin 6 → Option Nat) (readers : Nat → BitVec 6) : Prop :=
  ∀ m k, retained m = some k ↔ (readers k).getLsbD m.val = true

theorem readerBit_getLsbD (m i : Fin 6) : (readerBit m).getLsbD i.val = decide (m = i) := by
  revert m i; decide

theorem SlotManager.readers_join {sm : SlotManager} (m : Fin 6) {k : Nat} (hk : k < sm.slots.length) :
    (sm.join m k).readers = Function.update sm.readers k (sm.readers k ||| readerBit m) := by
  funext j
  by_cases hj : j = k
  · subst hj; simp [SlotManager.readers, SlotManager.join, hk]
  · simp [SlotManager.readers, SlotManager.join, hj, Ne.symm hj]

theorem SlotManager.readers_leave (sm : SlotManager) (m : Fin 6) (k : Nat) :
    (sm.leave m k).readers = Function.update sm.readers k (sm.readers k &&& ~~~readerBit m) := by
  have hleft : (sm.modSlot k fun r => { r with readers := r.readers &&& ~~~readerBit m }).readers =
      Function.update sm.readers k (sm.readers k &&& ~~~readerBit m) := by
    funext j
    by_cases hj : j = k
    · subst hj
      by_cases hlt : j < sm.slots.length
      · simp [SlotManager.readers, hlt]
      · have hzero : (sm.slot j).readers = 0 := SlotManager.readers_of_length_le (Nat.le_of_not_lt hlt)
        simp [SlotManager.readers, hlt, hzero]
    · simp [SlotManager.readers, hj, Ne.symm hj]
  unfold SlotManager.leave
  dsimp only
  split
  · rw [SlotManager.readers_toFree, hleft]
  · exact hleft

/-- An output that retains no slot joins one and retains it. -/
theorem ReadersAgree.join {retained : Fin 6 → Option Nat} {readers : Nat → BitVec 6} (h : ReadersAgree retained readers)
    {m : Fin 6} (hm : retained m = none) (k : Nat) :
    ReadersAgree (Function.update retained m (some k)) (Function.update readers k (readers k ||| readerBit m)) := by
  intro i j
  have hnone : ∀ j, (readers j).getLsbD m.val = false := fun j => by
    rw [← Bool.not_eq_true, ← h m j, hm]
    simp
  by_cases hj : j = k
  · subst hj
    rw [Function.update_self, BitVec.getLsbD_or, readerBit_getLsbD]
    by_cases hi : i = m
    · subst hi; simp
    · rw [Function.update_of_ne hi, h i j]
      simp [Ne.symm hi]
  · rw [Function.update_of_ne hj]
    by_cases hi : i = m
    · subst hi
      rw [Function.update_self, hnone]
      simp [Ne.symm hj]
    · rw [Function.update_of_ne hi, h i j]

/-- An output leaves the slot it retains and retains none. -/
theorem ReadersAgree.leave {retained : Fin 6 → Option Nat} {readers : Nat → BitVec 6} (h : ReadersAgree retained readers)
    {m : Fin 6} {k : Nat} (hm : retained m = some k) :
    ReadersAgree (Function.update retained m none) (Function.update readers k (readers k &&& ~~~readerBit m)) := by
  intro i j
  by_cases hj : j = k
  · subst hj
    rw [Function.update_self, BitVec.getLsbD_and, BitVec.getLsbD_not, readerBit_getLsbD]
    by_cases hi : i = m
    · subst hi; simp
    · rw [Function.update_of_ne hi, h i j]
      simp [Ne.symm hi]
  · rw [Function.update_of_ne hj]
    by_cases hi : i = m
    · subst hi
      rw [Function.update_self, ← h i j, hm]
      simp [Ne.symm hj]
    · rw [Function.update_of_ne hi, h i j]

/-- The binding of a slot: the output joins it and leaves the one it retained (R87). -/
theorem ReadersAgree.rebind {retained : Fin 6 → Option Nat} {sm : SlotManager} (h : ReadersAgree retained sm.readers)
    (m : Fin 6) {k : Nat} (hk : k < sm.slots.length) :
    ReadersAgree (Function.update retained m (some k)) (sm.rebind m (retained m) k).readers := by
  unfold SlotManager.rebind
  split
  next hsame =>
    rw [← hsame, Function.update_eq_self]
    exact h
  next hother =>
    cases hm : retained m with
    | none =>
      rw [SlotManager.readers_join m hk]
      exact h.join hm k
    | some r =>
      have hr : r ≠ k := fun hc => hother (hc ▸ hm)
      -- the two reader sets are distinct, so joining first is the same as leaving first
      have hjoin := (h.leave hm).join (m := m) (by simp) k
      rw [Function.update_idem, Function.update_of_ne (Ne.symm hr), Function.update_comm hr] at hjoin
      simpa [SlotManager.readers_leave, SlotManager.readers_join m hk, Function.update_of_ne hr] using hjoin

/-! ### The invariant -/

/-- What each output retains. -/
def State.retained (s : State) (m : Fin 6) : Option Nat := (s.output m).retained

/-- R17 in two parts: outputs and reader sets agree, and an OFF output retains nothing. -/
theorem readersOk_iff {s : State} :
    s.readersOk ↔ ReadersAgree s.retained s.sm.readers ∧ ∀ m, (s.output m).state = .off → s.retained m = none := by
  refine and_congr_left fun _ => forall_congr' fun m => forall_congr' fun k => iff_congr .rfl ?_
  refine ⟨fun h => h.2, fun h => ⟨?_, h⟩⟩
  by_contra hk
  simp [SlotManager.readers_of_length_le (Nat.le_of_not_lt hk)] at h

theorem retained_modOutput (s : State) (m : Fin 6) (f : OutputChannel → OutputChannel) :
    (s.modOutput m f).retained = Function.update s.retained m (f (s.output m)).retained := by
  funext i
  by_cases hi : m = i
  · subst hi; simp [State.retained]
  · simp [State.retained, hi, Function.update_of_ne (Ne.symm hi)]

section

variable {s t : State}

theorem Steady.readersOk (h : Steady s t) (hs : s.readersOk) : t.readersOk := by
  rw [readersOk_iff] at hs ⊢
  have hretained : t.retained = s.retained := funext h.retained
  rw [hretained, h.readers]
  exact ⟨hs.1, fun m hm => hs.2 m (h.off m hm)⟩

theorem Quiet.readersOk (h : Quiet s t) (hs : s.readersOk) : t.readersOk := h.steady.readersOk hs

/-- A change of one output that keeps what it retains, or retains nothing. -/
theorem readersOk_modOutput (hs : s.readersOk) {m : Fin 6} {f : OutputChannel → OutputChannel}
    (hret : (f (s.output m)).retained = (s.output m).retained)
    (hoff : (f (s.output m)).state = .off → (s.output m).state = .off ∨ (s.output m).retained = none) :
    (s.modOutput m f).readersOk := by
  rw [readersOk_iff] at hs ⊢
  obtain ⟨hagree, hnone⟩ := hs
  have hretained : (s.modOutput m f).retained = s.retained := by
    rw [retained_modOutput, hret]
    exact Function.update_eq_self m s.retained
  rw [hretained]
  refine ⟨hagree, fun i hi => ?_⟩
  by_cases hm : m = i
  · subst hm
    rw [State.output_modOutput, if_pos rfl] at hi
    exact (hoff hi).elim (hnone m) id
  · rw [State.output_modOutput, if_neg hm] at hi
    exact hnone i hi

/-- A release keeps the invariant, and the output retains nothing after it (R19). -/
theorem readersOk_release (hs : s.readersOk) (m : Fin 6) :
    (s.release m).readersOk ∧ ((s.release m).output m).retained = none := by
  unfold State.release
  split
  next hm => exact ⟨hs, hm⟩
  next k hm =>
    rw [readersOk_iff] at hs ⊢
    obtain ⟨hagree, hnone⟩ := hs
    refine ⟨⟨?_, fun i hi => ?_⟩, by simp⟩
    · rw [retained_modOutput]
      exact SlotManager.readers_leave .. ▸ hagree.leave hm
    · rw [retained_modOutput]
      by_cases hmi : m = i
      · subst hmi; simp
      · rw [Function.update_of_ne (Ne.symm hmi)]
        rw [State.output_modOutput, if_neg hmi] at hi
        exact hnone i hi

theorem readersOk_enterDisabled (hs : s.readersOk) {m : Fin 6} (hm : (s.output m).retained = none) :
    (s.enterDisabled m).readersOk :=
  (Quiet.refl _).raiseOut.readersOk (readersOk_modOutput hs rfl fun _ => .inr hm)

theorem readersOk_closeDisabling (hs : s.readersOk) (m : Fin 6) : (s.closeDisabling m).readersOk := by
  obtain ⟨hrelease, hnone⟩ := readersOk_release ((Quiet.refl s).closeOutput (m := m) |>.readersOk hs) m
  unfold State.closeDisabling
  dsimp only
  split
  · exact hrelease
  · exact readersOk_enterDisabled hrelease hnone

theorem readersOk_openDisabling (hs : s.readersOk) (m : Fin 6) : (s.openDisabling m).readersOk := by
  unfold State.openDisabling
  split
  · exact (Quiet.refl _).answerOffline.readersOk
      (readersOk_closeDisabling ((Quiet.refl s).protocolError.readersOk hs) m)
  · exact (Quiet.refl s).answerOffline.readersOk hs

theorem readersOk_bind (hs : s.readersOk) {m : Fin 6} {k : Nat} (hk : k < s.sm.slots.length)
    (hm : (s.output m).state ≠ .off) (short lost : Bool) : (s.bind m k short lost).readersOk := by
  unfold State.bind
  refine (Quiet.refl _).openShown.readersOk ?_
  rw [readersOk_iff] at hs ⊢
  obtain ⟨hagree, hnone⟩ := hs
  rw [retained_modOutput]
  refine ⟨hagree.rebind m hk, fun i hi => ?_⟩
  by_cases hmi : m = i
  · subst hmi
    rw [State.output_modOutput, if_pos rfl] at hi
    exact absurd hi hm
  · rw [Function.update_of_ne (Ne.symm hmi)]
    rw [State.output_modOutput, if_neg hmi] at hi
    exact hnone i hi

/-- A policy chooses from the ready list. -/
theorem mem_of_choosePolicy {sm : SlotManager} {list : List Nat} {policy : Policy} {d : Nat} {last : Option LastShown}
    {k : Nat} {short : Bool} (h : choosePolicy sm list policy d last = some (k, short)) : k ∈ list := by
  unfold choosePolicy at h
  (repeat' split at h) <;> simp only [Option.map_eq_some_iff, Prod.mk.injEq] at h <;> obtain ⟨j, hj, rfl, _⟩ := h
  · exact List.mem_of_getLast? hj
  · exact List.mem_of_head? hj
  · exact List.mem_of_find?_eq_some hj
  · exact List.mem_of_getElem? hj
  · exact List.mem_of_head? hj

theorem readersOk_select (hs : s.readersOk) (hready : ∀ n, ∀ k ∈ s.sm.readyOf n, k < s.sm.slots.length) {m : Fin 6}
    (hm : (s.output m).state ≠ .off) : (s.select m).readersOk := by
  unfold State.select
  dsimp only
  split
  · exact (Quiet.refl _).openBlank.readersOk (readersOk_release hs m).1
  generalize (s.input (s.output m).cfg.source).lost = lost
  have hreport : Quiet s (s.modOutput m fun o => { o with lossReported := keepLossReport o.lossReported o.cfg.source lost }) :=
    (Quiet.refl s).modOutput
  unfold State.lossStep
  dsimp only
  split
  · exact (Quiet.refl _).openBlank.readersOk (readersOk_release (hreport.reportLoss.readersOk hs) m).1
  · unfold State.freezeStep
    split
    · exact hreport.countOut.openShown.readersOk hs
    · unfold State.policyStep
      dsimp only
      split
      next hk =>
        refine readersOk_bind (hreport.modOutput.readersOk hs) (hready _ _ (mem_of_choosePolicy hk)) ?_ _ _
        simpa using hm
      · exact hreport.modOutput.fallback.readersOk hs

theorem readersOk_writeOutConfig (hs : s.readersOk) (m : Fin 6) (reg : OutConfigReg) (enable : Bool) (w : Word) :
    (s.writeOutConfig m reg enable w).readersOk := by
  unfold State.writeOutConfig
  split
  · exact (Quiet.refl s).configIgnored.readersOk hs
  · split
    · exact (Quiet.refl s).configIgnored.readersOk hs
    next cfg _ =>
      have hset : (s.modOutput m fun o => { o with cfg := cfg }).readersOk := readersOk_modOutput hs rfl .inl
      dsimp only
      split
      · unfold State.writeOutEnable
        split
        · exact readersOk_modOutput hset rfl fun h => nomatch h
        · obtain ⟨hrelease, hnone⟩ := readersOk_release hset m
          refine readersOk_enterDisabled (readersOk_modOutput hrelease rfl .inl) ?_
          simpa using hnone
        · exact readersOk_modOutput hset rfl fun h => nomatch h
        · exact hset
      · exact hset

theorem readersOk_resetOutput (hs : s.readersOk) (m : Fin 6) : (s.resetOutput m).readersOk := by
  obtain ⟨hrelease, hnone⟩ := readersOk_release hs m
  exact readersOk_modOutput (s := State.withdrawRead { s.release m with eu := _ } m) hrelease rfl fun _ => .inr hnone

theorem readersOk_resetOutputs (hs : s.readersOk) (ms : List (Fin 6)) : (s.resetOutputs ms).readersOk := by
  induction ms generalizing s with
  | nil => exact hs
  | cons m ms ih => exact ih (readersOk_resetOutput hs m)

theorem output_judgeLine (s : State) (m : Fin 6) (r : MemRequest) (ws : List WordRead) :
    ∃ fifo, (s.judgeLine m r ws).output m = { s.output m with fifo := fifo } := by
  unfold State.judgeLine
  split
  · exact ⟨_, rfl⟩
  · split
    · exact ⟨_, rfl⟩
    · have hline := (State.output_modOutput s m m fun o =>
        { o with fifo := o.fifo ++ [⟨r.number, anyPoisoned ws, r.epoch, ws.map WordRead.word⟩] }).trans (if_pos rfl)
      refine ⟨_, Eq.trans ?_ hline⟩
      unfold State.enterLine
      dsimp only
      split <;> rfl

theorem readersOk_lineReadDone (hs : s.readersOk) (hframes : s.framesOk) (r : MemRequest) :
    (s.lineReadDone r).readersOk := by
  unfold State.lineReadDone
  dsimp only
  split
  next m _ =>
    have hjudged := (Quiet.refl s).countEcc (ws := s.store.readWords r.addr r.count)
      |>.judgeLine (m := m) (r := r) (ws := s.store.readWords r.addr r.count)
    refine (Quiet.refl _).raiseRead.readersOk ?_
    unfold State.endHandshake
    split
    next hend =>
      obtain ⟨fifo, hout⟩ := output_judgeLine (s.countEcc (s.store.readWords r.addr r.count)) m r
        (s.store.readWords r.addr r.count)
      refine readersOk_enterDisabled (hjudged.readersOk hs) ?_
      simp only [hout, State.output_countEcc, Bool.and_eq_true, decide_eq_true_eq, Option.isNone_iff_eq_none] at hend ⊢
      exact (hframes m).2.2 hend.1 hend.2
    · exact hjudged.readersOk hs
  · exact (Quiet.refl s).countEcc.readersOk hs

/-- Without slots and with every output retaining none, nothing is read. -/
theorem readersOk_of_empty (hreaders : ∀ k, s.sm.readers k = 0) (hret : ∀ m, (s.output m).retained = none) :
    s.readersOk :=
  readersOk_iff.2 ⟨fun m k => by simp [State.retained, hreaders, hret], fun m _ => hret m⟩

theorem readers_fresh {sm : SlotManager} (h : sm.slots = (List.range sm.slots.length).map SlotRecord.fresh) (k : Nat) :
    sm.readers k = 0 := by
  unfold SlotManager.readers SlotManager.slot
  rw [h]
  by_cases hk : k < sm.slots.length <;> simp [hk, SlotRecord.fresh]

theorem readersOk_cmdPoolBuild (hs : s.readersOk) (habsent : s.sm.built = false → s.sm.slots = []) :
    s.cmdPoolBuild.readersOk := by
  have hrefuse : ∀ r, (s.refuseCommand 0x02 r).readersOk := fun r => (Quiet.refl s).refuseCommand.readersOk hs
  unfold State.cmdPoolBuild
  split
  · exact hrefuse _
  · split
    · exact hrefuse _
    next hbuilt =>
      have hempty := habsent (by simpa using hbuilt)
      split
      · exact hrefuse _
      · split
        · exact hrefuse _
        · refine (Quiet.refl _).emptyCaptures.completeCommand.readersOk (readersOk_of_empty (fun k => ?_) fun m => ?_)
          · exact readers_fresh (by simp [SlotManager.build]) k
          · refine Option.eq_none_iff_forall_ne_some.2 fun k hk => ?_
            simpa [hempty] using ((hs.1 m k).1 hk).1

theorem readersOk_cmdPoolTeardown (hs : s.readersOk) : s.cmdPoolTeardown.readersOk := by
  have hrefuse : ∀ r, (s.refuseCommand 0x03 r).readersOk := fun r => (Quiet.refl s).refuseCommand.readersOk hs
  unfold State.cmdPoolTeardown
  split
  · exact hrefuse _
  · split
    · exact hrefuse _
    next hall =>
      have hoff : ∀ m, (s.output m).state = .off := fun m => by
        simp only [Bool.not_eq_true', Bool.not_eq_false, State.allOff, Bool.and_eq_true, List.all_eq_true] at hall
        simpa using hall.2 m (List.mem_finRange m)
      split
      · exact hrefuse _
      · exact (Quiet.refl _).emptyCaptures.completeCommand.readersOk
          (readersOk_of_empty (readers_fresh (by simp [SlotManager.teardown])) fun m => hs.2 m (hoff m))

/-- Every output at its reset values: the source of OUTm is IN(m mod 4) (R74). -/
theorem State.output_of_reset (hout : s.outputs = outputsReset) (m : Fin 6) :
    s.output m = OutputChannel.reset ⟨m.val % 4, Nat.mod_lt _ (by norm_num)⟩ := by
  rw [State.output, hout]
  fin_cases m <;> rfl

/-- The state after a reset, of the whole block or of the pins: no pool, and every output at its reset values. -/
theorem readersOk_of_reset (hsm : s.sm = SlotManager.reset) (hout : s.outputs = outputsReset) : s.readersOk :=
  readersOk_of_empty (readers_fresh (by simp [hsm, SlotManager.reset])) fun m => by
    rw [State.output_of_reset hout m]
    rfl

/-! ### Every step -/

theorem readersOk_commandEffect (hs : s.readersOk) (hlocations : s.locationsOk) (e : CommandEffect s t) : t.readersOk := by
  have hrefl := Steady.refl s
  cases e with
  | memoryInit => exact (Quiet.refl s).cmdMemoryInit.readersOk hs
  | poolBuild => exact readersOk_cmdPoolBuild hs hlocations.2.1
  | poolTeardown => exact readersOk_cmdPoolTeardown hs
  | slotClaim => exact hrefl.cmdSlotClaim.readersOk hs
  | slotHold => exact hrefl.cmdSlotHold.readersOk hs
  | slotRelease => exact hrefl.cmdSlotRelease.readersOk hs
  | slotPublish => exact hrefl.cmdSlotPublish.readersOk hs
  | slotClear => exact (Quiet.refl s).cmdSlotClear.readersOk hs
  | inputFlush => exact hrefl.cmdInputFlush.readersOk hs
  | unknown => exact (Quiet.refl s).cmdUnknown.readersOk hs

theorem readersOk_hostEffect (hs : s.readersOk) (hlocations : s.locationsOk) (e : HostEffect s t) : t.readersOk := by
  have hquiet : ∀ {u : State}, Quiet s u → u.readersOk := fun hu => hu.readersOk hs
  have hkeeps : ∀ {u : State}, Steady s u → u.readersOk := fun hu => hu.readersOk hs
  have hrefl := Quiet.refl s
  cases e with
  | ignored => exact hs
  | command _ e => exact readersOk_commandEffect hs hlocations e
  | overrun => exact hquiet hrefl.raiseGlobal
  | arguments a => exact hquiet hrefl.of_eq
  | portRead => exact hquiet hrefl.portRead
  | portFlush => exact hquiet hrefl.portFlush
  | portDiscard => exact hquiet hrefl.portDiscard
  | readAccData => exact hquiet hrefl.readAccData
  | writeAccData w => exact hquiet hrefl.writeAccData
  | writeAccAddr w => exact hquiet hrefl.writeAccAddr
  | writeAccCount w => exact hkeeps (Steady.refl s).writeAccCount
  | writeInCtrl n enable mode => exact hkeeps (Steady.refl s).writeInCtrl
  | writeInConfig n reg w => exact hkeeps (Steady.refl s).writeInConfig
  | writeOutConfig m reg enable w => exact readersOk_writeOutConfig hs m reg enable w
  | writeGeometry reg w => exact hquiet hrefl.writeGeometry
  | writeMcCfg w => exact hquiet hrefl.writeMcCfg
  | writeMcRefresh w => exact hkeeps (Steady.refl s).writeMcRefresh
  | writeArbCfg w => exact hquiet hrefl.writeArbCfg
  | clearEvents reg w => exact hquiet hrefl.of_eq
  | writeEnables reg w => exact hquiet hrefl.of_eq
  | clearCounter c => exact hquiet hrefl.clearCounter
  | captureRecord k => exact hquiet hrefl.of_eq
  | captureList l => exact hquiet hrefl.of_eq
  | softReset => exact readersOk_of_reset rfl rfl
  | channelResets ns ms => exact readersOk_resetOutputs (hkeeps (Steady.refl s).resetInputs) ms

theorem readersOk_effect (hs : s.readersOk) (hlocations : s.locationsOk) (hframes : s.framesOk) (e : Effect s t) :
    t.readersOk := by
  have hquiet : ∀ {u : State}, Quiet s u → u.readersOk := fun hu => hu.readersOk hs
  have hkeeps : ∀ {u : State}, Steady s u → u.readersOk := fun hu => hu.readersOk hs
  have hready : ∀ n, ∀ k ∈ s.sm.readyOf n, k < s.sm.slots.length := fun n k hk => by
    obtain ⟨_, _, _, _, hready, _⟩ := hlocations
    exact (((hready n).2 k).1 hk).1
  have hrefl := Quiet.refl s
  cases e with
  | idle => exact hs
  | hostEffect _ e => exact readersOk_hostEffect hs hlocations e
  | heldRead => exact hquiet hrefl.of_eq
  | takeFrameStart n tag => exact hkeeps (Steady.refl s).takeFrameStart
  | frameStartFilling n tag => exact hkeeps (Steady.refl s).frameStartFilling
  | stray n => exact hquiet hrefl.stray
  | lineFilling n e payload => exact hkeeps (Steady.refl s).lineFilling
  | frameEndFilling n e => exact hkeeps (Steady.refl s).frameEndFilling
  | frameEndSkipping n => exact hquiet hrefl.enterState
  | signalLost n => exact hkeeps (Steady.refl s).signalLost
  | answerOffline m => exact hquiet hrefl.answerOffline
  | select m h => exact readersOk_select hs hready (by rw [h]; exact nofun)
  | reopen m h =>
    have hclose := hrefl.protocolError (m := m) |>.closeOutput (m := m)
    refine readersOk_select (hclose.readersOk hs) (by simpa using hready) fun hoff => ?_
    exact nomatch (hclose.off m hoff).symm.trans h
  | openDisabling m => exact readersOk_openDisabling hs m
  | pullClosed m => exact hquiet hrefl.pullClosed
  | overpull m f => exact hquiet hrefl.overpull
  | pullBlank m f => exact hquiet hrefl.pullBlank
  | pullLine m f => exact hquiet hrefl.pullLine
  | closeIdle m => exact hquiet hrefl.protocolError
  | closeShowing m => exact hquiet (hrefl.closeOutput.modOutput (hoff := by intro _ hoff; cases hoff))
  | closeDisabling m => exact readersOk_closeDisabling hs m
  | refreshExpired => exact hquiet hrefl.refreshExpired
  | nextStage => exact hquiet hrefl.of_eq
  | enterReady => exact hquiet hrefl.enterReady
  | advanceTime => exact hquiet hrefl.of_eq
  | loseCharge decay => exact hquiet hrefl.of_eq
  | lineWriteDone r =>
    exact hkeeps (((Steady.refl s).quiet hrefl.endExec).lineWriteDone.quiet (Quiet.refl _).afterDelivery)
  | lineReadDone r =>
    exact (Quiet.refl _).afterDelivery.readersOk (readersOk_lineReadDone (hquiet hrefl.endExec) hframes r)
  | blockReadDone r => exact hquiet hrefl.endExec.blockReadDone.afterDelivery
  | blockWriteDone r => exact hquiet hrefl.endExec.blockWriteDone.afterDelivery
  | clearWriteDone r => exact hquiet hrefl.endExec.clearWriteDone.afterDelivery
  | refreshDone e => exact hquiet hrefl.endExec.refreshDone.afterDelivery
  | orphanDone r => exact hquiet hrefl.endExec.orphanEffect.raiseDeferred.retestReader.afterDelivery
  | pinReset => exact readersOk_of_reset rfl rfl
  | deassert => exact hquiet hrefl.of_eq

end

/-- Settles O16: an effect either keeps every reader set and retained slot, or joins and leaves for one output. -/
theorem readerSetsKept : Obligations.ReaderSetsKept := by
  intro s t _ hlocations hframes hreaders hstep
  obtain ⟨rest, heffect⟩ := step_effect hstep
  exact readersOk_effect (s := { s with pending := rest }) hreaders hlocations hframes heffect

end Sys2Proof.Machine
end

