-- ==== Sys2Proof/Proofs/Sizes.lean ====
section
/-! Settings stay in range and ready lists, line FIFOs and buffers within their sizes (R11, R25, R74, R34, R126, R160). What is
left after the steady changes are the operations that join or leave a slot, that write an output's settings, and the resets. -/

namespace Sys2Proof.Machine

-- One theorem after another, as in the tests: many of them at once would need a thread each.
set_option Elab.async false

/-- A write of an output's settings that is taken leaves each in its range (R74). -/
theorem outConfigWrite_ok {cfg cfg' : OutConfig} {reg : OutConfigReg} {w : Word} (hok : cfg.ok)
    (h : outConfigWrite cfg reg w = some cfg') : cfg'.ok := by
  obtain ⟨hdelay, hwatermark, hlength, hcount⟩ := hok
  cases reg with
  | ctrl =>
    unfold outConfigWrite at h
    dsimp only at h
    split at h
    · cases h
    · cases h
      exact ⟨Nat.le_of_lt_succ (field_lt w 12 3), Nat.le_of_lt_succ (field_lt w 20 2), hlength, hcount⟩
  | blank =>
    simp only [outConfigWrite, Option.ite_none_right_eq_some, Option.some.injEq, Bool.and_eq_true, inRange_iff] at h
    obtain ⟨⟨hlength', hcount'⟩, rfl⟩ := h
    exact ⟨hdelay, hwatermark, hlength', hcount'⟩
  | blankWord => cases h; exact ⟨hdelay, hwatermark, hlength, hcount⟩

theorem SlotManager.readyOf_leave (sm : SlotManager) (m : Fin 6) (k : Nat) (n : Fin 4) :
    (sm.leave m k).readyOf n = sm.readyOf n := by
  unfold SlotManager.leave
  dsimp only
  split <;> rfl

theorem SlotManager.readyOf_rebind (sm : SlotManager) (m : Fin 6) (r : Option Nat) (k : Nat) (n : Fin 4) :
    (sm.rebind m r k).readyOf n = sm.readyOf n := by
  unfold SlotManager.rebind
  split
  · rfl
  · split
    · rfl
    · exact SlotManager.readyOf_leave _ m _ n

section

variable {t : State}

/-- The reset values of the channels and of the access port are in range; a full soft reset keeps the refresh interval. -/
theorem settingsOk_of_reset (hinterval : 1 ≤ t.mc.refreshInterval ∧ t.mc.refreshInterval ≤ 255)
    (hin : t.inputs = State.reset.inputs) (hout : t.outputs = outputsReset) (hap : t.ap = AccessPort.reset) :
    t.settingsOk := by
  refine ⟨fun n => ?_, fun m => ?_, hinterval, by simp [hap, AccessPort.reset]⟩
  · simp [State.input_of_reset hin, InConfig.ok, InputChannel.reset, InConfig.reset]
  · simp [State.output_of_reset hout, OutConfig.ok, OutputChannel.reset, OutConfig.reset]

theorem quotasOk_of_reset (hsm : t.sm = SlotManager.reset) : t.quotasOk := fun n => by
  simp [hsm, SlotManager.readyOf, SlotManager.reset]

theorem lineFifosOk_of_reset (hin : t.inputs = State.reset.inputs) : t.lineFifosOk := fun n => by
  simp [State.input_of_reset hin, InputChannel.reset]

theorem hostBoundsOk_of_reset (hap : t.ap = AccessPort.reset) (harb : t.arb = Arbiter.reset) : t.hostBoundsOk := by
  simp [State.hostBoundsOk, hap, harb, AccessPort.reset, Arbiter.reset]

theorem KeepsBounds.of_reset {s : State} (hinterval : s.settingsOk → 1 ≤ t.mc.refreshInterval ∧ t.mc.refreshInterval ≤ 255)
    (hsm : t.sm = SlotManager.reset) (hin : t.inputs = State.reset.inputs) (hout : t.outputs = outputsReset)
    (hap : t.ap = AccessPort.reset) (harb : t.arb = Arbiter.reset) : KeepsBounds s t where
  settings hs := settingsOk_of_reset (hinterval hs) hin hout hap
  quotas _ _ := quotasOk_of_reset hsm
  lines _ := lineFifosOk_of_reset hin
  hostBounds _ := hostBoundsOk_of_reset hap harb

end

namespace KeepsBounds

variable {s t : State}

/-- A change of the slot manager that grows no ready list. -/
theorem setSmLists (h : KeepsBounds s t) {sm : SlotManager} (hready : ∀ n, (sm.readyOf n).length ≤ (t.sm.readyOf n).length) :
    KeepsBounds s { t with sm := sm } := h.setSm fun _ hq n => (hready n).trans (hq n)

/-! ### Outputs (R17, R76, R77, R84 to R88) -/

theorem release (h : KeepsBounds s t) {m : Fin 6} : KeepsBounds s (t.release m) := by
  unfold State.release
  split
  · exact h
  · exact (h.setSmLists fun n => (t.sm.readyOf_leave m _ n).symm ▸ le_rfl).modOutput

theorem enterDisabled (h : KeepsBounds s t) {m : Fin 6} : KeepsBounds s (t.enterDisabled m) := by
  unfold State.enterDisabled
  exact h.modOutput.quiet (Quiet.refl _).raiseOut

theorem closeDisabling (h : KeepsBounds s t) {m : Fin 6} : KeepsBounds s (t.closeDisabling m) := by
  have hrelease := (h.quiet ((Quiet.refl t).closeOutput (m := m))).release (m := m)
  unfold State.closeDisabling
  dsimp only
  split
  · exact hrelease
  · exact hrelease.enterDisabled

theorem openDisabling (h : KeepsBounds s t) {m : Fin 6} : KeepsBounds s (t.openDisabling m) := by
  unfold State.openDisabling
  split
  · exact (h.quiet (Quiet.refl t).protocolError).closeDisabling.quiet (Quiet.refl _).answerOffline
  · exact h.quiet (Quiet.refl t).answerOffline

theorem bind (h : KeepsBounds s t) {m : Fin 6} {k : Nat} {short lost : Bool} : KeepsBounds s (t.bind m k short lost) := by
  unfold State.bind
  dsimp only
  refine quiet ?_ (Quiet.refl _).openShown
  exact (h.setSmLists fun n => (t.sm.readyOf_rebind m _ k n).symm ▸ le_rfl).modOutput

theorem select (h : KeepsBounds s t) {m : Fin 6} : KeepsBounds s (t.select m) := by
  unfold State.select
  dsimp only
  split
  · exact h.release.quiet (Quiet.refl _).openBlank
  generalize (t.input (t.output m).cfg.source).lost = lost
  have hreport : KeepsBounds s
      (t.modOutput m fun o => { o with lossReported := keepLossReport o.lossReported o.cfg.source lost }) := h.modOutput
  unfold State.lossStep
  dsimp only
  split
  · exact (hreport.quiet (Quiet.refl _).reportLoss).release.quiet (Quiet.refl _).openBlank
  · unfold State.freezeStep
    split
    · exact hreport.quiet (Quiet.refl _).countOut.openShown
    · unfold State.policyStep
      dsimp only
      split
      · exact hreport.modOutput.bind
      · exact hreport.modOutput.quiet (Quiet.refl _).fallback

theorem writeOutConfig (h : KeepsBounds s t) {m : Fin 6} {reg : OutConfigReg} {enable : Bool} {w : Word} :
    KeepsBounds s (t.writeOutConfig m reg enable w) := by
  unfold State.writeOutConfig
  split
  · exact h.quiet (Quiet.refl t).configIgnored
  · split
    · exact h.quiet (Quiet.refl t).configIgnored
    next cfg hcfg =>
      have hset : KeepsBounds s (t.modOutput m fun o => { o with cfg := cfg }) :=
        h.modOutput fun hok => outConfigWrite_ok hok hcfg
      dsimp only
      split
      · unfold State.writeOutEnable
        split
        · exact hset.modOutput
        · exact hset.release.modOutput.enterDisabled
        · exact hset.modOutput
        · exact hset
      · exact hset

theorem lineReadDone (h : KeepsBounds s t) {r : MemRequest} : KeepsBounds s (t.lineReadDone r) := by
  unfold State.lineReadDone
  dsimp only
  split
  next m _ =>
    have hjudged := h.quiet ((Quiet.refl t).countEcc (ws := t.store.readWords r.addr r.count)
      |>.judgeLine (m := m) (r := r) (ws := t.store.readWords r.addr r.count))
    refine quiet ?_ (Quiet.refl _).raiseRead
    unfold State.endHandshake
    split
    · exact hjudged.enterDisabled
    · exact hjudged
  · exact h.quiet (Quiet.refl t).countEcc

theorem resetOutput (h : KeepsBounds s t) {m : Fin 6} : KeepsBounds s (t.resetOutput m) := by
  unfold State.resetOutput
  dsimp only
  refine modOutput ?_
  exact h.release.quiet (Quiet.refl _).of_eq.withdrawRead

theorem resetOutputs (h : KeepsBounds s t) {ms : List (Fin 6)} : KeepsBounds s (t.resetOutputs ms) := by
  induction ms generalizing t with
  | nil => exact h
  | cons m ms ih => exact ih h.resetOutput

/-! ### The pool (R115, R116) -/

theorem cmdPoolBuild (h : KeepsBounds s t) : KeepsBounds s t.cmdPoolBuild := by
  unfold State.cmdPoolBuild
  (repeat' split)
  case isFalse.isFalse.isFalse.isFalse =>
    exact (h.setSmLists fun n => by simp [SlotManager.build, SlotManager.readyOf]).quiet
      (Quiet.refl _).emptyCaptures.completeCommand
  all_goals exact h.quiet (Quiet.refl t).refuseCommand

theorem cmdPoolTeardown (h : KeepsBounds s t) : KeepsBounds s t.cmdPoolTeardown := by
  unfold State.cmdPoolTeardown
  (repeat' split)
  case isFalse.isFalse.isFalse =>
    exact (h.setSmLists fun n => by simp [SlotManager.teardown, SlotManager.readyOf]).quiet
      (Quiet.refl _).emptyCaptures.completeCommand
  all_goals exact h.quiet (Quiet.refl t).refuseCommand

/-! ### Every step -/

theorem commandEffect (e : CommandEffect s t) : KeepsBounds s t := by
  have hrefl := Steady.refl s
  cases e with
  | memoryInit => exact (Quiet.refl s).cmdMemoryInit.keepsBounds
  | poolBuild => exact (refl s).cmdPoolBuild
  | poolTeardown => exact (refl s).cmdPoolTeardown
  | slotClaim => exact hrefl.cmdSlotClaim.bounds
  | slotHold => exact hrefl.cmdSlotHold.bounds
  | slotRelease => exact hrefl.cmdSlotRelease.bounds
  | slotPublish => exact hrefl.cmdSlotPublish.bounds
  | slotClear => exact (Quiet.refl s).cmdSlotClear.keepsBounds
  | inputFlush => exact hrefl.cmdInputFlush.bounds
  | unknown => exact (Quiet.refl s).cmdUnknown.keepsBounds

theorem hostEffect (e : HostEffect s t) : KeepsBounds s t := by
  have hrefl := Quiet.refl s
  have hsteady := Steady.refl s
  cases e with
  | ignored => exact refl s
  | command _ e => exact commandEffect e
  | overrun => exact hrefl.raiseGlobal.keepsBounds
  | arguments a => exact hrefl.of_eq.keepsBounds
  | portRead => exact hrefl.portRead.keepsBounds
  | portFlush => exact hrefl.portFlush.keepsBounds
  | portDiscard => exact hrefl.portDiscard.keepsBounds
  | readAccData => exact hrefl.readAccData.keepsBounds
  | writeAccData w => exact hrefl.writeAccData.keepsBounds
  | writeAccAddr w => exact hrefl.writeAccAddr.keepsBounds
  | writeAccCount w => exact hsteady.writeAccCount.bounds
  | writeInCtrl n enable mode => exact hsteady.writeInCtrl.bounds
  | writeInConfig n reg w => exact hsteady.writeInConfig.bounds
  | writeOutConfig m reg enable w => exact (refl s).writeOutConfig
  | writeGeometry reg w => exact hrefl.writeGeometry.keepsBounds
  | writeMcCfg w => exact hrefl.writeMcCfg.keepsBounds
  | writeMcRefresh w => exact hsteady.writeMcRefresh.bounds
  | writeArbCfg w => exact hrefl.writeArbCfg.keepsBounds
  | clearEvents reg w => exact hrefl.of_eq.keepsBounds
  | writeEnables reg w => exact hrefl.of_eq.keepsBounds
  | clearCounter c => exact hrefl.clearCounter.keepsBounds
  | captureRecord k => exact hrefl.of_eq.keepsBounds
  | captureList l => exact hrefl.of_eq.keepsBounds
  | softReset => exact .of_reset (fun ⟨_, _, hmc, _⟩ => hmc) rfl rfl rfl rfl rfl
  | channelResets ns ms => exact hsteady.resetInputs.bounds.resetOutputs

theorem effect (e : Effect s t) : KeepsBounds s t := by
  have hrefl := Quiet.refl s
  have hsteady := Steady.refl s
  cases e with
  | idle => exact refl s
  | hostEffect _ e => exact hostEffect e
  | heldRead => exact hrefl.of_eq.keepsBounds
  | takeFrameStart n tag => exact hsteady.takeFrameStart.bounds
  | frameStartFilling n tag => exact hsteady.frameStartFilling.bounds
  | stray n => exact hrefl.stray.keepsBounds
  | lineFilling n e payload => exact hsteady.lineFilling.bounds
  | frameEndFilling n e => exact hsteady.frameEndFilling.bounds
  | frameEndSkipping n => exact hrefl.enterState.keepsBounds
  | signalLost n => exact hsteady.signalLost.bounds
  | answerOffline m => exact hrefl.answerOffline.keepsBounds
  | select m => exact (refl s).select
  | reopen m => exact hrefl.protocolError.closeOutput.keepsBounds.select
  | openDisabling m => exact (refl s).openDisabling
  | pullClosed m => exact hrefl.pullClosed.keepsBounds
  | overpull m f => exact hrefl.overpull.keepsBounds
  | pullBlank m f => exact hrefl.pullBlank.keepsBounds
  | pullLine m f => exact hrefl.pullLine.keepsBounds
  | closeIdle m => exact hrefl.protocolError.keepsBounds
  | closeShowing m => exact hrefl.closeOutput.keepsBounds.modOutput
  | closeDisabling m => exact (refl s).closeDisabling
  | refreshExpired => exact hrefl.refreshExpired.keepsBounds
  | nextStage => exact hrefl.of_eq.keepsBounds
  | enterReady => exact hrefl.enterReady.keepsBounds
  | advanceTime => exact hrefl.of_eq.keepsBounds
  | loseCharge decay => exact hrefl.of_eq.keepsBounds
  | lineWriteDone r => exact ((hsteady.quiet hrefl.endExec).lineWriteDone.quiet (Quiet.refl _).afterDelivery).bounds
  | lineReadDone r => exact hrefl.endExec.keepsBounds.lineReadDone.quiet (Quiet.refl _).afterDelivery
  | blockReadDone r => exact hrefl.endExec.blockReadDone.afterDelivery.keepsBounds
  | blockWriteDone r => exact hrefl.endExec.blockWriteDone.afterDelivery.keepsBounds
  | clearWriteDone r => exact hrefl.endExec.clearWriteDone.afterDelivery.keepsBounds
  | refreshDone e => exact hrefl.endExec.refreshDone.afterDelivery.keepsBounds
  | orphanDone r => exact hrefl.endExec.orphanEffect.raiseDeferred.retestReader.afterDelivery.keepsBounds
  | pinReset => exact .of_reset (fun _ => by simp [State.pinReset, State.reset, MemController.reset]) rfl rfl rfl rfl rfl
  | deassert => exact hrefl.of_eq.keepsBounds

end KeepsBounds

/-- Settles O17: every effect keeps the four bounds, a full ready list evicting before it takes a new entry. -/
theorem settingsAndBuffersKept : Obligations.SettingsAndBuffersKept := by
  intro s t hstep
  obtain ⟨rest, heffect⟩ := step_effect hstep
  obtain ⟨hsettings, hquotas, hlines, hhost⟩ := KeepsBounds.effect heffect
  exact ⟨hsettings, hquotas, hlines, hhost⟩

end Sys2Proof.Machine
end

