-- ==== Sys2Proof/Proofs/ResetState.lean ====
section
/-! The state after reset: its values (chapter 11) and the invariants it satisfies. -/

namespace Sys2Proof.Machine

-- One theorem after another, as in the tests: many of them at once would need a thread each.
set_option Elab.async false

/-! ### Reset values of the blocks -/

theorem input_reset (n : Fin 4) : State.reset.input n = InputChannel.reset := State.input_of_reset rfl n

theorem output_reset (m : Fin 6) :
    State.reset.output m = OutputChannel.reset ⟨m.val % 4, Nat.mod_lt _ (by norm_num)⟩ := State.output_of_reset rfl m

theorem readyOf_reset (n : Fin 4) : State.reset.sm.readyOf n = [] := by
  simp [State.reset, SlotManager.readyOf, SlotManager.reset]

theorem seqOf_reset (n : Fin 4) : State.reset.sm.seqOf n = 0 := by
  simp [State.reset, SlotManager.seqOf, SlotManager.reset]

theorem inReq_reset (n : Fin 4) : State.reset.arb.inReq[n] = none := by simp [State.reset, Arbiter.reset]

theorem outReq_reset (m : Fin 6) : State.reset.arb.outReq[m] = none := by simp [State.reset, Arbiter.reset]

theorem eventRegisters_reset (i : Fin 11) : State.reset.eu.status[i] = 0 ∧ State.reset.eu.enable[i] = 0 := by
  simp [State.reset, EventUnit.reset]

/-- Settles O3: each value is read off the reset values of its block. -/
theorem resetValues : Obligations.ResetValues := by
  refine ⟨rfl, ⟨rfl, rfl, rfl, rfl⟩, fun n => ?_, fun m => ?_, rfl, rfl, ⟨rfl, rfl, rfl, rfl, rfl, rfl⟩,
    ⟨rfl, rfl, rfl, rfl, rfl, rfl, rfl, rfl⟩, eventRegisters_reset, by decide⟩
  · rw [input_reset]
    exact ⟨rfl, rfl, rfl, seqOf_reset n⟩
  · rw [output_reset]
    exact ⟨rfl, rfl, rfl, rfl, rfl, rfl, rfl, rfl, rfl, rfl, rfl, rfl, rfl⟩

/-! ### Invariants of the state after reset -/

theorem clientsOk_reset : State.reset.clientsOk := by
  refine ⟨fun n r h => ?_, fun m r h => ?_, nofun, nofun, nofun⟩
  · rw [inReq_reset] at h; cases h
  · rw [outReq_reset] at h; cases h

theorem oneRequestEach_reset : State.reset.oneRequestEach := ⟨fun _ _ => rfl, fun _ _ => rfl⟩

theorem prefetchOk_reset : State.reset.prefetchOk := fun m => by
  rw [output_reset]
  exact ⟨Nat.zero_le _, fun _ => Nat.zero_le _⟩

theorem fillsOk_reset : State.reset.fillsOk := fun n => by
  simp [input_reset, InputChannel.fillOk, InputChannel.reset, InConfig.reset]

theorem locationsOk_reset : State.reset.locationsOk :=
  (State.Sound.of_reset (q := False) (d := 0) rfl rfl).locationsOk

theorem framesOk_reset : State.reset.framesOk := fun m => by simp [output_reset, OutputChannel.reset]

theorem drainingOk_reset : State.reset.drainingOk := by simp [State.drainingOk, State.reset, SlotManager.reset]

theorem pendingOk_reset : State.reset.pendingOk := by simp [State.pendingOk, State.reset, SlotManager.reset]

theorem resetHeld_reset : State.reset.resetHeld := nofun

theorem linesOrdered_reset : State.reset.linesOrdered := fun m => by
  have hreads : ∀ r, ¬ State.reset.readsFor m r := fun r h => by
    rcases h with h | ⟨h, _⟩
    · rw [outReq_reset] at h; cases h
    · cases h
  rw [output_reset]
  exact ⟨nofun, .nil, nofun, fun r h => absurd h (hreads r)⟩

theorem sequencesOk_reset : State.reset.sequencesOk := fun n => by simp [readyOf_reset]

/-- Settles O4: every list, context and request of the state after reset is empty, and every setting at its reset value. -/
theorem resetStateIsSafe : Obligations.ResetStateIsSafe :=
  ⟨settingsOk_of_reset ⟨by decide, by decide⟩ rfl rfl rfl, quotasOk_of_reset rfl, clientsOk_reset, oneRequestEach_reset,
    prefetchOk_reset, lineFifosOk_of_reset rfl, hostBoundsOk_of_reset rfl rfl, fillsOk_reset, locationsOk_reset,
    framesOk_reset, readersOk_of_reset rfl rfl, drainingOk_reset, pendingOk_reset, resetHeld_reset, reset_store_wf,
    linesOrdered_reset, sequencesOk_reset⟩

end Sys2Proof.Machine
end

