-- ==== Sys2Proof/Proofs/SlotTable.lean ====
section
/-! The slot table: where the words of a slot lie (R1, R2), and what retire, join and leave do to one record (R16, R18, R19). -/

namespace Sys2Proof.Machine

-- One theorem after another, as in the tests: many of them at once would need a thread each.
set_option Elab.async false

/-! ### Addresses (R2) -/

/-- Word `off` of slot Sk lies in Sk, and before the end of the pool. -/
theorem SlotManager.slotAt_slotBase_add {sm : SlotManager} {k off : Nat} (hb : sm.built = true) (hk : k < sm.count.toNat)
    (hoff : off < sm.stride.toNat) : sm.slotAt (sm.slotBase k + off) = some k ∧
      sm.slotBase k + off < sm.base.toNat + sm.count.toNat * sm.stride.toNat := by
  unfold SlotManager.slotAt SlotManager.slotBase
  generalize sm.stride.toNat = stride at *
  have hnext : (k + 1) * stride ≤ sm.count.toNat * stride := Nat.mul_le_mul_right stride hk
  rw [Nat.succ_mul] at hnext
  have hlt : sm.base.toNat + k * stride + off < sm.base.toNat + sm.count.toNat * stride := by omega
  have hdiv : (k * stride + off) / stride = k := by
    rw [Nat.mul_comm, Nat.mul_add_div (Nat.zero_lt_of_lt hoff), Nat.div_eq_of_lt hoff, Nat.add_zero]
  refine ⟨?_, hlt⟩
  have hle : sm.base.toNat ≤ sm.base.toNat + k * stride + off := by omega
  rw [if_pos (by simp only [hb, hle, hlt, decide_true, Bool.and_self]), Nat.add_assoc, Nat.add_sub_cancel_left, hdiv]

/-- Outside the pool there is only the scratch region. -/
theorem SlotManager.slotAt_eq_none {sm : SlotManager} {a : Nat}
    (h : sm.built = false ∨ a < sm.base.toNat ∨ sm.base.toNat + sm.count.toNat * sm.stride.toNat ≤ a) :
    sm.slotAt a = none := by
  unfold SlotManager.slotAt
  refine if_neg fun hin => ?_
  simp only [Bool.and_eq_true, decide_eq_true_eq] at hin
  obtain ⟨⟨hb, hle⟩, hlt⟩ := hin
  rcases h with h | h | h
  · exact nomatch hb.symm.trans h
  · omega
  · omega

/-- A valid geometry lies within the memory (R1). -/
theorem SlotManager.pool_end_le_words {sm : SlotManager} {size : MemSize} (h : sm.geometryValid size = true) :
    sm.base.toNat + sm.count.toNat * sm.stride.toNat ≤ size.words := by
  simp only [SlotManager.geometryValid, Bool.and_eq_true, decide_eq_true_eq] at h
  exact h.2

/-- Settles O20: word `i` of line `j` is word `j * len + i` of its slot, which is below the stride. -/
theorem lineWordsInSlot : Obligations.LineWordsInSlot := by
  refine ⟨fun sm size k len lines j i hb hvalid hk hfits hj hi => ?_, fun sm a => SlotManager.slotAt_eq_none⟩
  have hoff : j * len + i < sm.stride.toNat :=
    calc j * len + i < (j + 1) * len := by rw [Nat.succ_mul]; omega
      _ ≤ lines * len := Nat.mul_le_mul_right len hj
      _ ≤ sm.stride.toNat := Nat.mul_comm len lines ▸ hfits
  obtain ⟨hslot, hpool⟩ := SlotManager.slotAt_slotBase_add hb hk hoff
  have haddr : sm.lineAddr k len j + i = sm.slotBase k + (j * len + i) := Nat.add_assoc _ _ _
  refine ⟨rfl, ?_, ?_⟩
  · rw [haddr, hslot]
  · exact haddr ▸ hpool.trans_le (SlotManager.pool_end_le_words hvalid)

/-! ### Retire, join and leave (R16, R18, R19) -/

/-- A change of a record of the pool replaces that record. -/
theorem SlotManager.modSlot_eq_set {sm : SlotManager} {k : Nat} (hk : k < sm.slots.length) (f : SlotRecord → SlotRecord) :
    sm.modSlot k f = { sm with slots := sm.slots.set k (f (sm.slot k)) } := by
  have hslot : sm.slot k = sm.slots.get ⟨k, hk⟩ := by simp [SlotManager.slot, hk]
  rw [SlotManager.modSlot, hslot, List.modify_eq_set_get f hk]

theorem SlotManager.toFree_eq_set {sm : SlotManager} {k : Nat} (hk : k < sm.slots.length) :
    sm.toFree k = { sm with
      free := sm.free ++ [k], slots := sm.slots.set k { sm.slot k with state := .free, owner := none } } := by
  rw [SlotManager.toFree, SlotManager.modSlot_eq_set hk]
  rfl

/-- The record of slot Sk once OUTm has left its reader set. -/
def SlotRecord.left (r : SlotRecord) (m : Fin 6) : SlotRecord := { r with readers := r.readers &&& ~~~(1#6 <<< m.val) }

/-- OUTm leaves; the last reader of a DRAINING slot frees it (R19). -/
theorem SlotManager.leave_eq_set {sm : SlotManager} {k : Nat} (hk : k < sm.slots.length) (m : Fin 6) :
    sm.leave m k = if (sm.slot k).state = .draining ∧ ((sm.slot k).left m).readers = 0 then { sm with
      free := sm.free ++ [k],
      slots := sm.slots.set k { (sm.slot k).left m with state := .free, owner := none } }
    else { sm with slots := sm.slots.set k ((sm.slot k).left m) } := by
  have hslot : (sm.modSlot k fun r => r.left m).slot k = (sm.slot k).left m := by simp [hk]
  unfold SlotManager.leave
  dsimp only
  change (sm.modSlot k fun r => { r with readers := r.readers &&& ~~~readerBit m }).slot k = _ at hslot
  rw [SlotManager.toFree_eq_set (by simpa using hk), hslot, SlotManager.modSlot_eq_set hk]
  simp only [Bool.and_eq_true, decide_eq_true_eq, List.set_set]
  rfl

/-- Settles O21: each primitive replaces one record, and adds its slot to the free list or not. -/
theorem retireLeaveJoin : Obligations.RetireLeaveJoin := by
  refine ⟨fun sm => ⟨rfl, fun _ _ => rfl⟩, fun sm k hk => ⟨fun hr => ?_, fun hr => ?_, fun m => ?_, fun m h => ?_,
    fun m hd hr => ?_⟩⟩
  · rw [SlotManager.retire, if_pos hr, SlotManager.toFree_eq_set hk]
  · rw [SlotManager.retire, if_neg hr, SlotManager.modSlot_eq_set hk]
    rfl
  · rw [SlotManager.join, SlotManager.modSlot_eq_set hk]
    rfl
  · rw [SlotManager.leave_eq_set hk, if_neg fun hfree => h.elim (fun hd => hd hfree.1) fun hr => hr hfree.2]
    rfl
  · rw [SlotManager.leave_eq_set hk, if_pos ⟨hd, hr⟩]
    simp only [SlotRecord.left, hr]

end Sys2Proof.Machine
end

