-- ==== Sys2Proof/Proofs/BlockConfig.lean ====
section
/-! Writes of the registers that configure the pool, the memory controller and the arbiter (R1, R138, R139, R161). -/

namespace Sys2Proof.Machine

-- One theorem after another, as in the tests: many of them at once would need a thread each.
set_option Elab.async false

/-! ### Host writes while RESET_N is not asserted (R178) -/

section

variable {s : State} (hreset : s.resetAsserted = false)

include hreset

theorem hostWrite_of_released (f : State → State) : hostWrite s f = .next (f s) := by
  simp [hostWrite, hreset]

theorem exec_geometryWrite (reg : GeometryReg) (w : Word) : exec (.geometryWrite reg w) s = .next (s.writeGeometry reg w) :=
  hostWrite_of_released hreset fun s => s.writeGeometry reg w

theorem exec_mcCfgWrite (w : Word) : exec (.mcCfgWrite w) s = .next (s.writeMcCfg w) :=
  hostWrite_of_released hreset fun s => s.writeMcCfg w

theorem exec_mcRefreshWrite (w : Word) : exec (.mcRefreshWrite w) s = .next (s.writeMcRefresh w) :=
  hostWrite_of_released hreset fun s => s.writeMcRefresh w

theorem exec_arbCfgWrite (w : Word) : exec (.arbCfgWrite w) s = .next (s.writeArbCfg w) :=
  hostWrite_of_released hreset fun s => s.writeArbCfg w

end

/-! ### Fields and their codes (R173) -/

theorem field_eq (w : Word) (lo width : Nat) : field w lo width = w.toNat / 2 ^ lo % 2 ^ width := by
  rw [field, BitVec.extractLsb'_toNat, Nat.shiftRight_eq_div_pow]

theorem field_low_two (w : Word) : field w 0 2 = w.toNat % 4 := by simp [field_eq]

theorem memSizeOf_of_lt {c : Nat} (h : c < 3) :
    memSizeOf c = some (if c = 0 then .words4M else if c = 1 then .words8M else .words16M) := by
  interval_cases c <;> rfl

theorem timingOf_of_lt {c : Nat} (h : c < 4) :
    timingOf c = if c = 0 then .t100 else if c = 1 then .t133 else if c = 2 then .t166 else .t200 := by
  interval_cases c <;> rfl

theorem arbProfileOf_of_lt {c : Nat} (h : c < 3) :
    arbProfileOf c = some (if c = 0 then .outputFirst else if c = 1 then .inputFirst else .interleaved) := by
  interval_cases c <;> rfl

/-! ### What each write does -/

section

variable {s : State}

theorem writeGeometry_of_built (h : s.sm.built = true) (reg : GeometryReg) (w : Word) :
    s.writeGeometry reg w = s.configIgnored := if_pos h

theorem writeGeometry_of_absent (h : s.sm.built = false) (reg : GeometryReg) (w : Word) :
    s.writeGeometry reg w = { s with sm := s.sm.setGeometry reg w } := if_neg (h ▸ Bool.false_ne_true)

theorem writeMcCfg_of_ignored {w : Word} (h : s.mc.state ≠ .uninit ∨ w.toNat % 4 = 3) :
    s.writeMcCfg w = s.configIgnored := by
  unfold State.writeMcCfg
  split
  · rfl
  next huninit =>
    have hcode : w.toNat % 4 = 3 := h.resolve_left huninit
    rw [field_low_two, hcode]
    rfl

theorem writeMcCfg_of_taken {w : Word} (huninit : s.mc.state = .uninit) (hcode : w.toNat % 4 ≠ 3) :
    s.writeMcCfg w = { s with mc := { s.mc with
      size := if w.toNat % 4 = 0 then .words4M else if w.toNat % 4 = 1 then .words8M else .words16M
      profile := if w.toNat / 16 % 4 = 0 then .t100 else if w.toNat / 16 % 4 = 1 then .t133
        else if w.toNat / 16 % 4 = 2 then .t166 else .t200
      modeFirst := w.getLsbD 8 } } := by
  have htiming : field w 4 2 = w.toNat / 16 % 4 := field_eq w 4 2
  rw [State.writeMcCfg, if_neg (not_not.2 huninit), field_low_two, htiming, memSizeOf_of_lt (by omega),
    timingOf_of_lt (Nat.mod_lt _ (by norm_num))]

theorem writeMcRefresh_of_taken {w : Word} (h : 1 ≤ w.toNat ∧ w.toNat ≤ 255) :
    s.writeMcRefresh w = { s with mc := { s.mc with refreshInterval := w.toNat } } := if_pos (inRange_iff.2 h)

theorem writeMcRefresh_of_ignored {w : Word} (h : w.toNat = 0 ∨ 255 < w.toNat) :
    s.writeMcRefresh w = s.configIgnored := by
  refine if_neg fun hrange => ?_
  obtain ⟨hlo, hhi⟩ := inRange_iff.1 hrange
  omega

theorem writeArbCfg_of_ignored {w : Word} (h : w.toNat % 4 = 3) : s.writeArbCfg w = s.configIgnored := by
  rw [State.writeArbCfg, field_low_two, h]
  rfl

theorem writeArbCfg_of_taken {w : Word} (h : w.toNat % 4 ≠ 3) :
    s.writeArbCfg w = { s with arb := { s.arb with
      profile := if w.toNat % 4 = 0 then .outputFirst else if w.toNat % 4 = 1 then .inputFirst else .interleaved } } := by
  rw [State.writeArbCfg, field_low_two, arbProfileOf_of_lt (by omega)]

end

/-- Settles O60: the condition of each clause is the one that the write's meaning tests. -/
theorem blockConfigWrites : Obligations.BlockConfigWrites := by
  intro w s ignored hreset hignored
  obtain rfl : ignored = s.configIgnored := hignored
  simp only [exec_geometryWrite hreset, exec_mcCfgWrite hreset, exec_mcRefreshWrite hreset, exec_arbCfgWrite hreset]
  refine ⟨fun hb reg => ?_, fun hb => ⟨?_, ?_, ?_⟩, fun h => ?_, fun hu hc => ?_, fun hlo hhi => ?_, fun h => ?_, fun h => ?_,
    fun h => ?_⟩
  · rw [writeGeometry_of_built hb]
  · rw [writeGeometry_of_absent hb]; rfl
  · rw [writeGeometry_of_absent hb]; rfl
  · rw [writeGeometry_of_absent hb]; rfl
  · rw [writeMcCfg_of_ignored h]
  · rw [writeMcCfg_of_taken hu hc]
  · rw [writeMcRefresh_of_taken ⟨hlo, hhi⟩]
  · rw [writeMcRefresh_of_ignored h]
  · rw [writeArbCfg_of_ignored h]
  · rw [writeArbCfg_of_taken h]

end Sys2Proof.Machine
end

