-- ==== Sys2Proof/Proofs/InputRules.lean ====
section
/-! What the operations of one input do to its channel and to the rest of the inputs: marks of writes in flight, closes, and
entries that leave (R32, R41, R45, R58 to R64). -/

namespace Sys2Proof.Machine

-- One theorem after another, as in the tests: many of them at once would need a thread each.
set_option Elab.async false

/-! ### Counters (R50, R169) -/

theorem inCounterIdx_injective : Function.Injective inCounterIdx := by
  intro c d
  cases c <;> cases d <;> decide

/-- A count moves its own counter alone. -/
theorem InputChannel.counters_count (ch : InputChannel) (c d : InCounter) :
    (ch.count c).counters[inCounterIdx d] =
      if c = d then satAdd ch.counters[inCounterIdx d] 1 else ch.counters[inCounterIdx d] := by
  by_cases h : c = d
  · subst h; simp [InputChannel.count]
  · have hne : (inCounterIdx c).val ≠ (inCounterIdx d).val := fun e => h (inCounterIdx_injective (Fin.ext e))
    simp [InputChannel.count, h, hne]

theorem satAdd_toNat (c : Count) (k : Nat) : (satAdd c k).toNat = min 65535 (c.toNat + k) := by
  unfold satAdd
  rw [BitVec.toNat_ofNat]
  omega

/-! ### Marks of writes in flight (R29, R41) -/

namespace InputChannel

variable (ch : InputChannel)

/-- The mark changes the fill context alone. -/
theorem markInFlight_eq : ch.markInFlight = { ch with fill := ch.markInFlight.fill } := by
  unfold markInFlight
  split <;> rfl

theorem markInFlight_status : ch.markInFlight.fill.map FrameEntry.status = ch.fill.map FrameEntry.status := by
  unfold markInFlight
  split
  · rfl
  · rw [List.map_map]
    refine List.map_congr_left fun e _ => ?_
    simp only [Function.comp_apply]
    split <;> rfl

theorem markInFlight_markInFlight : ch.markInFlight.markInFlight = ch.markInFlight := by
  cases hfifo : ch.fifo with
  | nil => simp [markInFlight, hfifo]
  | cons l rest =>
    simp only [markInFlight, hfifo, List.map_map, mk.injEq, true_and, and_true]
    refine List.map_congr_left fun e _ => ?_
    by_cases he : e.slot = l.slot <;> simp [he]

end InputChannel

/-- Nothing happens to any input, but that a grant may have put a write of its in flight. -/
def OnlyMarks (s t : State) : Prop := ∀ k, t.input k = s.input k ∨ t.input k = (s.input k).markInFlight

namespace OnlyMarks

variable {s t : State}

theorem of_inputs_eq (h : t.inputs = s.inputs) : OnlyMarks s t := fun k => .inl (State.input_eq_of_inputs_eq h k)

theorem refl (s : State) : OnlyMarks s s := of_inputs_eq rfl

theorem trans {u : State} (h : OnlyMarks s t) (h' : OnlyMarks t u) : OnlyMarks s u := fun k => by
  rcases h k with hk | hk <;> rcases h' k with hk' | hk' <;> rw [hk] at hk'
  · exact .inl hk'
  · exact .inr hk'
  · exact .inr hk'
  · exact .inr (hk'.trans (InputChannel.markInFlight_markInFlight _))

/-- A further change that writes no input. -/
theorem keep (h : OnlyMarks s t) {u : State} (hin : u.inputs = t.inputs := by simp) : OnlyMarks s u :=
  h.trans (of_inputs_eq hin)

theorem setArb (h : OnlyMarks s t) {a : Arbiter} : OnlyMarks s { t with arb := a } := h.keep rfl

theorem grantInput (h : OnlyMarks s t) {n : Fin 4} : OnlyMarks s (t.grantInput n) := by
  refine h.trans fun k => ?_
  unfold State.grantInput
  split
  · exact .inl rfl
  · rw [State.input_startExec, State.input_modInput]
    split
    next hk => exact .inr (hk ▸ rfl)
    next => exact .inl rfl

theorem applyGrant (h : OnlyMarks s t) {w : Winner} : OnlyMarks s (t.applyGrant w) := by
  cases w with
  | refresh => exact h.keep rfl
  | urgentOutput m => exact h.keep (by simp [State.applyGrant])
  | urgentInput n => exact (h.setArb).grantInput
  | normal i =>
    simp only [State.applyGrant]
    split
    · exact (h.setArb).grantInput
    · exact h.keep
    · exact h
  | host c => exact h.keep (by simp [State.applyGrant])

theorem grantMoment (h : OnlyMarks s t) : OnlyMarks s t.grantMoment := by
  rcases t.grantMoment_cases with hg | ⟨w, _, _, _, hg⟩ <;> rw [hg]
  · exact h
  · exact h.applyGrant

theorem raiseWrite (h : OnlyMarks s t) {n : Fin 4} : OnlyMarks s (t.raiseWrite n) := by
  unfold State.raiseWrite
  split
  · exact h
  · split
    · exact h
    · exact (h.setArb).grantMoment

end OnlyMarks

/-! ### Stop completion (R45) -/

/-- A channel at stop completion. -/
def InputChannel.stopped (ch : InputChannel) : InputChannel :=
  { ch with state := if ch.fill = [] then .off else .stopping, lossTimer := none, stopPending := false }

theorem State.stopCompletion_eq (s : State) (n : Fin 4) :
    s.stopCompletion n =
      if (s.input n).fill = [] then (s.modInput n InputChannel.stopped).raiseIn n .stopped
      else s.modInput n InputChannel.stopped := rfl

theorem State.input_stopCompletion (s : State) (n : Fin 4) :
    (s.stopCompletion n).input n = (s.input n).stopped := by
  rw [State.stopCompletion_eq]
  split <;> simp

/-! ### Closing the open entry (R32) -/

/-- An entry at the close of the open one. -/
def FrameEntry.close (v : Verdict) (short : Bool) (x : FrameEntry) : FrameEntry :=
  if x.status = .opened then { x with status := .closed v, shortMark := short } else x

theorem FrameEntry.close_of_isClosed {x : FrameEntry} (h : x.isClosed = true) (v : Verdict) (short : Bool) :
    x.close v short = x := if_neg (x.isClosed_iff.1 h)

theorem FrameEntry.close_isClosed (x : FrameEntry) (v : Verdict) (short : Bool) : (x.close v short).isClosed = true := by
  unfold FrameEntry.close
  split
  · rfl
  next h => exact x.isClosed_iff.2 h

theorem FrameEntry.not_isClosed_iff (e : FrameEntry) : e.isClosed = false ↔ e.status = .opened := by
  rw [← Bool.not_eq_true, e.isClosed_iff, not_not]

theorem FrameEntry.countsForBudget_of_opened {e : FrameEntry} (h : e.isClosed = false) : e.countsForBudget = true := by
  simp [FrameEntry.countsForBudget, e.not_isClosed_iff.1 h]

theorem FrameEntry.countsForBudget_close (x : FrameEntry) (v : Verdict) (short : Bool) :
    (x.close v short).countsForBudget = true → x.countsForBudget = true := by
  unfold FrameEntry.close
  split
  next h => exact fun _ => FrameEntry.countsForBudget_of_opened (x.not_isClosed_iff.2 h)
  next => exact id

/-- The channel whose open entry is `e`, at that entry's close. -/
def InputChannel.closeEntry (ch : InputChannel) (e : FrameEntry) (v : Verdict) (short : Bool) : InputChannel :=
  { ch with fill := ch.fill.map (FrameEntry.close v short), fifo := if v = .discard then dropLines e ch.fifo else ch.fifo }

theorem State.closeOpen_of_none {s : State} {n : Fin 4} (h : (s.input n).openEntry = none) (v : Verdict) (short : Bool) :
    s.closeOpen n v short = s := by
  rw [State.closeOpen, h]

theorem State.closeOpen_of_some {s : State} {n : Fin 4} {e : FrameEntry} (h : (s.input n).openEntry = some e) (v : Verdict)
    (short : Bool) :
    s.closeOpen n v short =
      let s' := ({ s with sm := s.sm.modSlot e.slot fun r =>
        { r with state := .closed, lineCount := some e.received } } : State).setInput n ((s.input n).closeEntry e v short)
      if v = .discard && (s.input n).headDropped e then s'.withdrawWrite n else s' := by
  rw [State.closeOpen, h]
  rfl

theorem State.input_closeOpen_of_some {s : State} {n : Fin 4} {e : FrameEntry} (h : (s.input n).openEntry = some e)
    (v : Verdict) (short : Bool) : (s.closeOpen n v short).input n = (s.input n).closeEntry e v short := by
  rw [State.closeOpen_of_some h]
  dsimp only
  split <;> simp

/-- An OPEN entry behind CLOSED ones is the open entry. -/
theorem InputChannel.openEntry_append {ch : InputChannel} {older : List FrameEntry} {e : FrameEntry}
    (hfill : ch.fill = older ++ [e]) (holder : ∀ x ∈ older, x.isClosed = true) (he : e.isClosed = false) :
    ch.openEntry = some e := by
  have hopen := e.not_isClosed_iff.1 he
  have hnone : (older.find? fun x => decide (x.status = .opened)) = none :=
    List.find?_eq_none.2 fun x hx => by simpa using x.isClosed_iff.1 (holder x hx)
  simp [InputChannel.openEntry, hfill, hnone, hopen]

theorem InputChannel.openEntry_eq_none {ch : InputChannel} : ch.openEntry = none ↔ ∀ e ∈ ch.fill, e.isClosed = true := by
  simp [InputChannel.openEntry, FrameEntry.isClosed_iff]

theorem InputChannel.closeEntry_append {ch : InputChannel} {older : List FrameEntry} {e : FrameEntry}
    (hfill : ch.fill = older ++ [e]) (holder : ∀ x ∈ older, x.isClosed = true) (he : e.isClosed = false) (v : Verdict)
    (short : Bool) :
    ch.closeEntry e v short = { ch with
      fill := older ++ [{ e with status := .closed v, shortMark := short }]
      fifo := if v = .discard then dropLines e ch.fifo else ch.fifo } := by
  have hmap : older.map (FrameEntry.close v short) = older := by
    conv_rhs => rw [← List.map_id older]
    exact List.map_congr_left fun x hx => FrameEntry.close_of_isClosed (holder x hx) v short
  simp [InputChannel.closeEntry, hfill, hmap, FrameEntry.close, e.not_isClosed_iff.1 he]

/-- A close removes lines and adds none. -/
theorem dropLines_sublist (e : FrameEntry) (l : List FifoLine) : (dropLines e l).Sublist l := by
  cases l with
  | nil => exact .slnil
  | cons x rest =>
    have hrest : (rest.filter fun y : FifoLine => decide (y.slot ≠ e.slot)).Sublist rest := List.filter_sublist
    unfold dropLines
    dsimp only
    split
    · exact hrest.trans (List.sublist_cons_self x rest)
    · exact hrest.cons_cons x

/-! ### Entries that leave (R58 to R64, R70) -/

/-- CLOSED entries have left the channel: the open entry, the lines and the settings stay, the budget covers what it did, and
the channel runs on unless the budget was reached (R46, R58 to R64, R70). -/
structure InputChannel.Left (ch ch' : InputChannel) : Prop where
  cfg : ch'.cfg = ch.cfg
  fifo : ch'.fifo = ch.fifo
  sublist : ch'.fill.Sublist ch.fill
  opened : ∀ e ∈ ch.fill, e.isClosed = false → e ∈ ch'.fill
  progress : ch.progress.toNat ≤ ch'.progress.toNat
  covered : ch'.progress.toNat + ch'.fill.countP FrameEntry.countsForBudget ≤
    ch.progress.toNat + ch.fill.countP FrameEntry.countsForBudget
  running : (ch'.state = ch.state ∧ ch'.stopPending = ch.stopPending ∧ ch'.lossTimer = ch.lossTimer) ∨
    (ch.cfg.budget ≠ 0 ∧ ch.cfg.budget ≤ ch'.progress.toNat ∧ (ch'.state = .stopping ∨ ch'.state = .off ∧ ch'.fill = []) ∧
      ch'.lossTimer = none)
  counters : ∀ c, c ≠ .framesPublished → c ≠ .evictedUnviewed →
    ch'.counters[inCounterIdx c] = ch.counters[inCounterIdx c]

namespace InputChannel.Left

variable {ch ch' : InputChannel}

theorem refl (ch : InputChannel) : ch.Left ch where
  cfg := rfl
  fifo := rfl
  sublist := .refl _
  opened _ he _ := he
  progress := le_rfl
  covered := le_rfl
  running := .inl ⟨rfl, rfl, rfl⟩
  counters _ _ _ := rfl

theorem trans {ch'' : InputChannel} (h : ch.Left ch') (h' : ch'.Left ch'') : ch.Left ch'' where
  cfg := h'.cfg.trans h.cfg
  fifo := h'.fifo.trans h.fifo
  sublist := h'.sublist.trans h.sublist
  opened e he hopen := h'.opened e (h.opened e he hopen) hopen
  progress := h.progress.trans h'.progress
  covered := h'.covered.trans h.covered
  running := by
    rcases h'.running with ⟨hst', hpend', htimer'⟩ | ⟨hb', hle', hstop', htimer'⟩
    · rcases h.running with ⟨hst, hpend, htimer⟩ | ⟨hb, hle, hstop, htimer⟩
      · exact .inl ⟨hst'.trans hst, hpend'.trans hpend, htimer'.trans htimer⟩
      · refine .inr ⟨hb, hle.trans h'.progress, ?_, htimer'.trans htimer⟩
        rw [hst']
        exact hstop.imp_right fun ⟨hoff, hnil⟩ => ⟨hoff, List.sublist_nil.1 (hnil ▸ h'.sublist)⟩
    · rw [h.cfg] at hb' hle'
      exact .inr ⟨hb', hle', hstop', htimer'⟩
  counters c h1 h2 := (h'.counters c h1 h2).trans (h.counters c h1 h2)

/-- While some entry still counts against the budget beyond what remains of it, the channel runs on. -/
theorem runs (h : ch.Left ch')
    (hroom : ch.cfg.budget ≠ 0 → ch.progress.toNat + ch.fill.countP FrameEntry.countsForBudget <
      ch.cfg.budget + ch'.fill.countP FrameEntry.countsForBudget) :
    ch'.state = ch.state ∧ ch'.stopPending = ch.stopPending ∧ ch'.lossTimer = ch.lossTimer := by
  refine h.running.resolve_right fun ⟨hb, hle, _⟩ => ?_
  have := hroom hb
  have := h.covered
  omega

end InputChannel.Left

theorem State.left_leaveDiscards (s : State) (n : Fin 4) : (s.input n).Left ((s.leaveDiscards n).input n) := by
  have hleave : (s.leaveDiscards n).input n =
      { s.input n with fill := (s.input n).fill.filter fun e => !(s.input n).discardable e } := by
    simp [State.leaveDiscards, State.inputs_getElem]
  rw [hleave]
  exact { InputChannel.Left.refl (s.input n) with
    sublist := List.filter_sublist
    opened := fun e he hopen => List.mem_filter.2 ⟨he, by
      simp [InputChannel.discardable, e.not_isClosed_iff.1 hopen]⟩
    covered := Nat.add_le_add_left (List.filter_sublist.countP_le) _
    running := .inl ⟨rfl, rfl, rfl⟩ }

/-- A publication may count an eviction in its own input, and leaves every other field of it. -/
theorem State.input_publishSlot (s : State) (n : Fin 4) (k : Nat) (f : SlotRecord → SlotRecord) :
    (s.publishSlot n k f).input n = s.input n ∨ (s.publishSlot n k f).input n = (s.input n).count .evictedUnviewed := by
  unfold State.publishSlot
  dsimp only
  split
  · exact .inr (by simp [State.countIn, State.inputs_getElem])
  · exact .inl rfl

/-- The channel after the publication of an entry, before a job completion. -/
def InputChannel.published (ch : InputChannel) : InputChannel :=
  { ch.count .framesPublished with progress := satAdd ch.progress 1 }

theorem State.publishEntry_eq (s : State) (n : Fin 4) (e : FrameEntry) (rest : List FrameEntry) :
    s.publishEntry n e rest =
      let s' := (((s.modInput n fun ch => { ch with fill := rest }).publishSlot n e.slot
        fun r => { r with short := e.shortMark }).modInput n InputChannel.published).raiseIn n .framePublished
      if (s'.input n).cfg.budget ≠ 0 && (s'.input n).progress.toNat = (s'.input n).cfg.budget then
        (s'.raiseIn n .jobDone).stopCompletion n
      else s' := rfl

theorem State.left_publishEntry {s : State} {n : Fin 4} {e : FrameEntry} {rest : List FrameEntry}
    (hfill : (s.input n).fill = e :: rest) (he : e.status = .closed .publish) :
    (s.input n).Left ((s.publishEntry n e rest).input n) := by
  have hcounts : e.countsForBudget = true := by simp [FrameEntry.countsForBudget, he]
  have hpublished : ∀ ch, (ch = { s.input n with fill := rest } ∨
      ch = ({ s.input n with fill := rest } : InputChannel).count .evictedUnviewed) →
      (s.input n).Left ch.published := fun ch hch => by
    have hprogress : ch.published.progress.toNat = min 65535 ((s.input n).progress.toNat + 1) := by
      rcases hch with rfl | rfl <;> exact satAdd_toNat _ 1
    have hfill' : ch.published.fill = rest := by rcases hch with rfl | rfl <;> rfl
    have := (s.input n).progress.isLt
    exact {
      cfg := by rcases hch with rfl | rfl <;> rfl
      fifo := by rcases hch with rfl | rfl <;> rfl
      sublist := by rw [hfill', hfill]; exact List.sublist_cons_self e rest
      opened := fun x hx hopen => by
        rw [hfill, List.mem_cons] at hx
        rw [hfill']
        refine hx.resolve_left fun hxe => ?_
        rw [x.not_isClosed_iff, hxe, he] at hopen
        cases hopen
      progress := by omega
      covered := by rw [hprogress, hfill', hfill, List.countP_cons_of_pos hcounts]; omega
      running := .inl (by rcases hch with rfl | rfl <;> exact ⟨rfl, rfl, rfl⟩)
      counters := fun c h1 h2 => by
        have hcount : ch.published.counters[inCounterIdx c] = ch.counters[inCounterIdx c] := by
          rw [InputChannel.published, InputChannel.counters_count, if_neg h1.symm]
        rw [hcount]
        rcases hch with rfl | rfl
        · rfl
        · rw [InputChannel.counters_count, if_neg h2.symm] }
  rw [State.publishEntry_eq]
  dsimp only
  generalize hs' : State.raiseIn _ n .framePublished = s'
  have hleft : (s.input n).Left (s'.input n) := by
    rw [← hs', State.input_raiseIn, State.input_modInput, if_pos rfl]
    refine hpublished _ ?_
    have hslot := State.input_publishSlot (s.modInput n fun ch => { ch with fill := rest }) n e.slot
      fun r => { r with short := e.shortMark }
    rwa [State.input_modInput, if_pos rfl] at hslot
  split
  next hdone =>
    simp only [Bool.and_eq_true, decide_eq_true_eq] at hdone
    obtain ⟨hbudget, hreached⟩ := hdone
    refine hleft.trans ?_
    rw [State.input_stopCompletion, State.input_raiseIn]
    exact { InputChannel.Left.refl (s'.input n) with
      running := .inr ⟨hbudget, hreached.ge, by unfold InputChannel.stopped; split <;> simp [*], rfl⟩ }
  next => exact hleft

theorem State.publishEntry_fill {s : State} {n : Fin 4} {e : FrameEntry} {rest : List FrameEntry} :
    ((s.publishEntry n e rest).input n).fill = rest := by
  have hslot : ∀ u : State, (u.input n).fill = rest →
      ((u.publishSlot n e.slot fun r => { r with short := e.shortMark }).input n).fill = rest := fun u hu => by
    rcases u.input_publishSlot n e.slot fun r => { r with short := e.shortMark } with h | h <;> rw [h] <;> exact hu
  rw [State.publishEntry_eq]
  dsimp only
  split
  · rw [State.input_stopCompletion]
    simpa [InputChannel.stopped, InputChannel.published, InputChannel.count] using hslot _ (by simp)
  · simpa [InputChannel.published, InputChannel.count] using hslot _ (by simp)

theorem State.left_publishLoop {s : State} {n : Fin 4} {l : List FrameEntry} (hfill : (s.input n).fill = l) :
    (s.input n).Left ((s.publishLoop n l).input n) := by
  induction l generalizing s with
  | nil => exact .refl _
  | cons e rest ih =>
    unfold State.publishLoop
    split
    next h =>
      simp only [Bool.and_eq_true, decide_eq_true_eq] at h
      obtain ⟨he, _⟩ := h
      exact (State.left_publishEntry hfill he).trans (ih State.publishEntry_fill)
    next => exact .refl _

/-- Entries that may leave do so. -/
theorem State.left_settle (s : State) (n : Fin 4) : (s.input n).Left ((s.settle n).input n) :=
  (s.left_leaveDiscards n).trans (State.left_publishLoop rfl)

/-- No entry leaves an empty fill context. -/
theorem State.input_settle_of_nil {s : State} {n : Fin 4} (h : (s.input n).fill = []) :
    (s.settle n).input n = s.input n := by
  have hleave : (s.leaveDiscards n).input n = s.input n := by
    rw [State.leaveDiscards, State.input_modInput, if_pos rfl]
    have hfilter : (s.input n).fill.filter (fun e => !(s.input n).discardable e) = (s.input n).fill := by
      rw [h, List.filter_nil]
    exact congrArg (fun fill => { s.input n with fill := fill }) hfilter
  unfold State.settle
  dsimp only
  rw [hleave, h]
  exact hleave

/-! ### One input alone -/

/-- Of the inputs only INn is changed, but for a write that a grant puts in flight, and of the event registers only EVT_INn's
status. -/
structure ActsOn (n : Fin 4) (s t : State) : Prop where
  others : ∀ k, k ≠ n → t.input k = s.input k ∨ t.input k = (s.input k).markInFlight
  enable : t.eu.enable = s.eu.enable
  status : ∀ i : Fin 11, i ≠ eventRegIdx (.input n) → t.eu.status[i] = s.eu.status[i]

namespace ActsOn

variable {n : Fin 4} {s t : State}

theorem refl (s : State) : ActsOn n s s := ⟨fun _ _ => .inl rfl, rfl, fun _ _ => rfl⟩

/-- A change that writes no input, but for marks, and no event. -/
theorem marks (h : ActsOn n s t) {u : State} (hu : OnlyMarks t u) (heu : u.eu = t.eu := by simp) : ActsOn n s u where
  others k hk := by
    rcases h.others k hk with hs | hs <;> rcases hu k with ht | ht <;> rw [hs] at ht
    · exact .inl ht
    · exact .inr ht
    · exact .inr ht
    · exact .inr (ht.trans (InputChannel.markInFlight_markInFlight _))
  enable := by rw [heu]; exact h.enable
  status i hi := by rw [heu]; exact h.status i hi

theorem keep (h : ActsOn n s t) {u : State} (hin : u.inputs = t.inputs := by simp) (heu : u.eu = t.eu := by simp) :
    ActsOn n s u := h.marks (.of_inputs_eq hin) heu

theorem setSm (h : ActsOn n s t) {sm : SlotManager} : ActsOn n s { t with sm := sm } := h.keep rfl rfl

theorem setInput (h : ActsOn n s t) {ch : InputChannel} : ActsOn n s (t.setInput n ch) where
  others k hk := by rw [State.input_setInput, if_neg hk.symm]; exact h.others k hk
  enable := h.enable
  status := h.status

theorem modInput (h : ActsOn n s t) {f : InputChannel → InputChannel} : ActsOn n s (t.modInput n f) := h.setInput

theorem raiseIn (h : ActsOn n s t) {e : InEvent} : ActsOn n s (t.raiseIn n e) where
  others k hk := by rw [State.input_raiseIn]; exact h.others k hk
  enable := h.enable
  status i hi := by
    rw [State.raiseIn_eu, EventUnit.setBits_status, if_neg hi.symm]
    exact h.status i hi

theorem withdrawWrite (h : ActsOn n s t) : ActsOn n s (t.withdrawWrite n) := h.keep

theorem raiseWrite (h : ActsOn n s t) : ActsOn n s (t.raiseWrite n) := h.marks (OnlyMarks.refl t).raiseWrite

theorem countIn (h : ActsOn n s t) {c : InCounter} : ActsOn n s (t.countIn n c) := h.modInput

theorem stopCompletion (h : ActsOn n s t) : ActsOn n s (t.stopCompletion n) := by
  rw [State.stopCompletion_eq]
  split
  · exact h.modInput.raiseIn
  · exact h.modInput

theorem publishSlot (h : ActsOn n s t) {k : Nat} {f : SlotRecord → SlotRecord} : ActsOn n s (t.publishSlot n k f) := by
  unfold State.publishSlot
  dsimp only
  split
  · exact h.setSm.countIn
  · exact h.setSm

theorem publishEntry (h : ActsOn n s t) {e : FrameEntry} {rest : List FrameEntry} :
    ActsOn n s (t.publishEntry n e rest) := by
  have hpublished := ((h.modInput (f := fun ch => { ch with fill := rest })).publishSlot (k := e.slot)
    (f := fun r => { r with short := e.shortMark })).modInput (f := InputChannel.published) |>.raiseIn (e := .framePublished)
  rw [State.publishEntry_eq]
  dsimp only
  split
  · exact hpublished.raiseIn.stopCompletion
  · exact hpublished

theorem publishLoop (h : ActsOn n s t) {l : List FrameEntry} : ActsOn n s (t.publishLoop n l) := by
  induction l generalizing t with
  | nil => exact h
  | cons e rest ih =>
    unfold State.publishLoop
    split
    · exact ih h.publishEntry
    · exact h

theorem leaveDiscards (h : ActsOn n s t) : ActsOn n s (t.leaveDiscards n) := by
  unfold State.leaveDiscards
  exact h.setSm.modInput

theorem settle (h : ActsOn n s t) : ActsOn n s (t.settle n) := h.leaveDiscards.publishLoop

theorem closeOpen (h : ActsOn n s t) {v : Verdict} {short : Bool} : ActsOn n s (t.closeOpen n v short) := by
  cases he : (t.input n).openEntry with
  | none => rwa [State.closeOpen_of_none he]
  | some e =>
    rw [State.closeOpen_of_some he]
    dsimp only
    split
    · exact h.setSm.setInput.withdrawWrite
    · exact h.setSm.setInput

theorem closeFrame (h : ActsOn n s t) {v : Verdict} {short : Bool} : ActsOn n s (t.closeFrame n v short) :=
  h.closeOpen.settle.raiseWrite

theorem broken (h : ActsOn n s t) : ActsOn n s (t.broken n) := h.countIn.raiseIn

theorem endFrame (h : ActsOn n s t) {st : InState} {v : Verdict} {short : Bool} :
    ActsOn n s (t.endFrame n st v short) := by
  have hclose : ActsOn n s ((t.modInput n fun ch => { ch with state := st }).closeFrame n v short) := h.modInput.closeFrame
  unfold State.endFrame State.enterOrStop
  dsimp only
  split
  · exact hclose.stopCompletion
  · exact hclose

theorem skip (h : ActsOn n s t) {c : InCounter} : ActsOn n s (t.skip n c) := h.countIn.modInput

theorem allocate (h : ActsOn n s t) {tag : Option Word} {k : Nat} : ActsOn n s (t.allocate n tag k) := h.setSm.modInput

theorem reclaim (h : ActsOn n s t) {k : Nat} : ActsOn n s (t.reclaim n k) := by
  unfold State.reclaim
  dsimp only
  split
  · exact h.setSm.countIn
  · exact h.setSm.countIn.countIn

theorem admitFrame (h : ActsOn n s t) {tag : Option Word} : ActsOn n s (t.admitFrame n tag) := by
  unfold State.admitFrame
  split
  · exact h.skip
  · split
    · exact h.skip.raiseIn
    · split
      · exact h.setSm.allocate
      · split
        · exact h.reclaim.allocate
        · exact h.skip.raiseIn

theorem signalFound (h : ActsOn n s t) : ActsOn n s (t.signalFound n) := by
  unfold State.signalFound
  split
  · exact h.modInput.raiseIn
  · exact h

theorem takeFrameStart (h : ActsOn n s t) {tag : Option Word} : ActsOn n s (t.takeFrameStart n tag) :=
  h.modInput.signalFound.admitFrame

/-! ### Messages of the push link and the loss timer (chapter 2) -/

theorem stray (h : ActsOn n s t) : ActsOn n s (t.stray n) := h.countIn.raiseIn

theorem frameStartFilling (h : ActsOn n s t) {tag : Option Word} : ActsOn n s (t.frameStartFilling n tag) := by
  unfold State.frameStartFilling
  dsimp only
  split
  · exact h.broken.closeFrame.stopCompletion
  · exact h.broken.closeFrame.takeFrameStart

theorem lineFilling (h : ActsOn n s t) {e : FrameEntry} {payload : List Word} :
    ActsOn n s (t.lineFilling n e payload) := by
  unfold State.lineFilling
  dsimp only
  split
  · exact h.broken.endFrame
  · split
    · exact h.broken.endFrame
    · split
      · exact h.countIn.raiseIn.endFrame
      · exact h.modInput.raiseWrite

theorem frameEndFilling (h : ActsOn n s t) {e : FrameEntry} : ActsOn n s (t.frameEndFilling n e) := by
  unfold State.frameEndFilling
  split
  · exact h.endFrame
  · split
    · exact h.endFrame
    · exact h.broken.endFrame

theorem signalLost (h : ActsOn n s t) : ActsOn n s (t.signalLost n) := by
  unfold State.signalLost
  dsimp only
  split
  · exact h.modInput.countIn.raiseIn.broken.endFrame
  · exact h.modInput.countIn.raiseIn.modInput

/-! ### Writes of the input registers, line writes and channel resets (R12, R25, R26, R42, R47) -/

theorem tryEnable (h : ActsOn n s t) : ActsOn n s (t.tryEnable n) := by
  unfold State.tryEnable
  split
  · exact h.modInput
  · exact h.modInput.raiseIn

theorem stopNow (h : ActsOn n s t) : ActsOn n s (t.stopNow n) := by
  unfold State.stopNow
  dsimp only
  split
  · exact h.countIn.closeFrame.stopCompletion
  · exact h.stopCompletion

theorem stopAtEnd (h : ActsOn n s t) : ActsOn n s (t.stopAtEnd n) := by
  unfold State.stopAtEnd
  split
  · exact h.modInput
  · exact h.stopCompletion

theorem trimReady (h : ActsOn n s t) {quota : Nat} : ActsOn n s (t.trimReady n quota) := by
  unfold State.trimReady
  exact h.setSm.modInput

theorem finishReset (h : ActsOn n s t) : ActsOn n s (t.finishReset n) := h.setSm.modInput

theorem finishStopping (h : ActsOn n s t) : ActsOn n s (t.finishStopping n) := by
  unfold State.finishStopping
  split
  · exact h.stopCompletion
  · exact h

theorem inputWriteDone (h : ActsOn n s t) : ActsOn n s (t.inputWriteDone n) := by
  unfold State.inputWriteDone
  split
  · exact h.finishReset
  · exact h.modInput.settle.finishStopping.raiseWrite

theorem clearStatus (h : ActsOn n s t) : ActsOn n s { t with eu := t.eu.clearReg (.input n) } where
  others := h.others
  enable := h.enable
  status i hi := by
    have hne : (eventRegIdx (.input n)).val ≠ i.val := fun e => hi (Fin.ext e).symm
    rw [← h.status i hi]
    simp [EventUnit.clearReg, hne]

theorem resetInput (h : ActsOn n s t) : ActsOn n s (t.resetInput n) := by
  unfold State.resetInput
  dsimp only
  split
  · exact h.clearStatus.setInput
  · exact h.clearStatus.setSm.withdrawWrite.setInput

end ActsOn

end Sys2Proof.Machine
end

