-- ==== Sys2Proof/Proofs/FillContexts.lean ====
section
/-! Every step keeps the fill contexts in order (R29, R71) and a loss timer running only where it may (R38). -/

namespace Sys2Proof.Machine

-- One theorem after another, as in the tests: many of them at once would need a thread each.
set_option Elab.async false

/-! ### What makes a fill context -/

namespace InputChannel

/-- Every entry is CLOSED. -/
def AllClosed (ch : InputChannel) : Prop := ∀ e ∈ ch.fill, e.isClosed = true

/-- One OPEN entry stands behind CLOSED ones. -/
def OneOpen (ch : InputChannel) : Prop :=
  ∃ older e, ch.fill = older ++ [e] ∧ (∀ x ∈ older, x.isClosed = true) ∧ e.isClosed = false

/-- At most two entries, which the budget covers with the progress (R29, R71). -/
structure Contained (ch : InputChannel) : Prop where
  entries : ch.fill.length ≤ 2
  range : ch.cfg.budget ≤ 65535
  budget : ch.cfg.budget ≠ 0 → ch.progress.toNat + ch.fill.countP FrameEntry.countsForBudget ≤ ch.cfg.budget

/-- The channel is at rest in a state that a stop leads to. -/
def Stopped (ch : InputChannel) : Prop := (ch.state = .stopping ∨ ch.state = .off ∧ ch.fill = []) ∧ ch.lossTimer = none

variable {ch ch' : InputChannel}

theorem fillOk.contained (h : ch.fillOk) (hs : ch.state ≠ .off) : ch.Contained := by
  obtain ⟨hentries, _, _, _, _, hrange, hbudget, _⟩ := h
  exact ⟨hentries, hrange, hbudget hs⟩

theorem fillOk.allClosed (h : ch.fillOk) (hs : ch.state ≠ .filling) : ch.AllClosed := fun e he => by
  obtain ⟨_, hclosed, hlast, _⟩ := h
  obtain ⟨init, x, hfill⟩ : ∃ init x, ch.fill = init ++ [x] :=
    ⟨_, _, (List.dropLast_append_getLast (List.ne_nil_of_mem he)).symm⟩
  rw [hfill, List.dropLast_concat] at hclosed
  rw [hfill, List.mem_append, List.mem_singleton] at he
  rcases he with he | rfl
  · exact hclosed e he
  · by_contra hopen
    exact hs ((hlast e (by simp [hfill])).1 (by simpa using hopen))

theorem fillOk.oneOpen (h : ch.fillOk) (hs : ch.state = .filling) : ch.OneOpen := by
  obtain ⟨_, hclosed, hlast, hne, _⟩ := h
  exact ⟨_, _, (List.dropLast_append_getLast (hne hs)).symm, hclosed,
    (hlast _ (List.getLast?_eq_some_getLast _)).2 hs⟩

theorem fillOk.timer (h : ch.fillOk) :
    ch.lossTimer ≠ none → ch.state = .armed ∨ ch.state = .filling ∨ ch.state = .skipping := by
  obtain ⟨_, _, _, _, _, _, _, htimer⟩ := h
  exact htimer

theorem fillOk.off (h : ch.fillOk) (hs : ch.state = .off) : ch.fill = [] := by
  obtain ⟨_, _, _, _, hoff, _⟩ := h
  exact hoff hs

theorem fillOk.entries (h : ch.fillOk) : ch.fill.length ≤ 2 := by
  obtain ⟨hentries, _⟩ := h
  exact hentries

theorem fillOk.range (h : ch.fillOk) : ch.cfg.budget ≤ 65535 := by
  obtain ⟨_, _, _, _, _, hrange, _⟩ := h
  exact hrange

theorem Contained.fillOk_of_open (h : ch.Contained) (hopen : ch.OneOpen) (hs : ch.state = .filling) : ch.fillOk := by
  obtain ⟨older, e, hfill, hclosed, he⟩ := hopen
  refine ⟨h.entries, ?_, ?_, ?_, ?_, h.range, fun _ => h.budget, fun _ => .inr (.inl hs)⟩
  · rwa [hfill, List.dropLast_concat]
  · simp [hfill, he, hs]
  · simp [hfill]
  · simp [hs]

theorem Contained.fillOk_of_closed (h : ch.Contained) (hclosed : ch.AllClosed) (hs : ch.state ≠ .filling)
    (hoff : ch.state = .off → ch.fill = [])
    (htimer : ch.lossTimer ≠ none → ch.state = .armed ∨ ch.state = .filling ∨ ch.state = .skipping) : ch.fillOk :=
  ⟨h.entries, fun e he => hclosed e (List.mem_of_mem_dropLast he),
    fun e he => by simp [hclosed e (List.mem_of_getLast? he), hs], fun hf => absurd hf hs, hoff, h.range,
    fun _ => h.budget, htimer⟩

theorem fillOk_of_off (hs : ch.state = .off) (hfill : ch.fill = []) (hrange : ch.cfg.budget ≤ 65535)
    (htimer : ch.lossTimer = none) : ch.fillOk := by
  simp [fillOk, hs, hfill, hrange, htimer]

/-- In ARMED or SKIPPING the loss timer may run. -/
theorem Contained.fillOk_of_listening (h : ch.Contained) (hclosed : ch.AllClosed)
    (hs : ch.state = .armed ∨ ch.state = .skipping) : ch.fillOk := by
  refine h.fillOk_of_closed hclosed ?_ ?_ fun _ => ?_ <;> rcases hs with hs | hs <;> simp [hs]

theorem Contained.fillOk_of_stopped (h : ch.Contained) (hclosed : ch.AllClosed) (hs : ch.Stopped) : ch.fillOk := by
  obtain ⟨hstate, htimer⟩ := hs
  refine h.fillOk_of_closed hclosed ?_ ?_ fun ht => absurd htimer ht <;> rcases hstate with hs | ⟨hs, hnil⟩ <;> simp [*]

/-- What `fillOk` reads of a channel, the entries by their status alone. -/
structure SameFill (ch ch' : InputChannel) : Prop where
  status : ch'.fill.map FrameEntry.status = ch.fill.map FrameEntry.status := by rfl
  state : ch'.state = ch.state := by rfl
  budget : ch'.cfg.budget = ch.cfg.budget := by rfl
  progress : ch'.progress = ch.progress := by rfl
  timer : ch'.lossTimer = ch.lossTimer := by rfl

/-- An entry is CLOSED, and counts against the budget, by its status. -/
theorem allClosed_iff_status : ch.AllClosed ↔ ∀ st ∈ ch.fill.map FrameEntry.status, st ≠ .opened := by
  simp [AllClosed, FrameEntry.isClosed_iff]

theorem oneOpen_iff_status :
    ch.OneOpen ↔ ∃ l, ch.fill.map FrameEntry.status = l ++ [.opened] ∧ ∀ st ∈ l, st ≠ .opened := by
  constructor
  · rintro ⟨older, e, hfill, hclosed, he⟩
    refine ⟨older.map FrameEntry.status, by simp [hfill, e.not_isClosed_iff.1 he], fun st hst => ?_⟩
    obtain ⟨x, hx, rfl⟩ := List.mem_map.1 hst
    exact x.isClosed_iff.1 (hclosed x hx)
  · rintro ⟨l, hfill, hclosed⟩
    obtain ⟨older, last, hsplit, rfl, hlast⟩ := List.map_eq_append_iff.1 hfill
    obtain ⟨e, rfl, he⟩ := List.map_eq_singleton_iff.1 hlast
    exact ⟨older, e, hsplit, fun x hx => x.isClosed_iff.2 (hclosed _ (List.mem_map_of_mem hx)), e.not_isClosed_iff.2 he⟩

theorem countP_status (l : List FrameEntry) :
    l.countP FrameEntry.countsForBudget = (l.map FrameEntry.status).countP (· != .closed .discard) := by
  rw [List.countP_map]
  rfl

theorem SameFill.contained (h : ch.SameFill ch') (hc : ch.Contained) : ch'.Contained where
  entries := by rw [← List.length_map FrameEntry.status, h.status, List.length_map]; exact hc.entries
  range := h.budget ▸ hc.range
  budget := by rw [h.budget, h.progress, countP_status, h.status, ← countP_status]; exact hc.budget

theorem SameFill.fill_eq_nil (h : ch.SameFill ch') : ch'.fill = [] ↔ ch.fill = [] := by
  rw [← List.map_eq_nil_iff (f := FrameEntry.status), h.status, List.map_eq_nil_iff]

theorem SameFill.fillOk (h : ch.SameFill ch') (hok : ch.fillOk) : ch'.fillOk := by
  by_cases hfilling : ch.state = .filling
  · exact (h.contained (hok.contained (by simp [hfilling]))).fillOk_of_open
      (by rw [oneOpen_iff_status, h.status]; exact oneOpen_iff_status.1 (hok.oneOpen hfilling)) (h.state.trans hfilling)
  · have hclosed : ch'.AllClosed := by
      rw [allClosed_iff_status, h.status]
      exact allClosed_iff_status.1 (hok.allClosed hfilling)
    by_cases hoff : ch.state = .off
    · have htimer := mt hok.timer (by simp [hoff])
      exact fillOk_of_off (h.state.trans hoff) (h.fill_eq_nil.2 (hok.off hoff)) (h.budget ▸ hok.range)
        (h.timer.trans (not_not.1 htimer))
    · exact (h.contained (hok.contained hoff)).fillOk_of_closed hclosed (h.state ▸ hfilling)
        (fun hs => absurd (h.state ▸ hs) hoff) (by rw [h.timer, h.state]; exact hok.timer)

theorem SameFill.markInFlight (ch : InputChannel) : ch.SameFill ch.markInFlight where
  status := ch.markInFlight_status
  state := by rw [ch.markInFlight_eq]
  budget := by rw [ch.markInFlight_eq]
  progress := by rw [ch.markInFlight_eq]
  timer := by rw [ch.markInFlight_eq]

theorem SameFill.lineWritten (ch : InputChannel) : ch.SameFill ch.lineWritten := by
  unfold InputChannel.lineWritten
  split
  · exact {}
  · refine { status := ?_ }
    rw [List.map_map]
    refine List.map_congr_left fun e _ => ?_
    simp only [Function.comp_apply]
    split <;> rfl

theorem SameFill.acceptLine (ch : InputChannel) (e : FrameEntry) (payload : List Word) :
    ch.SameFill (ch.acceptLine e payload) := by
  refine { status := ?_ }
  simp only [InputChannel.acceptLine, List.map_map]
  refine List.map_congr_left fun x _ => ?_
  simp only [Function.comp_apply]
  split <;> rfl

/-! ### Entries that leave, and the close of the open one -/

theorem Left.contained (h : ch.Left ch') (hc : ch.Contained) : ch'.Contained where
  entries := h.sublist.length_le.trans hc.entries
  range := by rw [h.cfg]; exact hc.range
  budget := by rw [h.cfg]; exact fun hb => h.covered.trans (hc.budget hb)

theorem Left.allClosed (h : ch.Left ch') (hclosed : ch.AllClosed) : ch'.AllClosed :=
  fun e he => hclosed e (h.sublist.subset he)

theorem Left.oneOpen (h : ch.Left ch') (hopen : ch.OneOpen) : ch'.OneOpen := by
  obtain ⟨older, e, hfill, hclosed, he⟩ := hopen
  obtain ⟨older', last, hfill', holder, hlast⟩ := List.sublist_append_iff.1 (hfill ▸ h.sublist)
  have hmem := h.opened e (by simp [hfill]) he
  have hsubset : ∀ x ∈ older', x.isClosed = true := fun x hx => hclosed x (holder.subset hx)
  rw [hfill', List.mem_append] at hmem
  have hne := List.ne_nil_of_mem (hmem.resolve_left fun hm => by simp [hsubset e hm] at he)
  obtain rfl : last = [e] := by
    rcases List.sublist_cons_iff.1 hlast with hnil | ⟨tail, rfl, htail⟩
    · exact absurd (List.sublist_nil.1 hnil) hne
    · rw [List.sublist_nil.1 htail]
  exact ⟨older', e, hfill', hsubset, he⟩

/-- An OPEN entry counts against the budget, so that the budget is not reached while it stands. -/
theorem Left.runs_of_open (h : ch.Left ch') (hc : ch.Contained) (hopen : ch.OneOpen) :
    ch'.state = ch.state ∧ ch'.stopPending = ch.stopPending ∧ ch'.lossTimer = ch.lossTimer := by
  refine h.runs fun hb => ?_
  obtain ⟨older, e, hfill, -, he⟩ := h.oneOpen hopen
  have hpos : 0 < ch'.fill.countP FrameEntry.countsForBudget :=
    List.countP_pos_iff.2 ⟨e, by simp [hfill], FrameEntry.countsForBudget_of_opened he⟩
  have := hc.budget hb
  omega

theorem Left.stopped_or (h : ch.Left ch') :
    (ch'.state = ch.state ∧ ch'.stopPending = ch.stopPending ∧ ch'.lossTimer = ch.lossTimer) ∨ ch'.Stopped :=
  h.running.imp_right fun ⟨_, _, hstop⟩ => hstop

/-- Entries that leave leave a fill context in order; in OFF there are none that could. -/
theorem Left.fillOk (h : ch.Left ch') (hnil : ch.fill = [] → ch' = ch) (hok : ch.fillOk) : ch'.fillOk := by
  by_cases hoff : ch.state = .off
  · exact hnil (hok.off hoff) ▸ hok
  have hcontained := h.contained (hok.contained hoff)
  by_cases hfilling : ch.state = .filling
  · obtain ⟨hstate, -, -⟩ := h.runs_of_open (hok.contained hoff) (hok.oneOpen hfilling)
    exact hcontained.fillOk_of_open (h.oneOpen (hok.oneOpen hfilling)) (hstate.trans hfilling)
  · have hclosed := h.allClosed (hok.allClosed hfilling)
    rcases h.stopped_or with ⟨hstate, -, htimer⟩ | hstop
    · exact hcontained.fillOk_of_closed hclosed (hstate ▸ hfilling) (fun hs => absurd (hstate ▸ hs) hoff)
        (by rw [hstate, htimer]; exact hok.timer)
    · exact hcontained.fillOk_of_stopped hclosed hstop

theorem allClosed_closeEntry (ch : InputChannel) (e : FrameEntry) (v : Verdict) (short : Bool) :
    (ch.closeEntry e v short).AllClosed := fun x hx => by
  obtain ⟨y, -, rfl⟩ := List.mem_map.1 hx
  exact y.close_isClosed v short

theorem Contained.closeEntry (h : ch.Contained) (e : FrameEntry) (v : Verdict) (short : Bool) :
    (ch.closeEntry e v short).Contained where
  entries := (List.length_map _).trans_le h.entries
  range := h.range
  budget hb := by
    have hle : (ch.fill.map (FrameEntry.close v short)).countP FrameEntry.countsForBudget ≤
        ch.fill.countP FrameEntry.countsForBudget := by
      rw [List.countP_map]
      exact List.countP_mono_left fun x _ => x.countsForBudget_close v short
    exact (Nat.add_le_add_left hle _).trans (h.budget hb)

/-- A channel of a contained fill context without an OPEN entry may stop. -/
theorem Contained.fillOk_stopped (h : ch.Contained) (hclosed : ch.AllClosed) : ch.stopped.fillOk := by
  have hstopped : ch.stopped.Contained := ⟨h.entries, h.range, h.budget⟩
  refine hstopped.fillOk_of_stopped hclosed ⟨?_, rfl⟩
  unfold InputChannel.stopped
  split <;> simp [*]

end InputChannel

section

variable {s t : State} {n : Fin 4}

theorem contained_closeOpen (h : (s.input n).Contained) (v : Verdict) (short : Bool) :
    ((s.closeOpen n v short).input n).Contained := by
  cases he : (s.input n).openEntry with
  | none => rwa [State.closeOpen_of_none he]
  | some e => rw [State.input_closeOpen_of_some he]; exact h.closeEntry e v short

theorem allClosed_closeOpen (s : State) (n : Fin 4) (v : Verdict) (short : Bool) :
    ((s.closeOpen n v short).input n).AllClosed := by
  cases he : (s.input n).openEntry with
  | none => rw [State.closeOpen_of_none he]; exact InputChannel.openEntry_eq_none.1 he
  | some e => rw [State.input_closeOpen_of_some he]; exact InputChannel.allClosed_closeEntry _ e v short

theorem state_closeOpen (s : State) (n : Fin 4) (v : Verdict) (short : Bool) :
    ((s.closeOpen n v short).input n).state = (s.input n).state := by
  cases he : (s.input n).openEntry with
  | none => rw [State.closeOpen_of_none he]
  | some e => rw [State.input_closeOpen_of_some he]; rfl

/-- A grant that may follow a raise marks an entry at most. -/
theorem sameFill_raiseWrite (s : State) (n : Fin 4) : (s.input n).SameFill ((s.raiseWrite n).input n) := by
  rcases (OnlyMarks.refl s).raiseWrite (n := n) n with h | h <;> rw [h]
  · exact {}
  · exact .markInFlight _

/-- The close of the open entry leaves a contained fill context without an OPEN entry, and a channel that runs on or has
stopped at its budget. -/
theorem closeFrame_closed (h : (s.input n).Contained) (v : Verdict) (short : Bool) :
    ((s.closeFrame n v short).input n).Contained ∧ ((s.closeFrame n v short).input n).AllClosed ∧
      (((s.closeFrame n v short).input n).state = (s.input n).state ∨ ((s.closeFrame n v short).input n).Stopped) := by
  have hleft := (s.closeOpen n v short).left_settle n
  have hsame := sameFill_raiseWrite ((s.closeOpen n v short).settle n) n
  refine ⟨hsame.contained (hleft.contained (contained_closeOpen h v short)), ?_, ?_⟩
  · rw [State.closeFrame, InputChannel.allClosed_iff_status, hsame.status]
    exact InputChannel.allClosed_iff_status.1 (hleft.allClosed (allClosed_closeOpen s n v short))
  · rw [State.closeFrame, hsame.state, ← state_closeOpen s n v short, InputChannel.Stopped, hsame.state, hsame.timer,
      hsame.fill_eq_nil]
    exact hleft.stopped_or.imp_left fun ⟨hstate, _⟩ => hstate

theorem fillOk_stopCompletion (hc : (s.input n).Contained) (hclosed : (s.input n).AllClosed) :
    ((s.stopCompletion n).input n).fillOk := by
  rw [State.input_stopCompletion]
  exact hc.fillOk_stopped hclosed

/-- A reception that ends the open frame leaves the fill context in order. -/
theorem fillOk_endFrame (h : (s.input n).Contained) {st : InState} (hst : st = .armed ∨ st = .skipping) (v : Verdict)
    (short : Bool) : ((s.endFrame n st v short).input n).fillOk := by
  have henter : (((s.modInput n fun ch => { ch with state := st }).input n)).Contained := by
    rw [State.input_modInput, if_pos rfl]
    exact ⟨h.entries, h.range, h.budget⟩
  obtain ⟨hc, hclosed, hstate⟩ := closeFrame_closed henter v short
  unfold State.endFrame State.enterOrStop
  dsimp only
  split
  · exact fillOk_stopCompletion hc hclosed
  · rcases hstate with hstate | hstop
    · rw [State.input_modInput, if_pos rfl] at hstate
      exact hc.fillOk_of_listening hclosed (hst.imp hstate.trans hstate.trans)
    · exact hc.fillOk_of_stopped hclosed hstop

/-! ### Admission (R51 to R56) -/

theorem fillOk_skip (hc : (s.input n).Contained) (hclosed : (s.input n).AllClosed) (c : InCounter) :
    ((s.skip n c).input n).fillOk := by
  have hskip : (s.skip n c).input n = { (s.input n).count c with state := .skipping } := by simp [State.skip, State.countIn]
  rw [hskip]
  exact InputChannel.Contained.fillOk_of_listening ⟨hc.entries, hc.range, hc.budget⟩ hclosed (.inr rfl)

theorem fillOk_allocate (hc : (s.input n).Contained) (hclosed : (s.input n).AllClosed)
    (hbudget : (s.input n).budgetFull = false) (hroom : (s.input n).backlogged = false) (tag : Option Word) (k : Nat) :
    ((s.allocate n tag k).input n).fillOk := by
  have hallocate : (s.allocate n tag k).input n = { s.input n with
      fill := (s.input n).fill ++ [newEntry k (s.input n).cfg.linesPerFrame], state := .filling } := by
    simp [State.allocate, State.inputs_getElem]
  have hlength : (s.input n).fill.countP FrameEntry.isClosed = (s.input n).fill.length := List.countP_eq_length.2 hclosed
  simp only [InputChannel.backlogged, hlength, decide_eq_false_iff_not] at hroom
  rw [hallocate]
  refine InputChannel.Contained.fillOk_of_open ⟨?_, hc.range, fun hb => ?_⟩ ⟨_, _, rfl, hclosed, rfl⟩ rfl
  · rw [List.length_append, List.length_singleton]
    omega
  · have hcount : [newEntry k (s.input n).cfg.linesPerFrame].countP FrameEntry.countsForBudget = 1 := rfl
    simp only [InputChannel.budgetFull, ne_eq, hb, not_false_eq_true, decide_true, Bool.true_and,
      decide_eq_false_iff_not] at hbudget
    rw [List.countP_append, hcount]
    exact Nat.lt_of_not_le hbudget

theorem input_reclaim (s : State) (n : Fin 4) (k : Nat) :
    (s.reclaim n k).input n = if (s.sm.slot k).viewed then (s.input n).count .reclaimed
      else ((s.input n).count .reclaimed).count .evictedUnviewed := by
  unfold State.reclaim
  dsimp only
  split <;> simp [State.countIn, State.inputs_getElem]

/-- A reclaim leaves what admission reads of the channel. -/
theorem input_reclaim_eq (s : State) (n : Fin 4) (k : Nat) :
    ∃ counters, (s.reclaim n k).input n = { s.input n with counters := counters } := by
  rw [input_reclaim]
  split <;> exact ⟨_, rfl⟩

theorem fillOk_admitFrame (hc : (s.input n).Contained) (hclosed : (s.input n).AllClosed) (tag : Option Word) :
    ((s.admitFrame n tag).input n).fillOk := by
  unfold State.admitFrame
  split
  · exact fillOk_skip hc hclosed _
  next hbudget =>
    rw [Bool.not_eq_true] at hbudget
    split
    · rw [State.input_raiseIn]; exact fillOk_skip hc hclosed _
    next hroom =>
      rw [Bool.not_eq_true] at hroom
      split
      · exact fillOk_allocate hc hclosed hbudget hroom tag _
      · split
        next k _ =>
          obtain ⟨counters, hreclaim⟩ := input_reclaim_eq s n k
          exact fillOk_allocate (by rw [hreclaim]; exact ⟨hc.entries, hc.range, hc.budget⟩) (by rw [hreclaim]; exact hclosed)
            (by rw [hreclaim]; exact hbudget) (by rw [hreclaim]; exact hroom) tag k
        · rw [State.input_raiseIn]; exact fillOk_skip hc hclosed _

theorem InputChannel.restartLossTimer_eq (ch : InputChannel) (now : Word) :
    ch.restartLossTimer now =
      { ch with lossTimer := if ch.cfg.lossTimeout = 0 then ch.lossTimer else some now } := by
  unfold InputChannel.restartLossTimer
  split <;> rfl

theorem input_signalFound (s : State) (n : Fin 4) : (s.signalFound n).input n = { s.input n with lost := false } := by
  unfold State.signalFound
  split
  · simp
  next hlost =>
    rw [Bool.not_eq_true] at hlost
    rw [← hlost]

/-- What a frame's start does to the loss timer and LOST (R30). -/
theorem input_frameFound (s : State) (n : Fin 4) (now : Word) :
    ((s.modInput n fun ch => ch.restartLossTimer now).signalFound n).input n = { s.input n with
      lossTimer := if (s.input n).cfg.lossTimeout = 0 then (s.input n).lossTimer else some now, lost := false } := by
  rw [input_signalFound, State.input_modInput, if_pos rfl, InputChannel.restartLossTimer_eq]

theorem fillOk_takeFrameStart (hc : (s.input n).Contained) (hclosed : (s.input n).AllClosed) (tag : Option Word) :
    ((s.takeFrameStart n tag).input n).fillOk := by
  have hfound := input_frameFound s n s.timeBase
  unfold State.takeFrameStart
  exact fillOk_admitFrame (by rw [hfound]; exact ⟨hc.entries, hc.range, hc.budget⟩) (by rw [hfound]; exact hclosed) tag

end

end Sys2Proof.Machine
end

