-- ==== Sys2Proof/Proofs/FillsKept.lean ====
section
/-! Every step keeps every fill context in order: the commands of an input by the rules about its fill context, all others
because they change no input but by a mark (R29, R38, R71). -/

namespace Sys2Proof.Machine

-- One theorem after another, as in the tests: many of them at once would need a thread each.
set_option Elab.async false

/-! ### Operations that change no input but by a mark -/

namespace OnlyMarks

variable {s t : State}

theorem afterDelivery (h : OnlyMarks s t) : OnlyMarks s t.afterDelivery := (h.keep).grantMoment

theorem raiseRead (h : OnlyMarks s t) {m : Fin 6} : OnlyMarks s (t.raiseRead m) := by
  unfold State.raiseRead
  split
  · exact h
  · exact grantMoment (h.keep (by simp))

theorem raisePort (h : OnlyMarks s t) {r : MemRequest} : OnlyMarks s (t.raisePort r) := by
  unfold State.raisePort
  split
  · exact h.keep rfl
  · exact h.setArb.grantMoment

theorem raiseClear (h : OnlyMarks s t) {c : ClearProgress} : OnlyMarks s (t.raiseClear c) := h.setArb.grantMoment

theorem openShown (h : OnlyMarks s t) {m : Fin 6} {k : Nat} {status : AnswerStatus} {short lost : Bool} :
    OnlyMarks s (t.openShown m k status short lost) := by
  unfold State.openShown
  exact raiseRead h.keep

theorem bind (h : OnlyMarks s t) {m : Fin 6} {k : Nat} {short lost : Bool} : OnlyMarks s (t.bind m k short lost) := by
  unfold State.bind
  exact openShown (h.keep (by simp))

theorem fallback (h : OnlyMarks s t) {m : Fin 6} {lost : Bool} : OnlyMarks s (t.fallback m lost) := by
  unfold State.fallback
  split
  · exact openShown h.keep
  · exact h.keep

theorem policyStep (h : OnlyMarks s t) {m : Fin 6} {lost : Bool} : OnlyMarks s (t.policyStep m lost) := by
  unfold State.policyStep
  dsimp only
  split
  · exact bind h.keep
  · exact fallback h.keep

theorem freezeStep (h : OnlyMarks s t) {m : Fin 6} {lost : Bool} : OnlyMarks s (t.freezeStep m lost) := by
  unfold State.freezeStep
  split
  · exact openShown h.keep
  · exact h.policyStep

theorem select (h : OnlyMarks s t) {m : Fin 6} : OnlyMarks s (t.select m) := by
  unfold State.select State.lossStep
  dsimp only
  split
  · exact h.keep
  · split
    · exact h.keep
    · exact freezeStep h.keep

theorem pullLine (h : OnlyMarks s t) {m : Fin 6} {f : OpenFrame} : OnlyMarks s (t.pullLine m f) := by
  have hrefetch : ∀ {u : State}, OnlyMarks s u → OnlyMarks s (u.refetch m) := fun hu => by
    unfold State.refetch
    split
    · exact raiseRead hu.keep
    · exact hu.raiseRead
  unfold State.pullLine
  refine hrefetch (h.keep ?_)
  dsimp only
  split
  · split
    · split <;> simp
    · split <;> simp
  · split <;> simp

theorem lineReadDone (h : OnlyMarks s t) {r : MemRequest} : OnlyMarks s (t.lineReadDone r) := by
  unfold State.lineReadDone
  dsimp only
  split
  · exact raiseRead h.keep
  · exact h.keep

theorem clearWriteDone (h : OnlyMarks s t) {r : MemRequest} : OnlyMarks s (t.clearWriteDone r) := by
  unfold State.clearWriteDone
  split
  · exact h.keep
  · split
    · exact h.keep
    · unfold State.clearAdvance
      dsimp only
      split
      · exact raiseClear (h.keep (by simp))
      · exact h.keep

theorem orphanDone (h : OnlyMarks s t) {r : MemRequest} {c : Client} :
    OnlyMarks s (((t.orphanEffect r).raiseDeferred).retestReader c) := by
  have hdeferred : OnlyMarks s (t.orphanEffect r).raiseDeferred := by
    unfold State.raiseDeferred
    split
    · exact h.keep
    · exact raisePort (h.keep (by simp))
  unfold State.retestReader
  split
  · exact hdeferred.raiseRead
  · exact hdeferred

theorem refreshExpired (h : OnlyMarks s t) : OnlyMarks s t.refreshExpired := by
  unfold State.refreshExpired
  dsimp only
  split
  · exact h.keep rfl
  · exact grantMoment (h.keep rfl)

theorem enterReady (h : OnlyMarks s t) : OnlyMarks s t.enterReady := grantMoment (h.keep (by simp))

theorem cmdSlotClear (h : OnlyMarks s t) : OnlyMarks s t.cmdSlotClear := by
  have hrefuse : ∀ r, OnlyMarks s (t.refuseCommand 0x14 r) := fun r => h.keep
  unfold State.cmdSlotClear
  split
  · exact hrefuse _
  · split
    · exact hrefuse _
    · split
      · exact hrefuse _
      · split
        · exact hrefuse _
        · exact raiseClear (h.keep (by simp))

theorem portRead (h : OnlyMarks s t) : OnlyMarks s t.portRead := by
  have hstart : OnlyMarks s t.startRead := by
    unfold State.startRead
    split
    · exact raisePort (h.keep (by rfl))
    · exact h.keep
  unfold State.portRead
  split
  case h_1 | h_2 => exact hstart
  all_goals exact h.keep

theorem portFlush (h : OnlyMarks s t) : OnlyMarks s t.portFlush := by
  have hstart : OnlyMarks s t.startFlush := by
    unfold State.startFlush
    split
    · exact h.keep
    · split
      · unfold State.takeFlush
        exact raisePort (h.keep (by rfl))
      · exact h.keep
  unfold State.portFlush
  split
  · exact h
  · exact hstart
  all_goals exact h.keep

end OnlyMarks

/-! ### From the channels to the machine -/

section

variable {s t : State} {n : Fin 4}

theorem fillOk_of_mark {ch ch' : InputChannel} (h : ch' = ch ∨ ch' = ch.markInFlight) (hok : ch.fillOk) : ch'.fillOk := by
  rcases h with rfl | rfl
  · exact hok
  · exact (InputChannel.SameFill.markInFlight ch).fillOk hok

theorem OnlyMarks.fillsOk (h : OnlyMarks s t) (hok : s.fillsOk) : t.fillsOk := fun k => fillOk_of_mark (h k) (hok k)

/-- A command of one input keeps all fill contexts in order when it keeps that input's. -/
theorem ActsOn.fillsOk (h : ActsOn n s t) (hok : s.fillsOk) (hn : (t.input n).fillOk) : t.fillsOk := fun k => by
  by_cases hk : k = n
  · exact hk ▸ hn
  · exact fillOk_of_mark (h.others k hk) (hok k)

/-! ### Messages of the push link and the loss timer (chapter 2) -/

/-- A change of counters, LOST, STOP_MODE, a pending stop or the last refusal. -/
theorem contained_of_eq {ch ch' : InputChannel} (h : ch.Contained) (hfill : ch'.fill = ch.fill := by rfl)
    (hcfg : ch'.cfg = ch.cfg := by rfl) (hprogress : ch'.progress = ch.progress := by rfl) : ch'.Contained where
  entries := hfill ▸ h.entries
  range := hcfg ▸ h.range
  budget := by rw [hfill, hcfg, hprogress]; exact h.budget

theorem input_broken (s : State) (n : Fin 4) : (s.broken n).input n = (s.input n).count .framesBroken := by
  simp [State.broken, State.countIn]

theorem fillsOk_takeFrameStart (h : s.fillsOk) (hs : (s.input n).state = .armed ∨ (s.input n).state = .skipping)
    (tag : Option Word) : (s.takeFrameStart n tag).fillsOk := by
  refine (ActsOn.refl s).takeFrameStart.fillsOk h (fillOk_takeFrameStart ?_ ?_ tag)
  · exact (h n).contained (by rcases hs with hs | hs <;> simp [hs])
  · exact (h n).allClosed (by rcases hs with hs | hs <;> simp [hs])

theorem fillsOk_frameStartFilling (h : s.fillsOk) (hs : (s.input n).state = .filling) (tag : Option Word) :
    (s.frameStartFilling n tag).fillsOk := by
  refine (ActsOn.refl s).frameStartFilling.fillsOk h ?_
  have hc : ((s.broken n).input n).Contained := by
    rw [input_broken]
    exact contained_of_eq ((h n).contained (by simp [hs]))
  obtain ⟨hc', hclosed, -⟩ := closeFrame_closed hc .discard false
  unfold State.frameStartFilling
  dsimp only
  split
  · exact fillOk_stopCompletion hc' hclosed
  · exact fillOk_takeFrameStart hc' hclosed tag

theorem fillsOk_lineFilling (h : s.fillsOk) (hs : (s.input n).state = .filling) (e : FrameEntry) (payload : List Word) :
    (s.lineFilling n e payload).fillsOk := by
  refine (ActsOn.refl s).lineFilling.fillsOk h ?_
  have hc := (h n).contained (by simp [hs])
  have hbroken : ((s.broken n).input n).Contained := by rw [input_broken]; exact contained_of_eq hc
  have hover : (((s.countIn n .linesOverflowed).raiseIn n .lineOverflow).input n).Contained := by
    rw [State.input_raiseIn, State.countIn, State.input_modInput, if_pos rfl]
    exact contained_of_eq hc
  unfold State.lineFilling
  dsimp only
  split
  · exact fillOk_endFrame hbroken (.inr rfl) _ _
  · split
    · exact fillOk_endFrame hbroken (.inr rfl) _ _
    · split
      · exact fillOk_endFrame hover (.inr rfl) _ _
      · refine (sameFill_raiseWrite _ n).fillOk ?_
        rw [State.input_modInput, if_pos rfl]
        exact (InputChannel.SameFill.acceptLine _ e payload).fillOk (h n)

theorem fillsOk_frameEndFilling (h : s.fillsOk) (hs : (s.input n).state = .filling) (e : FrameEntry) :
    (s.frameEndFilling n e).fillsOk := by
  refine (ActsOn.refl s).frameEndFilling.fillsOk h ?_
  have hc := (h n).contained (by simp [hs])
  have hbroken : ((s.broken n).input n).Contained := by rw [input_broken]; exact contained_of_eq hc
  unfold State.frameEndFilling
  split
  · exact fillOk_endFrame hc (.inl rfl) _ _
  · split
    · exact fillOk_endFrame hc (.inl rfl) _ _
    · exact fillOk_endFrame hbroken (.inl rfl) _ _

/-- A channel that hears messages and has no OPEN entry may enter ARMED. -/
theorem fillOk_arm {ch ch' : InputChannel} (h : ch.fillOk) (hoff : ch.state ≠ .off) (hfilling : ch.state ≠ .filling)
    (hstate : ch'.state = .armed := by rfl) (hfill : ch'.fill = ch.fill := by rfl) (hcfg : ch'.cfg = ch.cfg := by rfl)
    (hprogress : ch'.progress = ch.progress := by rfl) : ch'.fillOk :=
  (contained_of_eq (h.contained hoff) hfill hcfg hprogress).fillOk_of_listening
    (fun e he => h.allClosed hfilling e (hfill ▸ he)) (.inl hstate)

theorem fillsOk_signalLost (h : s.fillsOk) {start : Word} (ht : (s.input n).lossTimer = some start) :
    (s.signalLost n).fillsOk := by
  refine (ActsOn.refl s).signalLost.fillsOk h ?_
  have hlistens := (h n).timer (by simp [ht])
  unfold State.signalLost
  dsimp only
  split
  next hs =>
    refine fillOk_endFrame ?_ (.inl rfl) _ _
    rw [input_broken, State.input_raiseIn, State.countIn, State.input_modInput, if_pos rfl, State.input_modInput, if_pos rfl]
    exact contained_of_eq ((h n).contained (by simp [hs]))
  next hs =>
    rw [State.input_modInput, if_pos rfl, State.input_raiseIn, State.countIn, State.input_modInput, if_pos rfl,
      State.input_modInput, if_pos rfl]
    refine fillOk_arm (h n) ?_ hs
    rcases hlistens with hs | hs | hs <;> simp [hs]

/-! ### Writes of the input registers (R12, R25, R26) -/

theorem fillsOk_stopCompletion (h : s.fillsOk) (hoff : (s.input n).state ≠ .off) (hfilling : (s.input n).state ≠ .filling) :
    (s.stopCompletion n).fillsOk :=
  (ActsOn.refl s).stopCompletion.fillsOk h
    (fillOk_stopCompletion ((h n).contained hoff) ((h n).allClosed hfilling))

theorem fillsOk_stopNow (h : s.fillsOk) (hoff : (s.input n).state ≠ .off) : (s.stopNow n).fillsOk := by
  unfold State.stopNow
  dsimp only
  split
  next hs =>
    refine (ActsOn.refl s).countIn.closeFrame.stopCompletion.fillsOk h ?_
    have hc : ((s.countIn n .discardedByStop).input n).Contained := by
      rw [State.countIn, State.input_modInput, if_pos rfl]
      exact contained_of_eq ((h n).contained hoff)
    obtain ⟨hc', hclosed, -⟩ := closeFrame_closed hc .discard false
    exact fillOk_stopCompletion hc' hclosed
  next hs => exact fillsOk_stopCompletion h hoff hs

theorem fillsOk_stopAtEnd (h : s.fillsOk) (hoff : (s.input n).state ≠ .off) : (s.stopAtEnd n).fillsOk := by
  unfold State.stopAtEnd
  split
  · refine (ActsOn.refl s).modInput.fillsOk h ?_
    rw [State.input_modInput, if_pos rfl]
    exact InputChannel.SameFill.fillOk {} (h n)
  next hs => exact fillsOk_stopCompletion h hoff hs

theorem fillsOk_tryEnable (h : s.fillsOk) (hoff : (s.input n).state = .off) : (s.tryEnable n).fillsOk := by
  refine (ActsOn.refl s).tryEnable.fillsOk h ?_
  unfold State.tryEnable
  split
  · rw [State.input_modInput, if_pos rfl]
    have hnil := (h n).off hoff
    exact InputChannel.Contained.fillOk_of_listening
      ⟨by simp [hnil], (h n).range, by simp [hnil]⟩ (by simp [InputChannel.AllClosed, hnil]) (.inl rfl)
  · rw [State.input_raiseIn, State.input_modInput, if_pos rfl]
    exact InputChannel.SameFill.fillOk {} (h n)

theorem fillsOk_writeDisable (h : s.fillsOk) (mode : StopMode) : (s.writeDisable n mode).fillsOk := by
  have hstop : (s.input n).state ≠ .off → (if (s.input n).stopPending then s else
      match mode with
      | .immediate => s.stopNow n
      | .atFrameEnd => s.stopAtEnd n).fillsOk := fun hoff => by
    split
    · exact h
    · cases mode with
      | immediate => exact fillsOk_stopNow h hoff
      | atFrameEnd => exact fillsOk_stopAtEnd h hoff
  unfold State.writeDisable
  split
  case h_1 hs | h_2 hs | h_3 hs => exact hstop (by simp [hs])
  all_goals exact h

theorem fillsOk_writeEnable (h : s.fillsOk) : (s.writeEnable n).fillsOk := by
  have hignored : s.configIgnored.fillsOk := ((OnlyMarks.refl s).keep).fillsOk h
  have hrunning : (if (s.input n).stopPending then s.configIgnored else s).fillsOk := by
    split
    · exact hignored
    · exact h
  unfold State.writeEnable
  split
  case h_1 hs => exact fillsOk_tryEnable h hs
  case h_2 | h_3 | h_4 => exact hrunning
  case h_5 => exact hignored
  case h_6 => exact h

theorem fillsOk_writeInCtrl (h : s.fillsOk) (enable : Bool) (mode : StopMode) : (s.writeInCtrl n enable mode).fillsOk := by
  have hmode : (s.modInput n fun ch => { ch with stopMode := mode }).fillsOk := by
    refine (ActsOn.refl s).modInput.fillsOk h ?_
    rw [State.input_modInput, if_pos rfl]
    exact InputChannel.SameFill.fillOk {} (h n)
  unfold State.writeInCtrl
  split
  · exact ((OnlyMarks.refl s).keep).fillsOk h
  · dsimp only
    split
    · exact fillsOk_writeEnable hmode
    · exact fillsOk_writeDisable hmode mode

/-- A configuration write leaves the budget within 16 bits (R25). -/
theorem inConfigWrite_budget {cfg cfg' : InConfig} {reg : InConfigReg} {w : Word} (hle : cfg.budget ≤ 65535)
    (h : inConfigWrite cfg reg w = some cfg') : cfg'.budget ≤ 65535 := by
  cases reg with
  | geom | cfg =>
    simp only [inConfigWrite, Option.ite_none_right_eq_some, Option.some.injEq] at h
    obtain ⟨_, rfl⟩ := h
    exact hle
  | budget => cases h; exact Nat.le_of_lt_succ (field_lt w 0 16)
  | loss => cases h; exact hle

theorem input_trimReady (s : State) (n : Fin 4) (quota : Nat) :
    (s.trimReady n quota).input n =
      (s.input n).countEvicted ((s.sm.excess n quota).countP fun k => !(s.sm.slot k).viewed) := by
  rw [State.trimReady, State.input_modInput, if_pos rfl]
  rfl

theorem fillsOk_writeInConfig (h : s.fillsOk) (reg : InConfigReg) (w : Word) : (s.writeInConfig n reg w).fillsOk := by
  have hignored : s.configIgnored.fillsOk := ((OnlyMarks.refl s).keep).fillsOk h
  unfold State.writeInConfig
  split
  next hoff =>
    split
    · exact hignored
    next cfg hcfg =>
      have htimer : (s.input n).lossTimer = none := not_not.1 (mt (h n).timer (by simp [hoff]))
      have hok : ∀ ch : InputChannel, (∃ counters, ch = { s.input n with cfg := cfg, counters := counters }) → ch.fillOk := by
        rintro _ ⟨counters, rfl⟩
        exact InputChannel.fillOk_of_off hoff ((h n).off hoff) (inConfigWrite_budget (h n).range hcfg) htimer
      dsimp only
      split
      · refine (ActsOn.refl s).modInput.trimReady.fillsOk h (hok _ ?_)
        rw [input_trimReady, State.input_modInput, if_pos rfl]
        exact ⟨_, rfl⟩
      · refine (ActsOn.refl s).modInput.fillsOk h (hok _ ⟨(s.input n).counters, ?_⟩)
        rw [State.input_modInput, if_pos rfl]
  next => exact hignored

/-! ### Line writes and channel resets (R42, R47, R48) -/

theorem fillsOk_finishReset (h : s.fillsOk) (hs : (s.input n).state = .resetting) : (s.finishReset n).fillsOk := by
  refine (ActsOn.refl s).finishReset.fillsOk h ?_
  rw [State.finishReset, State.input_modInput, if_pos rfl]
  exact InputChannel.fillOk_of_off rfl rfl (h n).range (not_not.1 (mt (h n).timer (by simp [hs])))

theorem fillsOk_inputWriteDone (h : s.fillsOk) : (s.inputWriteDone n).fillsOk := by
  unfold State.inputWriteDone
  split
  next hs => exact fillsOk_finishReset h hs
  · have hwritten : (s.modInput n InputChannel.lineWritten).fillsOk := by
      refine (ActsOn.refl s).modInput.fillsOk h ?_
      rw [State.input_modInput, if_pos rfl]
      exact (InputChannel.SameFill.lineWritten _).fillOk (h n)
    generalize s.modInput n InputChannel.lineWritten = u at hwritten
    have hsettled : (u.settle n).fillsOk := (ActsOn.refl u).settle.fillsOk hwritten
      ((u.left_settle n).fillOk State.input_settle_of_nil (hwritten n))
    refine (OnlyMarks.refl _).raiseWrite.fillsOk ?_
    unfold State.finishStopping
    split
    next hs => exact fillsOk_stopCompletion hsettled (by simp [hs]) (by simp [hs])
    · exact hsettled

theorem fillsOk_lineWriteDone (h : s.fillsOk) (r : MemRequest) : (s.lineWriteDone r).fillsOk := by
  have hstored : (s.storeWords r).fillsOk := ((OnlyMarks.refl s).keep).fillsOk h
  unfold State.lineWriteDone
  split
  · exact fillsOk_inputWriteDone hstored
  · exact hstored

theorem fillsOk_resetInput (h : s.fillsOk) (n : Fin 4) : (s.resetInput n).fillsOk := by
  refine (ActsOn.refl s).resetInput.fillsOk h ?_
  unfold State.resetInput
  dsimp only
  split
  · rw [State.input_setInput, if_pos rfl]
    exact InputChannel.SameFill.fillOk {} (h n)
  next hs =>
    rw [State.input_setInput, if_pos rfl]
    cases s.inFlight (.input n) with
    | false => exact InputChannel.fillOk_of_off rfl rfl (h n).range rfl
    | true =>
      have hdiscard : ((s.input n).fill.map fun e => { e with status := .closed .discard }).countP
          FrameEntry.countsForBudget = 0 := by
        rw [List.countP_map]
        exact List.countP_eq_zero.2 fun e _ => by simp [FrameEntry.countsForBudget]
      refine InputChannel.Contained.fillOk_of_closed ⟨?_, (h n).range, fun _ => ?_⟩ ?_ nofun nofun (absurd rfl)
      · exact (List.length_map _).trans_le (h n).entries
      · exact (Nat.add_le_add_left hdiscard.le _).trans (Nat.zero_le _)
      · intro e he
        obtain ⟨x, -, rfl⟩ := List.mem_map.1 he
        rfl

theorem fillsOk_resetInputs (h : s.fillsOk) (ns : List (Fin 4)) : (s.resetInputs ns).fillsOk := by
  induction ns generalizing s with
  | nil => exact h
  | cons n ns ih => exact ih (fillsOk_resetInput h n)

theorem fillsOk_of_reset (hin : t.inputs = State.reset.inputs) : t.fillsOk := fun n => by
  rw [State.input_of_reset hin]
  exact InputChannel.fillOk_of_off rfl rfl (by decide) rfl

/-! ### Every step -/

theorem fillsOk_cmdSlotPublish (h : s.fillsOk) : s.cmdSlotPublish.fillsOk := by
  have hrefuse : ∀ r, (s.refuseCommand 0x13 r).fillsOk := fun r => ((OnlyMarks.refl s).keep).fillsOk h
  unfold State.cmdSlotPublish
  split
  · exact hrefuse _
  · split
    · exact hrefuse _
    · split
      · exact hrefuse _
      · split
        · exact hrefuse _
        · split
          · exact hrefuse _
          next a _ _ _ _ =>
            have hpublished : (s.publishSlot a.input a.slot fun r => r.published a).fillsOk := by
              refine (ActsOn.refl s).publishSlot.fillsOk h ?_
              rcases s.input_publishSlot a.input a.slot fun r => r.published a with hin | hin <;> rw [hin]
              · exact h a.input
              · exact InputChannel.SameFill.fillOk {} (h a.input)
            exact ((OnlyMarks.refl _).keep).fillsOk hpublished

theorem fillsOk_commandEffect (h : s.fillsOk) (e : CommandEffect s t) : t.fillsOk := by
  cases e with
  | slotPublish => exact fillsOk_cmdSlotPublish h
  | slotClear => exact (OnlyMarks.refl s).cmdSlotClear.fillsOk h
  | memoryInit | poolBuild | poolTeardown | slotClaim | slotHold | slotRelease | inputFlush | unknown =>
    exact ((OnlyMarks.refl s).keep).fillsOk h

theorem fillsOk_clearCounter (h : s.fillsOk) (c : CounterName) : (s.clearCounter c).fillsOk := by
  unfold State.clearCounter
  split
  · refine (ActsOn.refl s).modInput.fillsOk h ?_
    rw [State.input_modInput, if_pos rfl]
    exact InputChannel.SameFill.fillOk {} (h _)
  all_goals exact ((OnlyMarks.refl s).keep).fillsOk h

theorem fillsOk_hostEffect (h : s.fillsOk) (e : HostEffect s t) : t.fillsOk := by
  have hrefl := OnlyMarks.refl s
  cases e with
  | ignored => exact h
  | command _ e => exact fillsOk_commandEffect h e
  | portRead => exact hrefl.portRead.fillsOk h
  | portFlush => exact hrefl.portFlush.fillsOk h
  | writeInCtrl n enable mode => exact fillsOk_writeInCtrl h enable mode
  | writeInConfig n reg w => exact fillsOk_writeInConfig h reg w
  | clearCounter c => exact fillsOk_clearCounter h c
  | softReset => exact fillsOk_of_reset rfl
  | channelResets ns ms => exact ((OnlyMarks.refl _).keep).fillsOk (fillsOk_resetInputs h ns)
  | overrun | arguments | portDiscard | readAccData | writeAccData | writeAccAddr | writeAccCount | writeOutConfig
  | writeGeometry | writeMcCfg | writeMcRefresh | writeArbCfg | clearEvents | writeEnables | captureRecord | captureList =>
    exact ((OnlyMarks.refl s).keep).fillsOk h

theorem fillsOk_effect (h : s.fillsOk) (e : Effect s t) : t.fillsOk := by
  have hrefl := OnlyMarks.refl s
  have hend := hrefl.keep (u := s.endExec)
  cases e with
  | idle => exact h
  | hostEffect _ e => exact fillsOk_hostEffect h e
  | takeFrameStart n tag hs => exact fillsOk_takeFrameStart h hs tag
  | frameStartFilling n tag hs => exact fillsOk_frameStartFilling h hs tag
  | stray n =>
    refine (ActsOn.refl s).stray.fillsOk h ?_
    rw [State.stray, State.input_raiseIn, State.countIn, State.input_modInput, if_pos rfl]
    exact InputChannel.SameFill.fillOk {} (h n)
  | lineFilling n e payload hs => exact fillsOk_lineFilling h hs e payload
  | frameEndFilling n e hs => exact fillsOk_frameEndFilling h hs e
  | frameEndSkipping n hs =>
    refine (ActsOn.refl s).modInput.fillsOk h ?_
    rw [State.input_modInput, if_pos rfl]
    exact fillOk_arm (h n) (by simp [hs]) (by simp [hs])
  | signalLost n start ht => exact fillsOk_signalLost h ht
  | select m => exact hrefl.select.fillsOk h
  | reopen m => exact ((hrefl.keep).select).fillsOk h
  | pullLine m f => exact hrefl.pullLine.fillsOk h
  | refreshExpired => exact hrefl.refreshExpired.fillsOk h
  | enterReady => exact hrefl.enterReady.fillsOk h
  | lineWriteDone r => exact (OnlyMarks.refl _).afterDelivery.fillsOk (fillsOk_lineWriteDone (hend.fillsOk h) r)
  | lineReadDone r => exact hend.lineReadDone.afterDelivery.fillsOk h
  | blockReadDone r | blockWriteDone r | refreshDone e => exact (hend.keep).afterDelivery.fillsOk h
  | clearWriteDone r => exact hend.clearWriteDone.afterDelivery.fillsOk h
  | orphanDone r => exact hend.orphanDone.afterDelivery.fillsOk h
  | pinReset => exact fillsOk_of_reset rfl
  | heldRead | answerOffline | openDisabling | pullClosed | overpull | pullBlank | closeIdle | closeShowing | closeDisabling
  | nextStage | advanceTime | loseCharge | deassert =>
    exact ((OnlyMarks.refl s).keep).fillsOk h

end

/-- Settles O13: an effect of a step either changes no input but by a mark, or acts on one input by the rules about its fill
context. -/
theorem fillContextsKept : Obligations.FillContextsKept := by
  intro s t h hstep
  obtain ⟨rest, heffect⟩ := step_effect hstep
  exact fillsOk_effect (s := { s with pending := rest }) h heffect

end Sys2Proof.Machine
end

