-- ==== Sys2Proof/Proofs/PushLink.lean ====
section
/-! The messages of the push link and the loss timer, by the state that they find their channel in (chapter 2). -/

namespace Sys2Proof.Machine

-- One theorem after another, as in the tests: many of them at once would need a thread each.
set_option Elab.async false

section

variable {s : State} {n : Fin 4}

/-! ### Updates in one go -/

theorem stray_eq (s : State) (n : Fin 4) : s.stray n =
    ({ s with eu := s.eu.setBits (.input n) 0x100 } : State).setInput n ((s.input n).count .stray) := rfl

theorem broken_eq (s : State) (n : Fin 4) : s.broken n =
    ({ s with eu := s.eu.setBits (.input n) 0x004 } : State).setInput n ((s.input n).count .framesBroken) := rfl

theorem modInput_setInput (s : State) (n : Fin 4) (ch : InputChannel) (f : InputChannel → InputChannel) :
    (s.setInput n ch).modInput n f = s.setInput n (f ch) := by
  rw [State.modInput, State.setInput_setInput, State.input_setInput, if_pos rfl]

/-! ### What each message comes to -/

theorem exec_frameStart_of_listening (h : (s.input n).state = .armed ∨ (s.input n).state = .skipping) (tag : Option Word) :
    exec (.frameStart n tag) s = .next (s.takeFrameStart n tag) := by
  change execFrameStart n tag s = _
  rcases h with h | h <;> simp only [execFrameStart, h]

theorem exec_frameStart_of_filling (h : (s.input n).state = .filling) (tag : Option Word) :
    exec (.frameStart n tag) s = .next (s.frameStartFilling n tag) := by
  change execFrameStart n tag s = _
  simp only [execFrameStart, h]

theorem exec_line_of_armed (h : (s.input n).state = .armed) (payload : List Word) :
    exec (.line n payload) s = .next (s.stray n) := by
  change execLine n payload s = _
  simp only [execLine, h]

theorem exec_line_of_open (h : (s.input n).state = .filling) {e : FrameEntry} (he : (s.input n).openEntry = some e)
    (payload : List Word) : exec (.line n payload) s = .next (s.lineFilling n e payload) := by
  change execLine n payload s = _
  simp only [execLine, h, he]

theorem exec_frameEnd_of_armed (h : (s.input n).state = .armed) : exec (.frameEnd n) s = .next (s.stray n) := by
  change execFrameEnd n s = _
  simp only [execFrameEnd, h]

theorem exec_frameEnd_of_open (h : (s.input n).state = .filling) {e : FrameEntry} (he : (s.input n).openEntry = some e) :
    exec (.frameEnd n) s = .next (s.frameEndFilling n e) := by
  change execFrameEnd n s = _
  simp only [execFrameEnd, h, he]

theorem exec_frameEnd_of_skipping (h : (s.input n).state = .skipping) :
    exec (.frameEnd n) s = .next (s.setInput n { s.input n with state := .armed }) := by
  change execFrameEnd n s = _
  simp only [execFrameEnd, h]
  rfl

/-- A channel that hears nothing drops every message (R24). -/
theorem exec_of_deaf (h : (s.input n).state = .off ∨ (s.input n).state = .stopping ∨ (s.input n).state = .resetting)
    (tag : Option Word) (payload : List Word) :
    exec (.frameStart n tag) s = .next s ∧ exec (.line n payload) s = .next s ∧ exec (.frameEnd n) s = .next s := by
  change execFrameStart n tag s = _ ∧ execLine n payload s = _ ∧ execFrameEnd n s = _
  rcases h with h | h | h <;> simp only [execFrameStart, execLine, execFrameEnd, h, and_self]

end

/-- Settles O36: the state that a message finds its channel in decides. -/
theorem messagesWithoutFrame : Obligations.MessagesWithoutFrame := by
  refine ⟨fun n s h => exec_frameEnd_of_skipping h, fun n tag payload s => ⟨fun h => ?_, fun h => ?_, fun h => ?_⟩⟩
  · rw [exec_line_of_armed h, exec_frameEnd_of_armed h, stray_eq]
    exact ⟨rfl, rfl⟩
  · change execLine n payload s = _
    simp only [execLine, h]
  · exact exec_of_deaf h tag payload

/-! ### The close of the open entry (R32, R41) -/

/-- A line of another entry, or one whose write is in flight, stays at the head. -/
theorem dropLines_of_kept {e : FrameEntry} {l : FifoLine} (h : l.slot ≠ e.slot ∨ e.writeInFlight = true)
    (rest : List FifoLine) : dropLines e (l :: rest) = l :: rest.filter fun x => x.slot ≠ e.slot := by
  refine if_neg fun hdrop => ?_
  simp only [Bool.and_eq_true, decide_eq_true_eq, Bool.not_eq_true'] at hdrop
  obtain ⟨hslot, hflight⟩ := hdrop
  rcases h with h | h
  · exact h hslot
  · simp [h] at hflight

theorem dropLines_of_dropped {e : FrameEntry} {l : FifoLine} (hslot : l.slot = e.slot) (hflight : e.writeInFlight = false)
    (rest : List FifoLine) : dropLines e (l :: rest) = rest.filter fun x => x.slot ≠ e.slot :=
  if_pos (by simp [hslot, hflight])

theorem headDropped_cons {ch : InputChannel} {e : FrameEntry} {l : FifoLine} {rest : List FifoLine} (h : ch.fifo = l :: rest) :
    ch.headDropped e = (decide (l.slot = e.slot) && !e.writeInFlight) := by
  rw [InputChannel.headDropped, h]

/-- Settles O31: the close of the entry with its four cases of the line at the FIFO head. -/
theorem closeOfOpenEntry : Obligations.CloseOfOpenEntry := by
  intro s n older e short hfill holder hopen
  have he := e.not_isClosed_iff.2 hopen
  have hclose := fun v => State.closeOpen_of_some (InputChannel.openEntry_append hfill holder he) v short
  have hentry := fun v => InputChannel.closeEntry_append hfill holder he v short
  refine ⟨?_, fun l rest hfifo hkept => ?_, fun l rest hfifo hslot hflight => ?_, fun hfifo => ?_⟩
  all_goals rw [hclose, hentry]
  · rfl
  · have hhead : (s.input n).headDropped e = false := by
      rw [headDropped_cons hfifo]
      rcases hkept with h | h <;> simp [h]
    simp only [hhead, hfifo, dropLines_of_kept hkept, Bool.and_false, Bool.false_eq_true, if_false, if_true]
    rfl
  · have hhead : (s.input n).headDropped e = true := by
      rw [headDropped_cons hfifo]
      simp [hslot, hflight]
    simp only [hhead, hfifo, dropLines_of_dropped hslot hflight, decide_true, Bool.and_true, if_true]
    rfl
  · have hhead : (s.input n).headDropped e = false := by rw [InputChannel.headDropped, hfifo]
    simp only [hhead, hfifo, dropLines, Bool.and_false, Bool.false_eq_true, if_false, if_true]
    rw [← hfifo]
    rfl

/-! ### Lines in an open frame (R33, R34) -/

/-- The accepted line joins the OPEN entry behind CLOSED ones. -/
theorem acceptLine_append {ch : InputChannel} {older : List FrameEntry} {e : FrameEntry} (hfill : ch.fill = older ++ [e])
    (holder : ∀ x ∈ older, x.isClosed = true) (he : e.isClosed = false) (payload : List Word) :
    ch.acceptLine e payload = { ch with
      fifo := ch.fifo ++ [⟨e.slot, e.received, payload⟩]
      fill := older ++ [{ e with received := e.received + 1 }] } := by
  have hmap : (older.map fun x => if x.status = .opened then { x with received := x.received + 1 } else x) = older := by
    conv_rhs => rw [← List.map_id older]
    exact List.map_congr_left fun x hx => if_neg (x.isClosed_iff.1 (holder x hx))
  simp [InputChannel.acceptLine, hfill, hmap, e.not_isClosed_iff.1 he]

/-- Settles O33: none of the checks fails. -/
theorem lineAccepted : Obligations.LineAccepted := by
  intro n payload older e s hstate hfill holder hopen hlength hcount hroom
  have he := e.not_isClosed_iff.2 hopen
  rw [exec_line_of_open hstate (InputChannel.openEntry_append hfill holder he)]
  simp only [State.lineFilling, hlength, ne_eq, not_true_eq_false, if_false, Nat.not_le.2 hcount, Config.lineFifoPlaces,
    Nat.not_le.2 hroom]
  rw [State.modInput, acceptLine_append hfill holder he]

/-! ### The end of an open frame (R36) -/

theorem endFrame_eq (s : State) (n : Fin 4) (st : InState) (v : Verdict) (short : Bool) :
    s.endFrame n st v short =
      if (s.input n).stopPending then ((s.modInput n fun ch => { ch with state := st }).closeFrame n v short).stopCompletion n
      else (s.modInput n fun ch => { ch with state := st }).closeFrame n v short := rfl

theorem stopPending_broken (s : State) (n : Fin 4) : ((s.broken n).input n).stopPending = (s.input n).stopPending := by
  rw [input_broken]
  rfl

/-- Settles O35: the three verdicts are those that the message's meaning tests. -/
theorem frameEndVerdict : Obligations.FrameEndVerdict := by
  intro n older e s closed hstate hfill holder hopen hle hverdict
  have he := e.not_isClosed_iff.2 hopen
  rw [exec_frameEnd_of_open hstate (InputChannel.openEntry_append hfill holder he), State.frameEndFilling]
  rcases hverdict with ⟨hall, rfl⟩ | ⟨hsome, hlt, hkeep, rfl⟩ | ⟨hlt, hbroken, rfl⟩
  · rw [if_pos hall, endFrame_eq]
  · rw [if_neg hlt.ne, if_pos (by simp [hsome, hlt, hkeep]), endFrame_eq]
  · have hnot : ¬ (decide (1 ≤ e.received) && decide (e.received < e.expected) && (s.input n).cfg.keepShort) = true := by
      rcases hbroken with h | h <;> simp [h]
    rw [if_neg hlt.ne, if_neg hnot, endFrame_eq, stopPending_broken]

/-! ### The start of a frame (R30, R31, R51 to R56) -/

section

variable (s : State) (n : Fin 4)

/-- LOST and the loss timer at a frame's start (R30, R40). -/
theorem frameFound_eq : (s.modInput n fun ch => ch.restartLossTimer s.timeBase).signalFound n =
    ({ s with eu := if (s.input n).lost then s.eu.setBits (.input n) 0x080 else s.eu } : State).setInput n { s.input n with
      lossTimer := if (s.input n).cfg.lossTimeout = 0 then (s.input n).lossTimer else some s.timeBase, lost := false } := by
  unfold State.signalFound
  rw [State.input_modInput, if_pos rfl, InputChannel.restartLossTimer_eq]
  cases hlost : (s.input n).lost with
  | true =>
    rw [if_pos rfl, if_pos rfl, State.modInput, State.modInput, State.setInput_setInput, State.input_setInput, if_pos rfl,
      InputChannel.restartLossTimer_eq]
    rfl
  | false =>
    rw [if_neg Bool.false_ne_true, if_neg Bool.false_ne_true, State.modInput, InputChannel.restartLossTimer_eq, ← hlost]

/-- Admission with a slot, and a skip, give the channel a new state whatever it was. -/
theorem allocate_enterState (st : InState) (tag : Option Word) (k : Nat) :
    (s.modInput n fun ch => { ch with state := st }).allocate n tag k = s.allocate n tag k := by
  simp [State.allocate, State.modInput, State.setInput, State.inputs_getElem]

theorem skip_enterState (st : InState) (c : InCounter) :
    (s.modInput n fun ch => { ch with state := st }).skip n c = s.skip n c := by
  simp [State.skip, State.countIn, State.modInput, InputChannel.count]

theorem reclaim_eq (k : Nat) : s.reclaim n k =
    ({ s with sm := s.sm.setReady n ((s.sm.readyOf n).erase k) } : State).setInput n
      (if (s.sm.slot k).viewed then (s.input n).count .reclaimed
        else ((s.input n).count .reclaimed).count .evictedUnviewed) := by
  unfold State.reclaim
  dsimp only
  split
  · rfl
  · exact modInput_setInput _ n _ fun ch => ch.count .evictedUnviewed

theorem reclaim_enterState (st : InState) (k : Nat) :
    (s.modInput n fun ch => { ch with state := st }).reclaim n k =
      (s.reclaim n k).modInput n fun ch => { ch with state := st } := by
  rw [reclaim_eq, reclaim_eq, modInput_setInput, State.input_modInput, if_pos rfl]
  refine (State.setInput_setInput { s with sm := s.sm.setReady n ((s.sm.readyOf n).erase k) } n _ _).trans
    (congrArg (State.setInput _ n) ?_)
  change (if (s.sm.slot k).viewed then _ else _) = _
  split <;> rfl

theorem admitFrame_enterState (st : InState) (tag : Option Word) :
    (s.modInput n fun ch => { ch with state := st }).admitFrame n tag = s.admitFrame n tag := by
  have hbudget : ((s.modInput n fun ch => { ch with state := st }).input n).budgetFull = (s.input n).budgetFull := by
    rw [State.input_modInput, if_pos rfl]; rfl
  have hroom : ((s.modInput n fun ch => { ch with state := st }).input n).backlogged = (s.input n).backlogged := by
    rw [State.input_modInput, if_pos rfl]; rfl
  have hsm : (s.modInput n fun ch => { ch with state := st }).sm = s.sm := rfl
  unfold State.admitFrame
  simp only [hbudget, hroom, hsm, skip_enterState, reclaim_enterState, allocate_enterState]
  split
  · rfl
  · split
    · rfl
    · split
      next k rest _ => exact allocate_enterState { s with sm := { s.sm with free := rest } } n st tag k
      next => rfl

/-- A frame's start leaves nothing of the state that it finds the channel in. -/
theorem takeFrameStart_enterState (st : InState) (tag : Option Word) :
    (s.modInput n fun ch => { ch with state := st }).takeFrameStart n tag = s.takeFrameStart n tag := by
  have hfound : ((s.modInput n fun ch => { ch with state := st }).modInput n
        fun ch => ch.restartLossTimer s.timeBase).signalFound n =
      ((s.modInput n fun ch => ch.restartLossTimer s.timeBase).signalFound n).modInput n
        fun ch => { ch with state := st } := by
    refine (frameFound_eq (s.modInput n fun ch => { ch with state := st }) n).trans ?_
    rw [State.input_modInput, if_pos rfl, frameFound_eq, modInput_setInput]
    exact State.setInput_setInput { s with eu := if (s.input n).lost then s.eu.setBits (.input n) 0x080 else s.eu } n
      { s.input n with state := st } _
  unfold State.takeFrameStart
  exact (congrArg (State.admitFrame · n tag) hfound).trans (admitFrame_enterState _ n st tag)

end

/-- Settles O30: after the close the message is taken whatever the state, so as in ARMED. -/
theorem frameStartInFilling : Obligations.FrameStartInFilling := by
  intro n tag s hstate
  rw [exec_frameStart_of_filling hstate, State.frameStartFilling]
  refine ⟨fun hstop => ?_, fun hstop => ?_⟩
  · rw [hstop, if_pos rfl]
  · rw [hstop, if_neg Bool.false_ne_true,
      exec_frameStart_of_listening (.inl (by rw [State.input_modInput, if_pos rfl])), takeFrameStart_enterState]

section

variable {s : State} {n : Fin 4}

/-- A frame is admitted to a channel with room in its budget and fewer than two CLOSED entries, at the free-list head or,
without one, at the reclaimable entry (R52 to R55). -/
theorem admitFrame_of_room (hbudget : (s.input n).cfg.budget = 0 ∨
      (s.input n).progress.toNat + (s.input n).fill.countP FrameEntry.countsForBudget < (s.input n).cfg.budget)
    (hroom : (s.input n).fill.countP FrameEntry.isClosed < 2) (tag : Option Word) (k : Nat) :
    (∀ rest, s.sm.free = k :: rest →
      s.admitFrame n tag = { s with sm := { s.sm with free := rest } }.allocate n tag k) ∧
    (s.sm.free = [] → s.sm.reclaimable n = some k → s.admitFrame n tag = (s.reclaim n k).allocate n tag k) := by
  have hbudget' : ¬ (s.input n).budgetFull = true := by
    simp only [InputChannel.budgetFull, Bool.and_eq_true, decide_eq_true_eq]
    omega
  have hroom' : ¬ (s.input n).backlogged = true := by
    simp only [InputChannel.backlogged, decide_eq_true_eq]
    omega
  rw [State.admitFrame, if_neg hbudget', if_neg hroom']
  exact ⟨fun rest hfree => by simp only [hfree], fun hfree hk => by simp only [hfree, hk]⟩

end

theorem allocate_setInput (s : State) (n : Fin 4) (ch : InputChannel) (tag : Option Word) (k : Nat) :
    (s.setInput n ch).allocate n tag k =
      ({ s with sm := s.sm.modSlot k fun r => r.allocated n ch.cfg.lineLength tag } : State).setInput n
        { ch with fill := ch.fill ++ [newEntry k ch.cfg.linesPerFrame], state := .filling } := by
  rw [State.allocate, State.input_setInput, if_pos rfl]
  exact modInput_setInput { s with sm := s.sm.modSlot k fun r => r.allocated n ch.cfg.lineLength tag } n ch _

theorem reclaim_setInput (s : State) (n : Fin 4) (ch : InputChannel) (k : Nat) :
    (s.setInput n ch).reclaim n k =
      ({ s with sm := s.sm.setReady n ((s.sm.readyOf n).erase k) } : State).setInput n
        (if (s.sm.slot k).viewed then ch.count .reclaimed else (ch.count .reclaimed).count .evictedUnviewed) := by
  rw [reclaim_eq, State.input_setInput, if_pos rfl]
  exact State.setInput_setInput { s with sm := s.sm.setReady n ((s.sm.readyOf n).erase k) } n ch _

/-- Settles O28: with room, the slot is the free-list head or the reclaimed entry. -/
theorem frameStartAdmits : Obligations.FrameStartAdmits := by
  refine ⟨fun n tag k rest s hstate hbudget hroom hfree => ?_, fun n tag k s hstate hbudget hroom hfree hreclaim => ?_⟩
  all_goals
    rw [exec_frameStart_of_listening hstate, State.takeFrameStart, frameFound_eq]
    refine congrArg Host.Outcome.next ?_
    obtain ⟨hfromFree, hfromReady⟩ := admitFrame_of_room (s := ({ s with
        eu := if (s.input n).lost then s.eu.setBits (.input n) 0x080 else s.eu } : State).setInput n { s.input n with
          lossTimer := if (s.input n).cfg.lossTimeout = 0 then (s.input n).lossTimer else some s.timeBase, lost := false })
      (n := n) (by rw [State.input_setInput, if_pos rfl]; exact hbudget)
      (by rw [State.input_setInput, if_pos rfl]; exact hroom) tag k
  · rw [hfromFree rest hfree]
    exact allocate_setInput { s with sm := { s.sm with free := rest }, eu := _ } n _ tag k
  · rw [hfromReady hfree hreclaim]
    refine (congrArg (State.allocate · n tag k) (reclaim_setInput
      { s with eu := if (s.input n).lost then s.eu.setBits (.input n) 0x080 else s.eu } n _ k)).trans ?_
    refine (allocate_setInput _ n _ tag k).trans ?_
    dsimp only
    cases (s.sm.slot k).viewed
    · rw [if_neg Bool.false_ne_true]
      rfl
    · rw [if_pos rfl]
      rfl

end Sys2Proof.Machine
end

