-- ==== Sys2Proof/Proofs/FramesLost.lean ====
section
/-! Frames that end broken: the loss of the signal and refused lines, and what the push link of one input leaves alone
(R24, R33, R38, R39, R41). -/

namespace Sys2Proof.Machine

-- One theorem after another, as in the tests: many of them at once would need a thread each.
set_option Elab.async false

/-! ### The loss of the signal (R38, R39) -/

section

variable {s : State} {n : Fin 4}

theorem exec_lossTimerExpiry_of_running {start : Word} (ht : (s.input n).lossTimer = some start) :
    exec (.lossTimerExpiry n) s =
      if (s.timeBase - start).toNat < (s.input n).cfg.lossTimeout * 1000 then .refused .timeNotElapsed
      else .next (s.signalLost n) := by
  change execLossTimerExpiry n s = _
  simp only [execLossTimerExpiry, ht]
  rfl

theorem lossNoted_eq (s : State) (n : Fin 4) :
    ((s.modInput n fun ch => { ch with lost := true, lossTimer := none }).countIn n .signalLosses).raiseIn n .signalLost =
      ({ s with eu := s.eu.setBits (.input n) 0x040 } : State).setInput n
        { (s.input n).count .signalLosses with lost := true, lossTimer := none } :=
  congrArg (State.raiseIn · n .signalLost) (modInput_setInput s n _ fun ch => ch.count .signalLosses)

/-- The loss outside FILLING: the channel is ARMED. -/
theorem signalLost_of_no_frame (h : (s.input n).state ≠ .filling) :
    s.signalLost n = ({ s with eu := s.eu.setBits (.input n) 0x040 } : State).setInput n
      { (s.input n).count .signalLosses with state := .armed, lost := true, lossTimer := none } := by
  rw [State.signalLost, if_neg h, lossNoted_eq, modInput_setInput]

/-- The loss in FILLING, up to the close of the open frame. -/
theorem signalLost_of_filling (h : (s.input n).state = .filling) :
    s.signalLost n = (({ s with
        eu := (s.eu.setBits (.input n) 0x040).setBits (.input n) 0x004 } : State).setInput n
      { ((s.input n).count .signalLosses).count .framesBroken with lost := true, lossTimer := none }).endFrame n .armed
        .discard false := by
  rw [State.signalLost, if_pos h, lossNoted_eq]
  exact congrArg (State.endFrame · n .armed .discard false) (modInput_setInput { s with
    eu := (s.eu.setBits (.input n) 0x040).setBits (.input n) 0x004 } n _ fun ch => ch.count .framesBroken)

end

/-- Settles O37: the timer's three cases, and the loss with and without an open frame. -/
theorem lossTimerExpires : Obligations.LossTimerExpires := by
  refine fun n s => ⟨fun ht => ?_, fun start ht => ⟨fun hearly => ?_, fun hdue => ⟨fun hstate => ?_,
    fun hstate closed hclosed => ?_⟩⟩⟩
  · change execLossTimerExpiry n s = _
    simp only [execLossTimerExpiry, ht]
  · rw [exec_lossTimerExpiry_of_running ht, if_pos hearly]
  · rw [exec_lossTimerExpiry_of_running ht, if_neg hdue.not_gt, signalLost_of_no_frame hstate]
  · rw [exec_lossTimerExpiry_of_running ht, if_neg hdue.not_gt, signalLost_of_filling hstate, endFrame_eq,
      modInput_setInput, State.input_setInput, if_pos rfl, hclosed]
    rfl

/-! ### What the push link leaves alone (R24, R41) -/

/-- What a message at INn, or the expiry of its loss timer, does. -/
inductive PushEffect (n : Fin 4) (s : State) : State → Prop
  | dropped : PushEffect n s s
  | stray : PushEffect n s (s.stray n)
  | takeFrameStart (tag : Option Word) : PushEffect n s (s.takeFrameStart n tag)
  | frameStartFilling (tag : Option Word) : PushEffect n s (s.frameStartFilling n tag)
  | lineFilling (e : FrameEntry) (payload : List Word) : PushEffect n s (s.lineFilling n e payload)
  | frameEndFilling (e : FrameEntry) : PushEffect n s (s.frameEndFilling n e)
  | frameEndSkipping : PushEffect n s (s.modInput n fun ch => { ch with state := .armed })
  | signalLost : PushEffect n s (s.signalLost n)

namespace PushEffect

variable {n : Fin 4} {s t : State}

theorem of_frameStart {tag : Option Word} (h : execFrameStart n tag s = .next t) : PushEffect n s t := by
  unfold execFrameStart at h
  split at h <;> cases h
  · exact .takeFrameStart tag
  · exact .takeFrameStart tag
  · exact .frameStartFilling tag
  all_goals exact .dropped

theorem of_line {payload : List Word} (h : execLine n payload s = .next t) : PushEffect n s t := by
  unfold execLine at h
  split at h
  · cases h; exact .stray
  · split at h <;> cases h
    · exact .lineFilling _ payload
    · exact .dropped
  all_goals cases h; exact .dropped

theorem of_frameEnd (h : execFrameEnd n s = .next t) : PushEffect n s t := by
  unfold execFrameEnd at h
  split at h
  · cases h; exact .stray
  · split at h <;> cases h
    · exact .frameEndFilling _
    · exact .dropped
  · cases h; exact .frameEndSkipping
  all_goals cases h; exact .dropped

theorem of_lossTimerExpiry (h : execLossTimerExpiry n s = .next t) : PushEffect n s t := by
  unfold execLossTimerExpiry at h
  split at h
  · cases h
  · split at h <;> cases h
    exact .signalLost

theorem actsOn (e : PushEffect n s t) : ActsOn n s t := by
  have h := ActsOn.refl (n := n) s
  cases e with
  | dropped => exact h
  | stray => exact h.stray
  | takeFrameStart tag => exact h.takeFrameStart
  | frameStartFilling tag => exact h.frameStartFilling
  | lineFilling e payload => exact h.lineFilling
  | frameEndFilling e => exact h.frameEndFilling
  | frameEndSkipping => exact h.modInput
  | signalLost => exact h.signalLost

theorem frame (e : PushEffect n s t) : t.outputs = s.outputs ∧ t.cu = s.cu ∧ t.ap = s.ap ∧ t.store = s.store ∧
    t.host = s.host ∧ t.timeBase = s.timeBase ∧ t.resetAsserted = s.resetAsserted := by
  cases e <;> simp

end PushEffect

/-- Settles O38: every message's effect acts on its input alone. -/
theorem pushLinkFrame : Obligations.PushLinkFrame := by
  intro n tag payload c s t hc h
  have e : PushEffect n s t := by
    rcases hc with rfl | rfl | rfl | rfl
    · exact .of_frameStart h
    · exact .of_line h
    · exact .of_frameEnd h
    · exact .of_lossTimerExpiry h
  obtain ⟨hothers, henable, hstatus⟩ := e.actsOn
  obtain ⟨houtputs, hcu, hap, hstore, hhost, htime, hreset⟩ := e.frame
  exact ⟨houtputs, hcu, hap, hstore, hhost, htime, hreset, hothers, fun i => ⟨by rw [henable], hstatus i⟩⟩

/-! ### Events that stay (R163) -/

/-- Bits that are set stay so when others are set. -/
theorem and_of_or {a w : Word} (h : a &&& w = w) (m : Word) : (a ||| m) &&& w = w := by
  rw [BitVec.and_comm, BitVec.and_or_distrib_left, BitVec.and_comm w, h]
  ext b _
  simp only [BitVec.getElem_or, BitVec.getElem_and]
  cases w[b] <;> simp

/-- Every event that stood stands. -/
def EventsStay (s t : State) : Prop :=
  ∀ (i : Fin 11) (w : Word), s.eu.status[i] &&& w = w → t.eu.status[i] &&& w = w

namespace EventsStay

variable {n : Fin 4} {s t : State}

theorem refl (s : State) : EventsStay s s := fun _ _ h => h

theorem keep (h : EventsStay s t) {u : State} (heu : u.eu = t.eu := by simp) : EventsStay s u := fun i w hw => by
  rw [heu]
  exact h i w hw

theorem raiseIn (h : EventsStay s t) {e : InEvent} : EventsStay s (t.raiseIn n e) := fun i w hw => by
  rw [State.raiseIn_eu, EventUnit.setBits_status]
  split
  · exact and_of_or (h i w hw) _
  · exact h i w hw

theorem stopCompletion (h : EventsStay s t) : EventsStay s (t.stopCompletion n) := by
  rw [State.stopCompletion_eq]
  split
  · exact h.keep.raiseIn
  · exact h.keep

theorem publishEntry (h : EventsStay s t) {e : FrameEntry} {rest : List FrameEntry} :
    EventsStay s (t.publishEntry n e rest) := by
  have hslot : EventsStay s ((t.modInput n fun ch => { ch with fill := rest }).publishSlot n e.slot
      fun r => { r with short := e.shortMark }) := by
    unfold State.publishSlot
    dsimp only
    split <;> exact h.keep
  have hpublished : EventsStay s ((((t.modInput n fun ch => { ch with fill := rest }).publishSlot n e.slot
      fun r => { r with short := e.shortMark }).modInput n InputChannel.published).raiseIn n .framePublished) :=
    hslot.keep.raiseIn
  rw [State.publishEntry_eq]
  dsimp only
  split
  · exact hpublished.raiseIn.stopCompletion
  · exact hpublished

theorem publishLoop (h : EventsStay s t) {l : List FrameEntry} : EventsStay s (t.publishLoop n l) := by
  induction l generalizing t with
  | nil => exact h
  | cons e rest ih =>
    unfold State.publishLoop
    split
    · exact ih h.publishEntry
    · exact h

theorem settle (h : EventsStay s t) : EventsStay s (t.settle n) := publishLoop (h.keep (by simp [State.leaveDiscards]))

theorem endFrame (h : EventsStay s t) {st : InState} {v : Verdict} {short : Bool} :
    EventsStay s (t.endFrame n st v short) := by
  have hopen : EventsStay s ((t.modInput n fun ch => { ch with state := st }).closeOpen n v short) := h.keep
  have hclose : EventsStay s ((t.modInput n fun ch => { ch with state := st }).closeFrame n v short) :=
    (hopen.settle (n := n)).keep (by simp [State.closeFrame])
  rw [endFrame_eq]
  split
  · exact hclose.stopCompletion
  · exact hclose

end EventsStay

/-! ### Refused lines (R33) -/

/-- What the discard of the open entry leaves of its channel, until a pending stop completes: no OPEN entry, no new line, and
the channel runs on, as an entry fewer counts against the budget. -/
structure InputChannel.Discarded (ch ch' : InputChannel) : Prop where
  fifo : ch'.fifo.Sublist ch.fifo
  state : ch'.state = ch.state
  stopPending : ch'.stopPending = ch.stopPending
  closed : ch'.AllClosed
  counters : ∀ c, c ≠ .framesPublished → c ≠ .evictedUnviewed →
    ch'.counters[inCounterIdx c] = ch.counters[inCounterIdx c]

section

variable {s : State} {n : Fin 4}

theorem InputChannel.countP_closeEntry_lt {ch : InputChannel} (hopen : ch.OneOpen) (e : FrameEntry) (short : Bool) :
    (ch.closeEntry e .discard short).fill.countP FrameEntry.countsForBudget < ch.fill.countP FrameEntry.countsForBudget := by
  obtain ⟨older, x, hfill, holder, hx⟩ := hopen
  have holder' : older.map (FrameEntry.close .discard short) = older := by
    conv_rhs => rw [← List.map_id older]
    exact List.map_congr_left fun y hy => FrameEntry.close_of_isClosed (holder y hy) .discard short
  have hclosed : (x.close .discard short).countsForBudget = false := by
    rw [FrameEntry.close, if_pos (x.not_isClosed_iff.1 hx)]
    rfl
  simp [InputChannel.closeEntry, hfill, holder', hclosed, FrameEntry.countsForBudget_of_opened hx]

theorem InputChannel.OneOpen.openEntry {ch : InputChannel} (hopen : ch.OneOpen) : ∃ e, ch.openEntry = some e := by
  obtain ⟨older, e, hfill, holder, he⟩ := hopen
  exact ⟨e, InputChannel.openEntry_append hfill holder he⟩

theorem discarded_closeFrame (hc : (s.input n).Contained) (hopen : (s.input n).OneOpen) :
    (s.input n).Discarded ((s.closeFrame n .discard false).input n) := by
  obtain ⟨e, he⟩ := hopen.openEntry
  have hleft := (s.closeOpen n .discard false).left_settle n
  rw [State.input_closeOpen_of_some he] at hleft
  obtain ⟨hstate, hpend, _⟩ := hleft.runs fun hb => by
    have hlt := InputChannel.countP_closeEntry_lt hopen e false
    have hle := hc.budget hb
    simp only [InputChannel.closeEntry] at hlt ⊢
    omega
  have hsettled : (s.input n).Discarded (((s.closeOpen n .discard false).settle n).input n) := {
    fifo := by rw [hleft.fifo]; exact dropLines_sublist e _
    state := hstate
    stopPending := hpend
    closed := hleft.allClosed (InputChannel.allClosed_closeEntry _ e .discard false)
    counters := hleft.counters }
  rcases (OnlyMarks.refl ((s.closeOpen n .discard false).settle n)).raiseWrite (n := n) n with h | h <;>
    rw [State.closeFrame, h]
  · exact hsettled
  · have hsame := InputChannel.SameFill.markInFlight (((s.closeOpen n .discard false).settle n).input n)
    rw [InputChannel.markInFlight_eq] at hsame ⊢
    exact { hsettled with
      closed := by
        rw [InputChannel.allClosed_iff_status, hsame.status]
        exact InputChannel.allClosed_iff_status.1 hsettled.closed }

/-- A line that some check refuses: counted and raised, and the frame discarded. -/
theorem exec_line_refused (hstate : (s.input n).state = .filling) {e : FrameEntry} (he : (s.input n).openEntry = some e)
    {payload : List Word} {c : InCounter} {bit : Word}
    (hcheck : ((payload.length ≠ (s.input n).cfg.lineLength ∨ e.expected ≤ e.received) ∧ c = .framesBroken ∧ bit = 0x004) ∨
      (payload.length = (s.input n).cfg.lineLength ∧ e.received < e.expected ∧ 3 ≤ (s.input n).fifo.length ∧
        c = .linesOverflowed ∧ bit = 0x020)) :
    exec (.line n payload) s = .next ((({ s with eu := s.eu.setBits (.input n) bit } : State).setInput n
      ((s.input n).count c)).endFrame n .skipping .discard false) := by
  rw [exec_line_of_open hstate he, State.lineFilling]
  rcases hcheck with ⟨hlength | hcount, rfl, rfl⟩ | ⟨hlength, hcount, hspace, rfl, rfl⟩
  · rw [if_pos hlength, broken_eq]
  · rw [if_pos hcount, broken_eq, ite_self]
  · rw [if_neg (not_not.2 hlength), if_neg hcount.not_ge, if_pos (show Config.lineFifoPlaces ≤ _ from hspace)]
    rfl

/-- The stop that follows the discard. -/
theorem InputChannel.Discarded.stopped {ch ch' : InputChannel} (h : ch.Discarded ch') :
    ch'.stopped.fifo.Sublist ch.fifo ∧
      (ch'.stopped.stopPending = false ∧ ch'.stopped.lossTimer = none ∧
        ch'.stopped.state = if ch'.stopped.fill = [] then .off else .stopping) ∧
      ch'.stopped.AllClosed ∧
      ∀ c, c ≠ .framesPublished → c ≠ .evictedUnviewed →
        ch'.stopped.counters[inCounterIdx c] = ch.counters[inCounterIdx c] :=
  ⟨h.fifo, ⟨rfl, rfl, rfl⟩, h.closed, h.counters⟩

/-- The channel after a refused line: SKIPPING, or stopped when a stop was pending. -/
theorem endFrame_discarded (hc : (s.input n).Contained) (hopen : (s.input n).OneOpen) {t : State}
    (ht : s.endFrame n .skipping .discard false = t) :
    (t.input n).fifo.Sublist (s.input n).fifo ∧
      ((s.input n).stopPending = false → (t.input n).state = .skipping) ∧
      ((s.input n).stopPending = true → (t.input n).stopPending = false ∧ (t.input n).lossTimer = none ∧
        (t.input n).state = if (t.input n).fill = [] then .off else .stopping) ∧
      (t.input n).AllClosed ∧
      ∀ c, c ≠ .framesPublished → c ≠ .evictedUnviewed →
        (t.input n).counters[inCounterIdx c] = (s.input n).counters[inCounterIdx c] := by
  have henter : (s.modInput n fun ch => { ch with state := .skipping }).input n = { s.input n with state := .skipping } := by
    rw [State.input_modInput, if_pos rfl]
  have hdiscard := discarded_closeFrame (s := s.modInput n fun ch => { ch with state := .skipping }) (n := n)
    (by rw [henter]; exact contained_of_eq hc) (by rw [henter]; exact hopen)
  rw [henter] at hdiscard
  rw [endFrame_eq] at ht
  cases hstop : (s.input n).stopPending with
  | false =>
    rw [hstop, if_neg Bool.false_ne_true] at ht
    subst ht
    exact ⟨hdiscard.fifo, fun _ => hdiscard.state, nofun, hdiscard.closed, hdiscard.counters⟩
  | true =>
    rw [hstop, if_pos rfl] at ht
    subst ht
    rw [State.input_stopCompletion]
    obtain ⟨hfifo, hstopped, hclosed, hcounters⟩ := hdiscard.stopped
    exact ⟨hfifo, nofun, fun _ => hstopped, hclosed, hcounters⟩

/-- The state after a refused line, whatever the check. -/
theorem endFrame_refused (hc : (s.input n).Contained) (hopen : (s.input n).OneOpen) {c : InCounter} {bit : Word}
    {t : State} (ht : (({ s with eu := s.eu.setBits (.input n) bit } : State).setInput n ((s.input n).count c)).endFrame n
      .skipping .discard false = t) :
    ((t.input n).fifo.Sublist (s.input n).fifo ∧
      ((s.input n).stopPending = false → (t.input n).state = .skipping) ∧
      ((s.input n).stopPending = true → (t.input n).stopPending = false ∧ (t.input n).lossTimer = none ∧
        (t.input n).state = if (t.input n).fill = [] then .off else .stopping) ∧
      (t.input n).AllClosed) ∧
    (∀ d, d = .framesBroken ∨ d = .linesOverflowed → (t.input n).counters[inCounterIdx d] =
      if c = d then satAdd (s.input n).counters[inCounterIdx d] 1 else (s.input n).counters[inCounterIdx d]) ∧
    t.eu.status[eventRegIdx (.input n)] &&& bit = bit ∧
    t.outputs = s.outputs ∧ t.store = s.store ∧ t.cu = s.cu ∧ t.ap = s.ap ∧ t.host = s.host ∧ t.timeBase = s.timeBase := by
  have hinput : (({ s with eu := s.eu.setBits (.input n) bit } : State).setInput n ((s.input n).count c)).input n =
      (s.input n).count c := by rw [State.input_setInput, if_pos rfl]
  obtain ⟨hfifo, hrun, hstop, hclosed, hcounters⟩ := endFrame_discarded (by rw [hinput]; exact contained_of_eq hc)
    (by rw [hinput]; exact hopen) ht
  rw [hinput] at hfifo hrun hstop hcounters
  refine ⟨⟨hfifo, hrun, hstop, hclosed⟩, fun d hd => ?_, ?_, ?_⟩
  · rw [hcounters d (by rcases hd with rfl | rfl <;> decide) (by rcases hd with rfl | rfl <;> decide),
      InputChannel.counters_count]
  · rw [← ht]
    refine (EventsStay.refl _).endFrame _ _ ?_
    change (s.eu.setBits (.input n) bit).status[eventRegIdx (.input n)] &&& bit = bit
    rw [EventUnit.setBits_status, if_pos rfl, BitVec.or_comm]
    exact and_of_or BitVec.and_self _
  · rw [← ht]
    simp

end

/-- Settles O34: the first failing check gives the counter and the event, and the discard of the open entry the rest. -/
theorem lineRefused : Obligations.LineRefused := by
  intro n payload older e s hok hstate hfill hopen hfails
  have hcontained := (hok n).contained (by simp [hstate])
  have honeOpen := (hok n).oneOpen hstate
  have he : (s.input n).openEntry = some e := by
    obtain ⟨older', x, hfill', holder, hx⟩ := honeOpen
    obtain ⟨rfl, hxe⟩ := List.append_inj' (hfill'.symm.trans hfill) rfl
    cases hxe
    exact InputChannel.openEntry_append hfill holder hx
  refine ⟨fun c bit closed hcase hclosed => ?_, ?_⟩
  · rw [exec_line_refused hstate he (c := c) (bit := bit) (hcase.imp_right fun ⟨hlength, hcount, hc, hbit⟩ =>
      ⟨hlength, hcount, by omega, hc, hbit⟩), endFrame_eq, modInput_setInput, State.input_setInput, if_pos rfl, hclosed]
    rfl
  · by_cases hbroken : payload.length ≠ (s.input n).cfg.lineLength ∨ e.expected ≤ e.received
    · obtain ⟨⟨hfifo, hrun, hstop, hclosed⟩, hcounters, hbit, hframe⟩ :=
        endFrame_refused hcontained honeOpen (c := .framesBroken) (bit := 0x004) rfl
      refine ⟨_, exec_line_refused hstate he (.inl ⟨hbroken, rfl, rfl⟩), hfifo, hrun, hstop, hclosed,
        fun _ => ⟨hcounters _ (.inl rfl), hcounters _ (.inr rfl), hbit⟩, fun hlength hcount => ?_, hframe⟩
      omega
    · have hspace : payload.length = (s.input n).cfg.lineLength ∧ e.received < e.expected ∧
          3 ≤ (s.input n).fifo.length := by omega
      obtain ⟨⟨hfifo, hrun, hstop, hclosed⟩, hcounters, hbit, hframe⟩ :=
        endFrame_refused hcontained honeOpen (c := .linesOverflowed) (bit := 0x020) rfl
      obtain ⟨hlength, hcount, hfull⟩ := hspace
      exact ⟨_, exec_line_refused hstate he (.inr ⟨hlength, hcount, hfull, rfl, rfl⟩), hfifo, hrun, hstop, hclosed,
        fun h => absurd h hbroken, fun _ _ => ⟨hcounters _ (.inr rfl), hcounters _ (.inl rfl), hbit⟩, hframe⟩

end Sys2Proof.Machine
end

