-- ==== Sys2Proof/Proofs/InputRegisters.lean ====
section
/-! Writes of the registers of an input, and the channel resets (R12, R23, R25 to R27, R43, R44, R47, R90). -/

namespace Sys2Proof.Machine

-- One theorem after another, as in the tests: many of them at once would need a thread each.
set_option Elab.async false

/-! ### INn_CTRL (R26, R27, R43, R44) -/

/-- The channel that the ENABLE of a write of INn_CTRL finds: STOP_MODE is stored. -/
abbrev State.storeStopMode (s : State) (n : Fin 4) (mode : StopMode) : State :=
  s.setInput n { s.input n with stopMode := mode }

section

variable {s : State} {n : Fin 4}

theorem writeInCtrl_of_resetting (h : (s.input n).state = .resetting) (enable : Bool) (mode : StopMode) :
    s.writeInCtrl n enable mode = s.configIgnored := if_pos h

theorem writeInCtrl_of_enable (h : (s.input n).state ≠ .resetting) (mode : StopMode) :
    s.writeInCtrl n true mode = (s.storeStopMode n mode).writeEnable n := if_neg h

theorem writeInCtrl_of_disable (h : (s.input n).state ≠ .resetting) (mode : StopMode) :
    s.writeInCtrl n false mode = (s.storeStopMode n mode).writeDisable n mode := if_neg h

theorem input_storeStopMode (s : State) (n : Fin 4) (mode : StopMode) :
    (s.storeStopMode n mode).input n = { s.input n with stopMode := mode } := by
  rw [State.input_setInput, if_pos rfl]

/-- An enable written in a state where the channel is enabled already, or stopping, or OFF. -/
theorem writeEnable_of_running (h : (s.input n).state = .armed ∨ (s.input n).state = .filling ∨ (s.input n).state = .skipping)
    (hstop : (s.input n).stopPending = false) : s.writeEnable n = s := by
  rcases h with h | h | h <;> simp [State.writeEnable, h, hstop]

theorem writeEnable_of_stopping (h : (((s.input n).state = .armed ∨ (s.input n).state = .filling ∨
      (s.input n).state = .skipping) ∧ (s.input n).stopPending = true) ∨ (s.input n).state = .stopping) :
    s.writeEnable n = s.configIgnored := by
  rcases h with ⟨h | h | h, hstop⟩ | h <;> simp [State.writeEnable, *]

theorem writeEnable_of_off (h : (s.input n).state = .off) : s.writeEnable n = s.tryEnable n := by
  simp [State.writeEnable, h]

/-- The enable attempt by its three outcomes (R27). -/
theorem tryEnable_of_refused {r : EnableRefusal} (h : s.enableRefusal n = r) (hr : r ≠ .none) :
    s.tryEnable n = ({ s with eu := s.eu.setBits (.input n) 0x400 } : State).setInput n { s.input n with refusal := r } := by
  subst h
  unfold State.tryEnable
  split
  next hnone => exact absurd hnone hr
  next => rfl

theorem tryEnable_of_taken (h : s.enableRefusal n = .none) :
    s.tryEnable n = s.setInput n { s.input n with
      refusal := .none, progress := 0, state := .armed
      lossTimer := if (s.input n).cfg.lossTimeout ≠ 0 ∧ (s.input n).lost = false then some s.timeBase else none } := by
  unfold State.tryEnable
  rw [h]
  simp only [State.modInput, Bool.and_eq_true, decide_eq_true_eq, Bool.not_eq_true']

theorem enableRefusal_of_absent (h : s.sm.built = false) : s.enableRefusal n = .noPool := by
  simp [State.enableRefusal, h]

theorem enableRefusal_of_long (hbuilt : s.sm.built = true)
    (h : s.sm.stride.toNat < (s.input n).cfg.lineLength * (s.input n).cfg.linesPerFrame) :
    s.enableRefusal n = .geometry := by
  simp [State.enableRefusal, hbuilt, h]

theorem enableRefusal_of_fits (hbuilt : s.sm.built = true)
    (h : (s.input n).cfg.lineLength * (s.input n).cfg.linesPerFrame ≤ s.sm.stride.toNat) :
    s.enableRefusal n = .none := by
  simp [State.enableRefusal, hbuilt, h]

theorem writeInCtrl_of_off (h : (s.input n).state = .off) (mode : StopMode) :
    s.writeInCtrl n true mode = (s.storeStopMode n mode).tryEnable n := by
  rw [writeInCtrl_of_enable (by simp [h]), writeEnable_of_off (by rw [input_storeStopMode]; exact h)]

/-- A disable that finds nothing to stop. -/
theorem writeDisable_of_stopped (h : (s.input n).state = .off ∨ (s.input n).state = .stopping ∨
      (((s.input n).state = .armed ∨ (s.input n).state = .filling ∨ (s.input n).state = .skipping) ∧
        (s.input n).stopPending = true)) (mode : StopMode) : s.writeDisable n mode = s := by
  rcases h with h | h | ⟨h | h | h, hstop⟩ <;> simp [State.writeDisable, *]

/-- Without an open frame either stop completes at once. -/
theorem writeDisable_of_listening (h : (s.input n).state = .armed ∨ (s.input n).state = .skipping)
    (hstop : (s.input n).stopPending = false) (mode : StopMode) : s.writeDisable n mode = s.stopCompletion n := by
  rcases h with h | h <;> cases mode <;> simp [State.writeDisable, State.stopNow, State.stopAtEnd, h, hstop]

theorem writeDisable_of_filling (h : (s.input n).state = .filling) (hstop : (s.input n).stopPending = false) :
    s.writeDisable n .atFrameEnd = s.modInput n (fun ch => { ch with stopPending := true }) ∧
      s.writeDisable n .immediate =
        ((s.countIn n .discardedByStop).closeFrame n .discard false).stopCompletion n := by
  simp [State.writeDisable, State.stopNow, State.stopAtEnd, h, hstop]

end

/-- Settles O57: R26's table, one cell at a time, on the channel with STOP_MODE stored. -/
theorem inputControlWrites : Obligations.InputControlWrites := by
  intro n mode s stored ch hreset hch hstored
  subst hch hstored
  have henable : ∀ c ∈ [Instr.enableAttempt n mode, .stopModeWrite n true mode],
      exec c s = .next (s.writeInCtrl n true mode) := by
    simp only [List.forall_mem_cons, List.not_mem_nil, false_implies, implies_true, and_true]
    exact and_self_iff.2 (hostWrite_of_released hreset fun s => s.writeInCtrl n true mode)
  have hdisable : ∀ c, (mode = .immediate ∧ c = .immediateStop n) ∨ (mode = .atFrameEnd ∧ c = .stopAtFrameEnd n) ∨
      c = .stopModeWrite n false mode → exec c s = .next (s.writeInCtrl n false mode) := by
    rintro c (⟨rfl, rfl⟩ | ⟨rfl, rfl⟩ | rfl) <;>
      exact hostWrite_of_released hreset fun s => s.writeInCtrl n false _
  have hinput := input_storeStopMode s n mode
  refine ⟨fun c hc => ?_, fun c hc => ?_⟩
  · rw [henable c hc]
    refine ⟨fun hoff habsent => ?_, fun hoff hbuilt hlong => ?_, fun hoff hbuilt hfits => ?_, fun hrun hstop => ?_,
      fun hstop => ?_, fun hresetting => by rw [writeInCtrl_of_resetting hresetting]; rfl⟩
    · have hrefusal := enableRefusal_of_absent (s := s.storeStopMode n mode) (n := n) habsent
      rw [writeInCtrl_of_off hoff, tryEnable_of_refused hrefusal (by decide), hinput]
      rfl
    · have hrefusal := enableRefusal_of_long (s := s.storeStopMode n mode) hbuilt (by rw [hinput]; exact hlong)
      rw [writeInCtrl_of_off hoff, tryEnable_of_refused hrefusal (by decide), hinput]
      rfl
    · have htaken := enableRefusal_of_fits (s := s.storeStopMode n mode) hbuilt (by rw [hinput]; exact hfits)
      rw [writeInCtrl_of_off hoff, tryEnable_of_taken htaken, hinput]
      rfl
    · rw [writeInCtrl_of_enable (by rcases hrun with h | h | h <;> simp [h]),
        writeEnable_of_running (by rw [hinput]; exact hrun) (by rw [hinput]; exact hstop)]
    · rw [writeInCtrl_of_enable (by rcases hstop with ⟨h | h | h, _⟩ | h <;> simp [h]),
        writeEnable_of_stopping (by rw [hinput]; exact hstop)]
      rfl
  · rw [hdisable c hc]
    refine ⟨fun hrest => ?_, fun hresetting => by rw [writeInCtrl_of_resetting hresetting]; rfl, fun hlisten hstop => ?_,
      fun hfilling hstop => ?_⟩
    · rw [writeInCtrl_of_disable (by rcases hrest with h | h | ⟨h | h | h, _⟩ <;> simp [h]),
        writeDisable_of_stopped (by rw [hinput]; exact hrest)]
    · rw [writeInCtrl_of_disable (by rcases hlisten with h | h <;> simp [h]),
        writeDisable_of_listening (by rw [hinput]; exact hlisten) (by rw [hinput]; exact hstop)]
    · obtain ⟨hatEnd, himmediate⟩ := writeDisable_of_filling (s := s.storeStopMode n mode) (n := n)
        (by rw [hinput]; exact hfilling) (by rw [hinput]; exact hstop)
      rw [writeInCtrl_of_disable (by simp [hfilling])]
      refine ⟨fun hmode => ?_, fun hmode => ?_⟩
      · rw [hmode] at hatEnd ⊢
        rw [hatEnd, modInput_setInput]
      · rw [hmode] at himmediate ⊢
        rw [himmediate, State.countIn, modInput_setInput]
        rfl

/-! ### The settings of an input (R12, R25) -/

section

variable {s : State} {n : Fin 4}

theorem writeInConfig_of_enabled (h : (s.input n).state ≠ .off) (reg : InConfigReg) (w : Word) :
    s.writeInConfig n reg w = s.configIgnored := if_neg h

theorem writeInConfig_of_ignored (h : (s.input n).state = .off) {reg : InConfigReg} {w : Word}
    (hw : inConfigWrite (s.input n).cfg reg w = none) : s.writeInConfig n reg w = s.configIgnored := by
  rw [State.writeInConfig, if_pos h, hw]

theorem writeInConfig_of_taken (h : (s.input n).state = .off) {reg : InConfigReg} {w : Word} {cfg : InConfig}
    (hw : inConfigWrite (s.input n).cfg reg w = some cfg) :
    s.writeInConfig n reg w =
      if reg = .cfg then (s.setInput n { s.input n with cfg := cfg }).trimReady n cfg.quota
      else s.setInput n { s.input n with cfg := cfg } := by
  rw [State.writeInConfig, if_pos h, hw]
  rfl

/-- The entries in excess are those that do not fit behind the youngest `quota`. -/
theorem excess_of_append {sm : SlotManager} {gone kept : List Nat} (hready : sm.readyOf n = gone ++ kept) {quota : Nat}
    (h : kept.length = quota ∨ (kept.length < quota ∧ gone = [])) : sm.excess n quota = gone := by
  rw [SlotManager.excess, hready, List.length_append]
  rcases h with rfl | ⟨_, rfl⟩
  · rw [Nat.add_sub_cancel, List.take_left]
  · rw [List.nil_append, List.length_nil, Nat.zero_add, Nat.sub_eq_zero_of_le (by omega), List.take_zero]

theorem trimReady_setInput {ch : InputChannel} {gone kept : List Nat} (hready : s.sm.readyOf n = gone ++ kept) {quota : Nat}
    (h : kept.length = quota ∨ (kept.length < quota ∧ gone = [])) :
    (s.setInput n ch).trimReady n quota = ({ s with sm := (s.sm.setReady n kept).retireAll gone } : State).setInput n
      (ch.countEvicted (gone.countP fun k => (s.sm.slot k).viewed = false)) := by
  have hviewed : (gone.countP fun k => !(s.sm.slot k).viewed) = gone.countP fun k => (s.sm.slot k).viewed = false :=
    congrArg (List.countP · gone) (funext fun k => by cases (s.sm.slot k).viewed <;> rfl)
  unfold State.trimReady
  simp only [State.setInput_frame, excess_of_append hready h, hready, List.drop_left, hviewed]
  exact modInput_setInput { s with sm := (s.sm.setReady n kept).retireAll gone } n ch _

end

/-- The fields of INn_GEOM and of INn_CFG, as the register map places them (R173). -/
theorem inConfigWrite_geom (cfg : InConfig) (w : Word) :
    inConfigWrite cfg .geom w =
      if (16 ≤ w.toNat % 2048 ∧ w.toNat % 2048 ≤ 1024) ∧ 1 ≤ w.toNat / 65536 % 4096 ∧ w.toNat / 65536 % 4096 ≤ 2048 then
        some { cfg with lineLength := w.toNat % 2048, linesPerFrame := w.toNat / 65536 % 4096 }
      else none := by
  have hlo : field w 0 11 = w.toNat % 2048 := by simp [field_eq]
  have hhi : field w 16 12 = w.toNat / 65536 % 4096 := field_eq w 16 12
  simp only [inConfigWrite, hlo, hhi, Bool.and_eq_true, inRange_iff]

theorem inConfigWrite_cfg (cfg : InConfig) (w : Word) :
    inConfigWrite cfg .cfg w =
      if (1 ≤ w.toNat % 16 ∧ w.toNat % 16 ≤ 8) ∧ 1 ≤ w.toNat / 65536 % 4 ∧ w.toNat / 65536 % 4 ≤ 3 then
        some { cfg with quota := w.toNat % 16, keepShort := w.getLsbD 8, watermark := w.toNat / 65536 % 4 }
      else none := by
  have hlo : field w 0 4 = w.toNat % 16 := by simp [field_eq]
  have hhi : field w 16 2 = w.toNat / 65536 % 4 := field_eq w 16 2
  simp only [inConfigWrite, hlo, hhi, Bool.and_eq_true, inRange_iff]

theorem field_low_half (w : Word) : field w 0 16 = w.toNat % 65536 := by simp [field_eq]

/-- Settles O58: the ranges are those that the write tests, and the trim retires what does not fit. -/
theorem inputConfigWrites : Obligations.InputConfigWrites := by
  intro n w s ignored ch hreset hch hignored
  subst hch
  obtain rfl : ignored = s.configIgnored := hignored
  have hexec : ∀ reg, exec (.inputConfigWrite n reg w) s = .next (s.writeInConfig n reg w) := fun reg =>
    hostWrite_of_released hreset fun s => s.writeInConfig n reg w
  simp only [hexec]
  refine ⟨fun hon reg => by rw [writeInConfig_of_enabled hon], fun hoff => ⟨fun lo hi hlo hhi => ⟨fun hin => ?_, fun hout => ?_⟩,
    fun lo hi hlo hhi => ⟨fun hin gone kept hready hkept => ?_, fun hout => ?_⟩, ?_, ?_⟩⟩
  · subst hlo hhi
    obtain ⟨h1, h2, h3, h4⟩ := hin
    rw [writeInConfig_of_taken hoff ((inConfigWrite_geom _ w).trans (if_pos ⟨⟨h1, h2⟩, h3, h4⟩)), if_neg (by decide)]
  · rw [writeInConfig_of_ignored hoff ((inConfigWrite_geom _ w).trans (if_neg (by omega)))]
  · subst hlo hhi
    obtain ⟨h1, h2, h3⟩ := hin
    rw [writeInConfig_of_taken hoff ((inConfigWrite_cfg _ w).trans (if_pos ⟨⟨h1, h2⟩, h3, by omega⟩)), if_pos rfl,
      trimReady_setInput hready hkept]
  · rw [writeInConfig_of_ignored hoff ((inConfigWrite_cfg _ w).trans (if_neg (by omega)))]
  · rw [writeInConfig_of_taken hoff (cfg := { (s.input n).cfg with budget := _ }) rfl, if_neg (by decide),
      field_low_half]
  · rw [writeInConfig_of_taken hoff (cfg := { (s.input n).cfg with lossTimeout := _ }) rfl, if_neg (by decide),
      field_low_half]

/-! ### Channel resets (R23, R47, R90) -/

theorem resetInput_of_resetting {s : State} {n : Fin 4} (h : (s.input n).state = .resetting) :
    s.resetInput n = ({ s with eu := s.eu.clearReg (.input n) } : State).setInput n
      { s.input n with counters := Vector.replicate 11 0 } := if_pos h

theorem resetInput_of_other {s : State} {n : Fin 4} (h : (s.input n).state ≠ .resetting) :
    s.resetInput n =
      ({ s with
        sm := if s.inFlight (.input n) then (s.sm.resetInput n).closeRecords (s.input n).fill
          else ((s.sm.resetInput n).closeRecords (s.input n).fill).toFreeAll ((s.input n).fill.map FrameEntry.slot)
        eu := s.eu.clearReg (.input n)
        arb := { s.arb with inReq := s.arb.inReq.set n none } } : State).setInput n
          ((s.input n).afterReset (s.inFlight (.input n))) := if_neg h

theorem modOutput_setOutput (s : State) (m : Fin 6) (o : OutputChannel) (f : OutputChannel → OutputChannel) :
    (s.setOutput m o).modOutput m f = s.setOutput m (f o) := by
  rw [State.modOutput, State.setOutput_setOutput, State.output_setOutput, if_pos rfl]

/-- An output is reset after the release of its slot, which changes the slot manager and the retained slot alone. -/
theorem resetOutput_of_release {s : State} {m : Fin 6} {sm : SlotManager} {o : OutputChannel}
    (h : s.release m = ({ s with sm := sm } : State).setOutput m o) :
    s.resetOutput m = ({ s with
      sm := sm
      eu := s.eu.clearReg (.output m)
      arb := { s.arb with outReq := s.arb.outReq.set m none } } : State).setOutput m { o with
        state := .off, frame := none, fifo := [], repeatBuf := none, epoch := o.epoch + 1, last := none,
        lossReported := none, counters := Vector.replicate 10 0 } := by
  rw [State.resetOutput, h]
  exact modOutput_setOutput { s with
    sm := sm, eu := s.eu.clearReg (.output m), arb := { s.arb with outReq := s.arb.outReq.set m none } } m o _

theorem release_of_some {s : State} {m : Fin 6} {k : Nat} (h : (s.output m).retained = some k) :
    s.release m = ({ s with sm := s.sm.leave m k } : State).setOutput m { s.output m with retained := none } := by
  rw [State.release, h]
  rfl

theorem release_of_none {s : State} {m : Fin 6} (h : (s.output m).retained = none) :
    s.release m = ({ s with sm := s.sm } : State).setOutput m { s.output m with retained := none } := by
  have hself : s.setOutput m (s.output m) = s := by simp [State.setOutput, State.output]
  have hrelease : s.release m = s := by rw [State.release, h]
  rw [hrelease, ← h]
  exact hself.symm

/-- Settles O7: a write in flight decides what stays in RESETTING. -/
theorem channelResets : Obligations.ChannelResets := by
  have hinput : ∀ (n : Fin 4) (s : State), s.resetAsserted = false →
      exec (.inputChannelReset n) s = .next (s.resetInput n) := fun n s hreset =>
    hostWrite_of_released hreset fun s => s.resetInput n
  have houtput : ∀ (m : Fin 6) (s : State), s.resetAsserted = false →
      exec (.outputChannelReset m) s = .next (s.resetOutput m) := fun m s hreset =>
    hostWrite_of_released hreset fun s => s.resetOutput m
  refine ⟨fun n s hreset => ⟨fun h => ?_, fun h => ⟨_, rfl, fun hflight => ?_, fun hflight => ?_⟩⟩, fun m s hreset => ?_⟩
  · rw [hinput n s hreset, resetInput_of_resetting h]
  · rw [hinput n s hreset, resetInput_of_other h, hflight]
    rfl
  · rw [hinput n s hreset, resetInput_of_other h, hflight]
    rfl
  · rw [houtput m s hreset]
    cases hretained : (s.output m).retained with
    | none => rw [resetOutput_of_release (release_of_none hretained)]
    | some k => rw [resetOutput_of_release (release_of_some hretained)]

end Sys2Proof.Machine
end

