-- ==== Sys2Proof/Proofs/Engines.lean ====
section
/-! The write and read engines of the channels, and the completion of a line write (R2, R41, R42, R48, R95, R97). -/

namespace Sys2Proof.Machine

-- One theorem after another, as in the tests: many of them at once would need a thread each.
set_option Elab.async false

/-! ### The write engine (R2, R41) -/

section

variable {s : State} {n : Fin 4} {m : Fin 6}

theorem raiseWrite_of_resting (h : (s.input n).fifo = [] ∨ s.arb.inReq[n].isSome = true ∨ s.execBy (.input n) = true) :
    s.raiseWrite n = s := by
  unfold State.raiseWrite
  split
  · rfl
  next l rest hfifo =>
    rw [if_pos]
    rcases h with h | h | h
    · exact absurd (hfifo.symm.trans h) (List.cons_ne_nil l rest)
    · rw [h, Bool.true_or]
    · rw [h, Bool.or_true]

theorem raiseWrite_of_free {l : FifoLine} {rest : List FifoLine} (hfifo : (s.input n).fifo = l :: rest)
    (hpending : s.arb.inReq[n] = none) (hexec : s.execBy (.input n) = false) :
    s.raiseWrite n = ({ s with arb := { s.arb with
      inReq := s.arb.inReq.set n (some (s.lineWriteRequest n l)) } } : State).grantMoment := by
  rw [State.raiseWrite, hfifo]
  exact if_neg (by simp [hpending, hexec])

theorem lineWriteRequest_eq {l : FifoLine} {len : Nat} (h : (s.sm.slot l.slot).lineLength = some len) :
    s.lineWriteRequest n l = ⟨.input n, .lineWrite, s.sm.base.toNat + l.slot * s.sm.stride.toNat + l.number * len,
      l.payload.length, l.payload, 0, l.number⟩ := by
  rw [State.lineWriteRequest, h]
  rfl

/-! ### The read engine (R95, R97) -/

theorem readOutstanding_eq_false :
    s.readOutstanding m = false ↔ s.arb.outReq[m] = none ∧ s.execBy (.output m) = false := by
  rw [State.readOutstanding, Bool.or_eq_false_iff, Option.isSome_eq_false_iff, Option.isNone_iff_eq_none]

/-- R95's condition. -/
theorem readWanted_eq_some {f : OpenFrame} {k : Nat} : s.readWanted m = some (f, k) ↔
    (s.output m).frame = some f ∧ f.slot = some k ∧ (f.status = .picture ∨ f.status = .repeated) ∧
      (s.arb.outReq[m] = none ∧ s.execBy (.output m) = false) ∧ (s.output m).fetch < f.lineCount ∧
      (s.output m).fifo.length < 4 := by
  rw [← readOutstanding_eq_false]
  unfold State.readWanted
  split
  next hframe => simp [hframe]
  next g hframe =>
    split
    next hslot =>
      simp only [hframe, reduceCtorEq, Option.some.injEq, false_iff]
      rintro ⟨rfl, h, -⟩
      exact absurd (hslot.symm.trans h) nofun
    next j hslot =>
      simp only [hframe, Option.ite_none_right_eq_some, Bool.and_eq_true, Bool.or_eq_true, decide_eq_true_eq,
        Bool.not_eq_true', Option.some.injEq, Prod.mk.injEq]
      constructor
      · rintro ⟨⟨⟨⟨hstatus, hout⟩, hfetch⟩, hroom⟩, rfl, rfl⟩
        exact ⟨rfl, hslot, hstatus, hout, hfetch, hroom⟩
      · rintro ⟨rfl, hk, hstatus, hout, hfetch, hroom⟩
        exact ⟨⟨⟨⟨hstatus, hout⟩, hfetch⟩, hroom⟩, rfl, Option.some.inj (hslot.symm.trans hk)⟩

theorem raiseRead_of_resting (h : ∀ f k, s.readWanted m ≠ some (f, k)) : s.raiseRead m = s := by
  unfold State.raiseRead
  split
  · rfl
  next f k hwanted => exact absurd hwanted (h f k)

theorem raiseRead_of_wanted {f : OpenFrame} {k : Nat} (h : s.readWanted m = some (f, k)) :
    s.raiseRead m = (({ s with arb := { s.arb with
      outReq := s.arb.outReq.set m (some (s.lineReadRequest m f k)) } } : State).setOutput m
        { s.output m with fetch := (s.output m).fetch + 1 }).grantMoment := by
  rw [State.raiseRead, h]
  rfl

theorem refetch_of_obsolete {r : MemRequest} (hpending : s.arb.outReq[m] = some r) (h : r.number < (s.output m).pull) :
    s.refetch m = ({ s with arb := { s.arb with outReq := s.arb.outReq.set m none } } : State).raiseRead m := by
  have hobsolete : s.readObsolete m = true := by simp [State.readObsolete, hpending, h]
  rw [State.refetch, hobsolete]
  rfl

theorem refetch_of_current
    (h : s.arb.outReq[m] = none ∨ ∃ r, s.arb.outReq[m] = some r ∧ (s.output m).pull ≤ r.number) :
    s.refetch m = s.raiseRead m := by
  have hcurrent : s.readObsolete m = false := by
    rcases h with h | ⟨r, h, hle⟩ <;> simp [State.readObsolete, *]
  rw [State.refetch, hcurrent]
  rfl

end

/-- Settles O26: each engine raises when R41 and R95 permit, and only then. -/
theorem enginesRaise : Obligations.EnginesRaise := by
  refine ⟨⟨fun s n => ⟨raiseWrite_of_resting, fun l rest len hfifo hpending hexec hlength => ?_⟩,
    fun s m => ⟨fun hrest => ?_, fun f hframe hrest => ?_, fun f k hframe hslot hstatus hpending hexec hfetch hroom => ?_⟩⟩,
    fun s m => ⟨fun r hpending hbelow => ?_, fun hkeep => ?_⟩⟩
  · rw [raiseWrite_of_free hfifo hpending hexec, lineWriteRequest_eq hlength]
  · refine raiseRead_of_resting fun f k hwanted => ?_
    obtain ⟨hframe, -, -, ⟨hpending, hexec⟩, -, hroom⟩ := readWanted_eq_some.1 hwanted
    rcases hrest with h | h | h | h
    · simp [h] at hframe
    · simp [hpending] at h
    · simp [hexec] at h
    · omega
  · refine raiseRead_of_resting fun f' k hwanted => ?_
    obtain ⟨hframe', -, hstatus, -, hfetch, -⟩ := readWanted_eq_some.1 hwanted
    obtain rfl : f = f' := Option.some.inj (hframe.symm.trans hframe')
    rcases hrest with h | h
    · simp [h] at hstatus
    · omega
  · rw [raiseRead_of_wanted (readWanted_eq_some.2 ⟨hframe, hslot, hstatus, ⟨hpending, hexec⟩, hfetch, hroom⟩)]
    rfl
  · rw [refetch_of_obsolete hpending hbelow]
  · rw [refetch_of_current hkeep]

/-! ### The completion of a line write (R42, R45, R48, R146, R147) -/

section

variable {s : State} {n : Fin 4}

theorem inputWriteDone_of_resetting (h : (s.input n).state = .resetting) :
    s.inputWriteDone n = ({ s with sm := s.sm.toFreeAll ((s.input n).fill.map FrameEntry.slot) } : State).setInput n
      { s.input n with fifo := [], fill := [], state := .off } := if_pos h

theorem inputWriteDone_of_other (h : (s.input n).state ≠ .resetting) :
    s.inputWriteDone n = (((s.modInput n InputChannel.lineWritten).settle n).finishStopping n).raiseWrite n := if_neg h

theorem lineWritten_cons {ch : InputChannel} {l : FifoLine} {rest : List FifoLine} (h : ch.fifo = l :: rest) :
    ch.lineWritten = { ch with
      fifo := rest
      fill := ch.fill.map fun e : FrameEntry => if e.slot = l.slot then { e with writeInFlight := false } else e } := by
  rw [InputChannel.lineWritten, h]

end

/-- Settles O46: the words are stored, and the channel's state decides what the delivery does. -/
theorem lineWriteCompletes : Obligations.LineWriteCompletes := by
  intro n r s stored hexec hkind hclient hinside hwords hstored
  have hrun : exec .lineWriteCompletion s = .next (stored.inputWriteDone n).afterDelivery := by
    refine (completing_of State.lineWriteDone hexec hkind (r.inStore_iff.2 ⟨hinside, hwords⟩)).trans ?_
    rw [State.lineWriteDone, hclient, hstored]
    rfl
  have hinput : stored.input n = s.input n := by rw [hstored]; rfl
  rw [hrun]
  refine ⟨fun hresetting => ?_, fun hother l rest hfifo settled hsettled => ?_⟩
  · rw [inputWriteDone_of_resetting (hinput ▸ hresetting), hinput, hstored]
  · rw [inputWriteDone_of_other (hinput ▸ hother), State.modInput, hinput, lineWritten_cons hfifo, hsettled]
    rfl

end Sys2Proof.Machine
end

