-- ==== Sys2Proof/Proofs/FramesPublished.lean ====
section
/-! Frames refused at admission, frames published, and the entries that leave a fill context (R30, R45, R52 to R65, R70). -/

namespace Sys2Proof.Machine

-- One theorem after another, as in the tests: many of them at once would need a thread each.
set_option Elab.async false

/-! ### Refused admissions (R52, R53, R56) -/

theorem InputChannel.budgetFull_iff {ch : InputChannel} : ch.budgetFull = true ↔
    ch.cfg.budget ≠ 0 ∧ ch.cfg.budget ≤ ch.progress.toNat + ch.fill.countP FrameEntry.countsForBudget := by
  simp only [InputChannel.budgetFull, Bool.and_eq_true, decide_eq_true_eq]

theorem InputChannel.backlogged_iff {ch : InputChannel} :
    ch.backlogged = true ↔ 2 ≤ ch.fill.countP FrameEntry.isClosed := decide_eq_true_iff

theorem SlotManager.reclaimable_eq_none {sm : SlotManager} {n : Fin 4} :
    sm.reclaimable n = none ↔ ∀ j ∈ (sm.readyOf n).dropLast, (sm.slot j).readers ≠ 0 := by
  simp only [SlotManager.reclaimable, List.find?_eq_none, decide_eq_true_eq, ne_eq]

/-- The first check that an admission fails, with its counter and the mask of its event: the budget has none (R52, R53, R56). -/
inductive AdmissionFails (ch : InputChannel) (sm : SlotManager) (n : Fin 4) : InCounter → Word → Prop
  | budget (hfull : ch.budgetFull = true) : AdmissionFails ch sm n .skippedBudget 0
  | backlog (hbudget : ch.budgetFull ≠ true) (hfull : ch.backlogged = true) :
      AdmissionFails ch sm n .skippedBacklog (inEventMask .backlog)
  | slot (hbudget : ch.budgetFull ≠ true) (hroom : ch.backlogged ≠ true) (hfree : sm.free = [])
      (hreclaim : sm.reclaimable n = none) : AdmissionFails ch sm n .skippedNoSlot (inEventMask .noSlot)

/-- The signal's return and the loss timer have no part in the checks. -/
theorem AdmissionFails.frameFound {ch : InputChannel} {sm : SlotManager} {n : Fin 4} {c : InCounter} {mask : Word}
    (h : AdmissionFails ch sm n c mask) (timer : Option Word) (lost : Bool) :
    AdmissionFails { ch with lossTimer := timer, lost := lost } sm n c mask := by
  cases h with
  | budget hfull => exact .budget hfull
  | backlog hbudget hfull => exact .backlog hbudget hfull
  | slot hbudget hroom hfree hreclaim => exact .slot hbudget hroom hfree hreclaim

@[simp] theorem EventUnit.setBits_zero (eu : EventUnit) (r : EventReg) : eu.setBits r 0 = eu := by
  simp [EventUnit.setBits]

theorem skip_eq (s : State) (n : Fin 4) (c : InCounter) :
    s.skip n c = s.setInput n { (s.input n).count c with state := .skipping } :=
  modInput_setInput s n _ _

/-- A failed check counts, raises its event, and the channel skips the frame (R30). -/
theorem admitFrame_of_fails {s : State} {n : Fin 4} {c : InCounter} {mask : Word}
    (h : AdmissionFails (s.input n) s.sm n c mask) (tag : Option Word) :
    s.admitFrame n tag = ({ s with eu := s.eu.setBits (.input n) mask } : State).setInput n
      { (s.input n).count c with state := .skipping } := by
  unfold State.admitFrame
  cases h with
  | budget hfull => rw [if_pos hfull, skip_eq, EventUnit.setBits_zero]
  | backlog hbudget hfull =>
    rw [if_neg hbudget, if_pos hfull, skip_eq]
    rfl
  | slot hbudget hroom hfree hreclaim =>
    rw [if_neg hbudget, if_neg hroom]
    simp only [hfree, hreclaim, skip_eq]
    rfl

/-- Settles O29: the first check that fails decides, and the signal and the timer are taken note of before it. -/
theorem frameStartRefused : Obligations.FrameStartRefused := by
  intro n tag s hstate c mask hcheck
  have hfails : AdmissionFails (s.input n) s.sm n c mask := by
    rcases hcheck with ⟨hset, rfl, rfl, hfull⟩ | ⟨hbudget, ⟨hfull, rfl, rfl⟩ | ⟨hroom, hfree, rfl, rfl, hreaders⟩⟩
    · exact .budget (InputChannel.budgetFull_iff.2 ⟨hset, hfull⟩)
    all_goals
      have hbudget' : (s.input n).budgetFull ≠ true := fun h => by
        obtain ⟨hset, hfull⟩ := InputChannel.budgetFull_iff.1 h
        omega
    · exact .backlog hbudget' (InputChannel.backlogged_iff.2 hfull)
    · exact .slot hbudget' (mt InputChannel.backlogged_iff.1 hroom.not_ge) hfree
        (SlotManager.reclaimable_eq_none.2 hreaders)
  rw [exec_frameStart_of_listening hstate, State.takeFrameStart, frameFound_eq, admitFrame_of_fails
    (by rw [State.input_setInput, if_pos rfl]; exact hfails.frameFound _ _), State.input_setInput, if_pos rfl]
  exact congrArg Host.Outcome.next (State.setInput_setInput { s with
    eu := (if (s.input n).lost then s.eu.setBits (.input n) 0x080 else s.eu).setBits (.input n) mask } n _ _)

/-! ### Publication of a slot (R61 to R63, R65) -/

@[simp] theorem SlotManager.readyOf_retire (sm : SlotManager) (k : Nat) (n : Fin 4) :
    (sm.retire k).readyOf n = sm.readyOf n := sm.readyOf_retireAll [k] n

/-- The record of a slot that INn publishes (R61, R62). -/
def SlotRecord.stamped (r : SlotRecord) (n : Fin 4) (number now : Word) : SlotRecord :=
  { r with sequence := some number, timestamp := some now, state := .ready, owner := some n }

/-- A channel written as it is. -/
theorem State.setInput_input (s : State) (n : Fin 4) : s.setInput n (s.input n) = s := by
  simp [State.setInput, State.input]

section

variable {s : State} {n : Fin 4}

theorem publishSlot_of_room (h : (s.sm.readyOf n).length < (s.input n).cfg.quota) (k : Nat) (f : SlotRecord → SlotRecord) :
    s.publishSlot n k f = { s with
      sm := ((s.sm.modSlot k fun r => (f r).stamped n (s.sm.seqOf n) s.timeBase).setReady n
        (s.sm.readyOf n ++ [k])).setSeq n (s.sm.seqOf n + 1) } := by
  have hroom : s.sm.atQuota n (s.input n).cfg.quota = false := decide_eq_false h.not_ge
  rw [State.publishSlot, hroom]
  rfl

/-- At quota the oldest entry leaves the list and is retired before the slot joins. -/
theorem publishSlot_of_full {old : Nat} {rest : List Nat} (hready : s.sm.readyOf n = old :: rest)
    (h : (s.input n).cfg.quota ≤ rest.length + 1) (k : Nat) (f : SlotRecord → SlotRecord) :
    s.publishSlot n k f = ({ s with
      sm := ((((s.sm.setReady n rest).retire old).modSlot k fun r => (f r).stamped n (s.sm.seqOf n) s.timeBase).setReady n
        (rest ++ [k])).setSeq n (s.sm.seqOf n + 1) } : State).setInput n
      (if (s.sm.slot old).viewed then s.input n else (s.input n).count .evictedUnviewed) := by
  have hfull : s.sm.atQuota n (s.input n).cfg.quota = true := by simpa [SlotManager.atQuota, hready] using h
  have hevict : s.sm.evictOldest n = (s.sm.setReady n rest).retire old := by rw [SlotManager.evictOldest, hready]
  have hcounted : s.sm.oldestUnviewed n = !(s.sm.slot old).viewed := by rw [SlotManager.oldestUnviewed, hready]
  simp only [State.publishSlot, hfull, hevict, hcounted, if_true, Bool.true_and, SlotManager.readyOf_modSlot,
    SlotManager.readyOf_retire, SlotManager.readyOf_setReady]
  cases (s.sm.slot old).viewed with
  | false => rfl
  | true => exact (State.setInput_input _ n).symm

end

/-- Settles O22: with room the slot joins its list; at quota the oldest entry leaves first. -/
theorem publicationClaim : Obligations.PublicationClaim :=
  fun _ _ k f => ⟨fun hroom => publishSlot_of_room hroom k f, fun _ _ hready hfull => publishSlot_of_full hready hfull k f⟩

/-! ### Entries that leave, and stop completion (R45, R58 to R64, R70) -/

section

variable {s : State} {n : Fin 4} {e : FrameEntry}

theorem InputChannel.allWritten_eq_true {ch : InputChannel} :
    ch.allWritten e = true ↔ ch.fifo.any (fun l => l.slot = e.slot) = false := by
  rw [InputChannel.allWritten, Bool.not_eq_true']

theorem publishLoop_of_unready (h : e.status ≠ .closed .publish ∨ (s.input n).fifo.any (fun l => l.slot = e.slot) = true)
    (rest : List FrameEntry) : s.publishLoop n (e :: rest) = s := by
  rw [State.publishLoop, if_neg]
  simp only [Bool.and_eq_true, decide_eq_true_eq, InputChannel.allWritten_eq_true]
  rintro ⟨hverdict, hwritten⟩
  exact h.elim (· hverdict) (by simp [hwritten])

theorem publishLoop_of_ready (hverdict : e.status = .closed .publish)
    (hwritten : (s.input n).fifo.any (fun l => l.slot = e.slot) = false) (rest : List FrameEntry) :
    s.publishLoop n (e :: rest) = (s.publishEntry n e rest).publishLoop n rest := by
  rw [State.publishLoop, if_pos]
  simp only [Bool.and_eq_true, decide_eq_true_eq, InputChannel.allWritten_eq_true]
  exact ⟨hverdict, hwritten⟩

theorem stopCompletion_of_empty (h : (s.input n).fill = []) :
    s.stopCompletion n = ({ s with eu := s.eu.setBits (.input n) 0x200 } : State).setInput n
      { s.input n with state := .off, lossTimer := none, stopPending := false } := by
  rw [State.stopCompletion_eq, if_pos h, State.modInput, InputChannel.stopped, if_pos h]
  rfl

theorem stopCompletion_of_entries (h : (s.input n).fill ≠ []) :
    s.stopCompletion n = s.setInput n { s.input n with state := .stopping, lossTimer := none, stopPending := false } := by
  rw [State.stopCompletion_eq, if_neg h, State.modInput, InputChannel.stopped, if_neg h]

end

/-- Settles O32: DISCARD entries leave in one go, PUBLISH entries one after another, and each may complete the job. -/
theorem entriesLeave : Obligations.EntriesLeave := by
  refine ⟨fun s n => rfl, fun s n => rfl, fun s n v short => rfl, fun s n => rfl, fun s n e rest h =>
    publishLoop_of_unready h rest, fun n s => ⟨stopCompletion_of_empty, stopCompletion_of_entries⟩,
    fun s n e rest p hverdict hwritten hp => ?_⟩
  have hp' : p = (((s.modInput n fun ch => { ch with fill := rest }).publishSlot n e.slot
      fun r => { r with short := e.shortMark }).modInput n InputChannel.published).raiseIn n .framePublished :=
    hp.trans (congrArg (State.raiseIn · n .framePublished) (modInput_setInput _ n _ _))
  rw [publishLoop_of_ready hverdict hwritten, State.publishEntry_eq, ← hp']
  simp only [Bool.and_eq_true, decide_eq_true_eq]

end Sys2Proof.Machine
end

