-- ==== Sys2Proof/Proofs/HeldSlots.lean ====
section
/-! DRAINING slots and write pending (R14, R21): what every operation keeps of a slot that the host holds, said as one relation
between the state before a command and the state that it has come to. -/

namespace Sys2Proof.Machine

-- One theorem after another, as in the tests: many of them at once would need a thread each.
set_option Elab.async false

/-! ### Slots that nothing may move -/

/-- Slot Sk has write pending (R21). -/
def SlotManager.pending (sm : SlotManager) (k : Nat) : Bool := (sm.slot k).writePending

/-- Slot Sk is DRAINING without a reader, which R14 rules out. -/
def SlotManager.stranded (sm : SlotManager) (k : Nat) : Prop := (sm.slot k).state = .draining ∧ (sm.slot k).readers = 0

/-- Slot Sk is HELD and in no list. -/
structure SlotManager.Aside (sm : SlotManager) (k : Nat) : Prop where
  held : (sm.slot k).state = .held
  free : k ∉ sm.free
  ready : ∀ n, k ∉ sm.readyOf n

/-- Slot Sk has write pending, is HELD, and is in no list and in no fill context: no command moves it. -/
def State.Fixed (s : State) (k : Nat) : Prop :=
  s.sm.pending k = true ∧ s.sm.Aside k ∧ ∀ n, ∀ e ∈ (s.input n).fill, e.slot ≠ k

theorem drainingOk_iff {s : State} : s.drainingOk ↔ ∀ k, ¬ s.sm.stranded k := by
  constructor
  · rintro h k ⟨hstate, hreaders⟩
    have hk : k < s.sm.slots.length := SlotManager.slot_lt_of_state_ne_free (by rw [hstate]; exact nofun)
    have hslot : s.sm.slot k = s.sm.slots[k] := by simp [SlotManager.slot, hk]
    exact h _ (hslot ▸ List.getElem_mem hk) hstate hreaders
  · intro h r hr hstate hreaders
    obtain ⟨k, hk, rfl⟩ := List.getElem_of_mem hr
    exact h k (by simp [SlotManager.stranded, SlotManager.slot, hk, hstate, hreaders])

theorem pendingOk_iff {s : State} : s.pendingOk ↔ ∀ k, s.sm.pending k = true → (s.sm.slot k).state = .held := by
  constructor
  · intro h k hpending
    by_cases hk : k < s.sm.slots.length
    · have hslot : s.sm.slot k = s.sm.slots[k] := by simp [SlotManager.slot, hk]
      rw [SlotManager.pending, hslot] at hpending
      exact hslot ▸ h _ (List.getElem_mem hk) hpending
    · simp [SlotManager.pending, SlotManager.slot, hk, SlotRecord.fresh] at hpending
  · intro h r hr hpending
    obtain ⟨k, hk, rfl⟩ := List.getElem_of_mem hr
    simpa [SlotManager.pending, SlotManager.slot, hk, hpending] using h k

/-- With every slot in one location, a HELD slot is in no list and in no fill context (R6). -/
theorem fixed_of_pending {s : State} (h : s.locationsOk) (hp : s.pendingOk) {k : Nat} (hk : s.sm.pending k = true) :
    s.Fixed k := by
  have hheld := pendingOk_iff.1 hp k hk
  obtain ⟨-, -, -, hfree, hready, hfill, -⟩ := h
  refine ⟨hk, ⟨hheld, fun hmem => ?_, fun n hmem => ?_⟩, fun n e he heq => ?_⟩
  · exact absurd (hheld.symm.trans ((hfree k).1 hmem).2) nofun
  · exact absurd (hheld.symm.trans (((hready n).2 k).1 hmem).2.1) nofun
  · obtain ⟨-, hopen, hclosed⟩ := hfill n
    cases hstatus : e.isClosed with
    | false => exact absurd (hheld.symm.trans ((hopen k).1 ⟨e, he, heq, hstatus⟩).2.1) nofun
    | true => exact absurd (hheld.symm.trans ((hclosed k).1 ⟨e, he, heq, hstatus⟩).2.1) nofun

/-! ### Who sets and clears write pending (R21) -/

/-- A change of a record that keeps its write pending. -/
theorem SlotManager.pending_modSlot (sm : SlotManager) (k : Nat) {f : SlotRecord → SlotRecord}
    (hf : ∀ r, (f r).writePending = r.writePending := by intro; rfl) : (sm.modSlot k f).pending = sm.pending := by
  funext j
  simp only [SlotManager.pending, SlotManager.slot_modSlot]
  split <;> simp [hf]

theorem SlotManager.pending_of_clearPending {sm : SlotManager} {ks : List Nat} {j : Nat}
    (h : (sm.clearPending ks).pending j = true) : sm.pending j = true := by
  induction ks generalizing sm with
  | nil => exact h
  | cons k ks ih =>
    have hj := ih h
    simp only [SlotManager.pending, SlotManager.slot_modSlot] at hj
    split at hj
    · exact nomatch hj
    · exact hj

/-- Write pending is set on the slots listed alone. -/
theorem SlotManager.pending_of_setPending {sm : SlotManager} {ks : List Nat} {j : Nat}
    (h : (sm.setPending ks).pending j = true) : sm.pending j = true ∨ j ∈ ks := by
  induction ks generalizing sm with
  | nil => exact .inl h
  | cons k ks ih =>
    rcases ih h with hj | hj
    · simp only [SlotManager.pending, SlotManager.slot_modSlot] at hj
      split at hj
      next hkj => exact .inr (hkj.1 ▸ List.mem_cons_self)
      next => exact .inl hj
    · exact .inr (List.mem_cons_of_mem k hj)

theorem FrameEntry.slot_close (x : FrameEntry) (v : Verdict) (short : Bool) : (x.close v short).slot = x.slot := by
  unfold FrameEntry.close
  split <;> rfl

/-! ### Changes of the slot manager -/

/-- From `sm` to `sm'` no slot has been stranded or got write pending, and the slots that `fix` names are still HELD and in no
list. -/
structure SlotManager.Orderly (fix : Nat → Prop) (sm sm' : SlotManager) : Prop where
  stranded : ∀ k, sm'.stranded k → sm.stranded k
  pending : ∀ k, sm'.pending k = true → sm.pending k = true
  aside : ∀ k, fix k → sm'.Aside k

namespace SlotManager.Orderly

variable {fix : Nat → Prop} {sm sm' : SlotManager} {k : Nat}

theorem not_fix_of_free (h : sm.Orderly fix sm') (hk : k ∈ sm'.free) : ¬ fix k := fun hf => (h.aside k hf).free hk

theorem not_fix_of_ready (h : sm.Orderly fix sm') {n : Fin 4} (hk : k ∈ sm'.readyOf n) : ¬ fix k := fun hf =>
  (h.aside k hf).ready n hk

/-- A change of a record that strands no slot and sets no write pending; a fixed slot's record stays HELD. -/
theorem modSlot (h : sm.Orderly fix sm') {f : SlotRecord → SlotRecord}
    (hheld : fix k → (f (sm'.slot k)).state = .held)
    (hstranded : (f (sm'.slot k)).state = .draining → (f (sm'.slot k)).readers = 0 → sm'.stranded k := by exact nofun)
    (hpending : ∀ r, (f r).writePending = r.writePending := by intro; rfl) : sm.Orderly fix (sm'.modSlot k f) where
  stranded j hj := by
    simp only [SlotManager.stranded, SlotManager.slot_modSlot] at hj
    split at hj
    next hkj => exact h.stranded j (hkj.1 ▸ hstranded (hkj.1 ▸ hj.1) (hkj.1 ▸ hj.2))
    next => exact h.stranded j hj
  pending j hj := h.pending j (sm'.pending_modSlot k hpending ▸ hj)
  aside j hj := by
    obtain ⟨hstate, hfree, hready⟩ := h.aside j hj
    refine ⟨?_, hfree, hready⟩
    rw [SlotManager.slot_modSlot]
    split
    next hkj => exact hkj.1 ▸ hheld (hkj.1 ▸ hj)
    next => exact hstate

theorem setFree (h : sm.Orderly fix sm') {l : List Nat} (hl : ∀ j ∈ l, ¬ fix j) : sm.Orderly fix { sm' with free := l } :=
  ⟨h.stranded, h.pending, fun j hj => ⟨(h.aside j hj).held, fun hmem => hl j hmem hj, (h.aside j hj).ready⟩⟩

theorem setReady (h : sm.Orderly fix sm') {n : Fin 4} {l : List Nat} (hl : ∀ j ∈ l, ¬ fix j) :
    sm.Orderly fix (sm'.setReady n l) := by
  refine ⟨h.stranded, h.pending, fun j hj => ⟨(h.aside j hj).held, (h.aside j hj).free, fun i hmem => ?_⟩⟩
  rw [SlotManager.readyOf_setReady] at hmem
  split at hmem
  · exact hl j hmem hj
  · exact (h.aside j hj).ready i hmem

theorem setSeq (h : sm.Orderly fix sm') {n : Fin 4} {w : Word} : sm.Orderly fix (sm'.setSeq n w) :=
  ⟨h.stranded, h.pending, fun j hj => ⟨(h.aside j hj).held, (h.aside j hj).free, (h.aside j hj).ready⟩⟩

theorem toFree (h : sm.Orderly fix sm') (hk : ¬ fix k) : sm.Orderly fix (sm'.toFree k) := by
  refine (h.modSlot (absurd · hk)).setFree fun j hj => ?_
  rcases List.mem_append.1 hj with hj | hj
  · exact h.not_fix_of_free hj
  · exact List.mem_singleton.1 hj ▸ hk

/-- A slot with readers drains, and one without goes to the free list: neither strands it (R16). -/
theorem retire (h : sm.Orderly fix sm') (hk : ¬ fix k) : sm.Orderly fix (sm'.retire k) := by
  unfold SlotManager.retire
  split
  · exact h.toFree hk
  next hreaders => exact h.modSlot (absurd · hk) fun _ hzero => absurd hzero hreaders

theorem retireAll (h : sm.Orderly fix sm') {ks : List Nat} (hks : ∀ j ∈ ks, ¬ fix j) :
    sm.Orderly fix (sm'.retireAll ks) := by
  induction ks generalizing sm' with
  | nil => exact h
  | cons k ks ih =>
    obtain ⟨hk, hks⟩ := List.forall_mem_cons.1 hks
    exact ih (h.retire hk) hks

theorem toFreeAll (h : sm.Orderly fix sm') {ks : List Nat} (hks : ∀ j ∈ ks, ¬ fix j) :
    sm.Orderly fix (sm'.toFreeAll ks) := by
  induction ks generalizing sm' with
  | nil => exact h
  | cons k ks ih =>
    obtain ⟨hk, hks⟩ := List.forall_mem_cons.1 hks
    exact ih (h.toFree hk) hks

theorem closeRecords (h : sm.Orderly fix sm') {es : List FrameEntry} (hes : ∀ e ∈ es, ¬ fix e.slot) :
    sm.Orderly fix (sm'.closeRecords es) := by
  induction es generalizing sm' with
  | nil => exact h
  | cons e es ih =>
    obtain ⟨he, hes⟩ := List.forall_mem_cons.1 hes
    unfold SlotManager.closeRecords
    split
    · exact ih (h.modSlot (absurd · he)) hes
    · exact ih h hes

/-- A ready list is emptied into the free list and the draining set (R16, R23). -/
theorem flush (h : sm.Orderly fix sm') (n : Fin 4) :
    sm.Orderly fix ((sm'.setReady n []).retireAll (sm'.readyOf n)) :=
  (h.setReady (by simp)).retireAll fun _ => h.not_fix_of_ready

theorem evictOldest (h : sm.Orderly fix sm') (n : Fin 4) : sm.Orderly fix (sm'.evictOldest n) := by
  unfold SlotManager.evictOldest
  split
  · exact h
  next k rest hready =>
    have hlist : ∀ j ∈ k :: rest, ¬ fix j := fun j hj => h.not_fix_of_ready (hready ▸ hj)
    obtain ⟨hk, hrest⟩ := List.forall_mem_cons.1 hlist
    exact (h.setReady hrest).retire hk

theorem hold (h : sm.Orderly fix sm') (n : Fin 4) (e : ListEnd) (k : Nat) : sm.Orderly fix (sm'.hold n e k) := by
  refine (h.setReady fun j hj => h.not_fix_of_ready (n := n) ?_).modSlot fun _ => rfl
  cases e with
  | newest => exact List.mem_of_mem_dropLast hj
  | oldest => exact List.mem_of_mem_tail hj

/-- Joining changes the readers alone, and gives the slot one (R18). -/
theorem join (h : sm.Orderly fix sm') (m : Fin 6) (k : Nat) : sm.Orderly fix (sm'.join m k) :=
  h.modSlot (fun hk => (h.aside k hk).held) fun _ hreaders => by
    have hbit := congrArg (BitVec.getLsbD · m.val) hreaders
    rw [BitVec.getLsbD_or, readerBit_getLsbD, decide_eq_true rfl, Bool.or_true] at hbit
    simp at hbit

/-- Leaving changes the readers, and frees a DRAINING slot that has none left (R19). -/
theorem leave (h : sm.Orderly fix sm') (m : Fin 6) (k : Nat) : sm.Orderly fix (sm'.leave m k) := by
  by_cases hlast : (sm'.slot k).state = .draining ∧ ((sm'.slot k).left m).readers = 0
  · have hk : ¬ fix k := fun hf => absurd ((h.aside k hf).held.symm.trans hlast.1) nofun
    have hlt : k < sm'.slots.length := SlotManager.slot_lt_of_state_ne_free (by rw [hlast.1]; exact nofun)
    have hleave : sm'.leave m k = { sm'.modSlot k fun r => { r.left m with state := .free, owner := none } with
        free := sm'.free ++ [k] } := by
      rw [SlotManager.leave_eq_set hlt, if_pos hlast, SlotManager.modSlot_eq_set hlt]
    rw [hleave]
    exact (h.modSlot (absurd · hk)).setFree fun j hj => (List.mem_append.1 hj).elim h.not_fix_of_free fun hj =>
      List.mem_singleton.1 hj ▸ hk
  · have hleave : sm'.leave m k = sm'.modSlot k fun r => r.left m := by
      by_cases hlt : k < sm'.slots.length
      · rw [SlotManager.leave_eq_set hlt, if_neg hlast, SlotManager.modSlot_eq_set hlt]
      · have hstate : (sm'.slot k).state ≠ .draining := by simp [SlotManager.slot, hlt, SlotRecord.fresh]
        simp [SlotManager.leave, hlt, hstate, SlotRecord.left, readerBit]
    rw [hleave]
    exact h.modSlot (fun hf => (h.aside k hf).held) fun hstate hreaders => absurd ⟨hstate, hreaders⟩ hlast

theorem rebind (h : sm.Orderly fix sm') (m : Fin 6) (r : Option Nat) (k : Nat) : sm.Orderly fix (sm'.rebind m r k) := by
  unfold SlotManager.rebind
  split
  · exact h
  · split
    · exact h.join m k
    · exact (h.join m k).leave m _

end SlotManager.Orderly

end Sys2Proof.Machine
end

