-- ==== Sys2Proof/Proofs/SlotsOrderly.lean ====
section
/-! Every operation of the model strands no slot (R14) and moves no HELD slot with write pending (R21). -/

namespace Sys2Proof.Machine

-- One theorem after another, as in the tests: many of them at once would need a thread each.
set_option Elab.async false

/-- From `s` to `t` the slot manager is orderly, and no fixed slot has come into a fill context. -/
structure Orderly (s t : State) : Prop where
  sm : s.sm.Orderly s.Fixed t.sm
  fills : ∀ n, ∀ e ∈ (t.input n).fill, ¬ s.Fixed e.slot

namespace Orderly

variable {s t : State}

theorem refl (s : State) : Orderly s s where
  sm := ⟨fun _ => id, fun _ => id, fun _ hk => hk.2.1⟩
  fills n e he hk := hk.2.2 n e he rfl

/-! ### Changes that move no slot -/

/-- A quiet change that sets no write pending. -/
theorem quiet {u : State} (h : Orderly s t) (h' : Quiet t u)
    (hpending : ∀ k, u.sm.pending k = true → t.sm.pending k = true := by simp) : Orderly s u where
  sm := {
    stranded := fun k hk => h.sm.stranded k ⟨(h'.sm.state k).symm.trans hk.1, (congrFun h'.readers k).symm.trans hk.2⟩
    pending := fun k hk => h.sm.pending k (hpending k hk)
    aside := fun k hk => by
      obtain ⟨hheld, hfree, hready⟩ := h.sm.aside k hk
      exact ⟨(h'.sm.state k).trans hheld, h'.sm.free ▸ hfree, fun n => by
        rw [SlotManager.readyOf, h'.sm.ready]
        exact hready n⟩ }
  fills n e he := by
    have hmark : e.mark ∈ (t.input n).entries := h'.entries n ▸ List.mem_map_of_mem he
    obtain ⟨e', he', hsame⟩ := List.mem_map.1 hmark
    obtain ⟨hslot, -⟩ := Prod.mk.inj hsame
    exact hslot ▸ h.fills n e' he'

theorem setSm (h : Orderly s t) {sm : SlotManager} (hsm : s.sm.Orderly s.Fixed sm) : Orderly s { t with sm := sm } :=
  ⟨hsm, h.fills⟩

/-- A change beside the slot manager and the inputs. -/
theorem of_eq (h : Orderly s t) {u : State} (hsm : u.sm = t.sm := by simp) (hin : u.inputs = t.inputs := by simp) :
    Orderly s u :=
  ⟨hsm ▸ h.sm, fun n => State.input_eq_of_inputs_eq hin n ▸ h.fills n⟩

/-- A change of an input that brings no fixed slot into its fill context. -/
theorem setInput (h : Orderly s t) {n : Fin 4} {ch : InputChannel} (hfill : ∀ e ∈ ch.fill, ¬ s.Fixed e.slot) :
    Orderly s (t.setInput n ch) := by
  refine ⟨h.sm, fun i => ?_⟩
  rw [State.input_setInput]
  split
  · exact hfill
  · exact h.fills i

/-- A change of an input that adds no entry to its fill context. -/
theorem modInput (h : Orderly s t) {n : Fin 4} {f : InputChannel → InputChannel}
    (hfill : (f (t.input n)).fill ⊆ (t.input n).fill := by exact fun _ => id) : Orderly s (t.modInput n f) :=
  h.setInput fun e he => h.fills n e (hfill he)

theorem not_fixed_of_fill (h : Orderly s t) {n : Fin 4} {es : List FrameEntry} (hes : es ⊆ (t.input n).fill) :
    ∀ k ∈ es.map FrameEntry.slot, ¬ s.Fixed k := by
  intro k hk
  obtain ⟨e, he, rfl⟩ := List.mem_map.1 hk
  exact h.fills n e (hes he)

/-! ### Publication and the fill context (R32, R58 to R65) -/

theorem publishSlot (h : Orderly s t) {n : Fin 4} {k : Nat} {f : SlotRecord → SlotRecord} (hk : ¬ s.Fixed k)
    (hf : ∀ r, (f r).writePending = r.writePending := by intro; rfl) : Orderly s (t.publishSlot n k f) := by
  unfold State.publishSlot
  dsimp only
  generalize hevicted : (if t.sm.atQuota n (t.input n).cfg.quota then t.sm.evictOldest n else t.sm) = sm
  have hevict : s.sm.Orderly s.Fixed sm := by
    rw [← hevicted]
    split
    · exact h.sm.evictOldest n
    · exact h.sm
  have hrecord := hevict.modSlot (k := k) (f := fun r => { f r with
    sequence := some (t.sm.seqOf n), timestamp := some t.timeBase, state := .ready, owner := some n }) (absurd · hk)
    nofun hf
  have hlist := h.setSm ((hrecord.setReady (n := n) (l := sm.readyOf n ++ [k]) fun j hj => (List.mem_append.1 hj).elim
    hevict.not_fix_of_ready fun hj => List.mem_singleton.1 hj ▸ hk).setSeq (n := n) (w := t.sm.seqOf n + 1))
  split
  · exact hlist.quiet (Quiet.refl _).countIn
  · exact hlist

theorem leaveDiscards (h : Orderly s t) {n : Fin 4} : Orderly s (t.leaveDiscards n) := by
  have hgone := h.sm.toFreeAll (h.not_fixed_of_fill (n := n)
    (es := (t.input n).fill.filter (t.input n).discardable) (List.filter_subset_self _))
  exact (h.setSm hgone).modInput (n := n) (f := fun ch => { ch with fill := ch.fill.filter fun e => !ch.discardable e })
    (List.filter_subset_self _)

theorem publishEntry (h : Orderly s t) {n : Fin 4} {e : FrameEntry} {rest : List FrameEntry}
    (hfill : (t.input n).fill = e :: rest) : Orderly s (t.publishEntry n e rest) := by
  have htaken : Orderly s (t.modInput n fun ch => { ch with fill := rest }) := h.modInput (by simp [hfill])
  refine (htaken.publishSlot (h.fills n e (by simp [hfill]))).quiet Quiet.publishEntry ?_
  unfold State.publishEntry
  dsimp only
  split <;> simp

theorem publishLoop (h : Orderly s t) {n : Fin 4} {l : List FrameEntry} (hfill : (t.input n).fill = l) :
    Orderly s (t.publishLoop n l) := by
  induction l generalizing t with
  | nil => exact h
  | cons e rest ih =>
    unfold State.publishLoop
    split
    · exact ih (h.publishEntry hfill) State.publishEntry_fill
    · exact h

theorem settle (h : Orderly s t) {n : Fin 4} : Orderly s (t.settle n) := h.leaveDiscards.publishLoop rfl

/-- The record of the entry that closes is not that of a fixed slot, and the entry keeps its slot. -/
theorem closeOpen (h : Orderly s t) {n : Fin 4} {v : Verdict} {short : Bool} : Orderly s (t.closeOpen n v short) := by
  cases hopen : (t.input n).openEntry with
  | none => rwa [State.closeOpen_of_none hopen]
  | some e =>
    have he : ¬ s.Fixed e.slot := h.fills n e (List.mem_of_find?_eq_some hopen)
    have hclose := (h.setSm (h.sm.modSlot (f := fun r => { r with state := .closed, lineCount := some e.received })
      (absurd · he))).setInput (n := n) (ch := (t.input n).closeEntry e v short) fun x hx => by
        obtain ⟨y, hy, rfl⟩ := List.mem_map.1 hx
        rw [FrameEntry.slot_close]
        exact h.fills n y hy
    rw [State.closeOpen_of_some hopen]
    dsimp only
    split
    · exact hclose.quiet (Quiet.refl _).withdrawWrite
    · exact hclose

theorem closeFrame (h : Orderly s t) {n : Fin 4} {v : Verdict} {short : Bool} : Orderly s (t.closeFrame n v short) := by
  unfold State.closeFrame
  exact h.closeOpen.settle.quiet (Quiet.refl _).raiseWrite

theorem endFrame (h : Orderly s t) {n : Fin 4} {st : InState} {v : Verdict} {short : Bool} :
    Orderly s (t.endFrame n st v short) := by
  unfold State.endFrame
  exact (h.quiet (Quiet.refl t).enterState).closeFrame.quiet (Quiet.refl _).enterOrStop

/-! ### Admission (R30, R54, R55) -/

theorem allocate (h : Orderly s t) {n : Fin 4} {tag : Option Word} {k : Nat} (hk : ¬ s.Fixed k) :
    Orderly s (t.allocate n tag k) := by
  have hrecord := h.setSm (h.sm.modSlot (f := fun r => r.allocated n (t.input n).cfg.lineLength tag) (absurd · hk))
  refine hrecord.setInput fun e he => (List.mem_append.1 he).elim (h.fills n e) fun he => ?_
  exact List.mem_singleton.1 he ▸ hk

theorem reclaim (h : Orderly s t) {n : Fin 4} {k : Nat} : Orderly s (t.reclaim n k) := by
  have htake := (h.setSm (h.sm.setReady (n := n) (l := (t.sm.readyOf n).erase k) fun j hj =>
    h.sm.not_fix_of_ready (List.mem_of_mem_erase hj))).quiet ((Quiet.refl _).countIn (n := n) (c := .reclaimed))
  unfold State.reclaim
  dsimp only
  split
  · exact htake
  · exact htake.quiet (Quiet.refl _).countIn

theorem admitFrame (h : Orderly s t) {n : Fin 4} {tag : Option Word} : Orderly s (t.admitFrame n tag) := by
  unfold State.admitFrame
  split
  · exact h.quiet (Quiet.refl t).skip
  · split
    · exact h.quiet (Quiet.refl t).skip.raiseIn
    · split
      next k rest hfree =>
        have hlist : ∀ j ∈ k :: rest, ¬ s.Fixed j := fun j hj => h.sm.not_fix_of_free (hfree ▸ hj)
        obtain ⟨hk, hrest⟩ := List.forall_mem_cons.1 hlist
        exact (h.setSm (h.sm.setFree hrest)).allocate hk
      next =>
        split
        next k hk =>
          have hready : k ∈ t.sm.readyOf n := List.mem_of_mem_dropLast (List.mem_of_find?_eq_some hk)
          exact h.reclaim.allocate (h.sm.not_fix_of_ready hready)
        next => exact h.quiet (Quiet.refl t).skip.raiseIn

theorem takeFrameStart (h : Orderly s t) {n : Fin 4} {tag : Option Word} : Orderly s (t.takeFrameStart n tag) :=
  (h.quiet (Quiet.refl t).restartLossTimer.signalFound).admitFrame

/-! ### Messages of the push link and the loss timer (chapter 2) -/

theorem frameStartFilling (h : Orderly s t) {n : Fin 4} {tag : Option Word} : Orderly s (t.frameStartFilling n tag) := by
  have hclose : Orderly s ((t.broken n).closeFrame n .discard false) := (h.quiet (Quiet.refl t).broken).closeFrame
  unfold State.frameStartFilling
  dsimp only
  split
  · exact hclose.quiet (Quiet.refl _).stopCompletion
  · exact hclose.takeFrameStart

theorem lineFilling (h : Orderly s t) {n : Fin 4} {e : FrameEntry} {payload : List Word} :
    Orderly s (t.lineFilling n e payload) := by
  unfold State.lineFilling
  dsimp only
  split
  · exact (h.quiet (Quiet.refl t).broken).endFrame
  · split
    · exact (h.quiet (Quiet.refl t).broken).endFrame
    · split
      · exact (h.quiet (Quiet.refl t).countIn.raiseIn).endFrame
      next hroom => exact h.quiet ((Quiet.refl t).acceptLine (Nat.lt_of_not_le hroom)).raiseWrite

theorem frameEndFilling (h : Orderly s t) {n : Fin 4} {e : FrameEntry} : Orderly s (t.frameEndFilling n e) := by
  unfold State.frameEndFilling
  split
  · exact h.endFrame
  · split
    · exact h.endFrame
    · exact (h.quiet (Quiet.refl t).broken).endFrame

theorem signalLost (h : Orderly s t) {n : Fin 4} : Orderly s (t.signalLost n) := by
  unfold State.signalLost
  dsimp only
  split
  · exact endFrame (h.quiet (Quiet.refl t).modInput_of_eq.countIn.raiseIn.broken)
  · exact h.quiet (Quiet.refl t).modInput_of_eq.countIn.raiseIn.enterState

/-! ### Writes of the input registers, line writes and channel resets (R12, R25, R26, R42, R47, R48) -/

theorem stopNow (h : Orderly s t) {n : Fin 4} : Orderly s (t.stopNow n) := by
  unfold State.stopNow
  dsimp only
  split
  · exact (h.quiet (Quiet.refl t).countIn).closeFrame.quiet (Quiet.refl _).stopCompletion
  · exact h.quiet (Quiet.refl t).stopCompletion

theorem writeDisable (h : Orderly s t) {n : Fin 4} {mode : StopMode} : Orderly s (t.writeDisable n mode) := by
  have hstop : Orderly s (if (t.input n).stopPending then t else
      match mode with
      | .immediate => t.stopNow n
      | .atFrameEnd => t.stopAtEnd n) := by
    split
    · exact h
    · cases mode with
      | immediate => exact h.stopNow
      | atFrameEnd => exact h.quiet (Quiet.refl t).stopAtEnd
  unfold State.writeDisable
  split
  case h_1 | h_2 | h_3 => exact hstop
  all_goals exact h

theorem writeInCtrl (h : Orderly s t) {n : Fin 4} {enable : Bool} {mode : StopMode} :
    Orderly s (t.writeInCtrl n enable mode) := by
  unfold State.writeInCtrl
  dsimp only
  split
  · exact h.quiet (Quiet.refl t).configIgnored
  · split
    · exact h.quiet (Quiet.refl t).modInput_of_eq.writeEnable
    · exact (h.quiet (Quiet.refl t).modInput_of_eq).writeDisable

theorem trimReady (h : Orderly s t) {n : Fin 4} {quota : Nat} : Orderly s (t.trimReady n quota) := by
  unfold State.trimReady
  exact (h.setSm ((h.sm.setReady fun j hj => h.sm.not_fix_of_ready (List.mem_of_mem_drop hj)).retireAll fun j hj =>
    h.sm.not_fix_of_ready (List.mem_of_mem_take hj))).modInput

theorem writeInConfig (h : Orderly s t) {n : Fin 4} {reg : InConfigReg} {w : Word} :
    Orderly s (t.writeInConfig n reg w) := by
  unfold State.writeInConfig
  split
  · split
    · exact h.quiet (Quiet.refl t).configIgnored
    · dsimp only
      split
      · exact h.modInput.trimReady
      · exact h.modInput
  · exact h.quiet (Quiet.refl t).configIgnored

theorem lineWriteDone (h : Orderly s t) {r : MemRequest} : Orderly s (t.lineWriteDone r) := by
  have hstored := h.quiet ((Quiet.refl t).storeWords (r := r))
  unfold State.lineWriteDone
  split
  next n _ =>
    unfold State.inputWriteDone
    split
    · exact (hstored.setSm (hstored.sm.toFreeAll (hstored.not_fixed_of_fill (List.Subset.refl _)))).modInput
        (List.nil_subset _)
    · exact (hstored.quiet (Quiet.refl _).lineWritten).settle.quiet (Quiet.refl _).finishStopping.raiseWrite
  next => exact hstored

theorem resetInput (h : Orderly s t) {n : Fin 4} : Orderly s (t.resetInput n) := by
  have hlists := (h.sm.flush n).setSeq (n := n) (w := 0)
  have hclose := hlists.closeRecords (es := (t.input n).fill) (h.fills n)
  by_cases hresetting : (t.input n).state = .resetting
  · rw [resetInput_of_resetting hresetting]
    exact (h.of_eq (u := { t with eu := _ })).setInput (h.fills n)
  · rw [resetInput_of_other hresetting]
    have hrecords : s.sm.Orderly s.Fixed (if t.inFlight (.input n) then (t.sm.resetInput n).closeRecords (t.input n).fill
        else ((t.sm.resetInput n).closeRecords (t.input n).fill).toFreeAll ((t.input n).fill.map FrameEntry.slot)) := by
      split
      · exact hclose
      · exact hclose.toFreeAll (h.not_fixed_of_fill (List.Subset.refl _))
    refine setInput (t := { t with sm := _, eu := _, arb := _ }) ⟨hrecords, h.fills⟩ fun e he => ?_
    unfold InputChannel.afterReset at he
    dsimp only at he
    split at he
    · obtain ⟨x, hx, rfl⟩ := List.mem_map.1 he
      exact h.fills n x hx
    · exact absurd he List.not_mem_nil

theorem resetInputs (h : Orderly s t) {ns : List (Fin 4)} : Orderly s (t.resetInputs ns) := by
  induction ns generalizing t with
  | nil => exact h
  | cons n ns ih => exact ih h.resetInput

/-! ### Outputs (R17, R76, R77, R84 to R88) -/

theorem release (h : Orderly s t) {m : Fin 6} : Orderly s (t.release m) := by
  unfold State.release
  split
  · exact h
  next k _ => exact (h.setSm (h.sm.leave m k)).of_eq

theorem closeDisabling (h : Orderly s t) {m : Fin 6} : Orderly s (t.closeDisabling m) := by
  have hrelease := (h.quiet ((Quiet.refl t).closeOutput (m := m))).release (m := m)
  unfold State.closeDisabling
  dsimp only
  split
  · exact hrelease
  · exact hrelease.of_eq

theorem openDisabling (h : Orderly s t) {m : Fin 6} : Orderly s (t.openDisabling m) := by
  unfold State.openDisabling
  split
  · exact (h.quiet (Quiet.refl t).protocolError).closeDisabling.quiet (Quiet.refl _).answerOffline
  · exact h.quiet (Quiet.refl t).answerOffline

theorem bind (h : Orderly s t) {m : Fin 6} {k : Nat} {short lost : Bool} : Orderly s (t.bind m k short lost) := by
  unfold State.bind
  dsimp only
  exact ((h.setSm (h.sm.rebind m (t.output m).retained k)).of_eq).quiet (Quiet.refl _).openShown

theorem select (h : Orderly s t) {m : Fin 6} : Orderly s (t.select m) := by
  unfold State.select
  dsimp only
  split
  · exact h.release.quiet (Quiet.refl _).openBlank
  generalize (t.input (t.output m).cfg.source).lost = lost
  have hreport : Quiet t (t.modOutput m fun o => { o with lossReported := keepLossReport o.lossReported o.cfg.source lost }) :=
    (Quiet.refl t).modOutput
  unfold State.lossStep
  dsimp only
  split
  · exact (h.quiet hreport.reportLoss).release.quiet (Quiet.refl _).openBlank
  · unfold State.freezeStep
    split
    · exact h.quiet hreport.countOut.openShown
    · unfold State.policyStep
      dsimp only
      split
      · exact (h.quiet hreport.modOutput).bind
      · exact h.quiet hreport.modOutput.fallback

theorem writeOutConfig (h : Orderly s t) {m : Fin 6} {reg : OutConfigReg} {enable : Bool} {w : Word} :
    Orderly s (t.writeOutConfig m reg enable w) := by
  unfold State.writeOutConfig
  split
  · exact h.quiet (Quiet.refl t).configIgnored
  · split
    · exact h.quiet (Quiet.refl t).configIgnored
    next cfg _ =>
      have hset : Orderly s (t.modOutput m fun o => { o with cfg := cfg }) := h.of_eq
      dsimp only
      split
      · unfold State.writeOutEnable
        split
        · exact hset.of_eq
        · unfold State.disableIdle
          exact (hset.release (m := m)).of_eq
        · exact hset.of_eq
        · exact hset
      · exact hset

theorem resetOutput (h : Orderly s t) {m : Fin 6} : Orderly s (t.resetOutput m) := by
  unfold State.resetOutput
  exact (h.release (m := m)).of_eq

theorem resetOutputs (h : Orderly s t) {ms : List (Fin 6)} : Orderly s (t.resetOutputs ms) := by
  induction ms generalizing t with
  | nil => exact h
  | cons m ms ih => exact ih h.resetOutput

/-! ### Completions (chapter 8) -/

theorem judgeLine (h : Orderly s t) {m : Fin 6} {r : MemRequest} {ws : List WordRead} : Orderly s (t.judgeLine m r ws) := by
  unfold State.judgeLine
  split
  · exact h
  · split
    · exact h
    · unfold State.enterLine
      dsimp only
      split
      next k _ _ =>
        exact (h.setSm (h.sm.modSlot (k := k) (f := fun x => { x with poison := satAddPoison x.poison })
          (fun hk => (h.sm.aside k hk).held) .intro)).of_eq
      next => exact h.of_eq

theorem lineReadDone (h : Orderly s t) {r : MemRequest} : Orderly s (t.lineReadDone r) := by
  have hcounted := h.quiet ((Quiet.refl t).countEcc (ws := t.store.readWords r.addr r.count))
  unfold State.lineReadDone
  dsimp only
  split
  next m _ =>
    have hjudged := hcounted.judgeLine (m := m) (r := r) (ws := t.store.readWords r.addr r.count)
    refine (hjudged.of_eq ?_ ?_).quiet (Quiet.refl _).raiseRead
    all_goals unfold State.endHandshake; split <;> simp
  · exact hcounted

theorem blockWriteDone (h : Orderly s t) {r : MemRequest} : Orderly s (t.blockWriteDone r) := by
  refine h.quiet (Quiet.refl t).blockWriteDone fun k hk => ?_
  unfold State.blockWriteDone at hk
  split at hk
  · exact hk
  · exact SlotManager.pending_of_clearPending hk

theorem clearWriteDone (h : Orderly s t) {r : MemRequest} : Orderly s (t.clearWriteDone r) := by
  refine h.quiet (Quiet.refl t).clearWriteDone fun k hk => ?_
  unfold State.clearWriteDone at hk
  split at hk
  · exact hk
  · split at hk
    · exact hk
    next c _ =>
      unfold State.clearAdvance at hk
      dsimp only at hk
      split at hk
      · simpa using hk
      · exact SlotManager.pending_of_clearPending (ks := [c.slot]) hk

/-! ### Commands of the host (R117 to R120, R124) -/

theorem refuseCommand (h : Orderly s t) {code : BitVec 8} {r : ResultCode} :
    Orderly s (t.refuseCommand code r) := h.quiet (Quiet.refl t).refuseCommand

theorem cmdSlotClaim (h : Orderly s t) : Orderly s t.cmdSlotClaim := by
  unfold State.cmdSlotClaim
  split
  · exact h.refuseCommand
  · split
    · exact h.refuseCommand
    next k rest hfree =>
      have hlist : ∀ j ∈ k :: rest, ¬ s.Fixed j := fun j hj => h.sm.not_fix_of_free (hfree ▸ hj)
      obtain ⟨hk, hrest⟩ := List.forall_mem_cons.1 hlist
      exact (h.setSm ((h.sm.setFree hrest).modSlot (absurd · hk))).quiet (Quiet.refl _).completeCommand

theorem cmdSlotHold (h : Orderly s t) : Orderly s t.cmdSlotHold := by
  unfold State.cmdSlotHold
  split
  · exact h.refuseCommand
  · split
    next n e _ _ =>
      split
      · exact h.refuseCommand
      · exact (h.setSm (h.sm.hold n e _)).quiet (Quiet.refl _).completeCommand
    · exact h.refuseCommand

theorem cmdInputFlush (h : Orderly s t) : Orderly s t.cmdInputFlush := by
  unfold State.cmdInputFlush
  split
  · exact h.refuseCommand
  · split
    · exact h.refuseCommand
    · exact (h.setSm (h.sm.flush _)).quiet (Quiet.refl _).completeCommand

/-- A slot without write pending is not fixed, so its release may move it. -/
theorem cmdSlotRelease (s : State) : Orderly s s.cmdSlotRelease := by
  have h := refl s
  unfold State.cmdSlotRelease
  split
  · exact h.refuseCommand
  · split
    · exact h.refuseCommand
    · split
      · exact h.refuseCommand
      · split
        · exact h.refuseCommand
        next hpending =>
          exact (h.setSm (h.sm.retire fun hfix => hpending hfix.1)).quiet (Quiet.refl _).completeCommand

theorem cmdSlotPublish (s : State) : Orderly s s.cmdSlotPublish := by
  have h := refl s
  unfold State.cmdSlotPublish
  split
  · exact h.refuseCommand
  · split
    · exact h.refuseCommand
    · split
      · exact h.refuseCommand
      · split
        · exact h.refuseCommand
        next hpending =>
          split
          · exact h.refuseCommand
          · exact (h.publishSlot fun hfix => hpending hfix.1).quiet (Quiet.refl _).completeCommand

end Orderly

end Sys2Proof.Machine
end

