-- ==== Sys2Proof/Proofs/FramesKept.lean ====
section
/-! Every step keeps the open frames (section 4.3, R77, R92), the readers of DRAINING slots (R14), and write pending on HELD slots
(R21). -/

namespace Sys2Proof.Machine

-- One theorem after another, as in the tests: many of them at once would need a thread each.
set_option Elab.async false

/-! ### DRAINING slots and write pending, over every step -/

/-- The two invariants of the slots are kept (R14, R21). -/
structure SlotsKept (s t : State) : Prop where
  draining : s.drainingOk → t.drainingOk
  pending : s.locationsOk → s.pendingOk → t.pendingOk

section

variable {s t : State}

/-- With the slots in their locations every slot with write pending is fixed, so an orderly change leaves it HELD. -/
theorem Orderly.slotsKept (h : Orderly s t) : SlotsKept s t where
  draining hs := drainingOk_iff.2 fun k hk => drainingOk_iff.1 hs k (h.sm.stranded k hk)
  pending hlocations hs := pendingOk_iff.2 fun k hk =>
    (h.sm.aside k (fixed_of_pending hlocations hs (h.sm.pending k hk))).held

/-- A change that moves no slot and sets write pending on HELD slots alone. -/
theorem Quiet.slotsKept (h : Quiet s t)
    (hpending : ∀ k, t.sm.pending k = true → s.sm.pending k = true ∨ (s.sm.slot k).state = .held) : SlotsKept s t where
  draining hs := drainingOk_iff.2 fun k hk =>
    drainingOk_iff.1 hs k ⟨(h.sm.state k).symm.trans hk.1, (congrFun h.readers k).symm.trans hk.2⟩
  pending _ hs := pendingOk_iff.2 fun k hk => (h.sm.state k).trans ((hpending k hk).elim (pendingOk_iff.1 hs k) id)

/-- Fresh slots are FREE and have no write pending. -/
theorem slotsKept_of_fresh (h : t.sm.slots = (List.range t.sm.slots.length).map SlotRecord.fresh) : SlotsKept s t := by
  have hfresh : ∀ r ∈ t.sm.slots, ∃ k, r = SlotRecord.fresh k := fun r hr => by
    rw [h] at hr
    obtain ⟨k, -, rfl⟩ := List.mem_map.1 hr
    exact ⟨k, rfl⟩
  refine ⟨fun _ r hr hstate => ?_, fun _ _ r hr hpending => ?_⟩
  all_goals obtain ⟨k, rfl⟩ := hfresh r hr
  · exact nomatch hstate
  · exact nomatch hpending

/-- Every slot that holds a word of a flush range is HELD when the range may be written (R132). -/
theorem held_of_slotsOf {sm : SlotManager} {as : List Nat} (h : as.all sm.writable = true) {k : Nat}
    (hk : k ∈ sm.slotsOf as) : (sm.slot k).state = .held := by
  obtain ⟨a, ha, hslot⟩ := List.mem_filterMap.1 (List.mem_dedup.1 hk)
  have hwritable := List.all_eq_true.1 h a ha
  simp only [SlotManager.writable, hslot, Bool.and_eq_true, decide_eq_true_eq] at hwritable
  exact hwritable.1

theorem slotsKept_portFlush (s : State) : SlotsKept s s.portFlush := by
  refine (Quiet.refl s).portFlush.slotsKept fun k hk => ?_
  unfold State.portFlush at hk
  split at hk
  case h_2 =>
    unfold State.startFlush at hk
    split at hk
    · exact .inl hk
    · split at hk
      next hwritable =>
        simp only [State.takeFlush, State.raisePort_frame] at hk
        exact (SlotManager.pending_of_setPending hk).imp_right (held_of_slotsOf hwritable)
      next => exact .inl hk
  all_goals exact .inl hk

theorem slotsKept_cmdSlotClear (s : State) : SlotsKept s s.cmdSlotClear := by
  refine (Quiet.refl s).cmdSlotClear.slotsKept fun k hk => ?_
  unfold State.cmdSlotClear at hk
  split at hk
  · exact .inl hk
  · split at hk
    · exact .inl hk
    next j _ =>
      split at hk
      · exact .inl hk
      next hheld =>
        split at hk
        · exact .inl hk
        · simp only [State.startClear, State.raiseClear_frame, State.startCommand_frame] at hk
          refine (SlotManager.pending_of_setPending hk).imp_right fun hj => ?_
          exact List.mem_singleton.1 hj ▸ not_not.1 hheld

theorem slotsKept_cmdPoolBuild (s : State) : SlotsKept s s.cmdPoolBuild := by
  unfold State.cmdPoolBuild
  (repeat' split)
  case isFalse.isFalse.isFalse.isFalse => exact slotsKept_of_fresh (by simp [SlotManager.build])
  all_goals exact (Orderly.refl s).refuseCommand.slotsKept

theorem slotsKept_cmdPoolTeardown (s : State) : SlotsKept s s.cmdPoolTeardown := by
  unfold State.cmdPoolTeardown
  (repeat' split)
  case isFalse.isFalse.isFalse => exact slotsKept_of_fresh (by simp [SlotManager.teardown])
  all_goals exact (Orderly.refl s).refuseCommand.slotsKept

theorem slotsKept_writeGeometry (s : State) (reg : GeometryReg) (w : Word) : SlotsKept s (s.writeGeometry reg w) := by
  refine (Quiet.refl s).writeGeometry.slotsKept fun k hk => .inl ?_
  unfold State.writeGeometry at hk
  split at hk
  · exact hk
  · cases reg <;> exact hk

theorem slotsKept_commandEffect (e : CommandEffect s t) : SlotsKept s t := by
  have hrefl := Orderly.refl s
  cases e with
  | memoryInit => exact (hrefl.quiet (Quiet.refl s).cmdMemoryInit).slotsKept
  | poolBuild => exact slotsKept_cmdPoolBuild s
  | poolTeardown => exact slotsKept_cmdPoolTeardown s
  | slotClaim => exact hrefl.cmdSlotClaim.slotsKept
  | slotHold => exact hrefl.cmdSlotHold.slotsKept
  | slotRelease => exact (Orderly.cmdSlotRelease s).slotsKept
  | slotPublish => exact (Orderly.cmdSlotPublish s).slotsKept
  | slotClear => exact slotsKept_cmdSlotClear s
  | inputFlush => exact hrefl.cmdInputFlush.slotsKept
  | unknown => exact hrefl.refuseCommand.slotsKept

theorem slotsKept_hostEffect (e : HostEffect s t) : SlotsKept s t := by
  have hrefl := Orderly.refl s
  have hquiet := Quiet.refl s
  cases e with
  | ignored => exact hrefl.slotsKept
  | command _ e => exact slotsKept_commandEffect e
  | overrun => exact (hrefl.quiet hquiet.raiseGlobal).slotsKept
  | arguments a => exact hrefl.of_eq.slotsKept
  | portRead => exact (hrefl.quiet hquiet.portRead).slotsKept
  | portFlush => exact slotsKept_portFlush s
  | portDiscard => exact (hrefl.quiet hquiet.portDiscard).slotsKept
  | readAccData => exact (hrefl.quiet hquiet.readAccData).slotsKept
  | writeAccData w => exact (hrefl.quiet hquiet.writeAccData).slotsKept
  | writeAccAddr w => exact (hrefl.quiet hquiet.writeAccAddr).slotsKept
  | writeAccCount w => exact hrefl.of_eq.slotsKept
  | writeInCtrl n enable mode => exact hrefl.writeInCtrl.slotsKept
  | writeInConfig n reg w => exact hrefl.writeInConfig.slotsKept
  | writeOutConfig m reg enable w => exact hrefl.writeOutConfig.slotsKept
  | writeGeometry reg w => exact slotsKept_writeGeometry s reg w
  | writeMcCfg w => exact (hrefl.quiet hquiet.writeMcCfg).slotsKept
  | writeMcRefresh w => exact hrefl.of_eq.slotsKept
  | writeArbCfg w => exact (hrefl.quiet hquiet.writeArbCfg).slotsKept
  | clearEvents reg w => exact hrefl.of_eq.slotsKept
  | writeEnables reg w => exact hrefl.of_eq.slotsKept
  | clearCounter c => exact (hrefl.quiet hquiet.clearCounter).slotsKept
  | captureRecord k => exact hrefl.of_eq.slotsKept
  | captureList l => exact hrefl.of_eq.slotsKept
  | softReset => exact slotsKept_of_fresh rfl
  | channelResets ns ms => exact hrefl.resetInputs.resetOutputs.slotsKept

theorem slotsKept_effect (e : Effect s t) : SlotsKept s t := by
  have hrefl := Orderly.refl s
  have hquiet := Quiet.refl s
  have hend := hrefl.quiet hquiet.endExec
  cases e with
  | idle => exact hrefl.slotsKept
  | hostEffect _ e => exact slotsKept_hostEffect e
  | heldRead => exact hrefl.of_eq.slotsKept
  | takeFrameStart n tag => exact hrefl.takeFrameStart.slotsKept
  | frameStartFilling n tag => exact hrefl.frameStartFilling.slotsKept
  | stray n => exact (hrefl.quiet hquiet.stray).slotsKept
  | lineFilling n e payload => exact hrefl.lineFilling.slotsKept
  | frameEndFilling n e => exact hrefl.frameEndFilling.slotsKept
  | frameEndSkipping n => exact (hrefl.quiet hquiet.enterState).slotsKept
  | signalLost n => exact hrefl.signalLost.slotsKept
  | answerOffline m => exact (hrefl.quiet hquiet.answerOffline).slotsKept
  | select m => exact hrefl.select.slotsKept
  | reopen m => exact (hrefl.quiet hquiet.protocolError.closeOutput).select.slotsKept
  | openDisabling m => exact hrefl.openDisabling.slotsKept
  | pullClosed m => exact (hrefl.quiet hquiet.pullClosed).slotsKept
  | overpull m f => exact (hrefl.quiet hquiet.overpull).slotsKept
  | pullBlank m f => exact (hrefl.quiet hquiet.pullBlank).slotsKept
  | pullLine m f => exact (hrefl.quiet hquiet.pullLine).slotsKept
  | closeIdle m => exact (hrefl.quiet hquiet.protocolError).slotsKept
  | closeShowing m => exact hrefl.of_eq.slotsKept
  | closeDisabling m => exact hrefl.closeDisabling.slotsKept
  | refreshExpired => exact (hrefl.quiet hquiet.refreshExpired).slotsKept
  | nextStage => exact hrefl.of_eq.slotsKept
  | enterReady => exact (hrefl.quiet hquiet.enterReady).slotsKept
  | advanceTime => exact hrefl.of_eq.slotsKept
  | loseCharge decay => exact hrefl.of_eq.slotsKept
  | lineWriteDone r => exact (hend.lineWriteDone.quiet (Quiet.refl _).afterDelivery).slotsKept
  | lineReadDone r => exact (hend.lineReadDone.quiet (Quiet.refl _).afterDelivery).slotsKept
  | blockReadDone r => exact (hend.quiet (Quiet.refl _).blockReadDone.afterDelivery).slotsKept
  | blockWriteDone r => exact (hend.blockWriteDone.quiet (Quiet.refl _).afterDelivery).slotsKept
  | clearWriteDone r => exact (hend.clearWriteDone.quiet (Quiet.refl _).afterDelivery).slotsKept
  | refreshDone e => exact (hend.quiet (Quiet.refl _).refreshDone.afterDelivery).slotsKept
  | orphanDone r =>
    exact (hend.quiet (Quiet.refl _).orphanEffect.raiseDeferred.retestReader.afterDelivery).slotsKept
  | pinReset => exact slotsKept_of_fresh rfl
  | deassert => exact hrefl.of_eq.slotsKept

end

/-! ### Open frames -/

/-- What the invariant of the open frames reads of an output. -/
structure FrameView where
  state : OutState
  frame : Option OpenFrame
  retained : Option Nat

/-- A frame is open exactly in SHOWING and in DISABLING before the close, after which nothing is retained (R77, R92). -/
def FrameView.ok (v : FrameView) : Prop :=
  (v.state = .off ∨ v.state = .idle → v.frame = none) ∧ (v.state = .showing → v.frame.isSome = true) ∧
    (v.state = .disabling → v.frame = none → v.retained = none)

def OutputChannel.view (o : OutputChannel) : FrameView := ⟨o.state, o.frame, o.retained⟩

/-- The views of all outputs. -/
def State.views (s : State) (m : Fin 6) : FrameView := (s.output m).view

section

variable {s t : State} {m : Fin 6}

theorem views_of_outputs (h : t.outputs = s.outputs) : t.views = s.views :=
  funext fun i => congrArg OutputChannel.view (State.output_eq_of_outputs_eq h i)

theorem framesOk_of_views (h : t.views = s.views) (hs : s.framesOk) : t.framesOk := by
  have hok : ∀ m, (s.views m).ok := hs
  rw [← h] at hok
  exact hok

theorem framesOk_of_output (hs : s.framesOk) (h : ∀ i, t.output i = s.output i := by simp [State.outputs_getElem]) : t.framesOk := fun m =>
  h m ▸ hs m

/-- No output but OUTm has changed its view. -/
def OneView (m : Fin 6) (s t : State) : Prop := ∀ i, i ≠ m → t.views i = s.views i

/-- OUTm shows a frame, whatever it did before, and no other output has changed its view. -/
def Shows (m : Fin 6) (s t : State) : Prop := OneView m s t ∧ (t.views m).state = .showing ∧ (t.views m).frame.isSome = true

theorem OneView.framesOk (h : OneView m s t) (hs : s.framesOk) (hm : (t.views m).ok) : t.framesOk := by
  intro i
  by_cases hi : i = m
  · exact hi ▸ hm
  · have hok : (s.views i).ok := hs i
    rw [← h i hi] at hok
    exact hok

theorem Shows.framesOk (h : Shows m s t) (hs : s.framesOk) : t.framesOk := by
  obtain ⟨hothers, hstate, hframe⟩ := h
  refine hothers.framesOk hs ⟨fun h => ?_, fun _ => hframe, fun h => ?_⟩ <;> simp [hstate] at h

namespace OneView

theorem refl (s : State) (m : Fin 6) : OneView m s s := fun _ _ => rfl

theorem of_views {u : State} (h : OneView m s t) (hu : u.views = t.views) : OneView m s u := fun i hi =>
  hu ▸ h i hi

theorem of_outputs {u : State} (h : OneView m s t) (hu : u.outputs = t.outputs := by simp) : OneView m s u :=
  h.of_views (views_of_outputs hu)

theorem setOutput (h : OneView m s t) {o : OutputChannel} : OneView m s (t.setOutput m o) := fun i hi => by
  rw [State.views, State.output_setOutput, if_neg (Ne.symm hi)]
  exact h i hi

theorem modOutput (h : OneView m s t) {f : OutputChannel → OutputChannel} : OneView m s (t.modOutput m f) := h.setOutput

theorem setSm (h : OneView m s t) {sm : SlotManager} : OneView m s { t with sm := sm } := h

theorem raiseOut (h : OneView m s t) {i : Fin 6} {e : OutEvent} : OneView m s (t.raiseOut i e) := h

theorem withdrawRead (h : OneView m s t) {i : Fin 6} : OneView m s (t.withdrawRead i) := h

theorem countOut (h : OneView m s t) {c : OutCounter} : OneView m s (t.countOut m c) := h.modOutput

end OneView

theorem view_modOutput (s : State) (m : Fin 6) (f : OutputChannel → OutputChannel) :
    (s.modOutput m f).views m = (f (s.output m)).view := by
  rw [State.views, State.output_modOutput, if_pos rfl]

/-- A change of an output beside its state, frame and retained slot. -/
theorem views_modOutput_of_eq {f : OutputChannel → OutputChannel} (hf : ∀ o, (f o).view = o.view := by intro; rfl) :
    (s.modOutput m f).views = s.views := by
  funext i
  by_cases hi : i = m
  · rw [hi, view_modOutput, hf]; rfl
  · exact OneView.modOutput (OneView.refl s m) i hi

theorem views_raiseRead (s : State) (m : Fin 6) : (s.raiseRead m).views = s.views := by
  unfold State.raiseRead
  split
  · rfl
  next f k _ =>
    have hfetch : (({ s with arb := { s.arb with
        outReq := s.arb.outReq.set m (some (s.lineReadRequest m f k)) } } : State).modOutput m
          fun o => { o with fetch := o.fetch + 1 }).views = s.views := views_modOutput_of_eq
    exact (views_of_outputs (by simp)).trans hfetch

theorem views_protocolError (s : State) (m : Fin 6) : (s.protocolError m).views = s.views := by
  have hcount : (s.countOut m .protocol).views = s.views := views_modOutput_of_eq
  exact (views_of_outputs rfl).trans hcount

/-! ### Release, close and the answers of a selection -/

theorem OneView.release (h : OneView m s t) : OneView m s (t.release m) := by
  unfold State.release
  split
  · exact h
  · exact h.setSm.modOutput

theorem view_release (s : State) (m : Fin 6) : (s.release m).views m = { s.views m with retained := none } := by
  unfold State.release
  split
  next hnone => simp [State.views, OutputChannel.view, hnone]
  next => exact view_modOutput _ m _

theorem OneView.closeOutput (h : OneView m s t) : OneView m s (t.closeOutput m) := by
  unfold State.closeOutput
  split
  · exact h
  · dsimp only
    split
    · exact h.countOut.raiseOut.modOutput.withdrawRead
    · exact h.modOutput.withdrawRead

theorem view_closeOutput (s : State) (m : Fin 6) : (s.closeOutput m).views m = { s.views m with frame := none } := by
  unfold State.closeOutput
  split
  next hnone => simp [State.views, OutputChannel.view, hnone]
  next f _ =>
    dsimp only
    split <;> simp [State.views, OutputChannel.view, State.countOut, OutputChannel.countBy]

theorem OneView.openBlank (h : OneView m s t) {lost : Bool} : Shows m s (t.openBlank m lost) :=
  ⟨h.modOutput, by simp [State.openBlank, view_modOutput, OutputChannel.view]⟩

theorem OneView.openShown (h : OneView m s t) {k : Nat} {status : AnswerStatus} {short lost : Bool} :
    Shows m s (t.openShown m k status short lost) := by
  unfold State.openShown
  refine ⟨h.modOutput.of_views (views_raiseRead _ m), ?_⟩
  rw [views_raiseRead, view_modOutput]
  exact ⟨rfl, rfl⟩

/-- Every selection ends in a frame that is shown (R80). -/
theorem OneView.select (h : OneView m s t) : Shows m s (t.select m) := by
  unfold State.select
  dsimp only
  split
  · exact h.release.openBlank
  generalize (t.input (t.output m).cfg.source).lost = lost
  have hreport : OneView m s
      (t.modOutput m fun o => { o with lossReported := keepLossReport o.lossReported o.cfg.source lost }) := h.modOutput
  unfold State.lossStep
  dsimp only
  split
  · refine OneView.openBlank (OneView.release ?_)
    unfold State.reportLoss
    split
    · exact hreport
    · exact hreport.modOutput.raiseOut
  · unfold State.freezeStep
    split
    · exact hreport.countOut.openShown
    · unfold State.policyStep
      dsimp only
      split
      next k short _ =>
        unfold State.bind
        exact hreport.modOutput.setSm.modOutput.openShown
      next =>
        unfold State.fallback
        split
        · exact hreport.modOutput.countOut.openShown
        · exact hreport.modOutput.openBlank

/-! ### Disables, resets and completed reads -/

theorem view_enterDisabled (s : State) (m : Fin 6) : (s.enterDisabled m).views m = { s.views m with state := .off } :=
  view_modOutput s m fun o => { o with state := .off }

theorem OneView.enterDisabled (h : OneView m s t) : OneView m s (t.enterDisabled m) := h.modOutput.raiseOut

/-- An output that enters OFF without an open frame (R76, R77, R109). -/
theorem OneView.framesOk_enterDisabled (h : OneView m s t) (hs : s.framesOk) (hframe : (t.views m).frame = none) :
    (t.enterDisabled m).framesOk := by
  refine h.enterDisabled.framesOk hs ?_
  rw [view_enterDisabled, FrameView.ok]
  simp [hframe]

/-- The close in DISABLING leaves nothing open and nothing retained (R77, R109). -/
theorem framesOk_closeDisabling (hs : s.framesOk) (hstate : (s.output m).state = .disabling) :
    (s.closeDisabling m).framesOk := by
  have hothers : OneView m s ((s.closeOutput m).release m) := (OneView.refl s m).closeOutput.release
  have hview : ((s.closeOutput m).release m).views m = ⟨.disabling, none, none⟩ := by
    rw [view_release, view_closeOutput, State.views, OutputChannel.view, hstate]
  unfold State.closeDisabling
  dsimp only
  split
  · refine hothers.framesOk hs ?_
    rw [hview]
    simp [FrameView.ok]
  · exact hothers.framesOk_enterDisabled hs (by rw [hview])

theorem framesOk_openDisabling (hs : s.framesOk) (hstate : (s.output m).state = .disabling) :
    (s.openDisabling m).framesOk := by
  have hstate' : ((s.protocolError m).output m).state = .disabling := by
    rw [← hstate]
    exact congrArg FrameView.state (congrFun (views_protocolError s m) m)
  unfold State.openDisabling
  split
  · exact framesOk_of_views views_modOutput_of_eq
      (framesOk_closeDisabling (framesOk_of_views (views_protocolError s m) hs) hstate')
  · exact framesOk_of_views views_modOutput_of_eq hs

/-- A frame closed in SHOWING leaves the output in IDLE (R108). -/
theorem framesOk_closeShowing (hs : s.framesOk) :
    ((s.closeOutput m).modOutput m fun o => { o with state := .idle }).framesOk := by
  have hview := congrArg FrameView.frame (view_closeOutput s m)
  refine (OneView.refl s m).closeOutput.modOutput.framesOk hs ?_
  rw [view_modOutput, FrameView.ok]
  simpa [OutputChannel.view, State.views] using hview

/-- An enable finds no frame open, a disable in IDLE neither, and one in SHOWING keeps the open frame (R76). -/
theorem framesOk_writeOutEnable (hs : s.framesOk) (enable : Bool) : (s.writeOutEnable m enable).framesOk := by
  obtain ⟨hnone, hsome, -⟩ := hs m
  unfold State.writeOutEnable
  split
  next hoff =>
    refine (OneView.refl s m).modOutput.framesOk hs ?_
    rw [view_modOutput, FrameView.ok]
    simp [OutputChannel.view, hnone (.inl hoff)]
  next hidle =>
    have hframe : ((s.release m).views m).frame = none := by
      rw [view_release]
      exact hnone (.inr hidle)
    refine (OneView.refl s m).release.modOutput.framesOk_enterDisabled hs ?_
    rw [view_modOutput]
    exact hframe
  next hshowing =>
    refine (OneView.refl s m).modOutput.framesOk hs ?_
    rw [view_modOutput, FrameView.ok]
    simp [OutputChannel.view, Option.isSome_iff_ne_none.1 (hsome hshowing)]
  next => exact hs

theorem framesOk_writeOutConfig (hs : s.framesOk) (reg : OutConfigReg) (enable : Bool) (w : Word) :
    (s.writeOutConfig m reg enable w).framesOk := by
  unfold State.writeOutConfig
  split
  · exact framesOk_of_output hs
  · split
    · exact framesOk_of_output hs
    next cfg _ =>
      have hset : (s.modOutput m fun o => { o with cfg := cfg }).framesOk := framesOk_of_views views_modOutput_of_eq hs
      dsimp only
      split
      · exact framesOk_writeOutEnable hset enable
      · exact hset

theorem framesOk_resetOutput (hs : s.framesOk) : (s.resetOutput m).framesOk := by
  unfold State.resetOutput
  refine (OneView.refl s m).release.of_outputs.modOutput.framesOk hs ?_
  rw [view_modOutput, FrameView.ok]
  simp [OutputChannel.view]

theorem framesOk_resetOutputs (hs : s.framesOk) (ms : List (Fin 6)) : (s.resetOutputs ms).framesOk := by
  induction ms generalizing s with
  | nil => exact hs
  | cons m ms ih => exact ih (framesOk_resetOutput hs)

theorem views_judgeLine (s : State) (m : Fin 6) (r : MemRequest) (ws : List WordRead) :
    (s.judgeLine m r ws).views = s.views := by
  have hline := views_modOutput_of_eq (s := s) (m := m) (f := fun o =>
    { o with fifo := o.fifo ++ [⟨r.number, anyPoisoned ws, r.epoch, ws.map WordRead.word⟩] })
  unfold State.judgeLine
  split
  · rfl
  · split
    · rfl
    · unfold State.enterLine
      dsimp only
      split <;> exact hline

theorem framesOk_lineReadDone (hs : s.framesOk) (r : MemRequest) : (s.lineReadDone r).framesOk := by
  have hcounted : (s.countEcc (s.store.readWords r.addr r.count)).framesOk := framesOk_of_output hs
  unfold State.lineReadDone
  dsimp only
  split
  next m _ =>
    have hjudged := framesOk_of_views (views_judgeLine _ m r (s.store.readWords r.addr r.count)) hcounted
    refine framesOk_of_views (views_raiseRead _ m) ?_
    unfold State.endHandshake
    split
    next hend =>
      simp only [Bool.and_eq_true, Option.isNone_iff_eq_none] at hend
      exact (OneView.refl _ m).framesOk_enterDisabled hjudged hend.2
    next => exact hjudged
  next => exact hcounted

/-! ### Line pulls (R99 to R105) -/

/-- The two views tell of the same state and slot, and both of an open frame or of none. -/
def FrameView.Alike (v v' : FrameView) : Prop :=
  v'.state = v.state ∧ v'.frame.isSome = v.frame.isSome ∧ v'.retained = v.retained

theorem FrameView.Alike.ok {v v' : FrameView} (h : v.Alike v') (hv : v.ok) : v'.ok := by
  obtain ⟨hstate, hframe, hretained⟩ := h
  have hnone : v'.frame = none ↔ v.frame = none := by
    rw [← Option.isNone_iff_eq_none, ← Option.isNone_iff_eq_none, ← Option.not_isSome, ← Option.not_isSome, hframe]
  rwa [FrameView.ok, hstate, hframe, hretained, hnone]

theorem OneView.framesOk_of_alike (h : OneView m s t) (hs : s.framesOk) (hm : (s.views m).Alike (t.views m)) : t.framesOk :=
  h.framesOk hs (hm.ok (hs m))

/-- A pull marks the open frame at most. -/
theorem alike_of_open {o o' : OutputChannel} {f g : OpenFrame} (h : o.frame = some f) (hg : o'.frame = some g)
    (hstate : o'.state = o.state := by rfl) (hretained : o'.retained = o.retained := by rfl) : o.view.Alike o'.view :=
  ⟨hstate, by rw [OutputChannel.view, OutputChannel.view, h, hg]; rfl, hretained⟩

theorem alike_pullMissing {o : OutputChannel} {f : OpenFrame} (h : o.frame = some f) (k : Nat) :
    o.view.Alike (o.pullMissing f k).view := by
  obtain ⟨kind, payload, hs⟩ := Quiet.sendFill_eq o f k
  simp only [OutputChannel.pullMissing, hs]
  exact alike_of_open h rfl

theorem alike_pullPoisoned {o : OutputChannel} {f : OpenFrame} (h : o.frame = some f) (k : Nat) :
    o.view.Alike (o.pullPoisoned f k).view := by
  obtain ⟨kind, payload, hs⟩ := Quiet.sendFill_eq o f k
  simp only [OutputChannel.pullPoisoned, hs]
  exact alike_of_open h rfl

/-- What a pull sends and marks is one new value of the output. -/
theorem framesOk_setOutput (hs : s.framesOk) {o : OutputChannel} (ho : (s.output m).view.Alike o.view) :
    (s.setOutput m o).framesOk := by
  refine (OneView.refl s m).setOutput.framesOk_of_alike hs ?_
  rw [State.views, State.views, State.output_setOutput, if_pos rfl]
  exact ho

theorem framesOk_refetch (hs : s.framesOk) : (s.refetch m).framesOk := by
  unfold State.refetch
  refine framesOk_of_views (views_raiseRead _ m) ?_
  split
  · exact framesOk_of_output hs
  · exact hs

theorem framesOk_pullLine (hs : s.framesOk) {f : OpenFrame} (h : (s.output m).frame = some f) :
    (s.pullLine m f).framesOk := by
  have hmissing := framesOk_setOutput hs (alike_pullMissing h (s.output m).pull)
  unfold State.pullLine
  dsimp only
  refine framesOk_refetch ?_
  split
  · split
    · split
      · exact framesOk_of_output (framesOk_setOutput hs (alike_pullPoisoned h (s.output m).pull))
      · exact framesOk_setOutput hs ⟨rfl, rfl, rfl⟩
    · split
      · exact hmissing
      · exact framesOk_of_output hmissing
  · split
    · exact hmissing
    · exact framesOk_of_output hmissing

theorem framesOk_overpull (hs : s.framesOk) {f : OpenFrame} (h : (s.output m).frame = some f) :
    (s.overpull m f).framesOk := by
  have hset := framesOk_setOutput hs (o := { ((s.output m).send (s.output m).pull .fillBlank f.blankLine).countBy .overpulls 1
    with pull := pullNext (s.output m).pull, frame := some { f with firstOverpull := true } }) (alike_of_open h rfl)
  unfold State.overpull
  dsimp only
  split
  · exact hset
  · exact framesOk_of_output hset

theorem framesOk_pullClosed (hs : s.framesOk) : (s.pullClosed m).framesOk := by
  have hset := framesOk_setOutput hs (m := m) (o := (s.output m).send 0 .fillBlank
    (List.replicate (s.output m).cfg.blankLength (s.output m).cfg.blankWord)) ⟨rfl, rfl, rfl⟩
  unfold State.pullClosed
  dsimp only
  split
  · exact framesOk_of_views (views_protocolError _ m) hset
  · exact hset

/-! ### Every step -/

theorem framesOk_of_reset (h : t.outputs = outputsReset) : t.framesOk := by
  intro m
  rw [State.output_of_reset h m]
  simp [OutputChannel.reset]

theorem framesOk_clearCounter (hs : s.framesOk) (c : CounterName) : (s.clearCounter c).framesOk := by
  unfold State.clearCounter
  split
  · exact framesOk_of_output hs
  · exact framesOk_of_views views_modOutput_of_eq hs
  all_goals exact framesOk_of_output hs

theorem framesOk_commandEffect (hs : s.framesOk) (e : CommandEffect s t) : t.framesOk := by
  cases e <;> exact framesOk_of_output hs

theorem framesOk_hostEffect (hs : s.framesOk) (e : HostEffect s t) : t.framesOk := by
  cases e with
  | ignored => exact hs
  | command _ e => exact framesOk_commandEffect hs e
  | writeOutConfig m reg enable w => exact framesOk_writeOutConfig hs reg enable w
  | clearCounter c => exact framesOk_clearCounter hs c
  | softReset => exact framesOk_of_reset rfl
  | channelResets ns ms => exact framesOk_resetOutputs (framesOk_of_output hs) ms
  | _ => exact framesOk_of_output hs

theorem framesOk_effect (hs : s.framesOk) (e : Effect s t) : t.framesOk := by
  cases e with
  | idle => exact hs
  | hostEffect _ e => exact framesOk_hostEffect hs e
  | answerOffline m => exact framesOk_of_views views_modOutput_of_eq hs
  | select m => exact (OneView.refl s m).select.framesOk hs
  | reopen m =>
    exact ((OneView.refl s m).of_views (views_protocolError s m)).closeOutput.select.framesOk hs
  | openDisabling m h => exact framesOk_openDisabling hs h
  | pullClosed m => exact framesOk_pullClosed hs
  | overpull m f h => exact framesOk_overpull hs h
  | pullBlank m f => exact framesOk_setOutput hs ⟨rfl, rfl, rfl⟩
  | pullLine m f h => exact framesOk_pullLine hs h
  | closeIdle m => exact framesOk_of_views (views_protocolError s m) hs
  | closeShowing m => exact framesOk_closeShowing hs
  | closeDisabling m h => exact framesOk_closeDisabling hs h
  | lineReadDone r =>
    have hend : s.endExec.framesOk := framesOk_of_output hs
    exact framesOk_of_output (framesOk_lineReadDone hend r)
  | orphanDone r =>
    have horphan : (s.endExec.orphanEffect r).raiseDeferred.framesOk := framesOk_of_output hs
    refine framesOk_of_output (s := (s.endExec.orphanEffect r).raiseDeferred.retestReader r.client) ?_
    unfold State.retestReader
    split
    · exact framesOk_of_views (views_raiseRead _ _) horphan
    · exact horphan
  | pinReset => exact framesOk_of_reset rfl
  | _ => exact framesOk_of_output hs

end

/-- Settles O15: the outputs' views stay in order, no slot is stranded, and a slot with write pending is fixed, so nothing moves
it before its write completes. -/
theorem framesDrainingPendingKept : Obligations.FramesDrainingPendingKept := by
  intro s t hstep
  obtain ⟨rest, heffect⟩ := step_effect hstep
  have hslots := slotsKept_effect heffect
  exact ⟨fun hs => framesOk_effect (s := { s with pending := rest }) hs heffect, hslots.draining, hslots.pending⟩

end Sys2Proof.Machine
end

