-- ==== Sys2Proof/Proofs/Selection.lean ====
section
/-! FRAME_OPEN: the steps of a selection, each on an output written field by field, and the answers they come to (R73 to R88). -/

namespace Sys2Proof.Machine

-- One theorem after another, as in the tests: many of them at once would need a thread each.
set_option Elab.async false

theorem State.setOutput_output (s : State) (m : Fin 6) : s.setOutput m (s.output m) = s := by
  simp [State.setOutput, State.output]

theorem output_setOutput_self (s : State) (m : Fin 6) (o : OutputChannel) : (s.setOutput m o).output m = o := by
  rw [State.output_setOutput, if_pos rfl]

section

variable {s : State} {m : Fin 6}

/-! ### FRAME_OPEN by the state of its output (R79) -/

theorem exec_frameOpen_of_off (h : (s.output m).state = .off) : exec (.frameOpen m) s = .next (s.answerOffline m) := by
  simp [exec, execFrameOpen, h]

theorem exec_frameOpen_of_idle (h : (s.output m).state = .idle) : exec (.frameOpen m) s = .next (s.select m) := by
  simp [exec, execFrameOpen, h]

theorem exec_frameOpen_of_showing (h : (s.output m).state = .showing) :
    exec (.frameOpen m) s = .next (((s.protocolError m).closeOutput m).select m) := by
  simp [exec, execFrameOpen, h]

theorem exec_frameOpen_of_disabling (h : (s.output m).state = .disabling) :
    exec (.frameOpen m) s = .next (s.openDisabling m) := by
  simp [exec, execFrameOpen, h]

/-! ### Release and answers, on an output written field by field (R19, R73, R88, R93) -/

/-- The slot manager after OUTm has released what it retained (R19). -/
def SlotManager.released (sm : SlotManager) (m : Fin 6) (retained : Option Nat) : SlotManager :=
  match retained with
  | some k => sm.leave m k
  | none => sm

theorem release_setOutput (s : State) (m : Fin 6) (o : OutputChannel) :
    (s.setOutput m o).release m =
      ({ s with sm := s.sm.released m o.retained } : State).setOutput m { o with retained := none } := by
  cases h : o.retained with
  | none =>
    rw [release_of_none (by rw [output_setOutput_self, h]), output_setOutput_self]
    exact State.setOutput_setOutput s m o _
  | some k =>
    rw [release_of_some (by rw [output_setOutput_self, h]), output_setOutput_self]
    exact State.setOutput_setOutput { s with sm := s.sm.leave m k } m o _

theorem openBlank_setOutput (s : State) (m : Fin 6) (o : OutputChannel) (lost : Bool) :
    (s.setOutput m o).openBlank m lost = s.setOutput m { o.countBy .framesBlank 1 with
      state := .showing, pull := 0, fetch := 0
      answer := some (blankAnswer o.cfg .blank lost)
      frame := some (openRecord o.cfg (blankAnswer o.cfg .blank lost) none) } :=
  modOutput_setOutput s m o _

theorem openShown_setOutput (s : State) (m : Fin 6) (o : OutputChannel) (k : Nat) (status : AnswerStatus)
    (short lost : Bool) :
    (s.setOutput m o).openShown m k status short lost = (s.setOutput m { o with
      state := .showing, pull := 0, fetch := 0, epoch := o.epoch + 1
      answer := some (shownAnswer o.cfg (s.sm.slot k) status short lost)
      frame := some (openRecord o.cfg (shownAnswer o.cfg (s.sm.slot k) status short lost) (some k)) }).raiseRead m := by
  rw [State.openShown, modOutput_setOutput]
  rfl

/-! ### The steps of a selection (R80 to R88) -/

theorem keepLossReport_eq (reported : Option (Fin 4)) (src : Fin 4) (lost : Bool) :
    keepLossReport reported src lost = if lost = true ∧ reported = some src then reported else none := by
  simp [keepLossReport]

/-- MUTE answers BLANK, whatever the source does (R80). -/
theorem select_of_mute (h : (s.output m).cfg.mute = true) :
    s.select m = (s.release m).openBlank m (s.input (s.output m).cfg.source).lost := by
  simp [State.select, h]

/-- A lost source under loss action BLANK (R80, R81). -/
theorem select_of_lost (hmute : (s.output m).cfg.mute = false) (hlost : (s.input (s.output m).cfg.source).lost = true)
    (haction : (s.output m).cfg.lossAction = .blank) :
    s.select m = (((s.setOutput m { s.output m with
      lossReported := keepLossReport (s.output m).lossReported (s.output m).cfg.source true }).reportLoss m).release
        m).openBlank m true := by
  simp [State.select, State.lossStep, hmute, hlost, haction, State.modOutput]

/-- OUTm after the loss step of a selection that reports nothing: the loss-reported flag is kept or cleared (R81). -/
def State.lossRead (s : State) (m : Fin 6) : OutputChannel :=
  { s.output m with
    lossReported := if (s.input (s.output m).cfg.source).lost = true ∧
      (s.output m).lossReported = some (s.output m).cfg.source then (s.output m).lossReported else none }

/-- A source that is not lost, or whose loss is kept, leads to the freeze step and the policy (R80). -/
theorem select_of_kept (hmute : (s.output m).cfg.mute = false)
    (hkept : (s.input (s.output m).cfg.source).lost = false ∨ (s.output m).cfg.lossAction = .keep) :
    s.select m = (s.setOutput m (s.lossRead m)).freezeStep m (s.input (s.output m).cfg.source).lost := by
  rcases hkept with h | h <;> simp [State.select, State.lossStep, hmute, h, State.modOutput, State.lossRead, keepLossReport]

/-- SOURCE_LOST is raised unless it stands under this source already (R81). -/
theorem reportLoss_setOutput (s : State) (m : Fin 6) (o : OutputChannel) :
    (s.setOutput m { o with lossReported := keepLossReport o.lossReported o.cfg.source true }).reportLoss m =
      ({ s with eu := if o.lossReported = some o.cfg.source then s.eu else s.eu.setBits (.output m) 0x20 } :
        State).setOutput m { o with lossReported := some o.cfg.source } := by
  rw [keepLossReport_eq, State.reportLoss, output_setOutput_self]
  by_cases h : o.lossReported = some o.cfg.source
  · simp [h]
  · simp [h, modOutput_setOutput]
    rfl

theorem freezeStep_setOutput_of_frozen (s : State) (m : Fin 6) {o : OutputChannel} {k : Nat} (hfreeze : o.cfg.freeze = true)
    (hretained : o.retained = some k) (lost : Bool) :
    (s.setOutput m o).freezeStep m lost = (s.setOutput m (o.countBy .framesFrozen 1)).openShown m k .picture false lost := by
  rw [State.freezeStep, output_setOutput_self, hfreeze, hretained]
  exact congrArg (State.openShown · m k .picture false lost) (modOutput_setOutput s m o _)

theorem freezeStep_setOutput_of_free (s : State) (m : Fin 6) {o : OutputChannel} (h : o.cfg.freeze = false ∨ o.retained = none)
    (lost : Bool) : (s.setOutput m o).freezeStep m lost = (s.setOutput m o).policyStep m lost := by
  rw [State.freezeStep, output_setOutput_self]
  split
  next hfreeze hretained => simp [hfreeze, hretained] at h
  next => rfl

/-- The tests on L, and then the policy on the source's ready list (R82 to R85). -/
theorem policyStep_setOutput_of_none (s : State) (m : Fin 6) {o : OutputChannel} {last : Option LastShown} (lost : Bool)
    (hlast : last = keepLast o.last o.cfg.source (s.sm.seqOf o.cfg.source))
    (hchoose : choosePolicy s.sm (s.sm.readyOf o.cfg.source) o.cfg.policy o.cfg.delay last = none) :
    (s.setOutput m o).policyStep m lost = (s.setOutput m { o with last := last }).fallback m lost := by
  rw [State.policyStep, modOutput_setOutput, output_setOutput_self]
  simp only [output_setOutput_self, State.setOutput_frame, ← hlast, hchoose]

theorem policyStep_setOutput_of_some (s : State) (m : Fin 6) {o : OutputChannel} {last : Option LastShown} {k : Nat}
    {short : Bool} (lost : Bool) (hlast : last = keepLast o.last o.cfg.source (s.sm.seqOf o.cfg.source))
    (hchoose : choosePolicy s.sm (s.sm.readyOf o.cfg.source) o.cfg.policy o.cfg.delay last = some (k, short)) :
    (s.setOutput m o).policyStep m lost = (s.setOutput m { o with last := last }).bind m k short lost := by
  rw [State.policyStep, modOutput_setOutput, output_setOutput_self]
  simp only [output_setOutput_self, State.setOutput_frame, ← hlast, hchoose]

theorem fallback_setOutput_of_some (s : State) (m : Fin 6) {o : OutputChannel} {k : Nat} (h : o.retained = some k)
    (lost : Bool) : (s.setOutput m o).fallback m lost =
      (s.setOutput m (o.countBy .framesRepeated 1)).openShown m k .repeated false lost := by
  rw [State.fallback, output_setOutput_self, h]
  exact congrArg (State.openShown · m k .repeated false lost) (modOutput_setOutput s m o _)

theorem fallback_setOutput_of_none (s : State) (m : Fin 6) {o : OutputChannel} (h : o.retained = none) (lost : Bool) :
    (s.setOutput m o).fallback m lost = (s.setOutput m o).openBlank m lost := by
  rw [State.fallback, output_setOutput_self, h]

/-! ### Binding (R87): joins and leaves keep every descriptor -/

section

variable (sm : SlotManager) (cfg : OutConfig) (status : AnswerStatus) (short lost : Bool)

/-- An answer shows nothing of the fields that a change of a record may concern. -/
theorem shownAnswer_modSlot (k j : Nat) {f : SlotRecord → SlotRecord}
    (hf : ∀ r, shownAnswer cfg (f r) status short lost = shownAnswer cfg r status short lost) :
    shownAnswer cfg ((sm.modSlot k f).slot j) status short lost = shownAnswer cfg (sm.slot j) status short lost := by
  rw [SlotManager.slot_modSlot]
  split
  next => exact hf _
  next => rfl

theorem shownAnswer_join (m : Fin 6) (k j : Nat) :
    shownAnswer cfg ((sm.join m k).slot j) status short lost = shownAnswer cfg (sm.slot j) status short lost :=
  shownAnswer_modSlot sm cfg status short lost k j fun _ => rfl

theorem shownAnswer_leave (m : Fin 6) (k j : Nat) :
    shownAnswer cfg ((sm.leave m k).slot j) status short lost = shownAnswer cfg (sm.slot j) status short lost := by
  have hreaders : shownAnswer cfg ((sm.modSlot k fun r => { r with readers := r.readers &&& ~~~readerBit m }).slot j)
      status short lost = shownAnswer cfg (sm.slot j) status short lost :=
    shownAnswer_modSlot sm cfg status short lost k j fun _ => rfl
  unfold SlotManager.leave
  dsimp only
  split
  · exact (shownAnswer_modSlot _ cfg status short lost k j (f := fun r => r.movedTo .free) fun _ => rfl).trans hreaders
  · exact hreaders

theorem shownAnswer_rebind (m : Fin 6) (retained : Option Nat) (k j : Nat) :
    shownAnswer cfg ((sm.rebind m retained k).slot j) status short lost = shownAnswer cfg (sm.slot j) status short lost := by
  unfold SlotManager.rebind
  split
  · rfl
  · split
    · exact shownAnswer_join sm cfg status short lost m k j
    next _ old _ =>
      exact (shownAnswer_leave _ cfg status short lost m old j).trans (shownAnswer_join sm cfg status short lost m k j)

end

theorem bindStatus_eq (retained : Option Nat) (last : Option LastShown) (k : Nat) (seq : Word) :
    bindStatus retained last k seq =
      if retained = some k ∧ last.map LastShown.sequence = some seq then .repeated else .picture := by
  simp [bindStatus]

theorem bind_setOutput (s : State) (m : Fin 6) (o : OutputChannel) (k : Nat) {seq : Word} {status : AnswerStatus}
    (short lost : Bool) (hseq : seq = (s.sm.slot k).sequence.getD 0)
    (hstatus : status = bindStatus o.retained o.last k seq) :
    (s.setOutput m o).bind m k short lost =
      (({ s with sm := s.sm.rebind m o.retained k } : State).setOutput m
        { (o.countBy .framesDropped (dropGap o.last seq)).countBy (shownCounter status) 1 with
          retained := some k, last := some ⟨seq, o.cfg.source⟩
          state := .showing, pull := 0, fetch := 0, epoch := o.epoch + 1
          answer := some (shownAnswer o.cfg (s.sm.slot k) status short lost)
          frame := some (openRecord o.cfg (shownAnswer o.cfg (s.sm.slot k) status short lost) (some k)) }).raiseRead m := by
  subst hseq hstatus
  rw [State.bind, output_setOutput_self]
  refine (congrArg (State.openShown · m k _ short lost)
    (modOutput_setOutput { s with sm := s.sm.rebind m o.retained k } m o _)).trans ?_
  refine (openShown_setOutput { s with sm := s.sm.rebind m o.retained k } m _ k _ short lost).trans ?_
  rw [shownAnswer_rebind]
  rfl

end

end Sys2Proof.Machine
end

