-- ==== Sys2Proof/Proofs/FrameOpens.lean ====
section
/-! FRAME_OPEN in every state of the output: BLANK, FREEZE, the fallback, the binding, OFFLINE and the implied close (R73 to R88). -/

namespace Sys2Proof.Machine

-- One theorem after another, as in the tests: many of them at once would need a thread each.
set_option Elab.async false

section

variable {s : State} {m : Fin 6}

/-- MUTE: the release, and then the answer BLANK (R80). -/
theorem select_muted (h : (s.output m).cfg.mute = true) :
    s.select m = ({ s with sm := s.sm.released m (s.output m).retained } : State).setOutput m
      { (s.output m).countBy .framesBlank 1 with
        state := .showing, retained := none, pull := 0, fetch := 0
        answer := some (blankAnswer (s.output m).cfg .blank (s.input (s.output m).cfg.source).lost)
        frame := some (openRecord (s.output m).cfg (blankAnswer (s.output m).cfg .blank
          (s.input (s.output m).cfg.source).lost) none) } := by
  have hrelease := release_setOutput s m (s.output m)
  rw [State.setOutput_output] at hrelease
  rw [select_of_mute h, hrelease]
  exact openBlank_setOutput { s with sm := s.sm.released m (s.output m).retained } m _ _

/-- A lost source under loss action BLANK: the loss is reported, and the release and the answer BLANK follow (R80, R81). -/
theorem select_lost (hmute : (s.output m).cfg.mute = false) (hlost : (s.input (s.output m).cfg.source).lost = true)
    (haction : (s.output m).cfg.lossAction = .blank) :
    s.select m = ({ s with
      sm := s.sm.released m (s.output m).retained
      eu := if (s.output m).lossReported = some (s.output m).cfg.source then s.eu
        else s.eu.setBits (.output m) 0x20 } : State).setOutput m
      { (s.output m).countBy .framesBlank 1 with
        state := .showing, retained := none, pull := 0, fetch := 0, lossReported := some (s.output m).cfg.source
        answer := some (blankAnswer (s.output m).cfg .blank true)
        frame := some (openRecord (s.output m).cfg (blankAnswer (s.output m).cfg .blank true) none) } := by
  rw [select_of_lost hmute hlost haction, reportLoss_setOutput, release_setOutput]
  exact openBlank_setOutput { s with sm := _, eu := _ } m _ _

end

/-- Settles O40: MUTE and a reported loss both end in the release and the answer BLANK. -/
theorem frameOpenBlank : Obligations.FrameOpenBlank := by
  refine ⟨fun m s hidle hmute => ?_, fun m s hidle hmute hlost haction => ?_⟩
  · rw [exec_frameOpen_of_idle hidle, select_muted hmute]
    rfl
  · rw [exec_frameOpen_of_idle hidle, select_lost hmute hlost haction]
    rfl

/-- Settles O41: what is retained is shown again, by FREEZE or for want of an entry. -/
theorem frameOpenRetained : Obligations.FrameOpenRetained := by
  refine ⟨fun m k s hidle hmute hkept hfreeze hretained lost r hlost hr => ?_,
    fun m s o last lost kept hidle hmute hkept hfree ho hlost hlast hchoose hreported => ?_⟩
  · subst hlost hr
    rw [exec_frameOpen_of_idle hidle, select_of_kept hmute hkept,
      freezeStep_setOutput_of_frozen s m (o := s.lossRead m) hfreeze hretained, openShown_setOutput]
    rfl
  · subst ho hlost hreported
    rw [exec_frameOpen_of_idle hidle, select_of_kept hmute hkept,
      freezeStep_setOutput_of_free s m (o := s.lossRead m) hfree, policyStep_setOutput_of_none s m (o := s.lossRead m) _ hlast hchoose]
    refine ⟨fun k r hretained hr => ?_, fun hretained => ?_⟩
    · subst hr
      rw [fallback_setOutput_of_some s m (o := { s.lossRead m with last := last }) hretained, openShown_setOutput]
      rfl
    · rw [fallback_setOutput_of_none s m (o := { s.lossRead m with last := last }) hretained, openBlank_setOutput]
      rfl

/-- Settles O43: the binding of a source that is not lost or whose loss is kept. -/
theorem frameOpenBinds : Obligations.FrameOpenBinds := by
  intro m k short s o last seq status lost r hidle hmute hkept hfree ho hlost hlast hchoose hr hseq hstatus
  subst ho hlost hr
  rw [exec_frameOpen_of_idle hidle, select_of_kept hmute hkept,
    freezeStep_setOutput_of_free s m (o := s.lossRead m) hfree, policyStep_setOutput_of_some s m (o := s.lossRead m) _ hlast hchoose,
    bind_setOutput s m { s.lossRead m with last := last } k short _ hseq (hstatus.trans (bindStatus_eq _ last k seq).symm)]
  cases last with
  | none => rfl
  | some l => rfl

end Sys2Proof.Machine
end

