-- ==== Sys2Proof/Proofs/ImpliedClose.lean ====
section
/-! FRAME_OPEN where it implies the close: a selection gives the output a new state whatever it was, and the close in DISABLING
keeps the settings (R77, R79). -/

namespace Sys2Proof.Machine

-- One theorem after another, as in the tests: many of them at once would need a thread each.
set_option Elab.async false

/-! ### A selection leaves nothing of the state that it finds the output in (R79, R80) -/

section

variable (s : State) (m : Fin 6) (o : OutputChannel) (st : OutState) (lost : Bool)

theorem openBlank_enterState :
    (s.setOutput m { o with state := st }).openBlank m lost = (s.setOutput m o).openBlank m lost := by
  rw [openBlank_setOutput, openBlank_setOutput]
  rfl

theorem openShown_enterState (k : Nat) (status : AnswerStatus) (short : Bool) :
    (s.setOutput m { o with state := st }).openShown m k status short lost =
      (s.setOutput m o).openShown m k status short lost := by
  rw [openShown_setOutput, openShown_setOutput]

theorem release_openBlank_enterState :
    ((s.setOutput m { o with state := st }).release m).openBlank m lost = ((s.setOutput m o).release m).openBlank m lost := by
  rw [release_setOutput, release_setOutput]
  exact openBlank_enterState _ m { o with retained := none } st lost

theorem fallback_enterState :
    (s.setOutput m { o with state := st }).fallback m lost = (s.setOutput m o).fallback m lost := by
  obtain h | ⟨k, h⟩ := Option.eq_none_or_eq_some o.retained
  · exact (fallback_setOutput_of_none s m (o := { o with state := st }) h lost).trans
      ((openBlank_enterState s m o st lost).trans (fallback_setOutput_of_none s m h lost).symm)
  · exact (fallback_setOutput_of_some s m (o := { o with state := st }) h lost).trans
      ((openShown_enterState s m (o.countBy .framesRepeated 1) st lost k .repeated false).trans
        (fallback_setOutput_of_some s m h lost).symm)

theorem bind_enterState (k : Nat) (short : Bool) :
    (s.setOutput m { o with state := st }).bind m k short lost = (s.setOutput m o).bind m k short lost := by
  rw [bind_setOutput s m _ k short lost rfl rfl, bind_setOutput s m o k short lost rfl rfl]
  rfl

theorem policyStep_enterState :
    (s.setOutput m { o with state := st }).policyStep m lost = (s.setOutput m o).policyStep m lost := by
  generalize hlast : keepLast o.last o.cfg.source (s.sm.seqOf o.cfg.source) = last
  cases h : choosePolicy s.sm (s.sm.readyOf o.cfg.source) o.cfg.policy o.cfg.delay last with
  | none =>
    exact (policyStep_setOutput_of_none s m (o := { o with state := st }) lost hlast.symm h).trans
      ((fallback_enterState s m { o with last := last } st lost).trans
        (policyStep_setOutput_of_none s m lost hlast.symm h).symm)
  | some c =>
    obtain ⟨k, short⟩ := c
    exact (policyStep_setOutput_of_some s m (o := { o with state := st }) lost hlast.symm h).trans
      ((bind_enterState s m { o with last := last } st lost k short).trans
        (policyStep_setOutput_of_some s m lost hlast.symm h).symm)

theorem freezeStep_enterState :
    (s.setOutput m { o with state := st }).freezeStep m lost = (s.setOutput m o).freezeStep m lost := by
  have hfree (h : o.cfg.freeze = false ∨ o.retained = none) :
      (s.setOutput m { o with state := st }).freezeStep m lost = (s.setOutput m o).freezeStep m lost :=
    (freezeStep_setOutput_of_free s m (o := { o with state := st }) h lost).trans
      ((policyStep_enterState s m o st lost).trans (freezeStep_setOutput_of_free s m h lost).symm)
  by_cases hfreeze : o.cfg.freeze = true
  · obtain hretained | ⟨k, hretained⟩ := Option.eq_none_or_eq_some o.retained
    · exact hfree (.inr hretained)
    · exact (freezeStep_setOutput_of_frozen s m (o := { o with state := st }) hfreeze hretained lost).trans
        ((openShown_enterState s m (o.countBy .framesFrozen 1) st lost k .picture false).trans
          (freezeStep_setOutput_of_frozen s m hfreeze hretained lost).symm)
  · exact hfree (.inl (Bool.eq_false_of_not_eq_true hfreeze))

theorem lossStep_enterState :
    (s.setOutput m { o with state := st }).lossStep m lost = (s.setOutput m o).lossStep m lost := by
  unfold State.lossStep
  simp only [output_setOutput_self, modOutput_setOutput]
  split
  next h =>
    obtain ⟨hlost, -⟩ := (Bool.and_eq_true ..).mp h
    subst hlost
    rw [reportLoss_setOutput s m { o with state := st }, reportLoss_setOutput]
    exact release_openBlank_enterState _ m { o with lossReported := some o.cfg.source } st true
  next => exact freezeStep_enterState s m { o with lossReported := keepLossReport o.lossReported o.cfg.source lost } st lost

theorem select_enterState :
    (s.setOutput m { o with state := st }).select m = (s.setOutput m o).select m := by
  unfold State.select
  simp only [output_setOutput_self]
  split
  next => exact release_openBlank_enterState s m o st _
  next => exact lossStep_enterState s m o st _

end

/-! ### The settings through a close in DISABLING (R77, R107) -/

section

variable (s : State) (m : Fin 6)

theorem cfg_closeOutput : ((s.closeOutput m).output m).cfg = (s.output m).cfg := by
  unfold State.closeOutput
  split
  · rfl
  · dsimp only
    split <;> simp [State.countOut, OutputChannel.countBy]

theorem cfg_release : ((s.release m).output m).cfg = (s.output m).cfg := by
  unfold State.release
  split
  · rfl
  · rw [State.output_modOutput, if_pos rfl]
    rfl

theorem cfg_enterDisabled : ((s.enterDisabled m).output m).cfg = (s.output m).cfg := by
  simp [State.enterDisabled]

theorem cfg_closeDisabling : ((s.closeDisabling m).output m).cfg = (s.output m).cfg := by
  have hclosed : (((s.closeOutput m).release m).output m).cfg = (s.output m).cfg :=
    (cfg_release (s.closeOutput m) m).trans (cfg_closeOutput s m)
  unfold State.closeDisabling
  dsimp only
  split
  · exact hclosed
  · exact (cfg_enterDisabled _ m).trans hclosed

end

/-- A protocol error is counted and raised (R77, R79). -/
theorem protocolError_eq (s : State) (m : Fin 6) : s.protocolError m =
    ({ s with eu := s.eu.setBits (.output m) 0x10 } : State).setOutput m ((s.output m).countBy .protocol 1) := rfl

/-- The answer OFFLINE carries the configured source and the blank geometry (R73). -/
theorem answerOffline_eq (s : State) (m : Fin 6) {cfg : OutConfig} (h : (s.output m).cfg = cfg) :
    s.answerOffline m = s.setOutput m { s.output m with
      answer := some ⟨.offline, cfg.source, none, none, cfg.blankLength, cfg.blankCount, none, false, false, false⟩ } := by
  subst h
  rfl

theorem openDisabling_of_open {s : State} {m : Fin 6} {f : OpenFrame} (h : (s.output m).frame = some f) :
    s.openDisabling m = ((s.protocolError m).closeDisabling m).answerOffline m := by
  simp [State.openDisabling, h]

theorem openDisabling_of_closed {s : State} {m : Fin 6} (h : (s.output m).frame = none) :
    s.openDisabling m = s.answerOffline m := by
  simp [State.openDisabling, h]

/-- Settles O39: the close keeps the settings, and the selection that follows it the state whatever it was. -/
theorem frameOpenNotIdle : Obligations.FrameOpenNotIdle := by
  refine ⟨fun m s => ⟨fun hclosed => ?_, fun f hdisabling hframe closed hclosed => ?_⟩, fun m s hshowing => ?_⟩
  · have hoffline : exec (.frameOpen m) s = .next (s.answerOffline m) := by
      rcases hclosed with hoff | ⟨hdisabling, hframe⟩
      · exact exec_frameOpen_of_off hoff
      · rw [exec_frameOpen_of_disabling hdisabling, openDisabling_of_closed hframe]
    rw [hoffline, answerOffline_eq s m rfl]
  · have hcfg : (closed.output m).cfg = (s.output m).cfg := by
      rw [hclosed, cfg_closeDisabling, output_setOutput_self]
      rfl
    rw [exec_frameOpen_of_disabling hdisabling, openDisabling_of_open hframe, protocolError_eq, ← hclosed,
      answerOffline_eq closed m hcfg]
  · rw [exec_frameOpen_of_showing hshowing, protocolError_eq]
    generalize State.closeOutput _ m = closed
    have hidle : ((closed.modOutput m fun o => { o with state := .idle }).output m).state = .idle := by
      rw [State.output_modOutput, if_pos rfl]
    have hselect := select_enterState closed m (closed.output m) .idle
    rw [State.setOutput_output] at hselect
    exact (congrArg Host.Outcome.next hselect.symm).trans (exec_frameOpen_of_idle hidle).symm

end Sys2Proof.Machine
end

