-- ==== Sys2Proof/Proofs/Policies.lean ====
section
/-! The policies on a ready list and the tests on L (R82, R83, R85), and the order of sequence numbers (0.5). -/

namespace Sys2Proof.Machine

-- One theorem after another, as in the tests: many of them at once would need a thread each.
set_option Elab.async false

theorem seqAfter_iff (a b : Word) : seqAfter a b = true ↔ 1 ≤ (a - b).toNat ∧ (a - b).toNat < 2147483648 := by
  simp only [seqAfter, Bool.and_eq_true, decide_eq_true_eq]
  omega

theorem keepLast_eq_some (last : Option LastShown) (src : Fin 4) (next : Word) (l : LastShown) :
    keepLast last src next = some l ↔ last = some l ∧ l.source = src ∧ seqAfter next l.sequence = true := by
  cases last with
  | none => simp [keepLast]
  | some shown =>
    simp only [keepLast, Option.ite_none_right_eq_some, Bool.and_eq_true, decide_eq_true_eq, Option.some.injEq]
    constructor
    · rintro ⟨htests, rfl⟩
      exact ⟨rfl, htests⟩
    · rintro ⟨rfl, htests⟩
      exact ⟨htests, rfl⟩

theorem keepLast_eq_or (last : Option LastShown) (src : Fin 4) (next : Word) :
    keepLast last src next = last ∨ keepLast last src next = none := by
  cases h : keepLast last src next with
  | none => exact .inr rfl
  | some l => exact .inl ((keepLast_eq_some last src next l).mp h).1.symm

section

variable (sm : SlotManager) (list : List Nat) (d : Nat) (last : Option LastShown)

/-- SEQUENTIAL after L: the oldest entry whose sequence is after it (R83). -/
theorem choosePolicy_sequential_after (l : LastShown) (k : Nat) :
    choosePolicy sm list .sequential d (some l) = some (k, false) ↔
      ∃ before rest, list = before ++ k :: rest ∧ seqAfter ((sm.slot k).sequence.getD 0) l.sequence = true ∧
        ∀ j ∈ before, seqAfter ((sm.slot j).sequence.getD 0) l.sequence = false := by
  have hfind : choosePolicy sm list .sequential d (some l) = some (k, false) ↔
      list.find? (fun k => seqAfter ((sm.slot k).sequence.getD 0) l.sequence) = some k := by
    simp [choosePolicy]
  rw [hfind, List.find?_eq_some_iff_append]
  constructor
  · rintro ⟨hafter, before, rest, hlist, hbefore⟩
    exact ⟨before, rest, hlist, hafter, fun j hj => by simpa using hbefore j hj⟩
  · rintro ⟨before, rest, hlist, hafter, hbefore⟩
    exact ⟨hafter, before, rest, hlist, fun j hj => by simpa using hbefore j hj⟩

/-- DELAY within the list: the entry at length - 1 - D (R85). -/
theorem choosePolicy_delay_within (h : d < list.length) :
    ∃ k, list[list.length - 1 - d]? = some k ∧ choosePolicy sm list .delay d last = some (k, false) := by
  have hentry : list[list.length - 1 - d]? = some list[list.length - 1 - d] := List.getElem?_eq_getElem (by omega)
  exact ⟨_, hentry, by simp only [choosePolicy, if_pos h, hentry, Option.map_some]⟩

/-- DELAY beyond the list: the oldest entry, with DELAY_SHORT (R85). -/
theorem choosePolicy_delay_beyond (h : list.length ≤ d) :
    choosePolicy sm list .delay d last = list.head?.map fun k => (k, true) := by
  rw [choosePolicy, if_neg (Nat.not_lt.mpr h)]

end

/-- Settles O42: each policy on the empty list, and on a list taken apart where it chooses. -/
theorem policyChoice : Obligations.PolicyChoice := by
  refine ⟨fun sm list d last => ⟨rfl, ?_, ?_, ?_, ?_, choosePolicy_sequential_after sm list d,
    choosePolicy_delay_within sm list d last, ?_⟩, seqAfter_iff,
    fun last src next => ⟨keepLast_eq_or last src next, keepLast_eq_some last src next⟩⟩
  · cases last <;> rfl
  · exact choosePolicy_delay_beyond sm [] d last (Nat.zero_le d)
  · rintro older k rfl
    simp [choosePolicy]
  · rintro k rest rfl
    rfl
  · rintro k rest rfl hshort
    exact choosePolicy_delay_beyond sm (k :: rest) d last hshort

end Sys2Proof.Machine
end

