-- ==== Sys2Proof/Proofs/OutputRegisters.lean ====
section
/-! Writes of the settings of an output, and what ENABLE does in a taken write of OUTn_CTRL (R74, R76, R77, R173). -/

namespace Sys2Proof.Machine

-- One theorem after another, as in the tests: many of them at once would need a thread each.
set_option Elab.async false

/-! ### Fields of the written words (R74, R173) -/

theorem policyOf_of_lt {c : Nat} (h : c < 3) :
    policyOf c = some (if c = 0 then .latest else if c = 1 then .sequential else .delay) := by
  interval_cases c <;> rfl

theorem sourceOf_eq {w : Word} {src : Fin 4} (h : src.val = w.toNat / 16 % 4) : sourceOf w = src :=
  Fin.ext ((field_eq w 4 2).trans h.symm)

theorem outConfigWrite_ctrl_of_invalid (cfg : OutConfig) {w : Word} (h : w.toNat / 256 % 4 = 3) :
    outConfigWrite cfg .ctrl w = none := by
  have hcode : field w 8 2 = 3 := (field_eq w 8 2).trans h
  simp only [outConfigWrite, hcode, policyOf]

theorem outConfigWrite_ctrl_of_valid (cfg : OutConfig) {w : Word} {src : Fin 4} (h : w.toNat / 256 % 4 ≠ 3)
    (hsrc : src.val = w.toNat / 16 % 4) :
    outConfigWrite cfg .ctrl w = some { cfg with
      source := src
      policy := if w.toNat / 256 % 4 = 0 then .latest else if w.toNat / 256 % 4 = 1 then .sequential else .delay
      delay := w.toNat / 4096 % 8, freeze := w.getLsbD 16, mute := w.getLsbD 17
      lossAction := if w.getLsbD 18 then .blank else .keep
      fillKind := if w.getLsbD 19 then .repeated else .blank
      watermark := w.toNat / 1048576 % 4 } := by
  have hcode : field w 8 2 = w.toNat / 256 % 4 := field_eq w 8 2
  have hdelay : field w 12 3 = w.toNat / 4096 % 8 := field_eq w 12 3
  have hwatermark : field w 20 2 = w.toNat / 1048576 % 4 := field_eq w 20 2
  have hpolicy := policyOf_of_lt (c := w.toNat / 256 % 4) (by omega)
  simp only [outConfigWrite, hcode, hpolicy, hdelay, hwatermark, sourceOf_eq hsrc]

theorem outConfigWrite_blank (cfg : OutConfig) (w : Word) :
    outConfigWrite cfg .blank w =
      if (16 ≤ w.toNat % 2048 ∧ w.toNat % 2048 ≤ 1024) ∧ 1 ≤ w.toNat / 65536 % 4096 ∧ w.toNat / 65536 % 4096 ≤ 2048 then
        some { cfg with blankLength := w.toNat % 2048, blankCount := w.toNat / 65536 % 4096 }
      else none := by
  have hlo : field w 0 11 = w.toNat % 2048 := by simp [field_eq]
  have hhi : field w 16 12 = w.toNat / 65536 % 4096 := field_eq w 16 12
  simp only [outConfigWrite, hlo, hhi, Bool.and_eq_true, inRange_iff]

/-! ### A write taken or ignored (R74, R76) -/

section

variable {s : State} {m : Fin 6} {w : Word} {enable : Bool}

theorem writeOutConfig_ctrl_of_disabling (hstate : (s.output m).state = .disabling) (henable : enable = true) :
    s.writeOutConfig m .ctrl enable w = s.configIgnored := by
  simp [State.writeOutConfig, hstate, henable]

theorem writeOutConfig_of_invalid {reg : OutConfigReg} (h : outConfigWrite (s.output m).cfg reg w = none) :
    s.writeOutConfig m reg enable w = s.configIgnored := by
  simp [State.writeOutConfig, h]

theorem writeOutConfig_of_plain {reg : OutConfigReg} {cfg : OutConfig} (hreg : reg ≠ .ctrl)
    (h : outConfigWrite (s.output m).cfg reg w = some cfg) :
    s.writeOutConfig m reg enable w = s.setOutput m { s.output m with cfg := cfg } := by
  simp [State.writeOutConfig, h, hreg, State.modOutput]

theorem writeOutConfig_ctrl_of_taken {cfg : OutConfig} (hstate : ¬((s.output m).state = .disabling ∧ enable = true))
    (h : outConfigWrite (s.output m).cfg .ctrl w = some cfg) :
    s.writeOutConfig m .ctrl enable w = (s.setOutput m { s.output m with cfg := cfg }).writeOutEnable m enable := by
  have hignored : (OutConfigReg.ctrl = .ctrl && enable && (s.output m).state = .disabling) = false := by
    cases enable <;> simp_all
  rw [State.writeOutConfig, hignored, h]
  rfl

end

/-! ### ENABLE (R76, R77) -/

section

variable (s : State) (m : Fin 6) {o : OutputChannel}

theorem writeOutEnable_setOutput_of_off (h : o.state = .off) :
    (s.setOutput m o).writeOutEnable m true =
      s.setOutput m { o with state := .idle, last := none, lossReported := none } := by
  simp only [State.writeOutEnable, output_setOutput_self, h, modOutput_setOutput]

theorem writeOutEnable_setOutput_of_showing (h : o.state = .showing) :
    (s.setOutput m o).writeOutEnable m false = s.setOutput m { o with state := .disabling } := by
  simp only [State.writeOutEnable, output_setOutput_self, h, modOutput_setOutput]

/-- A disable in IDLE releases the slot and enters OFF with DISABLED (R76). -/
theorem writeOutEnable_setOutput_of_idle (h : o.state = .idle) :
    (s.setOutput m o).writeOutEnable m false =
      ({ s with sm := s.sm.released m o.retained, eu := s.eu.setBits (.output m) 0x40 } : State).setOutput m { o with
        state := .off, retained := none, fifo := [], repeatBuf := none, epoch := o.epoch + 1 } := by
  simp only [State.writeOutEnable, output_setOutput_self, h, State.disableIdle, release_setOutput, State.enterDisabled,
    modOutput_setOutput]
  rfl

/-- ENABLE as the output already has it, or has given it up, changes nothing (R76). -/
theorem writeOutEnable_setOutput_of_same {enable : Bool}
    (h : (o.state = .off ∨ o.state = .disabling) ∧ enable = false ∨ (o.state = .idle ∨ o.state = .showing) ∧ enable = true) :
    (s.setOutput m o).writeOutEnable m enable = s.setOutput m o := by
  rcases h with ⟨h | h, rfl⟩ | ⟨h | h, rfl⟩ <;> simp only [State.writeOutEnable, output_setOutput_self, h]

end

/-- The three commands that write OUTn_CTRL differ in ENABLE alone (R74, R76). -/
theorem exec_outputCtrlWrite {s : State} (hreset : s.resetAsserted = false) {m : Fin 6} {w : Word} {c : Instr} {enable : Bool}
    (h : (c = .outputEnable m w ∧ enable = true) ∨ (c = .outputDisable m w ∧ enable = false) ∨
      (c = .outputConfigWrite m .ctrl w ∧ enable = w.getLsbD 0)) :
    exec c s = .next (s.writeOutConfig m .ctrl enable w) := by
  obtain ⟨rfl, rfl⟩ | ⟨rfl, rfl⟩ | ⟨rfl, rfl⟩ := h
  · exact hostWrite_of_released hreset fun s => s.writeOutConfig m .ctrl true w
  · exact hostWrite_of_released hreset fun s => s.writeOutConfig m .ctrl false w
  · exact hostWrite_of_released hreset fun s => s.writeOutConfig m .ctrl (w.getLsbD 0) w

/-- Settles O59: the range of the policy code decides whether the settings are stored, and ENABLE by state the rest. -/
theorem outputControlWrites : Obligations.OutputControlWrites := by
  intro m w s ignored o hreset ho hignored
  subst ho
  obtain rfl : ignored = s.configIgnored := hignored
  have hexec : ∀ reg, exec (.outputConfigWrite m reg w) s = .next (s.writeOutConfig m reg (w.getLsbD 0) w) := fun reg =>
    hostWrite_of_released hreset fun s => s.writeOutConfig m reg (w.getLsbD 0) w
  refine ⟨fun c enable hc => ?_, fun lo hi hlo hhi => ?_, ?_⟩
  · rw [exec_outputCtrlWrite hreset hc]
    refine ⟨?_, fun hvalid cfg src hsrc hcfg => ?_⟩
    · rintro (hinvalid | ⟨hdisabling, henable⟩)
      · rw [writeOutConfig_of_invalid (outConfigWrite_ctrl_of_invalid _ hinvalid)]
      · rw [writeOutConfig_ctrl_of_disabling hdisabling henable]
    · have hstored := (outConfigWrite_ctrl_of_valid (s.output m).cfg hvalid hsrc).trans (congrArg some hcfg.symm)
      have htaken (h : ¬((s.output m).state = .disabling ∧ enable = true)) :=
        writeOutConfig_ctrl_of_taken h hstored
      refine ⟨fun hoff henable => ?_, fun hidle henable => ?_, fun hshowing henable => ?_, fun hsame => ?_⟩
      · rw [htaken (by simp [hoff]), henable, writeOutEnable_setOutput_of_off s m (o := { s.output m with cfg := cfg }) hoff]
      · rw [htaken (by simp [hidle]), henable,
          writeOutEnable_setOutput_of_idle s m (o := { s.output m with cfg := cfg }) hidle]
        rfl
      · rw [htaken (by simp [hshowing]), henable,
          writeOutEnable_setOutput_of_showing s m (o := { s.output m with cfg := cfg }) hshowing]
      · have hkept : ¬((s.output m).state = .disabling ∧ enable = true) := by
          rcases hsame with ⟨-, henable⟩ | ⟨h | h, -⟩
          · simp [henable]
          · simp [h]
          · simp [h]
        rw [htaken hkept, writeOutEnable_setOutput_of_same s m (o := { s.output m with cfg := cfg }) hsame]
  · subst hlo hhi
    rw [hexec]
    refine ⟨fun ⟨h1, h2, h3, h4⟩ => ?_, fun hout => ?_⟩
    · rw [writeOutConfig_of_plain (by decide) ((outConfigWrite_blank _ w).trans (if_pos ⟨⟨h1, h2⟩, h3, h4⟩))]
    · rw [writeOutConfig_of_invalid ((outConfigWrite_blank _ w).trans (if_neg (by omega)))]
  · rw [hexec, writeOutConfig_of_plain (cfg := { (s.output m).cfg with blankWord := w }) (by decide) rfl]

end Sys2Proof.Machine
end

