-- ==== Sys2Proof/Proofs/Requests.lean ====
section
/-! The requests that the machine holds, what may happen to them, and the changes that are calm: they add no read and leave the
lines of every output, or of all but one, as they are (R41, R94, R95, R146, R153 to R155). -/

namespace Sys2Proof.Machine

-- One theorem after another, as in the tests: many of them at once would need a thread each.
set_option Elab.async false

/-- The pending request of a client (R153). -/
def Arbiter.pendingOf (a : Arbiter) : Client → Option MemRequest
  | .input n => a.inReq[n]
  | .output m => a.outReq[m]
  | .accessPort => a.apReq.map HostRequest.request
  | .commandUnit => a.cuReq.map HostRequest.request
  | .refresh => none

/-- Every request that the machine holds: the pending one of each client, the one in execution, and the port's deferred one. -/
structure Requests where
  pending : Client → Option MemRequest
  exec : Option Execution
  deferred : Option MemRequest

def State.requests (s : State) : Requests := ⟨s.arb.pendingOf, s.mc.exec, s.ap.deferred⟩

/-- The client is the engine of a channel (R153). -/
def Client.isEngine : Client → Bool
  | .input _ | .output _ => true
  | .accessPort | .commandUnit | .refresh => false

namespace Requests

/-- A request of this client is in execution. -/
def execBy (q : Requests) (c : Client) : Prop := ∃ e, q.exec = some e ∧ e.request.client = c

/-- Requests name the clients that they are held for, and no engine has one both pending and in execution. -/
structure Ok (q : Requests) : Prop where
  clients : ∀ c r, q.pending c = some r → r.client = c
  deferred : ∀ r, q.deferred = some r → r.client = .accessPort
  one : ∀ c, c.isEngine = true → q.execBy c → q.pending c = none

/-- A read that will be delivered to OUTm. -/
def reads (q : Requests) (m : Fin 6) (r : MemRequest) : Prop :=
  q.pending (.output m) = some r ∨ q.exec = some ⟨r, false⟩ ∧ r.client = .output m

/-- A read of OUTm is pending or in execution. -/
def outstanding (q : Requests) (m : Fin 6) : Prop := q.pending (.output m) ≠ none ∨ q.execBy (.output m)

/-- A change of one client's pending request. -/
def setPending (q : Requests) (c : Client) (r : Option MemRequest) : Requests :=
  { q with pending := fun d => if d = c then r else q.pending d }

/-- What may happen to the requests of the machine beside the raise of a read (R153 to R155). -/
inductive Move (q : Requests) : Requests → Prop
  | same : Move q q
  | drop (c : Client) : Move q (q.setPending c none)
  | finish : Move q { q with exec := none }
  | grant (c : Client) (r : MemRequest) (idle : q.exec = none) (pending : q.pending c = some r) :
      Move q { q.setPending c none with exec := some ⟨r, false⟩ }
  | refresh (idle : q.exec = none) : Move q { q with exec := some ⟨refreshRequest, false⟩ }
  | raise (c : Client) (r : MemRequest) (client : r.client = c) (noRead : ∀ m, c ≠ .output m)
      (one : c.isEngine = true → ¬ q.execBy c) : Move q (q.setPending c (some r))
  | defer (r : Option MemRequest) (client : ∀ x, r = some x → x.client = .accessPort) : Move q { q with deferred := r }

variable {q q' : Requests}

theorem setPending_pending (q : Requests) (c d : Client) (r : Option MemRequest) :
    (q.setPending c r).pending d = if d = c then r else q.pending d := rfl

theorem pending_of_drop {c d : Client} {r : MemRequest} (h : (q.setPending c none).pending d = some r) :
    q.pending d = some r := by
  rw [setPending_pending] at h
  split at h
  · cases h
  · exact h

/-- Requests of which none is new. -/
theorem Ok.of_fewer (h : q.Ok) (hpending : ∀ c r, q'.pending c = some r → q.pending c = some r)
    (hexec : ∀ e, q'.exec = some e → q.exec = some e) (hdeferred : q'.deferred = q.deferred) : q'.Ok where
  clients c r hr := h.clients c r (hpending c r hr)
  deferred r hr := h.deferred r (hdeferred ▸ hr)
  one c hc := fun ⟨e, he, hclient⟩ => by
    have hnone := h.one c hc ⟨e, hexec e he, hclient⟩
    exact Option.eq_none_iff_forall_ne_some.2 fun r hr => by simp [hpending c r hr] at hnone

theorem Move.ok (h : Move q q') (hq : q.Ok) : q'.Ok := by
  cases h with
  | same => exact hq
  | drop c => exact hq.of_fewer (fun _ _ => pending_of_drop) (fun _ => id) rfl
  | finish => exact hq.of_fewer (fun _ _ => id) nofun rfl
  | grant c r idle pending =>
    refine ⟨fun d x hx => hq.clients d x (pending_of_drop hx), hq.deferred, ?_⟩
    rintro d hd ⟨e, he, hclient⟩
    cases he
    exact if_pos (hclient.symm.trans (hq.clients c r pending))
  | refresh idle =>
    refine ⟨hq.clients, hq.deferred, ?_⟩
    rintro d hd ⟨e, he, rfl⟩
    cases he
    cases hd
  | raise c r client noRead one =>
    refine ⟨fun d x hx => ?_, hq.deferred, fun d hd hexec => ?_⟩
    · rw [setPending_pending] at hx
      split at hx
      next hdc => cases hx; exact client.trans hdc.symm
      next => exact hq.clients d x hx
    · rw [setPending_pending]
      split
      next hdc => subst hdc; exact absurd hexec (one hd)
      next => exact hq.one d hd hexec
  | defer r client => exact ⟨hq.clients, client, hq.one⟩

/-- Only the raise of a read adds one. -/
theorem Move.reads (h : Move q q') (hq : q.Ok) (m : Fin 6) (r : MemRequest) (hr : q'.reads m r) : q.reads m r := by
  cases h with
  | same => exact hr
  | drop c => exact hr.imp_left pending_of_drop
  | finish => exact hr.imp_right fun ⟨he, _⟩ => nomatch he
  | grant c x idle pending =>
    rcases hr with hr | ⟨he, hclient⟩
    · exact .inl (pending_of_drop hr)
    · cases he
      exact .inl (hclient ▸ (hq.clients c r pending).symm ▸ pending)
  | refresh idle =>
    refine hr.imp_right fun ⟨he, hclient⟩ => ?_
    cases he
    cases hclient
  | raise c x client noRead one =>
    rwa [Requests.reads, setPending_pending, if_neg (noRead m).symm] at hr
  | defer => exact hr

theorem Move.outstanding (h : Move q q') (hq : q.Ok) (m : Fin 6) (hm : q'.outstanding m) : q.outstanding m := by
  cases h with
  | same => exact hm
  | drop c =>
    refine hm.imp_left fun h hnone => h ?_
    rw [setPending_pending, hnone, ite_self]
  | finish => exact hm.imp_right fun ⟨e, he, _⟩ => nomatch he
  | grant c x idle pending =>
    rcases hm with hm | ⟨e, he, hclient⟩
    · refine .inl fun hnone => hm ?_
      exact (setPending_pending q c _ none).trans (by rw [hnone, ite_self])
    · cases he
      have hc : c = .output m := (hq.clients c x pending).symm.trans hclient
      exact .inl (by simp [← hc, pending])
  | refresh idle =>
    refine hm.imp_right fun ⟨e, he, hclient⟩ => ?_
    cases he
    cases hclient
  | raise c x client noRead one =>
    rwa [Requests.outstanding, setPending_pending, if_neg (noRead m).symm] at hm
  | defer => exact hm

end Requests

/-! ### The arbiter's registers -/

section

variable (a : Arbiter)

theorem pendingOf_setIn (n : Fin 4) (r : Option MemRequest) (c : Client) :
    ({ a with inReq := a.inReq.set n r } : Arbiter).pendingOf c = if c = .input n then r else a.pendingOf c := by
  cases c with
  | input i => simp [Arbiter.pendingOf, Vector.getElem_set, Fin.ext_iff, eq_comm]
  | _ => rfl

theorem pendingOf_setOut (m : Fin 6) (r : Option MemRequest) (c : Client) :
    ({ a with outReq := a.outReq.set m r } : Arbiter).pendingOf c = if c = .output m then r else a.pendingOf c := by
  cases c with
  | output i => simp [Arbiter.pendingOf, Vector.getElem_set, Fin.ext_iff, eq_comm]
  | _ => rfl

theorem pendingOf_setAp (r : Option HostRequest) (c : Client) :
    ({ a with apReq := r } : Arbiter).pendingOf c =
      if c = .accessPort then r.map HostRequest.request else a.pendingOf c := by
  cases c <;> rfl

theorem pendingOf_setCu (r : Option HostRequest) (c : Client) :
    ({ a with cuReq := r } : Arbiter).pendingOf c =
      if c = .commandUnit then r.map HostRequest.request else a.pendingOf c := by
  cases c <;> rfl

theorem pendingOf_passOver (c : Client) : a.passOver.pendingOf c = a.pendingOf c := by
  have hpass : HostRequest.request ∘ HostRequest.pass = HostRequest.request := rfl
  cases c <;> simp [Arbiter.pendingOf, Arbiter.passOver, hpass]

end

theorem execBy_iff (s : State) (c : Client) : s.execBy c = true ↔ s.requests.execBy c := by
  unfold State.execBy Requests.execBy State.requests
  cases s.mc.exec <;> simp

theorem execBy_of_isSome_iff (s : State) (c : Client) :
    ((s.arb.pendingOf c).isSome → s.execBy c = false) ↔ (s.requests.execBy c → s.requests.pending c = none) := by
  rw [← execBy_iff, ← Bool.not_eq_true, ← Option.not_isSome_iff_eq_none]
  exact imp_not_comm

/-- The requests that the invariants name by client. -/
theorem requests_ok_iff (s : State) : s.requests.Ok ↔ s.clientsOk ∧ s.oneRequestEach := by
  constructor
  · rintro ⟨hclients, hdeferred, hone⟩
    refine ⟨⟨fun n => hclients (.input n), fun m => hclients (.output m), fun r hr => hclients .accessPort _ ?_,
      fun r hr => hclients .commandUnit _ ?_, hdeferred⟩,
      fun n => (execBy_of_isSome_iff s (.input n)).2 (hone _ rfl), fun m => (execBy_of_isSome_iff s (.output m)).2 (hone _ rfl)⟩
    · simp [State.requests, Arbiter.pendingOf, hr]
    · simp [State.requests, Arbiter.pendingOf, hr]
  · rintro ⟨⟨hin, hout, hap, hcu, hdeferred⟩, honeIn, honeOut⟩
    refine ⟨fun c r hr => ?_, hdeferred, fun c hc => (execBy_of_isSome_iff s c).1 ?_⟩
    · cases c with
      | input n => exact hin n r hr
      | output m => exact hout m r hr
      | accessPort =>
        obtain ⟨x, hx, rfl⟩ := Option.map_eq_some_iff.1 hr
        exact hap x hx
      | commandUnit =>
        obtain ⟨x, hx, rfl⟩ := Option.map_eq_some_iff.1 hr
        exact hcu x hx
      | refresh => cases hr
    · cases c with
      | input n => exact honeIn n
      | output m => exact honeOut m
      | accessPort | commandUnit | refresh => cases hc

/-- Requests in order, with room for the outstanding reads (R94, R95, R153). -/
def State.requestsOk (s : State) : Prop := s.requests.Ok ∧ s.prefetchOk

theorem requestsOk_iff (s : State) : s.requestsOk ↔ s.clientsOk ∧ s.oneRequestEach ∧ s.prefetchOk := by
  rw [State.requestsOk, requests_ok_iff, and_assoc]

theorem readOutstanding_iff (s : State) (m : Fin 6) : s.readOutstanding m = true ↔ s.requests.outstanding m := by
  rw [State.readOutstanding, Bool.or_eq_true, execBy_iff, Option.isSome_iff_ne_none]
  rfl

theorem readsFor_iff (s : State) (m : Fin 6) (r : MemRequest) : s.readsFor m r ↔ s.requests.reads m r := Iff.rfl

/-- What the reads and the pulls of an output work on. -/
structure Fetching where
  frame : Option OpenFrame
  pull : Nat
  fetch : Nat
  epoch : Word
  fifo : List PrefetchLine

def OutputChannel.fetching (o : OutputChannel) : Fetching := ⟨o.frame, o.pull, o.fetch, o.epoch, o.fifo⟩

namespace Fetching

/-- A frame is open that is not BLANK (R92). -/
def Shows (v : Fetching) : Prop := ∃ f, v.frame = some f ∧ f.status ≠ .blank

/-- The lines of the FIFO, the reads to come and the cursors are in order (R93 to R95). -/
structure InOrder (v : Fetching) (reads : MemRequest → Prop) : Prop where
  within : ∀ f, v.frame = some f → v.fetch ≤ f.lineCount
  rising : v.fifo.Pairwise fun a b => a.number < b.number
  lines : ∀ l ∈ v.fifo, l.epoch = v.epoch ∧ v.pull ≤ l.number ∧ l.number < v.fetch ∧ v.Shows
  reads : ∀ r, reads r → r.epoch = v.epoch → r.number < v.fetch ∧ v.Shows ∧ ∀ l ∈ v.fifo, l.number < r.number

end Fetching

theorem linesOrdered_iff (s : State) :
    s.linesOrdered ↔ ∀ m, (s.output m).fetching.InOrder (s.readsFor m) :=
  forall_congr' fun _ => ⟨fun ⟨h1, h2, h3, h4⟩ => ⟨h1, h2, h3, h4⟩, fun ⟨h1, h2, h3, h4⟩ => ⟨h1, h2, h3, h4⟩⟩

/-! ### Calm changes -/

/-- The requests stay in order, no read is added, and every output but the one named keeps its lines, cursors and frame. -/
structure Calm (x : Option (Fin 6)) (s t : State) : Prop where
  requests : s.requestsOk → t.requestsOk
  reads : s.requestsOk → ∀ m r, t.readsFor m r → s.readsFor m r
  fetching : ∀ m, x ≠ some m → (t.output m).fetching = (s.output m).fetching

/-- A prefetch FIFO that is no longer, with no read more outstanding, stays within its places. -/
theorem prefetchOk_of_le {s t : State} (hs : s.prefetchOk)
    (hfifo : ∀ m, (t.output m).fifo.length ≤ (s.output m).fifo.length)
    (hout : ∀ m, t.requests.outstanding m → s.requests.outstanding m) : t.prefetchOk := fun m => by
  obtain ⟨hfour, hthree⟩ := hs m
  refine ⟨(hfifo m).trans hfour, fun h => (hfifo m).trans (hthree ?_)⟩
  exact (readOutstanding_iff s m).2 (hout m ((readOutstanding_iff t m).1 h))

theorem fifo_of_fetching {o o' : OutputChannel} (h : o'.fetching = o.fetching) : o'.fifo = o.fifo :=
  congrArg Fetching.fifo h

namespace Calm

variable {x : Option (Fin 6)} {s t u : State}

theorem refl (s : State) : Calm x s s := ⟨id, fun _ _ _ => id, fun _ _ => rfl⟩

theorem trans (h : Calm x s t) (h' : Calm x t u) : Calm x s u where
  requests := h'.requests ∘ h.requests
  reads hs m r := h.reads hs m r ∘ h'.reads (h.requests hs) m r
  fetching m hm := (h'.fetching m hm).trans (h.fetching m hm)

/-- A move of the requests that leaves every output's lines alone. -/
theorem move (h : Calm x s t) (hmove : t.requests.Move u.requests)
    (hout : ∀ m, (u.output m).fetching = (t.output m).fetching) : Calm x s u :=
  h.trans {
    requests := fun ⟨hok, hprefetch⟩ => ⟨hmove.ok hok, prefetchOk_of_le hprefetch
      (fun m => by rw [fifo_of_fetching (hout m)]) (hmove.outstanding hok)⟩
    reads := fun ⟨hok, _⟩ m r => hmove.reads hok m r
    fetching := fun m _ => hout m }

/-- A change of nothing that concerns a request or a line. -/
theorem keep (h : Calm x s t) (harb : u.arb = t.arb := by simp) (hexec : u.mc.exec = t.mc.exec := by simp)
    (hap : u.ap.deferred = t.ap.deferred := by simp) (hout : u.outputs = t.outputs := by simp) : Calm x s u := by
  have hrequests : u.requests = t.requests := by rw [State.requests, State.requests, harb, hexec, hap]
  exact h.move (hrequests ▸ .same) fun m => by rw [State.output_eq_of_outputs_eq hout]

/-- A change of an output beside its lines, cursors, epoch and frame. -/
theorem modOutput (h : Calm x s t) {m : Fin 6} {f : OutputChannel → OutputChannel}
    (hf : ∀ o, (f o).fetching = o.fetching := by intro; rfl) : Calm x s (t.modOutput m f) :=
  h.move .same fun i => by
    rw [State.output_modOutput]
    split
    next hi => rw [hf, hi]
    next => rfl

/-- Any change of the output named that does not lengthen its FIFO. -/
theorem setOutput {m : Fin 6} (h : Calm (some m) s t) {o : OutputChannel}
    (hfifo : o.fifo.length ≤ (t.output m).fifo.length) : Calm (some m) s (t.setOutput m o) :=
  h.trans {
    requests := fun ⟨hok, hprefetch⟩ => ⟨hok, prefetchOk_of_le hprefetch (fun i => by
      rw [State.output_setOutput]
      split
      next hi => exact hi ▸ hfifo
      next => exact le_rfl) fun _ => id⟩
    reads := fun _ _ _ => id
    fetching := fun i hi => by rw [State.output_setOutput, if_neg fun hm => hi (congrArg some hm)] }

/-- A change of the pending request of one client. -/
theorem setPending (h : Calm x s t) {a : Arbiter} {c : Client} {r : Option MemRequest}
    (ha : ∀ d, a.pendingOf d = if d = c then r else t.arb.pendingOf d)
    (hmove : t.requests.Move (t.requests.setPending c r)) : Calm x s { t with arb := a } := by
  have hrequests : ({ t with arb := a } : State).requests = t.requests.setPending c r :=
    congrArg (Requests.mk · t.mc.exec t.ap.deferred) (funext ha)
  exact h.move (hrequests ▸ hmove) fun _ => rfl

theorem withdrawWrite (h : Calm x s t) {n : Fin 4} : Calm x s (t.withdrawWrite n) :=
  h.setPending (pendingOf_setIn t.arb n none) (.drop _)

theorem withdrawRead (h : Calm x s t) {m : Fin 6} : Calm x s (t.withdrawRead m) :=
  h.setPending (pendingOf_setOut t.arb m none) (.drop _)

theorem endExec (h : Calm x s t) : Calm x s t.endExec := h.move .finish fun _ => rfl

/-! ### Grants (R155 to R160) -/

/-- A client's request leaves the arbiter and goes into execution. -/
theorem grant (h : Calm x s t) (hidle : t.mc.exec = none) {c : Client} {r : MemRequest}
    (harb : ∀ d, u.arb.pendingOf d = if d = c then none else t.arb.pendingOf d) (hpending : t.arb.pendingOf c = some r)
    (hexec : u.mc.exec = some ⟨r, false⟩ := by rfl) (hap : u.ap = t.ap := by rfl)
    (hout : u.outputs = t.outputs := by rfl) : Calm x s u := by
  have hrequests : u.requests = { t.requests.setPending c none with exec := some ⟨r, false⟩ } := by
    rw [State.requests, hexec, hap, funext harb]
    rfl
  exact h.move (hrequests ▸ .grant c r hidle hpending) fun m => by rw [State.output_eq_of_outputs_eq hout]

theorem grantInput (h : Calm x s t) (hidle : t.mc.exec = none) {n : Fin 4} : Calm x s (t.grantInput n) := by
  unfold State.grantInput
  split
  · exact h
  next r hr =>
    exact h.grant hidle (fun d => (pendingOf_passOver _ d).trans (pendingOf_setIn t.arb n none d)) hr

theorem grantOutput (h : Calm x s t) (hidle : t.mc.exec = none) {m : Fin 6} : Calm x s (t.grantOutput m) := by
  unfold State.grantOutput
  split
  · exact h
  next r hr =>
    exact h.grant hidle (fun d => (pendingOf_passOver _ d).trans (pendingOf_setOut t.arb m none d)) hr

theorem grantHost (h : Calm x s t) (hidle : t.mc.exec = none) {c : HostClient} : Calm x s (t.grantHost c) := by
  unfold State.grantHost
  split
  · exact h
  next r hr =>
    cases c with
    | accessPort =>
      exact h.grant hidle (pendingOf_setAp t.arb none) (by simpa [Arbiter.pendingOf] using ⟨r, hr, rfl⟩)
    | commandUnit =>
      exact h.grant hidle (pendingOf_setCu t.arb none) (by simpa [Arbiter.pendingOf] using ⟨r, hr, rfl⟩)

/-- The pointers, the preference and the profile of the arbiter are no requests (R157, R158, R161). -/
theorem setArb (h : Calm x s t) {a : Arbiter} (ha : ∀ c, a.pendingOf c = t.arb.pendingOf c) :
    Calm x s { t with arb := a } := by
  have hrequests : ({ t with arb := a } : State).requests = t.requests :=
    congrArg (Requests.mk · t.mc.exec t.ap.deferred) (funext ha)
  exact h.move (hrequests ▸ .same) fun _ => rfl

theorem applyGrant (h : Calm x s t) (hidle : t.mc.exec = none) {w : Winner} : Calm x s (t.applyGrant w) := by
  cases w with
  | refresh => exact h.move (.refresh hidle) fun _ => rfl
  | urgentOutput m =>
    have hpointer : Calm x s { t with arb := { t.arb with urgentOut := m + 1, preference := .inputs } } :=
      h.setArb fun c => by cases c <;> rfl
    exact hpointer.grantOutput hidle
  | urgentInput n =>
    have hpointer : Calm x s { t with arb := { t.arb with urgentIn := n + 1, preference := .outputs } } :=
      h.setArb fun c => by cases c <;> rfl
    exact hpointer.grantInput hidle
  | normal i =>
    have hpointer : Calm x s { t with arb := { t.arb with normal := i + 1 } } := h.setArb fun c => by cases c <;> rfl
    simp only [State.applyGrant]
    split
    · exact hpointer.grantInput hidle
    · exact hpointer.grantOutput hidle
    · exact h
  | host c => exact h.grantHost hidle

theorem grantMoment (h : Calm x s t) : Calm x s t.grantMoment := by
  rcases t.grantMoment_cases with hg | ⟨w, _, hidle, _, hg⟩ <;> rw [hg]
  · exact h
  · exact h.applyGrant hidle

/-! ### Requests raised (R41, R122, R127, R132, R137) -/

theorem raiseWrite (h : Calm x s t) {n : Fin 4} : Calm x s (t.raiseWrite n) := by
  unfold State.raiseWrite
  split
  · exact h
  next l _ _ =>
    split
    · exact h
    next hfree =>
      refine grantMoment (h.setPending (pendingOf_setIn t.arb n _) (.raise _ _ rfl nofun fun _ hexec => hfree ?_))
      rw [(execBy_iff t _).2 hexec, Bool.or_true]

/-- A change that is calm where the requests are in order. -/
theorem of_ok (h : s.requestsOk → Calm x s t) (hout : t.outputs = s.outputs := by simp) : Calm x s t where
  requests hs := (h hs).requests hs
  reads hs := (h hs).reads hs
  fetching m _ := by rw [State.output_eq_of_outputs_eq hout]

theorem defer (h : Calm x s t) {r : Option MemRequest} (hr : ∀ q ∈ r, q.client = .accessPort) :
    Calm x s { t with ap := { t.ap with deferred := r } } := h.move (.defer r hr) fun _ => rfl

theorem raisePort (h : Calm x s t) {r : MemRequest} (hr : r.client = .accessPort) : Calm x s (t.raisePort r) := by
  unfold State.raisePort
  split
  · exact h.defer fun q hq => Option.some.inj hq ▸ hr
  · exact grantMoment (h.setPending (pendingOf_setAp t.arb _) (.raise _ _ hr nofun nofun))

theorem raiseDeferred (h : Calm x s t) : Calm x s t.raiseDeferred := by
  refine h.trans (of_ok fun ⟨hok, _⟩ => ?_)
  unfold State.raiseDeferred
  split
  · exact refl t
  next r hr => exact raisePort ((refl t).defer (by simp)) (hok.deferred r hr)

theorem raiseClear (h : Calm x s t) {c : ClearProgress} : Calm x s (t.raiseClear c) :=
  grantMoment (h.setPending (pendingOf_setCu t.arb _) (.raise _ _ rfl nofun nofun))

theorem afterDelivery (h : Calm x s t) : Calm x s t.afterDelivery := by
  have hstage : t.startWaitingStage.mc.exec = t.mc.exec := by
    unfold State.startWaitingStage
    split <;> rfl
  exact (h.keep (u := t.startWaitingStage) (hexec := hstage)).grantMoment

/-! ### Input channels (chapters 2 and 3) -/

theorem modInput (h : Calm x s t) {n : Fin 4} {f : InputChannel → InputChannel} : Calm x s (t.modInput n f) := h.keep

theorem countIn (h : Calm x s t) {n : Fin 4} {c : InCounter} : Calm x s (t.countIn n c) := h.keep

theorem raiseIn (h : Calm x s t) {n : Fin 4} {e : InEvent} : Calm x s (t.raiseIn n e) := h.keep

theorem broken (h : Calm x s t) {n : Fin 4} : Calm x s (t.broken n) := h.keep

theorem settle (h : Calm x s t) {n : Fin 4} : Calm x s (t.settle n) := h.keep

theorem stopCompletion (h : Calm x s t) {n : Fin 4} : Calm x s (t.stopCompletion n) := h.keep

theorem takeFrameStart (h : Calm x s t) {n : Fin 4} {tag : Option Word} : Calm x s (t.takeFrameStart n tag) := h.keep

theorem closeOpen (h : Calm x s t) {n : Fin 4} {v : Verdict} {short : Bool} : Calm x s (t.closeOpen n v short) := by
  unfold State.closeOpen
  split
  · exact h
  · dsimp only
    split
    · exact withdrawWrite h.keep
    · exact h.keep

theorem closeFrame (h : Calm x s t) {n : Fin 4} {v : Verdict} {short : Bool} : Calm x s (t.closeFrame n v short) :=
  h.closeOpen.settle.raiseWrite

theorem endFrame (h : Calm x s t) {n : Fin 4} {st : InState} {v : Verdict} {short : Bool} :
    Calm x s (t.endFrame n st v short) := by
  unfold State.endFrame State.enterOrStop
  dsimp only
  split
  · exact h.modInput.closeFrame.stopCompletion
  · exact h.modInput.closeFrame

theorem frameStartFilling (h : Calm x s t) {n : Fin 4} {tag : Option Word} : Calm x s (t.frameStartFilling n tag) := by
  unfold State.frameStartFilling
  dsimp only
  split
  · exact h.broken.closeFrame.stopCompletion
  · exact h.broken.closeFrame.takeFrameStart

theorem lineFilling (h : Calm x s t) {n : Fin 4} {e : FrameEntry} {payload : List Word} :
    Calm x s (t.lineFilling n e payload) := by
  unfold State.lineFilling
  dsimp only
  split
  · exact h.broken.endFrame
  · split
    · exact h.broken.endFrame
    · split
      · exact h.countIn.raiseIn.endFrame
      · exact h.modInput.raiseWrite

theorem frameEndFilling (h : Calm x s t) {n : Fin 4} {e : FrameEntry} : Calm x s (t.frameEndFilling n e) := by
  unfold State.frameEndFilling
  split
  · exact h.endFrame
  · split
    · exact h.endFrame
    · exact h.broken.endFrame

theorem signalLost (h : Calm x s t) {n : Fin 4} : Calm x s (t.signalLost n) := by
  unfold State.signalLost
  dsimp only
  split
  · exact h.modInput.countIn.raiseIn.broken.endFrame
  · exact h.keep

theorem of_pushEffect {n : Fin 4} (e : PushEffect n s t) : Calm x s t := by
  cases e with
  | dropped => exact refl s
  | stray => exact (refl s).keep
  | takeFrameStart tag => exact (refl s).takeFrameStart
  | frameStartFilling tag => exact (refl s).frameStartFilling
  | lineFilling e payload => exact (refl s).lineFilling
  | frameEndFilling e => exact (refl s).frameEndFilling
  | frameEndSkipping => exact (refl s).modInput
  | signalLost => exact (refl s).signalLost

theorem stopNow (h : Calm x s t) {n : Fin 4} : Calm x s (t.stopNow n) := by
  unfold State.stopNow
  dsimp only
  split
  · exact h.countIn.closeFrame.stopCompletion
  · exact h.stopCompletion

theorem writeDisable (h : Calm x s t) {n : Fin 4} {mode : StopMode} : Calm x s (t.writeDisable n mode) := by
  unfold State.writeDisable
  split
  case h_1 | h_2 | h_3 =>
    split
    · exact h
    · split
      · exact h.stopNow
      · exact h.keep
  all_goals exact h

theorem writeInCtrl (h : Calm x s t) {n : Fin 4} {enable : Bool} {mode : StopMode} :
    Calm x s (t.writeInCtrl n enable mode) := by
  unfold State.writeInCtrl
  split
  · exact h.keep
  · dsimp only
    split
    · exact h.keep
    · exact h.modInput.writeDisable

theorem resetInput (h : Calm x s t) {n : Fin 4} : Calm x s (t.resetInput n) := by
  unfold State.resetInput
  dsimp only
  split
  · exact h.keep
  · refine (withdrawWrite (t := { t with sm := _, eu := _ }) (n := n) h.keep).keep

theorem resetInputs (h : Calm x s t) (ns : List (Fin 4)) : Calm x s (t.resetInputs ns) := by
  induction ns generalizing t with
  | nil => exact h
  | cons n ns ih => exact ih h.resetInput

theorem lineWriteDone (h : Calm x s t) {r : MemRequest} : Calm x s (t.lineWriteDone r) := by
  unfold State.lineWriteDone
  split
  · unfold State.inputWriteDone
    split
    · exact h.keep
    · exact raiseWrite h.keep
  · exact h.keep

/-! ### Host commands, the access port and time (chapters 6 to 8) -/

theorem clearWriteDone (h : Calm x s t) {r : MemRequest} : Calm x s (t.clearWriteDone r) := by
  unfold State.clearWriteDone
  split
  · exact h.keep
  · split
    · exact h.keep
    · unfold State.clearAdvance
      dsimp only
      split
      · exact raiseClear h.keep
      · exact h.keep

theorem portError (h : Calm x s t) {e : PortError} : Calm x s (t.portError e) := h.keep (hap := rfl)

theorem portRead (h : Calm x s t) : Calm x s t.portRead := by
  have hstart : Calm x s t.startRead := by
    unfold State.startRead
    split
    · exact raisePort (h.keep (hap := by rfl)) (by rfl)
    · exact h.portError
  unfold State.portRead
  split
  case h_1 | h_2 => exact hstart
  all_goals exact h.portError

theorem portFlush (h : Calm x s t) : Calm x s t.portFlush := by
  have hstart : Calm x s t.startFlush := by
    unfold State.startFlush
    split
    · exact h.portError
    · split
      · unfold State.takeFlush
        exact raisePort (h.keep (hap := by rfl)) (by rfl)
      · exact h.keep (hap := rfl)
  unfold State.portFlush
  split
  · exact h
  · exact hstart
  all_goals exact h.portError

theorem of_commandEffect (e : CommandEffect s t) : Calm x s t := by
  have h : Calm x s s := refl s
  cases e with
  | memoryInit =>
    unfold State.cmdMemoryInit
    split
    · exact h.keep (hexec := rfl)
    · exact h.keep
  | slotClear =>
    unfold State.cmdSlotClear
    split
    · exact h.keep
    · split
      · exact h.keep
      · split
        · exact h.keep
        · split
          · exact h.keep
          · exact raiseClear h.keep
  | _ => exact h.keep

theorem refreshExpired (h : Calm x s t) : Calm x s t.refreshExpired := by
  unfold State.refreshExpired
  dsimp only
  split
  · exact h.keep (hexec := rfl)
  · exact grantMoment (h.keep (hexec := rfl))

theorem enterReady (h : Calm x s t) : Calm x s t.enterReady := grantMoment (h.keep (hexec := rfl))

end Calm

end Sys2Proof.Machine
end

