-- ==== Sys2Proof/Proofs/Lines.lean ====
section
/-! The lines of one output in order (R93 to R95): what keeps them so, and that the raise of a read does. -/

namespace Sys2Proof.Machine

-- One theorem after another, as in the tests: many of them at once would need a thread each.
set_option Elab.async false

/-! ### Lines and reads of one output -/

namespace Fetching

variable {v w : Fetching} {reads reads' : MemRequest → Prop}

theorem InOrder.mono (h : v.InOrder reads) (hr : ∀ r, reads' r → reads r) : v.InOrder reads' :=
  { h with reads := fun r hr' => h.reads r (hr r hr') }

/-- An empty FIFO and no read of the current epoch. -/
theorem inOrder_of_stale (hfifo : v.fifo = []) (hwithin : ∀ f, v.frame = some f → v.fetch ≤ f.lineCount)
    (hr : ∀ r, reads r → r.epoch ≠ v.epoch) : v.InOrder reads where
  within := hwithin
  rising := by simp [hfifo]
  lines := by simp [hfifo]
  reads r h he := absurd he (hr r h)

/-- Without a frame to fetch there is no line, and no read of the current epoch. -/
theorem InOrder.stale (h : v.InOrder reads) (hv : ¬v.Shows) : v.fifo = [] ∧ ∀ r, reads r → r.epoch ≠ v.epoch :=
  ⟨List.eq_nil_iff_forall_not_mem.2 fun l hl => hv (h.lines l hl).2.2.2, fun r hr he => hv (h.reads r hr he).2.1⟩

/-- The frame or what was fetched for it has ended: a new epoch with an empty FIFO (R93). -/
structure Ended (v w : Fetching) : Prop where
  fifo : w.fifo = []
  epoch : w.epoch = v.epoch + 1
  frame : ∀ f, w.frame = some f → v.frame = some f ∧ w.fetch = v.fetch

theorem Ended.inOrder (h : v.Ended w) (hv : v.InOrder reads) (hr : ∀ r, reads r → r.epoch ≠ v.epoch + 1) :
    w.InOrder reads := by
  refine inOrder_of_stale h.fifo (fun f hf => ?_) fun r hr' => h.epoch ▸ hr r hr'
  obtain ⟨hframe, hfetch⟩ := h.frame f hf
  exact hfetch ▸ hv.within f hframe

end Fetching

/-! ### What a step has to keep -/

/-- Requests stay in order, and where `p` holds the lines are in order after it. -/
def KeepsIf (p : Prop) (s t : State) : Prop :=
  (s.requestsOk → t.requestsOk) ∧ (s.requestsOk → p → t.linesOrdered)

/-- What the statement supposes of the lines before a step. -/
def State.linesReady (s : State) : Prop := s.framesOk ∧ s.linesOrdered ∧ s.epochsAhead

section

variable {p : Prop} {s t u : State} {m : Fin 6}

theorem inOrder_of_calm {x : Option (Fin 6)} (h : Calm x s t) (hs : s.requestsOk) (hm : x ≠ some m)
    (ho : (s.output m).fetching.InOrder (s.readsFor m)) : (t.output m).fetching.InOrder (t.readsFor m) :=
  h.fetching m hm ▸ ho.mono (h.reads hs m)

theorem KeepsIf.calm (h : KeepsIf p s t) (hu : Calm none t u) : KeepsIf p s u :=
  ⟨hu.requests ∘ h.1, fun hs hp => (linesOrdered_iff u).2 fun m =>
    inOrder_of_calm hu (h.1 hs) nofun ((linesOrdered_iff t).1 (h.2 hs hp) m)⟩

theorem keepsIf_of_calm (h : Calm none s t) : KeepsIf s.linesReady s t :=
  KeepsIf.calm (t := s) ⟨id, fun _ hp => hp.2.1⟩ h

/-- A change that concerns one output alone keeps all lines in order when it keeps that output's. -/
theorem keepsIf_of_one (h : Calm (some m) s t) (hp : p → ∀ i, i ≠ m → (s.output i).fetching.InOrder (s.readsFor i))
    (hm : s.requestsOk → p → (t.output m).fetching.InOrder (t.readsFor m)) : KeepsIf p s t :=
  ⟨h.requests, fun hs hp' => (linesOrdered_iff t).2 fun i => by
    by_cases hi : i = m
    · exact hi ▸ hm hs hp'
    · exact inOrder_of_calm h hs (fun hm => hi (Option.some.inj hm).symm) (hp hp' i hi)⟩

theorem keepsIf_of_output (h : Calm (some m) s t)
    (hm : s.requestsOk → s.framesOk → s.epochsAhead → (s.output m).fetching.InOrder (s.readsFor m) →
      (t.output m).fetching.InOrder (s.readsFor m)) : KeepsIf s.linesReady s t :=
  keepsIf_of_one h (fun hp i _ => (linesOrdered_iff s).1 hp.2.1 i)
    fun hs ⟨hframes, hlines, hahead⟩ =>
      (hm hs hframes hahead ((linesOrdered_iff s).1 hlines m)).mono (h.reads hs m)

/-! ### The read engine (R95) -/

/-- OUTm's request for the line at the fetch cursor, in the arbiter before its grant moment (R95). -/
def State.askRead (s : State) (m : Fin 6) (f : OpenFrame) (k : Nat) : State :=
  { s with arb := { s.arb with outReq := s.arb.outReq.set m (some (s.lineReadRequest m f k)) } }.modOutput m
    fun o => { o with fetch := o.fetch + 1 }

section

variable {f : OpenFrame} {k : Nat}

theorem raiseRead_eq_askRead (h : t.readWanted m = some (f, k)) : t.raiseRead m = (t.askRead m f k).grantMoment :=
  raiseRead_of_wanted h

theorem requests_askRead (t : State) (m : Fin 6) (f : OpenFrame) (k : Nat) :
    (t.askRead m f k).requests = t.requests.setPending (.output m) (some (t.lineReadRequest m f k)) :=
  congrArg (Requests.mk · t.mc.exec t.ap.deferred) (funext (pendingOf_setOut t.arb m _))

theorem pending_askRead (t : State) (m : Fin 6) (f : OpenFrame) (k : Nat) (c : Client) :
    (t.askRead m f k).requests.pending c =
      if c = .output m then some (t.lineReadRequest m f k) else t.requests.pending c :=
  congrArg (Requests.pending · c) (requests_askRead t m f k)

theorem fetching_askRead_self (t : State) (m : Fin 6) (f : OpenFrame) (k : Nat) :
    ((t.askRead m f k).output m).fetching = { (t.output m).fetching with fetch := (t.output m).fetch + 1 } := by
  rw [State.askRead, State.output_modOutput, if_pos rfl]
  rfl

theorem output_askRead_other (t : State) {m i : Fin 6} (hi : i ≠ m) (f : OpenFrame) (k : Nat) :
    (t.askRead m f k).output i = t.output i := by
  rw [State.askRead, State.output_modOutput, if_neg hi.symm]
  rfl

theorem requestsOk_askRead (h : t.readWanted m = some (f, k)) (ht : t.requestsOk) : (t.askRead m f k).requestsOk := by
  obtain ⟨-, -, -, ⟨-, hexec⟩, -, hroom⟩ := readWanted_eq_some.1 h
  obtain ⟨hok, hprefetch⟩ := ht
  have hidle : ¬t.requests.execBy (.output m) := fun he => by simp [(execBy_iff t _).2 he] at hexec
  refine ⟨⟨fun c r hr => ?_, hok.deferred, fun c hc he => ?_⟩, fun i => ?_⟩
  · rw [pending_askRead] at hr
    split at hr
    next hcm => cases hr; exact hcm.symm
    next => exact hok.clients c r hr
  · rw [pending_askRead, if_neg]
    · exact hok.one c hc he
    · rintro rfl
      exact hidle he
  · by_cases hi : i = m
    · subst hi
      have hfifo : ((t.askRead i f k).output i).fifo = (t.output i).fifo :=
        congrArg Fetching.fifo (fetching_askRead_self t i f k)
      rw [hfifo]
      omega
    · rw [output_askRead_other t hi, readOutstanding_iff]
      refine ⟨(hprefetch i).1, fun hout => (hprefetch i).2 ((readOutstanding_iff t i).2 ?_)⟩
      rw [Requests.outstanding, pending_askRead, if_neg fun h => hi (Client.output.inj h)] at hout
      exact hout

/-- The line asked for lies beyond the FIFO, and no other read of OUTm is about. -/
theorem inOrder_askRead (h : t.readWanted m = some (f, k)) {i : Fin 6}
    (ho : (t.output i).fetching.InOrder (t.readsFor i)) :
    ((t.askRead m f k).output i).fetching.InOrder ((t.askRead m f k).readsFor i) := by
  obtain ⟨hframe, -, hstatus, ⟨-, hexec⟩, hfetch, -⟩ := readWanted_eq_some.1 h
  by_cases hi : i = m
  · subst hi
    have hshows : (t.output i).fetching.Shows := ⟨f, hframe, by rcases hstatus with hs | hs <;> simp [hs]⟩
    rw [fetching_askRead_self]
    refine ⟨fun g hg => ?_, ho.rising, fun l hl => ?_, fun r hr _ => ?_⟩
    · obtain rfl : f = g := Option.some.inj (hframe.symm.trans hg)
      exact hfetch
    · obtain ⟨hepoch, hpull, hnumber, -⟩ := ho.lines l hl
      exact ⟨hepoch, hpull, Nat.lt_succ_of_lt hnumber, hshows⟩
    · rcases hr with hr | ⟨he, hclient⟩
      · obtain rfl : t.lineReadRequest i f k = r := Option.some.inj ((if_pos rfl).symm.trans ((pending_askRead ..).symm.trans hr))
        exact ⟨Nat.lt_succ_self _, hshows, fun l hl => (ho.lines l hl).2.2.1⟩
      · exact absurd ((execBy_iff t _).2 ⟨_, he, hclient⟩) (by simp [hexec])
  · rw [output_askRead_other t hi]
    refine ho.mono fun r hr => hr.imp_left fun hr => ?_
    exact (if_neg fun h => hi (Client.output.inj h)).symm.trans ((pending_askRead ..).symm.trans hr)

end

theorem KeepsIf.raiseRead (h : KeepsIf p s t) : KeepsIf p s (t.raiseRead m) := by
  cases hw : t.readWanted m with
  | none => rwa [raiseRead_of_resting (by simp [hw])]
  | some fk =>
    obtain ⟨f, k⟩ := fk
    rw [raiseRead_eq_askRead hw]
    refine KeepsIf.calm ⟨requestsOk_askRead hw ∘ h.1, fun hs hp => ?_⟩ (Calm.refl _).grantMoment
    exact (linesOrdered_iff _).2 fun i => inOrder_askRead hw ((linesOrdered_iff t).1 (h.2 hs hp) i)

end

end Sys2Proof.Machine
end

