-- ==== Sys2Proof/Proofs/LinesPulled.lean ====
section
/-! Frames that open and end, and the lines that are pulled: each keeps the lines of its output in order (R77, R80 to R88, R93,
R97, R99 to R107). -/

namespace Sys2Proof.Machine

-- One theorem after another, as in the tests: many of them at once would need a thread each.
set_option Elab.async false

theorem output_modOutput_self (s : State) (m : Fin 6) (f : OutputChannel → OutputChannel) :
    (s.modOutput m f).output m = f (s.output m) := by
  rw [State.output_modOutput, if_pos rfl]

section

variable {p q : Prop} {x : Option (Fin 6)} {s t u : State} {m : Fin 6}

namespace Calm

/-! ### Outputs -/

/-- What is calm for every output is calm for all but one. -/
theorem but (h : Calm none s t) : Calm x s t := ⟨h.requests, h.reads, fun i _ => h.fetching i nofun⟩

theorem setSm (h : Calm x s t) {sm : SlotManager} : Calm x s { t with sm := sm } := h.keep

theorem countOut (h : Calm x s t) {c : OutCounter} : Calm x s (t.countOut m c) := h.modOutput

theorem raiseOut (h : Calm x s t) {e : OutEvent} : Calm x s (t.raiseOut m e) := h.keep

theorem protocolError (h : Calm x s t) : Calm x s (t.protocolError m) := h.countOut.raiseOut

theorem answerOffline (h : Calm x s t) : Calm x s (t.answerOffline m) := h.modOutput

theorem enterDisabled (h : Calm x s t) : Calm x s (t.enterDisabled m) := h.modOutput.raiseOut

theorem release (h : Calm x s t) : Calm x s (t.release m) := by
  unfold State.release
  split
  · exact h
  · exact modOutput h.keep

theorem reportLoss (h : Calm x s t) : Calm x s (t.reportLoss m) := by
  unfold State.reportLoss
  split
  · exact h
  · exact h.modOutput.raiseOut

theorem closeOutput (h : Calm (some m) s t) : Calm (some m) s (t.closeOutput m) := by
  unfold State.closeOutput
  split
  · exact h
  · have hclose {v : State} (hv : Calm (some m) s v) : Calm (some m) s (v.modOutput m fun o =>
        { o with fifo := [], repeatBuf := none, epoch := o.epoch + 1, frame := none }) := hv.setOutput (Nat.zero_le _)
    dsimp only
    split
    · exact (hclose h.countOut.raiseOut).withdrawRead
    · exact (hclose h).withdrawRead

theorem closeDisabling (h : Calm (some m) s t) : Calm (some m) s (t.closeDisabling m) := by
  unfold State.closeDisabling
  dsimp only
  split
  · exact h.closeOutput.release
  · exact h.closeOutput.release.enterDisabled

end Calm

/-! ### The end of a frame (R77, R90, R93, R107) -/

/-- OUTm's frame, or what was fetched for it, ends with a new epoch; nothing else happens to a line or a request. -/
structure Closes (m : Fin 6) (s t : State) : Prop where
  calm : Calm (some m) s t
  ended : (s.output m).fetching.Ended (t.output m).fetching

theorem Closes.after (h : Closes m s t) (hu : Calm none t u) : Closes m s u where
  calm := h.calm.trans hu.but
  ended := hu.fetching m nofun ▸ h.ended

theorem Closes.before (hs : Calm none s t) (h : Closes m t u) : Closes m s u where
  calm := hs.but.trans h.calm
  ended := hs.fetching m nofun ▸ h.ended

theorem closes_closeOutput {f : OpenFrame} (h : (s.output m).frame = some f) : Closes m s (s.closeOutput m) := by
  refine ⟨(Calm.refl s).closeOutput, ?_⟩
  have hended (v : State) (hv : (v.output m).fetching = (s.output m).fetching) : (s.output m).fetching.Ended
      (((v.modOutput m fun o => { o with fifo := [], repeatBuf := none, epoch := o.epoch + 1, frame := none }).withdrawRead
        m).output m).fetching := by
    rw [State.output_withdrawRead, output_modOutput_self]
    exact ⟨rfl, congrArg (Fetching.epoch · + 1) hv, nofun⟩
  unfold State.closeOutput
  rw [h]
  dsimp only
  split
  · exact hended _ ((Calm.refl (x := none) s).countOut.raiseOut.fetching m nofun)
  · exact hended s rfl

theorem closes_closeDisabling {f : OpenFrame} (h : (s.output m).frame = some f) : Closes m s (s.closeDisabling m) := by
  have hreleased : Closes m s ((s.closeOutput m).release m) := (closes_closeOutput h).after (Calm.refl _).release
  unfold State.closeDisabling
  dsimp only
  split
  · exact hreleased
  · exact hreleased.after (Calm.refl _).enterDisabled

theorem Closes.keepsIf (h : Closes m s t) : KeepsIf s.linesReady s t :=
  keepsIf_of_output h.calm fun _ _ hahead ho => h.ended.inOrder ho fun r hr => (hahead m r hr).1

/-! ### Selections (R80 to R88) -/

/-- OUTm holds no line, and no read for it is of its epoch or the next. -/
def State.Clear (s : State) (m : Fin 6) : Prop :=
  (s.output m).fifo = [] ∧ ∀ r, s.readsFor m r → r.epoch ≠ (s.output m).epoch ∧ r.epoch ≠ (s.output m).epoch + 1

/-- All outputs but OUTm have their lines in order, and OUTm none. -/
def State.readyToOpen (s : State) (m : Fin 6) : Prop :=
  (∀ i, i ≠ m → (s.output i).fetching.InOrder (s.readsFor i)) ∧ s.Clear m

theorem KeepsIf.mono (h : KeepsIf p s t) (hp : s.requestsOk → q → p) : KeepsIf q s t :=
  ⟨h.1, fun hs hq => h.2 hs (hp hs hq)⟩

theorem KeepsIf.after (h : Calm (some m) s t) (hu : KeepsIf q t u) (hp : s.requestsOk → p → q) : KeepsIf p s u :=
  ⟨hu.1 ∘ h.requests, fun hs hp' => hu.2 (h.requests hs) (hp hs hp')⟩

/-- A frame opened with its cursors at 0, in this epoch or the next. -/
theorem keepsIf_of_opened {o : OutputChannel} (h : Calm none s t) (hfifo : o.fifo = (t.output m).fifo) (hfetch : o.fetch = 0)
    (hepoch : o.epoch = (t.output m).epoch ∨ o.epoch = (t.output m).epoch + 1) :
    KeepsIf (s.readyToOpen m) s (t.setOutput m o) := by
  have hone : Calm (some m) s (t.setOutput m o) :=
    h.but.setOutput (by rw [hfifo])
  refine keepsIf_of_one hone (fun hp => hp.1) fun hs ⟨_, hnone, hstale⟩ => ?_
  have hsame := h.fetching m nofun
  rw [output_setOutput_self]
  refine Fetching.inOrder_of_stale ?_ (fun f _ => ?_) fun r hr => ?_
  · exact hfifo.trans ((fifo_of_fetching hsame).trans hnone)
  · exact (Nat.le_of_eq hfetch).trans (Nat.zero_le _)
  · obtain ⟨hcurrent, hnext⟩ := hstale r (hone.reads hs m r hr)
    have heq : (t.output m).epoch = (s.output m).epoch := congrArg Fetching.epoch hsame
    rcases hepoch with he | he
    · exact fun hre => hcurrent (hre.trans (he.trans heq))
    · exact fun hre => hnext (hre.trans (he.trans (congrArg (· + 1) heq)))

theorem keepsIf_openBlank (h : Calm none s t) {lost : Bool} : KeepsIf (s.readyToOpen m) s (t.openBlank m lost) :=
  keepsIf_of_opened h rfl rfl (.inl rfl)

theorem keepsIf_openShown (h : Calm none s t) {k : Nat} {status : AnswerStatus} {short lost : Bool} :
    KeepsIf (s.readyToOpen m) s (t.openShown m k status short lost) :=
  KeepsIf.raiseRead (keepsIf_of_opened h rfl rfl (.inr rfl))

theorem keepsIf_policyStep (h : Calm none s t) {lost : Bool} : KeepsIf (s.readyToOpen m) s (t.policyStep m lost) := by
  unfold State.policyStep
  dsimp only
  split
  · unfold State.bind
    exact keepsIf_openShown h.modOutput.setSm.modOutput
  · unfold State.fallback
    split
    · exact keepsIf_openShown h.modOutput.countOut
    · exact keepsIf_openBlank h.modOutput

theorem keepsIf_select (h : Calm none s t) : KeepsIf (s.readyToOpen m) s (t.select m) := by
  unfold State.select State.lossStep
  dsimp only
  split
  · exact keepsIf_openBlank h.release
  · split
    · exact keepsIf_openBlank h.modOutput.reportLoss.release
    · unfold State.freezeStep
      split
      · exact keepsIf_openShown h.modOutput.countOut
      · exact keepsIf_policyStep h.modOutput

/-! ### Line pulls (R97, R99 to R105) -/

namespace Fetching

/-- A pull of line `v.pull`: it leaves the FIFO if it is there, both cursors pass it, and the frame is marked at most. -/
structure Pulled (v w : Fetching) (f : OpenFrame) : Prop where
  frame : ∃ g, w.frame = some g ∧ g.status = f.status ∧ g.lineCount = f.lineCount
  pull : w.pull ≤ v.pull + 1
  fetch : w.fetch = max v.fetch (v.pull + 1)
  epoch : w.epoch = v.epoch
  fifo : w.fifo.Sublist v.fifo
  gone : ∀ l ∈ w.fifo, l.number ≠ v.pull

theorem Pulled.inOrder {v w : Fetching} {f : OpenFrame} {reads : MemRequest → Prop} (h : v.Pulled w f)
    (hframe : v.frame = some f) (hwithin : v.pull < f.lineCount) (hpicture : f.status ≠ .blank) (hv : v.InOrder reads) :
    w.InOrder reads := by
  obtain ⟨g, hg, hstatus, hcount⟩ := h.frame
  have hshows : w.Shows := ⟨g, hg, hstatus ▸ hpicture⟩
  refine ⟨fun g' hg' => ?_, hv.rising.sublist h.fifo, fun l hl => ?_, fun r hr he => ?_⟩
  · obtain rfl : g = g' := Option.some.inj (hg.symm.trans hg')
    have := hv.within f hframe
    rw [h.fetch, hcount]
    omega
  · obtain ⟨hepoch, hpull, hfetch, -⟩ := hv.lines l (h.fifo.subset hl)
    have := h.gone l hl
    have := h.pull
    rw [h.fetch]
    exact ⟨hepoch.trans h.epoch.symm, by omega, by omega, hshows⟩
  · obtain ⟨hnumber, -, hlines⟩ := hv.reads r hr (he.trans h.epoch)
    rw [h.fetch]
    exact ⟨by omega, hshows, fun l hl => hlines l (h.fifo.subset hl)⟩

end Fetching

theorem pullNext_le (k : Nat) : pullNext k ≤ k + 1 := Nat.min_le_right _ _

/-- The rest of a FIFO in order lies beyond its head. -/
theorem ne_of_mem_tail {l : PrefetchLine} {rest : List PrefetchLine}
    (h : (l :: rest).Pairwise fun a b => a.number < b.number) : ∀ x ∈ rest, x.number ≠ l.number :=
  fun x hx => Nat.ne_of_gt ((List.pairwise_cons.1 h).1 x hx)

/-- A line that the pull cursor has not passed is missing from the FIFO where it does not stand at the head. -/
theorem ne_of_missing {fifo : List PrefetchLine} {k : Nat} (h : fifo.Pairwise fun a b => a.number < b.number)
    (hk : ∀ l ∈ fifo, k ≤ l.number) (hhead : ∀ l ∈ fifo.head?, l.number ≠ k) : ∀ l ∈ fifo, l.number ≠ k := by
  cases fifo with
  | nil => nofun
  | cons a rest =>
    have ha : a.number ≠ k := hhead a rfl
    have hak := hk a List.mem_cons_self
    intro l hl
    rcases List.mem_cons.1 hl with rfl | hl
    · exact ha
    · have := (List.pairwise_cons.1 h).1 l hl
      omega

section

variable {f : OpenFrame}

theorem KeepsIf.refetch (h : KeepsIf p s t) : KeepsIf p s (t.refetch m) := by
  unfold State.refetch
  split
  · exact (h.calm (Calm.refl t).withdrawRead).raiseRead
  · exact h.raiseRead

/-- The line sent for the pull cursor's line, whatever it is, leaves the output in order. -/
theorem keepsIf_of_pulled (hframe : (s.output m).frame = some f) (hwithin : (s.output m).pull < f.lineCount)
    (hpicture : f.status ≠ .blank) {o : OutputChannel} {w : Fetching} (hw : o.fetching = w)
    (hfifo : w.fifo.length ≤ (s.output m).fifo.length)
    (ho : (s.output m).fetching.InOrder (s.readsFor m) → (s.output m).fetching.Pulled w f) :
    KeepsIf s.linesReady s (s.setOutput m o) := by
  subst hw
  refine keepsIf_of_output ((Calm.refl s).setOutput hfifo) fun _ _ _ hv => ?_
  rw [output_setOutput_self]
  exact (ho hv).inOrder hframe hwithin hpicture hv

theorem fetching_pullData (o : OutputChannel) (k : Nat) (l : PrefetchLine) : (o.pullData k l).fetching =
    ⟨o.frame, pullNext k, max o.fetch (k + 1), o.epoch, o.fifo.tail⟩ := rfl

theorem fetching_pullMissing (o : OutputChannel) (f : OpenFrame) (k : Nat) : (o.pullMissing f k).fetching =
    ⟨some { f with impaired := true, firstUnderrun := true }, pullNext k, max o.fetch (k + 1), o.epoch, o.fifo⟩ := by
  obtain ⟨kind, payload, h⟩ := Quiet.sendFill_eq o f k
  simp only [OutputChannel.pullMissing, h]
  rfl

theorem fetching_pullPoisoned (o : OutputChannel) (f : OpenFrame) (k : Nat) : (o.pullPoisoned f k).fetching =
    ⟨some { f with impaired := true }, pullNext k, max o.fetch (k + 1), o.epoch, o.fifo.tail⟩ := by
  obtain ⟨kind, payload, h⟩ := Quiet.sendFill_eq o f k
  simp only [OutputChannel.pullPoisoned, h]
  rfl

theorem pullLine_of_data {l : PrefetchLine} {rest : List PrefetchLine} (hfifo : (s.output m).fifo = l :: rest)
    (hnumber : l.number = (s.output m).pull) (hclean : l.poisoned = false) :
    s.pullLine m f = (s.setOutput m ((s.output m).pullData (s.output m).pull l)).refetch m := by
  simp [State.pullLine, hfifo, hnumber, hclean]

theorem pullLine_of_poisoned {l : PrefetchLine} {rest : List PrefetchLine} (hfifo : (s.output m).fifo = l :: rest)
    (hnumber : l.number = (s.output m).pull) (hpoisoned : l.poisoned = true) :
    s.pullLine m f = ((s.setOutput m ((s.output m).pullPoisoned f (s.output m).pull)).raiseOut m .poison).refetch m := by
  simp [State.pullLine, hfifo, hnumber, hpoisoned]

theorem pullLine_of_missing (h : ∀ l ∈ (s.output m).fifo.head?, l.number ≠ (s.output m).pull) :
    s.pullLine m f = (if f.firstUnderrun then s.setOutput m ((s.output m).pullMissing f (s.output m).pull)
      else (s.setOutput m ((s.output m).pullMissing f (s.output m).pull)).raiseOut m .underrun).refetch m := by
  cases hfifo : (s.output m).fifo with
  | nil => simp [State.pullLine, hfifo]
  | cons l rest =>
    have hl : l.number ≠ (s.output m).pull := h l (by simp [hfifo])
    simp [State.pullLine, hfifo, hl]

/-- A pull below the line count keeps the lines in order, whatever it finds at the head of the FIFO (R100 to R102). -/
theorem keepsIf_pullLine (hframe : (s.output m).frame = some f) (hwithin : (s.output m).pull < f.lineCount)
    (hpicture : f.status ≠ .blank) : KeepsIf s.linesReady s (s.pullLine m f) := by
  by_cases hhead : ∀ l ∈ (s.output m).fifo.head?, l.number ≠ (s.output m).pull
  · have hset := keepsIf_of_pulled hframe hwithin hpicture (fetching_pullMissing (s.output m) f (s.output m).pull) le_rfl
      fun hv => ⟨⟨_, rfl, rfl, rfl⟩, pullNext_le _, rfl, rfl, .refl _,
        ne_of_missing hv.rising (fun l hl => (hv.lines l hl).2.1) hhead⟩
    rw [pullLine_of_missing hhead]
    split
    · exact hset.refetch
    · exact (hset.calm (Calm.refl _).raiseOut).refetch
  · obtain ⟨l, rest, hfifo, hnumber⟩ :
        ∃ l rest, (s.output m).fifo = l :: rest ∧ l.number = (s.output m).pull := by
      cases hfifo : (s.output m).fifo with
      | nil => simp [hfifo] at hhead
      | cons l rest => exact ⟨l, rest, rfl, by simpa [hfifo] using hhead⟩
    have htail : (s.output m).fifo.tail.Sublist (s.output m).fifo := List.tail_sublist _
    have hgone (hv : (s.output m).fetching.InOrder (s.readsFor m)) :
        ∀ x ∈ (s.output m).fifo.tail, x.number ≠ (s.output m).pull := by
      have hrising : (s.output m).fifo.Pairwise fun a b => a.number < b.number := hv.rising
      rw [hfifo] at hrising ⊢
      exact hnumber ▸ ne_of_mem_tail hrising
    cases hpoisoned : l.poisoned with
    | false =>
      rw [pullLine_of_data hfifo hnumber hpoisoned]
      exact (keepsIf_of_pulled hframe hwithin hpicture (fetching_pullData _ _ l) htail.length_le fun hv =>
        ⟨⟨f, hframe, rfl, rfl⟩, pullNext_le _, rfl, rfl, htail, hgone hv⟩).refetch
    | true =>
      rw [pullLine_of_poisoned hfifo hnumber hpoisoned]
      exact ((keepsIf_of_pulled hframe hwithin hpicture (fetching_pullPoisoned _ f _) htail.length_le fun hv =>
        ⟨⟨_, rfl, rfl, rfl⟩, pullNext_le _, rfl, rfl, htail, hgone hv⟩).calm (Calm.refl _).raiseOut).refetch

/-- At or beyond the line count there is no line left in the FIFO (R103). -/
theorem keepsIf_overpull (hframe : (s.output m).frame = some f) (hbeyond : f.lineCount ≤ (s.output m).pull) :
    KeepsIf s.linesReady s (s.overpull m f) := by
  have hset : KeepsIf s.linesReady s (s.setOutput m
      { ((s.output m).send (s.output m).pull .fillBlank f.blankLine).countBy .overpulls 1 with
        pull := pullNext (s.output m).pull, frame := some { f with firstOverpull := true } }) := by
    refine keepsIf_of_output ((Calm.refl s).setOutput le_rfl) fun _ _ _ hv => ?_
    have hnone : ∀ l ∈ (s.output m).fifo, False := fun l hl => by
      obtain ⟨-, hpull, hfetch, -⟩ := hv.lines l hl
      exact absurd (hv.within f hframe) (Nat.not_le.2 (hbeyond.trans_lt (hpull.trans_lt hfetch)))
    rw [output_setOutput_self]
    refine ⟨fun g hg => Option.some.inj hg ▸ hv.within f hframe, hv.rising, fun l hl => (hnone l hl).elim, fun r hr he => ?_⟩
    obtain ⟨hnumber, ⟨g, hg, hpicture⟩, hlines⟩ := hv.reads r hr he
    obtain rfl : f = g := Option.some.inj (hframe.symm.trans hg)
    exact ⟨hnumber, ⟨_, rfl, hpicture⟩, hlines⟩
  unfold State.overpull
  dsimp only
  split
  · exact hset
  · exact hset.calm (Calm.refl _).raiseOut

/-- A BLANK frame fetches nothing (R104). -/
theorem keepsIf_pullBlank (hframe : (s.output m).frame = some f) (hblank : f.status = .blank) :
    KeepsIf s.linesReady s (s.pullBlank m f) := by
  refine keepsIf_of_output ((Calm.refl s).setOutput le_rfl) fun _ _ _ hv => ?_
  obtain ⟨hfifo, hstale⟩ := hv.stale fun ⟨g, hg, hpicture⟩ =>
    hpicture (Option.some.inj (hframe.symm.trans hg) ▸ hblank)
  rw [State.pullBlank, output_setOutput_self]
  exact Fetching.inOrder_of_stale hfifo hv.within hstale

theorem Calm.pullClosed (h : Calm x s t) : Calm x s (t.pullClosed m) := by
  have hsend : Calm x s (t.setOutput m ((t.output m).send 0 .fillBlank
      (List.replicate (t.output m).cfg.blankLength (t.output m).cfg.blankWord))) :=
    h.modOutput (f := fun o => o.send 0 .fillBlank (List.replicate o.cfg.blankLength o.cfg.blankWord))
  unfold State.pullClosed
  dsimp only
  split
  · exact hsend.protocolError
  · exact hsend

end

end

end Sys2Proof.Machine
end

