-- ==== Sys2Proof/Proofs/RequestsKept.lean ====
section
/-! Every step keeps the requests of the arbiter and the lines of the prefetch FIFOs in order (R93 to R95, R153). -/

namespace Sys2Proof.Machine

-- One theorem after another, as in the tests: many of them at once would need a thread each.
set_option Elab.async false

section

variable {p q : Prop} {x : Option (Fin 6)} {s t u : State} {m : Fin 6}

/-! ### Completed reads (R98, R151) -/

theorem exec_countEcc (s : State) (ws : List WordRead) : (s.countEcc ws).mc.exec = s.mc.exec := by
  unfold State.countEcc
  dsimp only
  split <;> split <;> rfl

theorem Calm.raiseGlobal (h : Calm x s t) {e : GlobalEvent} : Calm x s (t.raiseGlobal e) := h.keep

theorem Calm.countEcc (h : Calm x s t) {ws : List WordRead} : Calm x s (t.countEcc ws) :=
  h.keep (hexec := exec_countEcc t ws)

/-- The line of the read in execution enters the FIFO, which had room for it (R94, R98). -/
theorem keepsIf_enterLine {r : MemRequest} (hexec : s.mc.exec = some ⟨r, false⟩) (hclient : r.client = .output m)
    (hu : Calm none s u) (hrequests : u.requests = { s.requests with exec := none })
    (hepoch : r.epoch = (s.output m).epoch) (hpull : (s.output m).pull ≤ r.number) {o : OutputChannel} {l : PrefetchLine}
    (hl : l.number = r.number ∧ l.epoch = r.epoch)
    (ho : o.fetching = { (s.output m).fetching with fifo := (s.output m).fifo ++ [l] }) :
    KeepsIf s.linesReady s (u.setOutput m o) := by
  have hrun : s.requests.execBy (.output m) := ⟨_, hexec, hclient⟩
  have hvacant (hs : s.requestsOk) : ¬u.requests.outstanding m := by
    rw [hrequests]
    rintro (hpending | ⟨e, he, -⟩)
    · exact hpending (hs.1.one _ rfl hrun)
    · cases he
  have hfifo : o.fifo = (s.output m).fifo ++ [l] := congrArg Fetching.fifo ho
  refine keepsIf_of_one (m := m) ⟨fun hs => ⟨(hu.requests hs).1, fun i => ?_⟩, hu.reads, fun i hi => ?_⟩
    (fun hp i _ => (linesOrdered_iff s).1 hp.2.1 i) fun hs hp => ?_
  · rw [State.output_setOutput]
    split
    next hi =>
      subst hi
      have hthree := (hs.2 m).2 ((readOutstanding_iff s m).2 (.inr hrun))
      rw [hfifo, List.length_append, List.length_singleton]
      exact ⟨Nat.succ_le_succ hthree, fun hout => absurd ((readOutstanding_iff u m).1 hout) (hvacant hs)⟩
    next => exact (hu.requests hs).2 i
  · rw [State.output_setOutput, if_neg fun hm => hi (congrArg some hm)]
    exact hu.fetching i nofun
  · have hv := (linesOrdered_iff s).1 hp.2.1 m
    obtain ⟨hfetch, hshows, hbelow⟩ := hv.reads r (.inr ⟨hexec, hclient⟩) hepoch
    rw [output_setOutput_self, ho]
    refine ⟨hv.within, List.pairwise_append.2 ⟨hv.rising, List.pairwise_singleton _ _, fun a ha b hb => ?_⟩,
      fun a ha => ?_, fun r' hr' => absurd ?_ (hvacant hs)⟩
    · obtain rfl := List.mem_singleton.1 hb
      exact hl.1 ▸ hbelow a ha
    · rcases List.mem_append.1 ha with ha | ha
      · exact hv.lines a ha
      · obtain rfl := List.mem_singleton.1 ha
        exact ⟨hl.2.trans hepoch, hl.1 ▸ hpull, hl.1 ▸ hfetch, hshows⟩
    · rcases hr' with hr' | ⟨he, hc⟩
      · exact .inl (Option.ne_none_iff_exists'.2 ⟨r', hr'⟩)
      · exact .inr ⟨_, he, hc⟩

theorem keepsIf_judgeLine {r : MemRequest} (hexec : s.mc.exec = some ⟨r, false⟩) (hclient : r.client = .output m)
    {ws : List WordRead} : KeepsIf s.linesReady s ((s.endExec.countEcc ws).judgeLine m r ws) := by
  have hu : Calm none s (s.endExec.countEcc ws) := (Calm.refl s).endExec.countEcc
  have hout : (s.endExec.countEcc ws).output m = s.output m := by simp
  unfold State.judgeLine
  rw [hout]
  split
  · exact keepsIf_of_calm hu
  next hepoch =>
    split
    · exact keepsIf_of_calm hu
    next hpull =>
      have hline := keepsIf_enterLine (o := { s.output m with
          fifo := (s.output m).fifo ++ [⟨r.number, anyPoisoned ws, r.epoch, ws.map WordRead.word⟩] }) hexec hclient hu
        (by simp [State.requests, exec_countEcc, State.endExec]) (not_not.1 hepoch) (Nat.le_of_not_lt hpull) ⟨rfl, rfl⟩ rfl
      unfold State.enterLine State.modOutput
      dsimp only
      rw [hout]
      split
      · exact hline.calm (Calm.refl _).setSm
      · exact hline

theorem keepsIf_lineReadDone {r : MemRequest} (hexec : s.mc.exec = some ⟨r, false⟩) :
    KeepsIf s.linesReady s (s.endExec.lineReadDone r) := by
  unfold State.lineReadDone
  dsimp only
  split
  next m hclient =>
    have hjudged := keepsIf_judgeLine (ws := s.endExec.store.readWords r.addr r.count) hexec hclient
    refine KeepsIf.raiseRead ?_
    unfold State.endHandshake
    split
    · exact hjudged.calm (Calm.refl _).enterDisabled
    · exact hjudged
  · exact keepsIf_of_calm (Calm.refl s).endExec.countEcc

theorem Calm.orphanEffect (h : Calm x s t) {r : MemRequest} : Calm x s (t.orphanEffect r) := by
  unfold State.orphanEffect
  split
  case h_1 | h_2 | h_3 => exact h.keep
  case h_4 | h_5 => exact h.countEcc
  case h_6 => exact h.keep (hexec := rfl)

theorem keepsIf_orphanDone (r : MemRequest) :
    KeepsIf s.linesReady s (((s.endExec.orphanEffect r).raiseDeferred).retestReader r.client).afterDelivery := by
  have hdone := keepsIf_of_calm ((Calm.refl s).endExec.orphanEffect (r := r)).raiseDeferred
  refine KeepsIf.calm ?_ (Calm.refl _).afterDelivery
  unfold State.retestReader
  split
  · exact hdone.raiseRead
  · exact hdone

theorem Calm.blockReadDone (h : Calm x s t) {r : MemRequest} : Calm x s (t.blockReadDone r) := by
  have hcounted := h.countEcc (ws := t.store.readWords r.addr r.count)
  unfold State.blockReadDone
  dsimp only
  split
  · exact raiseGlobal (raiseGlobal (hcounted.keep (hap := by rfl)))
  · exact raiseGlobal (hcounted.keep (hap := by rfl))

theorem Calm.blockWriteDone (h : Calm x s t) {r : MemRequest} : Calm x s (t.blockWriteDone r) := by
  unfold State.blockWriteDone
  dsimp only
  split
  · exact h.keep
  · exact h.keep (hap := rfl)

/-! ### FRAME_OPEN and FRAME_CLOSE (R77, R79, R107 to R109) -/

/-- In IDLE no frame is open, so nothing is held or awaited for the epochs to come (R92, R93). -/
theorem readyToOpen_of_idle (h : (s.output m).state = .idle) (hp : s.linesReady) : s.readyToOpen m := by
  obtain ⟨hframes, hlines, hahead⟩ := hp
  obtain ⟨hfifo, hstale⟩ := ((linesOrdered_iff s).1 hlines m).stale fun ⟨f, hf, _⟩ =>
    Option.some_ne_none f (hf.symm.trans ((hframes m).1 (.inr h)))
  exact ⟨fun i _ => (linesOrdered_iff s).1 hlines i, hfifo, fun r hr => ⟨hstale r hr, (hahead m r hr).1⟩⟩

theorem Closes.readyToOpen (h : Closes m s t) (hs : s.requestsOk) (hp : s.linesReady) : t.readyToOpen m := by
  obtain ⟨-, hlines, hahead⟩ := hp
  refine ⟨fun i hi => ?_, h.ended.fifo, fun r hr => ?_⟩
  · exact inOrder_of_calm h.calm hs (fun hm => hi (Option.some.inj hm).symm) ((linesOrdered_iff s).1 hlines i)
  · obtain ⟨hnext, hsecond⟩ := hahead m r (h.calm.reads hs m r hr)
    have hepoch : (t.output m).epoch = (s.output m).epoch + 1 := h.ended.epoch
    rw [hepoch, add_assoc]
    exact ⟨hnext, hsecond⟩

theorem keepsIf_reopen (h : (s.output m).state = .showing) :
    KeepsIf s.linesReady s (((s.protocolError m).closeOutput m).select m) := by
  refine KeepsIf.after (m := m) (Calm.refl s).protocolError.closeOutput (keepsIf_select (Calm.refl _)) fun hs hp => ?_
  obtain ⟨f, hf⟩ := Option.isSome_iff_exists.1 ((hp.1 m).2.1 h)
  have hprotocol : Calm none s (s.protocolError m) := (Calm.refl s).protocolError
  have hframe : ((s.protocolError m).output m).frame = some f :=
    (congrArg Fetching.frame (hprotocol.fetching m nofun)).trans hf
  exact ((closes_closeOutput hframe).before hprotocol).readyToOpen hs hp

theorem keepsIf_openDisabling : KeepsIf s.linesReady s (s.openDisabling m) := by
  unfold State.openDisabling
  split
  next hopen =>
    obtain ⟨f, hf⟩ := Option.isSome_iff_exists.1 hopen
    have hprotocol : Calm none s (s.protocolError m) := (Calm.refl s).protocolError
    have hframe : ((s.protocolError m).output m).frame = some f :=
      (congrArg Fetching.frame (hprotocol.fetching m nofun)).trans hf
    exact (((closes_closeDisabling hframe).before hprotocol).after (Calm.refl _).answerOffline).keepsIf
  next => exact keepsIf_of_calm (Calm.refl s).answerOffline

/-! ### Writes of OUTn_CTRL and resets (R76, R90, R177) -/

theorem closes_disableIdle (s : State) (m : Fin 6) : Closes m s (s.disableIdle m) := by
  have hreleased : Calm none s (s.release m) := (Calm.refl s).release
  have hended : Closes m (s.release m) ((s.release m).modOutput m fun o =>
      { o with fifo := [], repeatBuf := none, epoch := o.epoch + 1 }) := by
    refine ⟨(Calm.refl _).setOutput (Nat.zero_le _), ?_⟩
    rw [output_modOutput_self]
    exact ⟨rfl, rfl, fun f hf => ⟨hf, rfl⟩⟩
  exact (hended.before hreleased).after (Calm.refl _).enterDisabled

theorem keepsIf_writeOutConfig {reg : OutConfigReg} {enable : Bool} {w : Word} :
    KeepsIf s.linesReady s (s.writeOutConfig m reg enable w) := by
  unfold State.writeOutConfig
  split
  · exact keepsIf_of_calm (Calm.refl s).keep
  · split
    · exact keepsIf_of_calm (Calm.refl s).keep
    next cfg _ =>
      have hcfg : Calm none s (s.modOutput m fun o => { o with cfg := cfg }) := (Calm.refl s).modOutput
      dsimp only
      split
      · unfold State.writeOutEnable
        split
        · exact keepsIf_of_calm hcfg.modOutput
        · exact ((closes_disableIdle _ m).before hcfg).keepsIf
        · exact keepsIf_of_calm hcfg.modOutput
        · exact keepsIf_of_calm hcfg
      · exact keepsIf_of_calm hcfg

theorem closes_resetOutput (s : State) (m : Fin 6) : Closes m s (s.resetOutput m) := by
  have hreleased : Calm none s (({ s.release m with eu := s.eu.clearReg (.output m) } : State).withdrawRead m) :=
    Calm.withdrawRead (Calm.keep (Calm.release (Calm.refl s) (m := m)))
  refine Closes.before hreleased ⟨(Calm.refl _).setOutput (Nat.zero_le _), ?_⟩
  unfold State.resetOutput
  rw [output_modOutput_self]
  exact ⟨rfl, rfl, nofun⟩

/-- Channel resets of the outputs listed: each of them is closed once. -/
structure ClosesAll (ms : List (Fin 6)) (s t : State) : Prop where
  requests : s.requestsOk → t.requestsOk
  reads : s.requestsOk → ∀ m r, t.readsFor m r → s.readsFor m r
  ended : ∀ m, m ∈ ms → (s.output m).fetching.Ended (t.output m).fetching
  others : ∀ m, m ∉ ms → (t.output m).fetching = (s.output m).fetching

theorem closesAll_resetOutputs {ms : List (Fin 6)} (distinct : ms.Nodup) : ClosesAll ms s (s.resetOutputs ms) := by
  induction ms generalizing s with
  | nil => exact ⟨id, fun _ _ _ => id, nofun, fun _ _ => rfl⟩
  | cons k ms ih =>
    obtain ⟨hk, hms⟩ := List.nodup_cons.1 distinct
    have hfirst := closes_resetOutput s k
    have hrest : ClosesAll ms (s.resetOutput k) ((s.resetOutput k).resetOutputs ms) := ih hms
    refine ⟨hrest.requests ∘ hfirst.calm.requests,
      fun hs m r => hfirst.calm.reads hs m r ∘ hrest.reads (hfirst.calm.requests hs) m r, fun m hm => ?_, fun m hm => ?_⟩
    · rcases eq_or_ne m k with rfl | hmk
      · exact (hrest.others m hk).symm ▸ hfirst.ended
      · have hkept := hfirst.calm.fetching m fun h => hmk (Option.some.inj h).symm
        exact hkept ▸ hrest.ended m ((List.mem_cons.1 hm).resolve_left hmk)
    · obtain ⟨hmk, hmms⟩ := not_or.1 (mt List.mem_cons.2 hm)
      exact (hrest.others m hmms).trans (hfirst.calm.fetching m fun h => hmk (Option.some.inj h).symm)

theorem ClosesAll.keepsIf {ms : List (Fin 6)} (h : Calm none s t) (hu : ClosesAll ms t u) : KeepsIf s.linesReady s u := by
  refine ⟨hu.requests ∘ h.requests, fun hs ⟨_, hlines, hahead⟩ => (linesOrdered_iff u).2 fun m => ?_⟩
  have hreads : ∀ r, u.readsFor m r → s.readsFor m r := fun r => h.reads hs m r ∘ hu.reads (h.requests hs) m r
  have hv := ((linesOrdered_iff s).1 hlines m).mono hreads
  have hsame := h.fetching m nofun
  by_cases hm : m ∈ ms
  · exact (hsame ▸ hu.ended m hm).inOrder hv fun r hr => (hahead m r (hreads r hr)).1
  · exact (hu.others m hm).trans hsame ▸ hv

/-- Channel resets, each output's once (R177). -/
theorem keepsIf_channelResets (ns : List (Fin 4)) {ms : List (Fin 6)} (distinct : ms.Nodup) :
    KeepsIf s.linesReady s ((s.resetInputs ns).resetOutputs ms) :=
  (closesAll_resetOutputs distinct).keepsIf ((Calm.refl s).resetInputs ns)

/-- A reset of all leaves no request to deliver (R150, R151). -/
theorem keepsIf_of_fresh (harb : t.arb = Arbiter.reset) (hap : t.ap = AccessPort.reset) (hout : t.outputs = outputsReset)
    (hexec : ∀ r, t.mc.exec ≠ some ⟨r, false⟩) : KeepsIf s.linesReady s t := by
  have hpending (c : Client) : t.requests.pending c = none := by
    rw [State.requests, harb]
    cases c with
    | input n => simp [Arbiter.pendingOf, Arbiter.reset]
    | output m => simp [Arbiter.pendingOf, Arbiter.reset]
    | _ => rfl
  have houtput (m : Fin 6) : ((t.output m).fifo = [] ∧ (t.output m).frame = none) := by
    rw [State.output_of_reset hout m]
    exact ⟨rfl, rfl⟩
  refine ⟨fun _ => ⟨⟨fun c r hr => ?_, fun r hr => ?_, fun c _ _ => hpending c⟩, fun m => ?_⟩,
    fun _ _ => (linesOrdered_iff t).2 fun m => Fetching.inOrder_of_stale (houtput m).1 (fun f hf => ?_) fun r hr => ?_⟩
  · simp [hpending] at hr
  · simp [State.requests, hap, AccessPort.reset] at hr
  · simp [(houtput m).1]
  · cases (houtput m).2.symm.trans hf
  · rcases hr with hr | ⟨he, -⟩
    · cases (hpending (.output m)).symm.trans hr
    · exact absurd he (hexec r)

theorem keepsIf_softReset : KeepsIf s.linesReady s s.softReset := by
  refine keepsIf_of_fresh rfl rfl rfl fun r h => ?_
  obtain ⟨e, -, he⟩ := Option.map_eq_some_iff.1 h
  cases he

/-! ### Every command -/

theorem KeepsIf.hostWrite (h : hostWrite s (fun _ => u) = .next t) (hu : KeepsIf s.linesReady s u) :
    KeepsIf s.linesReady s t := by
  rcases (hostWrite_next s t _).1 h with ⟨_, rfl⟩ | ⟨_, rfl⟩
  · exact keepsIf_of_calm (Calm.refl _)
  · exact hu

theorem KeepsIf.hostRead (h : hostRead s (fun _ => u) = .next t) (hu : Calm none s u) : KeepsIf s.linesReady s t := by
  rcases (hostRead_next s t _).1 h with ⟨_, rfl⟩ | ⟨_, rfl⟩
  · exact keepsIf_of_calm (Calm.refl s).keep
  · exact keepsIf_of_calm hu

theorem Calm.issue {f : State → State} (e : CommandEffect s (f s)) : Calm none s (s.issue f) := by
  rcases s.issue_cases f with ⟨-, h⟩ | ⟨-, h⟩ <;> rw [h]
  · exact .of_commandEffect e
  · exact (Calm.refl s).keep

theorem Calm.writeCmd (s : State) (w : Word) : Calm none s (s.writeCmd w) := by
  unfold State.writeCmd
  split <;> exact .issue (by constructor)

theorem Calm.portDiscard (h : Calm x s t) : Calm x s t.portDiscard := by
  unfold State.portDiscard
  split
  · exact h.portError
  · exact h.keep (hap := rfl)

theorem Calm.writeAccCtrl (h : Calm x s t) {w : Word} : Calm x s (t.writeAccCtrl w) := by
  unfold State.writeAccCtrl
  split
  · exact h.portRead
  · exact h.portFlush
  · exact h.portDiscard
  · exact h

theorem Calm.writeAccData (h : Calm x s t) {w : Word} : Calm x s (t.writeAccData w) := by
  unfold State.writeAccData
  split
  · exact h.keep (hap := rfl)
  · split
    · exact h.keep (hap := rfl)
    · exact h.portError
  all_goals exact h.portError

theorem Calm.drive (h : Calm x s t) {w : Word} : Calm x s (t.drive w) := h.keep

theorem Calm.readAccData (h : Calm x s t) : Calm x s t.readAccData := by
  unfold State.readAccData
  split
  · unfold State.popWord
    split
    · exact h.keep
    · exact h.keep (hap := rfl)
  all_goals exact h.portError.drive

theorem Calm.writeAccAddr (h : Calm x s t) {w : Word} : Calm x s (t.writeAccAddr w) := by
  unfold State.writeAccAddr
  split
  · exact h.portError
  · exact h.keep (hap := rfl)

theorem Calm.writeAccCount (h : Calm x s t) {w : Word} : Calm x s (t.writeAccCount w) := by
  unfold State.writeAccCount
  split
  · exact h.portError
  · split
    · exact h.keep (hap := rfl)
    · exact h.portError

theorem Calm.writeArbCfg (h : Calm x s t) {w : Word} : Calm x s (t.writeArbCfg w) := by
  unfold State.writeArbCfg
  split
  · exact h.keep
  · exact h.setArb fun c => by cases c <;> rfl

theorem Calm.writeMcCfg (h : Calm x s t) {w : Word} : Calm x s (t.writeMcCfg w) := by
  unfold State.writeMcCfg
  split
  · exact h.keep
  · split
    · exact h.keep
    · exact h.keep (hexec := rfl)

theorem Calm.writeMcRefresh (h : Calm x s t) {w : Word} : Calm x s (t.writeMcRefresh w) := by
  unfold State.writeMcRefresh
  split
  · exact h.keep (hexec := rfl)
  · exact h.keep

theorem Calm.clearCounter (h : Calm x s t) {c : CounterName} : Calm x s (t.clearCounter c) := by
  unfold State.clearCounter
  split
  · exact h.keep
  · exact h.modOutput
  all_goals exact h.keep (hexec := rfl)

/-- A write of RESET_CTRL names every output once (R177). -/
theorem keepsIf_writeResetCtrl {w : Word} : KeepsIf s.linesReady s (s.writeResetCtrl w) := by
  unfold State.writeResetCtrl
  split
  · exact keepsIf_softReset
  · exact keepsIf_channelResets _ ((List.nodup_finRange 6).filter _)

theorem keepsIf_writeReg (r : Reg) (w : Word) : KeepsIf s.linesReady s (s.writeReg r w) := by
  have h : Calm none s s := Calm.refl s
  cases r with
  | resetCtrl => exact keepsIf_writeResetCtrl
  | outConfig m reg => exact keepsIf_writeOutConfig
  | cmd => exact keepsIf_of_calm (.writeCmd s w)
  | accCtrl => exact keepsIf_of_calm h.writeAccCtrl
  | accData => exact keepsIf_of_calm h.writeAccData
  | accAddr => exact keepsIf_of_calm h.writeAccAddr
  | accCount => exact keepsIf_of_calm h.writeAccCount
  | inCtrl n => exact keepsIf_of_calm h.writeInCtrl
  | arbCfg => exact keepsIf_of_calm h.writeArbCfg
  | mcCfg => exact keepsIf_of_calm h.writeMcCfg
  | mcRefresh => exact keepsIf_of_calm h.writeMcRefresh
  | counter c => exact keepsIf_of_calm h.clearCounter
  | geometry reg => exact keepsIf_of_calm (h.keep (u := s.writeGeometry reg w))
  | inConfig n reg => exact keepsIf_of_calm (h.keep (u := s.writeInConfig n reg w))
  | cmdArg i => exact keepsIf_of_calm (h.keep rfl rfl rfl rfl)
  | eventStatus reg => exact keepsIf_of_calm (h.keep rfl rfl rfl rfl)
  | eventEnable reg => exact keepsIf_of_calm (h.keep rfl rfl rfl rfl)
  | _ => exact keepsIf_of_calm h

theorem keepsIf_completing {kind : RequestKind} {deliver : State → MemRequest → State}
    (h : completing kind s deliver = .next t)
    (hd : ∀ r, s.mc.exec = some ⟨r, false⟩ → KeepsIf s.linesReady s (deliver s.endExec r)) : KeepsIf s.linesReady s t := by
  obtain ⟨r, hexec, -, -, rfl⟩ := completing_next h
  exact (hd r hexec).calm (Calm.refl _).afterDelivery

theorem keepsIf_frameOpen (h : execFrameOpen m s = .next t) : KeepsIf s.linesReady s t := by
  unfold execFrameOpen at h
  split at h <;> cases h
  · exact keepsIf_of_calm (Calm.refl s).answerOffline
  next hidle => exact (keepsIf_select (Calm.refl s)).mono fun _ => readyToOpen_of_idle hidle
  next hshowing => exact keepsIf_reopen hshowing
  · exact keepsIf_openDisabling

theorem keepsIf_linePull (h : execLinePull m s = .next t) : KeepsIf s.linesReady s t := by
  unfold execLinePull at h
  split at h
  · cases h
    exact keepsIf_of_calm (Calm.refl s).pullClosed
  next f hframe =>
    split at h
    next hbeyond =>
      cases h
      exact keepsIf_overpull hframe hbeyond
    next hwithin =>
      split at h <;> cases h
      next hblank => exact keepsIf_pullBlank hframe hblank
      next hpicture => exact keepsIf_pullLine hframe (Nat.lt_of_not_le hwithin) hpicture

theorem keepsIf_frameClose (h : execFrameClose m s = .next t) : KeepsIf s.linesReady s t := by
  unfold execFrameClose at h
  split at h <;> cases h
  · exact keepsIf_of_calm (Calm.refl s)
  · exact keepsIf_of_calm (Calm.refl s).protocolError
  · cases hframe : (s.output m).frame with
    | none =>
      have hopen : s.closeOutput m = s := by simp [State.closeOutput, hframe]
      rw [hopen]
      exact keepsIf_of_calm (Calm.refl s).modOutput
    | some f => exact ((closes_closeOutput hframe).after (Calm.refl _).modOutput).keepsIf
  · split
    next hopen =>
      obtain ⟨f, hframe⟩ := Option.isSome_iff_exists.1 hopen
      exact (closes_closeDisabling hframe).keepsIf
    next => exact keepsIf_of_calm (Calm.refl s)

theorem keepsIf_refreshCompletion (h : execRefreshCompletion s = .next t) : KeepsIf s.linesReady s t := by
  unfold execRefreshCompletion at h
  split at h
  · cases h
  · split at h <;> cases h
    exact keepsIf_of_calm (Calm.afterDelivery ((Calm.refl s).endExec.keep (hexec := rfl)))

theorem execLossOfCharge_next {decay : List (Nat × BitVec 39)} (h : execLossOfCharge decay s = .next t) :
    s.chargeMayLeak = true ∧ t = { s with store := s.store.decay (decay.filter fun d => d.1 < Config.storeWords) } := by
  unfold execLossOfCharge at h
  split at h <;> cases h
  exact ⟨‹_›, rfl⟩

theorem keepsIf_writeOffset (offset : BitVec 12) (w : Word) : KeepsIf s.linesReady s (s.writeOffset offset w) := by
  unfold State.writeOffset
  split
  · exact keepsIf_writeReg _ w
  · exact keepsIf_of_calm (Calm.refl s)

/-- Every command keeps requests and lines in order. -/
theorem keepsIf_exec {c : Instr} (h : exec c s = .next t) : KeepsIf s.linesReady s t := by
  have hs : Calm none s s := Calm.refl s
  have hend : Calm none s s.endExec := hs.endExec
  cases c with
  | frameStart n tag => exact keepsIf_of_calm (.of_pushEffect (.of_frameStart h))
  | line n payload => exact keepsIf_of_calm (.of_pushEffect (.of_line h))
  | frameEnd n => exact keepsIf_of_calm (.of_pushEffect (.of_frameEnd h))
  | lossTimerExpiry n => exact keepsIf_of_calm (.of_pushEffect (.of_lossTimerExpiry h))
  | frameOpen m => exact keepsIf_frameOpen h
  | linePull m => exact keepsIf_linePull h
  | frameClose m => exact keepsIf_frameClose h
  | refreshTimerExpiry =>
    obtain ⟨x, -, -, rfl⟩ := execRefreshTimerExpiry_next h
    exact keepsIf_of_calm hs.refreshExpired
  | initStageEnd =>
    obtain ⟨-, -, -, -, rfl⟩ := execInitStageEnd_next h
    exact keepsIf_of_calm hs.keep
  | endOfStage5 =>
    obtain ⟨-, -, -, rfl⟩ := execEndOfStage5_next h
    exact keepsIf_of_calm hs.enterReady
  | lineWriteCompletion => exact keepsIf_completing h fun r _ => keepsIf_of_calm hend.lineWriteDone
  | lineReadCompletion => exact keepsIf_completing h fun r hexec => keepsIf_lineReadDone hexec
  | blockReadCompletion => exact keepsIf_completing h fun r _ => keepsIf_of_calm hend.blockReadDone
  | blockWriteCompletion => exact keepsIf_completing h fun r _ => keepsIf_of_calm hend.blockWriteDone
  | clearWriteCompletion => exact keepsIf_completing h fun r _ => keepsIf_of_calm hend.clearWriteDone
  | refreshCompletion => exact keepsIf_refreshCompletion h
  | orphanCompletion =>
    obtain ⟨r, -, -, rfl⟩ := execOrphanCompletion_next h
    exact keepsIf_orphanDone r
  | memoryInit => exact .hostWrite h (keepsIf_of_calm (.issue .memoryInit))
  | poolBuild => exact .hostWrite h (keepsIf_of_calm (.issue .poolBuild))
  | poolTeardown => exact .hostWrite h (keepsIf_of_calm (.issue .poolTeardown))
  | slotClaim => exact .hostWrite h (keepsIf_of_calm (.issue .slotClaim))
  | slotHold => exact .hostWrite h (keepsIf_of_calm (.issue .slotHold))
  | slotRelease => exact .hostWrite h (keepsIf_of_calm (.issue .slotRelease))
  | slotPublish => exact .hostWrite h (keepsIf_of_calm (.issue .slotPublish))
  | slotClear => exact .hostWrite h (keepsIf_of_calm (.issue .slotClear))
  | inputFlush => exact .hostWrite h (keepsIf_of_calm (.issue .inputFlush))
  | unknownCommand code => exact .hostWrite h (keepsIf_of_calm (.issue .unknown))
  | read => exact .hostWrite h (keepsIf_of_calm hs.portRead)
  | flush => exact .hostWrite h (keepsIf_of_calm hs.portFlush)
  | discard => exact .hostWrite h (keepsIf_of_calm hs.portDiscard)
  | accDataRead => exact .hostRead h hs.readAccData
  | accDataWrite w => exact .hostWrite h (keepsIf_of_calm hs.writeAccData)
  | accAddrWrite w => exact .hostWrite h (keepsIf_of_calm hs.writeAccAddr)
  | accCountWrite w => exact .hostWrite h (keepsIf_of_calm hs.writeAccCount)
  | enableAttempt n mode => exact .hostWrite h (keepsIf_of_calm hs.writeInCtrl)
  | immediateStop n => exact .hostWrite h (keepsIf_of_calm hs.writeInCtrl)
  | stopAtFrameEnd n => exact .hostWrite h (keepsIf_of_calm hs.writeInCtrl)
  | stopModeWrite n enable mode => exact .hostWrite h (keepsIf_of_calm hs.writeInCtrl)
  | inputConfigWrite n reg w => exact .hostWrite h (keepsIf_writeReg (.inConfig n reg) w)
  | outputEnable m w => exact .hostWrite h keepsIf_writeOutConfig
  | outputDisable m w => exact .hostWrite h keepsIf_writeOutConfig
  | outputConfigWrite m reg w => exact .hostWrite h keepsIf_writeOutConfig
  | geometryWrite reg w => exact .hostWrite h (keepsIf_writeReg (.geometry reg) w)
  | mcCfgWrite w => exact .hostWrite h (keepsIf_writeReg .mcCfg w)
  | mcRefreshWrite w => exact .hostWrite h (keepsIf_writeReg .mcRefresh w)
  | arbCfgWrite w => exact .hostWrite h (keepsIf_writeReg .arbCfg w)
  | eventClear reg w => exact .hostWrite h (keepsIf_writeReg (.eventStatus reg) w)
  | eventEnableWrite reg w => exact .hostWrite h (keepsIf_writeReg (.eventEnable reg) w)
  | counterClear c w => exact .hostWrite h (keepsIf_writeReg (.counter c) w)
  | recordCapture k => exact .hostRead h (hs.keep (u := s.captureRecord k))
  | listCapture l => exact .hostRead h (hs.keep (u := s.captureList l))
  | registerWrite offset w => exact .hostWrite h (keepsIf_writeOffset offset w)
  | fullSoftReset => exact .hostWrite h keepsIf_softReset
  | inputChannelReset n => exact .hostWrite h (keepsIf_channelResets [n] .nil)
  | outputChannelReset m => exact .hostWrite h (keepsIf_channelResets [] (ms := [m]) (List.nodup_singleton m))
  | pinReset =>
    cases h
    exact keepsIf_of_fresh rfl rfl rfl nofun
  | resetNDeassertion =>
    cases h
    exact keepsIf_of_calm hs.keep
  | timeBaseAdvance =>
    cases h
    split
    · exact keepsIf_of_calm hs
    · exact keepsIf_of_calm hs.keep
  | lossOfCharge decay =>
    obtain ⟨-, rfl⟩ := execLossOfCharge_next h
    exact keepsIf_of_calm hs.keep

end

/-- Settles O18: a command moves requests, raises one read, ends or opens one output's frame, pulls one line or delivers one, and
each of these keeps requests and lines in order. -/
theorem requestsKept : Obligations.RequestsKept := by
  intro s t hclients hone hprefetch hstep
  have hs : s.requestsOk := (requestsOk_iff s).2 ⟨hclients, hone, hprefetch⟩
  obtain ⟨hrequests, hlines⟩ : KeepsIf s.linesReady s t := by
    unfold step at hstep
    split at hstep
    · cases hstep
      exact keepsIf_of_calm (Calm.refl s)
    next rest _ => exact keepsIf_exec (s := { s with pending := rest }) hstep
  exact ⟨(requestsOk_iff t).1 (hrequests hs), fun hframes hordered hahead => hlines hs ⟨hframes, hordered, hahead⟩⟩

end Sys2Proof.Machine
end

