-- ==== Sys2Proof/Proofs/OutputDelivery.lean ====
section
/-! LINE_PULL, FRAME_CLOSE and LINE_READ_COMPLETION, by the state of their output (R77, R98 to R109, R148). -/

namespace Sys2Proof.Machine

-- One theorem after another, as in the tests: many of them at once would need a thread each.
set_option Elab.async false

/-! ### LINE_PULL (R99 to R105) -/

section

variable {s : State} {m : Fin 6} {f : OpenFrame}

theorem exec_linePull_of_closed (hframe : (s.output m).frame = none) : exec (.linePull m) s = .next (s.pullClosed m) := by
  simp [exec, execLinePull, hframe]

theorem exec_linePull_of_beyond (hframe : (s.output m).frame = some f) (hbeyond : f.lineCount ≤ (s.output m).pull) :
    exec (.linePull m) s = .next (s.overpull m f) := by
  simp [exec, execLinePull, hframe, hbeyond]

theorem exec_linePull_of_blank (hframe : (s.output m).frame = some f) (hwithin : (s.output m).pull < f.lineCount)
    (hblank : f.status = .blank) : exec (.linePull m) s = .next (s.pullBlank m f) := by
  simp [exec, execLinePull, hframe, Nat.not_le.2 hwithin, hblank]

theorem exec_linePull_of_picture (hframe : (s.output m).frame = some f) (hwithin : (s.output m).pull < f.lineCount)
    (hpicture : f.status ≠ .blank) : exec (.linePull m) s = .next (s.pullLine m f) := by
  simp [exec, execLinePull, hframe, Nat.not_le.2 hwithin, hpicture]

/-- The fill line for line k: of the repeat buffer under fill kind REPEAT, else blank (R101). -/
def OutputChannel.fillLine (o : OutputChannel) (f : OpenFrame) (k : Nat) : LineMessage :=
  match f.fillKind, o.repeatBuf with
  | .repeated, some p => ⟨k, .fillRepeat, p⟩
  | _, _ => ⟨k, .fillBlank, List.replicate f.lineLength f.blankWord⟩

theorem sendFill_eq_fillLine (o : OutputChannel) (f : OpenFrame) (k : Nat) :
    o.sendFill f k = { o with line := some (o.fillLine f k) } := by
  cases hkind : f.fillKind with
  | blank => simp [OutputChannel.sendFill, OutputChannel.fillLine, OutputChannel.send, OpenFrame.blankLine, hkind]
  | repeated =>
    cases hbuf : o.repeatBuf <;>
      simp [OutputChannel.sendFill, OutputChannel.fillLine, OutputChannel.send, OpenFrame.blankLine, hkind, hbuf]

theorem pullData_eq {o : OutputChannel} {l : PrefetchLine} {rest : List PrefetchLine} (hfifo : o.fifo = l :: rest) (k : Nat) :
    o.pullData k l = { o with
      line := some ⟨k, .data, l.payload⟩, fifo := rest, repeatBuf := some l.payload,
      pull := min 65535 (k + 1), fetch := max o.fetch (k + 1) } := by
  rw [OutputChannel.pullData, hfifo]
  rfl

theorem pullPoisoned_eq {o : OutputChannel} {l : PrefetchLine} {rest : List PrefetchLine} (hfifo : o.fifo = l :: rest)
    (f : OpenFrame) (k : Nat) :
    o.pullPoisoned f k = { o.countBy .poisonedLines 1 with
      line := some (o.fillLine f k), fifo := rest, pull := min 65535 (k + 1), fetch := max o.fetch (k + 1),
      frame := some { f with impaired := true } } := by
  rw [OutputChannel.pullPoisoned, hfifo, sendFill_eq_fillLine]
  rfl

theorem pullMissing_eq (o : OutputChannel) (f : OpenFrame) (k : Nat) :
    o.pullMissing f k = { o.countBy .fillLines 1 with
      line := some (o.fillLine f k), pull := min 65535 (k + 1), fetch := max o.fetch (k + 1),
      frame := some { f with impaired := true, firstUnderrun := true } } := by
  rw [OutputChannel.pullMissing, sendFill_eq_fillLine]
  rfl

/-- An event of OUTm beside a new value of it, raised unless `seen`. -/
theorem setOutput_raiseOut_unless (s : State) (m : Fin 6) (o : OutputChannel) (e : OutEvent) (seen : Bool) :
    (if seen then s.setOutput m o else (s.setOutput m o).raiseOut m e) =
      ({ s with eu := if seen then s.eu else s.eu.setBits (.output m) (outEventMask e) } : State).setOutput m o := by
  cases seen <;> rfl

end

/-- Settles O44: the open frame's status, the pull cursor and the head of the FIFO decide what is sent. -/
theorem linePull : Obligations.LinePull := by
  refine ⟨fun m f s o k fill ho hframe hstatus hk hwithin hfill => ?_, fun m s o ho =>
    ⟨fun f hframe hbeyond => ?_, fun f hframe hblank hwithin => ?_, fun hframe hstate => ?_, fun hframe hstate => ?_⟩⟩
  · subst ho hk
    have hpicture : f.status ≠ .blank := by rcases hstatus with h | h <;> simp [h]
    obtain rfl : fill = (s.output m).fillLine f (s.output m).pull := hfill
    rw [exec_linePull_of_picture hframe hwithin hpicture]
    refine ⟨fun l rest hfifo hnumber hclean => ?_, fun l rest hfifo hnumber hpoisoned => ?_, fun hhead => ?_⟩
    · rw [pullLine_of_data hfifo hnumber hclean, pullData_eq hfifo]
    · rw [pullLine_of_poisoned hfifo hnumber hpoisoned, pullPoisoned_eq hfifo]
      rfl
    · rw [pullLine_of_missing hhead, pullMissing_eq, setOutput_raiseOut_unless]
      rfl
  · subst ho
    rw [exec_linePull_of_beyond hframe hbeyond]
    exact congrArg Host.Outcome.next (setOutput_raiseOut_unless s m _ .overpull f.firstOverpull)
  · subst ho
    rw [exec_linePull_of_blank hframe hwithin hblank]
    rfl
  · subst ho
    rw [exec_linePull_of_closed hframe, State.pullClosed, if_neg hstate]
    rfl
  · subst ho
    rw [exec_linePull_of_closed hframe, State.pullClosed, if_pos hstate]
    exact congrArg (fun u : State => Host.Outcome.next (u.raiseOut m .protocol)) (modOutput_setOutput s m _ _)

/-! ### FRAME_CLOSE (R77, R107 to R109) -/

section

variable {s : State} {m : Fin 6} {f : OpenFrame}

/-- The close of an open frame, on an output written field by field (R107). -/
theorem closeOutput_of_open (h : (s.output m).frame = some f) :
    s.closeOutput m = ({ s with
      eu := if f.impaired then s.eu.setBits (.output m) 0x02 else s.eu,
      arb := { s.arb with outReq := s.arb.outReq.set m none } } : State).setOutput m
      { (if f.impaired then (s.output m).countBy .incompleteFrames 1 else s.output m) with
        frame := none, fifo := [], repeatBuf := none, epoch := (s.output m).epoch + 1 } := by
  unfold State.closeOutput
  rw [h]
  dsimp only
  cases f.impaired with
  | false => rfl
  | true =>
    simp only [if_true]
    exact congrArg (State.withdrawRead · m)
      (modOutput_setOutput { s with eu := s.eu.setBits (.output m) 0x02 } m
        ((s.output m).countBy .incompleteFrames 1) _)

theorem exec_frameClose_of_disabling (hstate : (s.output m).state = .disabling) (hframe : (s.output m).frame = some f) :
    exec (.frameClose m) s = .next (s.closeDisabling m) := by
  simp [exec, execFrameClose, hstate, hframe]

/-- Entry into OFF unless the read in execution will be delivered to OUTm (R77, R109). -/
theorem enterDisabled_setOutput_unless (s : State) (m : Fin 6) {o : OutputChannel} (h : o.state = .disabling) (inFlight : Bool) :
    (if inFlight then s.setOutput m o else (s.setOutput m o).enterDisabled m) =
      ({ s with eu := if inFlight then s.eu else s.eu.setBits (.output m) 0x40 } : State).setOutput m
        { o with state := if inFlight then .disabling else .off } := by
  cases inFlight with
  | true => exact congrArg (s.setOutput m) (by rw [if_pos rfl, ← h])
  | false => exact congrArg (State.raiseOut · m .disabled) (modOutput_setOutput s m o _)

end

/-- Settles O45: what FRAME_CLOSE does in each state of the output, with what is left open or in execution. -/
theorem frameCloseEnds : Obligations.FrameCloseEnds := by
  intro m s o ho
  subst ho
  refine ⟨?_, fun hidle => ?_, fun f hframe => ⟨fun hshowing => ?_, fun hdisabling => ?_⟩⟩
  · rintro (hoff | ⟨hdisabling, hframe⟩)
    · simp [exec, execFrameClose, hoff]
    · simp [exec, execFrameClose, hdisabling, hframe]
  · simp only [exec, execFrameClose, hidle, protocolError_eq]
  · simp only [exec, execFrameClose, hshowing]
    rw [closeOutput_of_open hframe, modOutput_setOutput]
  · rw [exec_frameClose_of_disabling hdisabling hframe, State.closeDisabling, closeOutput_of_open hframe,
      release_setOutput]
    have hstate : (if f.impaired then (s.output m).countBy .incompleteFrames 1 else s.output m).state = .disabling := by
      cases f.impaired <;> exact hdisabling
    refine congrArg Host.Outcome.next ((enterDisabled_setOutput_unless _ m ?_ (s.inFlight (.output m))).trans ?_)
    · exact hstate
    · cases f.impaired <;> rfl

/-! ### LINE_READ_COMPLETION (R77, R98, R148) -/

section

variable {s : State} {m : Fin 6} {r : MemRequest} {ws : List WordRead}

theorem exec_lineReadCompletion (hexec : s.mc.exec = some ⟨r, false⟩) (hkind : r.kind = .lineRead)
    (hclient : r.client = .output m) (hinside : r.addr + r.count ≤ 16777216) (hwords : r.words.length ≤ r.count) :
    exec .lineReadCompletion s = .next (((((s.endExec.countEcc (s.store.readWords r.addr r.count)).judgeLine m r
      (s.store.readWords r.addr r.count)).endHandshake m).raiseRead m).afterDelivery) := by
  refine (completing_of State.lineReadDone hexec hkind (r.inStore_iff.2 ⟨hinside, hwords⟩)).trans ?_
  rw [State.lineReadDone, hclient]
  rfl

theorem judgeLine_of_obsolete (h : r.epoch ≠ (s.output m).epoch ∨ r.number < (s.output m).pull) :
    s.judgeLine m r ws = s := by
  unfold State.judgeLine
  split
  · rfl
  next hepoch => exact if_pos (h.resolve_left hepoch)

theorem judgeLine_of_current (hepoch : r.epoch = (s.output m).epoch) (hpull : (s.output m).pull ≤ r.number) :
    s.judgeLine m r ws = s.enterLine m r ws := by
  rw [State.judgeLine, if_neg (not_not.2 hepoch), if_neg (Nat.not_lt.2 hpull)]

/-- A line that enters the FIFO, with the poison count of the slot it was read from (R20, R98). -/
theorem enterLine_eq {k : Nat} (hslot : (s.output m).frame.bind OpenFrame.slot = some k) :
    s.enterLine m r ws = ({ s with
      sm := if anyPoisoned ws then s.sm.modSlot k fun x => { x with poison := satAddPoison x.poison } else s.sm } :
        State).setOutput m { s.output m with
          fifo := (s.output m).fifo ++ [⟨r.number, anyPoisoned ws, r.epoch, ws.map WordRead.word⟩] } := by
  unfold State.enterLine
  rw [hslot]
  cases anyPoisoned ws <;> rfl

theorem endHandshake_of_pending (h : (s.output m).state ≠ .disabling ∨ (s.output m).frame ≠ none) :
    s.endHandshake m = s := by
  refine if_neg fun hend => ?_
  simp only [Bool.and_eq_true, decide_eq_true_eq, Option.isNone_iff_eq_none] at hend
  exact h.elim (· hend.1) (· hend.2)

theorem endHandshake_of_ended (hstate : (s.output m).state = .disabling) (hframe : (s.output m).frame = none) :
    s.endHandshake m = ({ s with eu := s.eu.setBits (.output m) 0x40 } : State).setOutput m
      { s.output m with state := .off } := by
  rw [State.endHandshake, hstate, hframe]
  rfl

end

/-- Settles O47: the epoch and the pull cursor decide whether the line enters the FIFO, the frame whether the handshake ends. -/
theorem lineReadCompletes : Obligations.LineReadCompletes := by
  intro m r s read o ws hexec hkind hclient hinside hwords ho hws hread
  have hrun := exec_lineReadCompletion hexec hkind hclient hinside hwords
  obtain rfl : read = s.endExec.countEcc ws := hread
  rw [← hws] at hrun
  have hout : (s.endExec.countEcc ws).output m = o := by simp [ho]
  have hsm : s.sm = (s.endExec.countEcc ws).sm := by simp [State.endExec]
  rw [hsm]
  generalize s.endExec.countEcc ws = read at hrun hout ⊢
  subst hout
  rw [hrun]
  refine ⟨fun hdropped => ⟨fun hpending => ?_, fun hdisabling hframe => ?_⟩, fun hepoch hpull f k hframe hslot => ?_⟩
  · rw [judgeLine_of_obsolete hdropped, endHandshake_of_pending hpending]
  · rw [judgeLine_of_obsolete hdropped, endHandshake_of_ended hdisabling hframe]
  · have hread : (read.output m).frame.bind OpenFrame.slot = some k := by rw [hframe]; exact hslot
    rw [judgeLine_of_current hepoch hpull, enterLine_eq hread, endHandshake_of_pending]
    · rfl
    · rw [output_setOutput_self]
      exact .inr (by simp [hframe])

end Sys2Proof.Machine
end

