-- ==== Sys2Proof/Proofs/CommandUnit.lean ====
section
/-! The command unit: when a CMD write is taken, what the argument words name, INPUT FLUSH, codes that name no command, and the
pool commands (R110 to R112, R115, R116, R124, R176). -/

namespace Sys2Proof.Machine

-- One theorem after another, as in the tests: many of them at once would need a thread each.
set_option Elab.async false

/-! ### CMD writes (R111, R112) -/

/-- What a CMD write does in IDLE: the commands of the command unit alone have such a meaning. -/
def commandOf : Instr → Option (State → State)
  | .memoryInit => some State.cmdMemoryInit
  | .poolBuild => some State.cmdPoolBuild
  | .poolTeardown => some State.cmdPoolTeardown
  | .slotClaim => some State.cmdSlotClaim
  | .slotHold => some State.cmdSlotHold
  | .slotRelease => some State.cmdSlotRelease
  | .slotPublish => some State.cmdSlotPublish
  | .slotClear => some State.cmdSlotClear
  | .inputFlush => some State.cmdInputFlush
  | .unknownCommand _ => some State.cmdUnknown
  | _ => none

/-- Every command of the command unit is a host write that the unit takes or overruns. -/
theorem exec_of_commandOf {c : Instr} {f : State → State} (hc : commandOf c = some f) (s : State) :
    exec c s = hostWrite s fun s => s.issue f := by
  unfold commandOf at hc
  split at hc
  case h_11 => exact nomatch hc
  all_goals exact Option.some.inj hc ▸ rfl

section

variable {s : State} {c : Instr} {f : State → State} (hreset : s.resetAsserted = false)

include hreset

theorem exec_of_idle (hidle : s.cu.running = none) (hc : commandOf c = some f) : exec c s = .next (f s) := by
  have hissue : s.issue f = f s := if_neg (by simp [hidle])
  rw [exec_of_commandOf hc, hostWrite_of_released hreset, hissue]

theorem exec_of_busy (hbusy : s.cu.running ≠ none) (hc : commandOf c = some f) :
    exec c s = .next (s.raiseGlobal .cmdOverrun) := by
  have hissue : s.issue f = s.raiseGlobal .cmdOverrun := if_pos (Option.isSome_iff_ne_none.2 hbusy)
  rw [exec_of_commandOf hc, hostWrite_of_released hreset, hissue]

end

theorem completeCommand_ok {s : State} {a : CmdArgs} (h : s.cu.args = a) (code : BitVec 8) (v : Word) :
    s.completeCommand code .ok v =
      { s with cu := ⟨none, a, code, .ok, v⟩, eu := s.eu.setBits .global 0x001 } := by
  subst h
  rfl

/-! ### Arguments (R176) -/

theorem inputArg_eq_some {w : Word} {n : Fin 4} : inputArg w = some n ↔ w.toNat = n.val := by
  unfold inputArg
  split
  · rw [Option.some.injEq, Fin.ext_iff]
  next hw =>
    exact iff_of_false nofun (by omega)

theorem inputArg_eq_none {w : Word} : inputArg w = none ↔ 4 ≤ w.toNat := by
  unfold inputArg
  split
  next hw => exact iff_of_false nofun hw.not_ge
  next hw => exact iff_of_true rfl (Nat.le_of_not_lt hw)

theorem slotArg_of_lt {count w : Word} (h : w.toNat < count.toNat) : slotArg count w = some w.toNat := if_pos h

theorem slotArg_of_ge {count w : Word} (h : count.toNat ≤ w.toNat) : slotArg count w = none := if_neg h.not_gt

theorem endArg_eq_none {w : Word} : endArg w = none ↔ 2 ≤ w.toNat := by
  have hzero : w = 0 ↔ w.toNat = 0 := BitVec.toNat_inj.symm
  have hone : w = 1 ↔ w.toNat = 1 := BitVec.toNat_inj.symm
  simp only [endArg, hzero, hone]
  split
  next hw => exact iff_of_false nofun (by omega)
  · split
    next hw => exact iff_of_false nofun (by omega)
    · exact iff_of_true rfl (by omega)

/-! ### INPUT FLUSH and codes that name no command (R111, R124) -/

section

variable {s : State}

theorem cmdInputFlush_of_absent (h : s.sm.built = false) : s.cmdInputFlush = s.refuseCommand 0x15 .noPool := by
  simp [State.cmdInputFlush, h]

theorem cmdInputFlush_of_invalid (hbuilt : s.sm.built = true) (h : inputArg s.cu.args.arg0 = none) :
    s.cmdInputFlush = s.refuseCommand 0x15 .badArgument := by
  simp [State.cmdInputFlush, hbuilt, h]

theorem cmdInputFlush_of_taken {n : Fin 4} (hbuilt : s.sm.built = true) (h : inputArg s.cu.args.arg0 = some n) :
    s.cmdInputFlush = { s with sm := (s.sm.setReady n []).retireAll (s.sm.readyOf n) }.completeCommand 0x15 .ok
      (BitVec.ofNat 32 (s.sm.readyOf n).length) := by
  simp [State.cmdInputFlush, hbuilt, h]

end

/-- Settles O52: BUSY overruns every command; in IDLE the argument word of INPUT FLUSH decides. -/
theorem commandsTaken : Obligations.CommandsTaken := by
  intro s refused hreset hrefused
  subst hrefused
  refine ⟨fun hbusy code c hc => ?_, fun hidle => ⟨fun code => ?_, fun habsent => ?_, fun hbuilt hinput => ?_,
    fun hbuilt n hinput => ?_⟩⟩
  · have hcommands : ∀ c ∈ [Instr.memoryInit, .poolBuild, .poolTeardown, .slotClaim, .slotHold, .slotRelease, .slotPublish,
        .slotClear, .inputFlush, .unknownCommand code], ∃ f, commandOf c = some f := by simp [commandOf]
    obtain ⟨f, hf⟩ := hcommands c hc
    rw [exec_of_busy hreset hbusy hf]
    rfl
  · rw [exec_of_idle hreset hidle (c := .unknownCommand code) rfl]
    rfl
  · rw [exec_of_idle hreset hidle (c := .inputFlush) rfl, cmdInputFlush_of_absent habsent]
    rfl
  · rw [exec_of_idle hreset hidle (c := .inputFlush) rfl, cmdInputFlush_of_invalid hbuilt (inputArg_eq_none.2 hinput)]
    rfl
  · rw [exec_of_idle hreset hidle (c := .inputFlush) rfl, cmdInputFlush_of_taken hbuilt (inputArg_eq_some.2 hinput)]
    rfl

/-! ### The checks of the pool commands (R1, R115, R116, R151) -/

theorem SlotManager.geometryValid_eq (sm : SlotManager) (size : MemSize) :
    sm.geometryValid size = decide (sm.base.toNat % 1024 = 0 ∧ sm.stride.toNat % 1024 = 0 ∧ 1024 ≤ sm.stride.toNat ∧
      sm.stride.toNat ≤ 2097152 ∧ 1 ≤ sm.count.toNat ∧ sm.count.toNat ≤ 32 ∧
      sm.base.toNat + sm.count.toNat * sm.stride.toNat ≤ size.words) := by
  simp [SlotManager.geometryValid, inRange, Bool.and_assoc]

section

variable {s : State}

theorem orphanWrite_eq_true {r : MemRequest} (hexec : s.mc.exec = some ⟨r, true⟩)
    (hkind : r.kind = .lineWrite ∨ r.kind = .blockWrite ∨ r.kind = .clearWrite) : s.orphanWrite = true := by
  simpa [State.orphanWrite, hexec, or_assoc] using hkind

theorem orphanWrite_eq_false (h : ∀ e, s.mc.exec = some e →
    e.orphan = false ∨ e.request.kind = .lineRead ∨ e.request.kind = .blockRead ∨ e.request.kind = .refresh) :
    s.orphanWrite = false := by
  unfold State.orphanWrite
  split
  next e he => rcases h e he with h | h | h | h <;> simp [h]
  · rfl

theorem State.allOff_iff :
    s.allOff = true ↔ (∀ n, (s.input n).state = .off) ∧ ∀ m, (s.output m).state = .off := by
  simp [State.allOff]

/-! ### POOL BUILD (R115) -/

theorem cmdPoolBuild_of_memoryNotReady (h : s.mc.state ≠ .ready) :
    s.cmdPoolBuild = s.refuseCommand 0x02 .memoryNotReady := if_pos h

theorem cmdPoolBuild_of_built (hready : s.mc.state = .ready) (h : s.sm.built = true) :
    s.cmdPoolBuild = s.refuseCommand 0x02 .poolPresent := by
  simp [State.cmdPoolBuild, hready, h]

theorem cmdPoolBuild_of_invalid (hready : s.mc.state = .ready) (habsent : s.sm.built = false)
    (h : s.sm.geometryValid s.mc.size = false) : s.cmdPoolBuild = s.refuseCommand 0x02 .badArgument := by
  simp [State.cmdPoolBuild, hready, habsent, h]

theorem cmdPoolBuild_of_busy (hready : s.mc.state = .ready) (habsent : s.sm.built = false)
    (hvalid : s.sm.geometryValid s.mc.size = true) (h : s.ap.state = .writing ∨ s.orphanWrite = true) :
    s.cmdPoolBuild = s.refuseCommand 0x02 .slotBusy := by
  simp [State.cmdPoolBuild, hready, habsent, hvalid, h]

theorem cmdPoolBuild_of_accepted (hready : s.mc.state = .ready) (habsent : s.sm.built = false)
    (hvalid : s.sm.geometryValid s.mc.size = true) (hport : s.ap.state ≠ .writing) (horphan : s.orphanWrite = false) :
    s.cmdPoolBuild = ({ s with sm := s.sm.build }.emptyCaptures).completeCommand 0x02 .ok s.sm.count := by
  simp [State.cmdPoolBuild, hready, habsent, hvalid, hport, horphan]

/-! ### POOL TEARDOWN (R116) -/

theorem cmdPoolTeardown_of_absent (h : s.sm.built = false) : s.cmdPoolTeardown = s.refuseCommand 0x03 .noPool := by
  simp [State.cmdPoolTeardown, h]

theorem cmdPoolTeardown_of_active (hbuilt : s.sm.built = true) (h : s.allOff = false) :
    s.cmdPoolTeardown = s.refuseCommand 0x03 .channelsActive := by
  simp [State.cmdPoolTeardown, hbuilt, h]

theorem cmdPoolTeardown_of_busy (hbuilt : s.sm.built = true) (hoff : s.allOff = true) (h : s.ap.state = .writing) :
    s.cmdPoolTeardown = s.refuseCommand 0x03 .slotBusy := by
  simp [State.cmdPoolTeardown, hbuilt, hoff, h]

theorem cmdPoolTeardown_of_accepted (hbuilt : s.sm.built = true) (hoff : s.allOff = true) (hport : s.ap.state ≠ .writing) :
    s.cmdPoolTeardown = ({ s with sm := s.sm.teardown }.emptyCaptures).completeCommand 0x03 .ok 0 := by
  simp [State.cmdPoolTeardown, hbuilt, hoff, hport]

end

/-- Settles O53: the first check that fails decides the refusal, and a command that passes them all replaces the pool. -/
theorem poolCommands : Obligations.PoolCommands := by
  intro s refused hreset hidle hrefused
  subst hrefused
  rw [exec_of_idle hreset hidle (c := .poolBuild) rfl, exec_of_idle hreset hidle (c := .poolTeardown) rfl]
  refine ⟨⟨fun hmemory => ?_, fun hready hbuilt => ?_, fun valid hgeometry hready habsent => ?_⟩,
    fun habsent => ?_, fun hbuilt hactive => ?_, fun hbuilt hinputs houtputs => ?_⟩
  · rw [cmdPoolBuild_of_memoryNotReady hmemory]
    rfl
  · rw [cmdPoolBuild_of_built hready hbuilt]
    rfl
  · obtain rfl : valid = s.sm.geometryValid s.mc.size := hgeometry.trans (s.sm.geometryValid_eq s.mc.size).symm
    refine ⟨fun hinvalid => ?_, fun hvalid hport => ?_, fun hvalid r hexec hkind => ?_, fun hvalid hport hexec => ?_⟩
    · rw [cmdPoolBuild_of_invalid hready habsent hinvalid]
      rfl
    · rw [cmdPoolBuild_of_busy hready habsent hvalid (.inl hport)]
      rfl
    · rw [cmdPoolBuild_of_busy hready habsent hvalid (.inr (orphanWrite_eq_true hexec hkind))]
      rfl
    · rw [cmdPoolBuild_of_accepted hready habsent hvalid hport (orphanWrite_eq_false hexec)]
      rfl
  · rw [cmdPoolTeardown_of_absent habsent]
    rfl
  · have hoff : s.allOff = false := by
      refine Bool.eq_false_iff.2 fun hoff => ?_
      obtain ⟨hinputs, houtputs⟩ := State.allOff_iff.1 hoff
      rcases hactive with ⟨n, hn⟩ | ⟨m, hm⟩
      · exact hn (hinputs n)
      · exact hm (houtputs m)
    rw [cmdPoolTeardown_of_active hbuilt hoff]
    rfl
  · have hoff : s.allOff = true := State.allOff_iff.2 ⟨hinputs, houtputs⟩
    refine ⟨fun hport => ?_, fun hport => ?_⟩
    · rw [cmdPoolTeardown_of_busy hbuilt hoff hport]
      rfl
    · rw [cmdPoolTeardown_of_accepted hbuilt hoff hport]
      rfl

end Sys2Proof.Machine
end

