-- ==== Sys2Proof/Proofs/SlotCommands.lean ====
section
/-! The slot commands, by the checks in their order (R117 to R121), and the run of an accepted SLOT CLEAR (R121, R122). -/

namespace Sys2Proof.Machine

-- One theorem after another, as in the tests: many of them at once would need a thread each.
set_option Elab.async false

/-! ### The ends of a ready list and the arguments of SLOT PUBLISH (R118, R120, R176) -/

/-- What the end argument selects: the entry to hold and the list that is left. -/
theorem endArg_selects {w : Word} {l rest : List Nat} {j : Nat}
    (h : (w = 0 ∧ l = rest ++ [j]) ∨ (w = 1 ∧ l = j :: rest)) :
    ∃ e, endArg w = some e ∧ endEntry e l = some j ∧ dropEnd e l = rest := by
  obtain ⟨rfl, rfl⟩ | ⟨rfl, rfl⟩ := h
  · exact ⟨.newest, rfl, List.getLast?_concat, List.dropLast_concat⟩
  · exact ⟨.oldest, rfl, rfl, rfl⟩

theorem endEntry_nil (e : ListEnd) : endEntry e [] = none := by cases e <;> rfl

theorem field_high_half (w : Word) : field w 16 16 = w.toNat / 65536 :=
  (field_eq w 16 16).trans (Nat.mod_eq_of_lt (Nat.div_lt_of_lt_mul w.isLt))

/-- The input of SLOT PUBLISH is the low byte of its argument word. -/
theorem toNat_low_byte (w : Word) : (BitVec.ofNat 32 (field w 0 8)).toNat = w.toNat % 256 := by
  rw [BitVec.toNat_ofNat, field_eq]
  omega

section

variable {count stride : Word} {a : CmdArgs}

theorem publishArgs_of_valid {n : Fin 4} (hslot : a.arg0.toNat < count.toNat) (hinput : a.arg1.toNat % 256 = n.val)
    (hlen : 16 ≤ a.arg2.toNat % 65536 ∧ a.arg2.toNat % 65536 ≤ 1024)
    (hlines : 1 ≤ a.arg2.toNat / 65536 ∧ a.arg2.toNat / 65536 ≤ 2048)
    (hfits : a.arg2.toNat % 65536 * (a.arg2.toNat / 65536) ≤ stride.toNat) :
    publishArgs count stride a = some {
      slot := a.arg0.toNat, input := n, tag := if a.arg1.getLsbD 8 then some a.arg3 else none
      lineLength := a.arg2.toNat % 65536, lineCount := a.arg2.toNat / 65536 } := by
  have hn : inputArg (BitVec.ofNat 32 (field a.arg1 0 8)) = some n := inputArg_eq_some.2 ((toNat_low_byte _).trans hinput)
  simp only [publishArgs, slotArg_of_lt hslot, hn, field_low_half, field_high_half, inRange_iff.2 hlen, inRange_iff.2 hlines,
    decide_eq_true hfits, Bool.and_self, if_true]

theorem publishArgs_of_invalid_slot (h : count.toNat ≤ a.arg0.toNat) : publishArgs count stride a = none := by
  rw [publishArgs, slotArg_of_ge h]

theorem publishArgs_of_invalid_frame (h : 4 ≤ a.arg1.toNat % 256 ∨ a.arg2.toNat % 65536 < 16 ∨
    1024 < a.arg2.toNat % 65536 ∨ a.arg2.toNat / 65536 < 1 ∨ 2048 < a.arg2.toNat / 65536 ∨
    stride.toNat < a.arg2.toNat % 65536 * (a.arg2.toNat / 65536)) :
    publishArgs count stride a = none := by
  unfold publishArgs
  split
  next n _ hinput =>
    have hn := (toNat_low_byte _).symm.trans (inputArg_eq_some.1 hinput)
    refine if_neg ?_
    simp only [field_low_half, field_high_half, Bool.and_eq_true, decide_eq_true_eq, inRange_iff]
    omega
  · rfl

end

/-! ### SLOT CLAIM (R117) -/

section

variable {s : State}

theorem cmdSlotClaim_of_absent (h : s.sm.built = false) : s.cmdSlotClaim = s.refuseCommand 0x10 .noPool := by
  simp [State.cmdSlotClaim, h]

theorem cmdSlotClaim_of_empty (hbuilt : s.sm.built = true) (h : s.sm.free = []) :
    s.cmdSlotClaim = s.refuseCommand 0x10 .empty := by
  simp [State.cmdSlotClaim, hbuilt, h]

theorem cmdSlotClaim_of_taken {j : Nat} {rest : List Nat} (hbuilt : s.sm.built = true) (h : s.sm.free = j :: rest) :
    s.cmdSlotClaim = { s with sm := { s.sm with free := rest }.modSlot j SlotRecord.claimed }.completeCommand 0x10 .ok
      (slotValue j) := by
  simp [State.cmdSlotClaim, hbuilt, h]

/-! ### SLOT HOLD (R118) -/

theorem cmdSlotHold_of_absent (h : s.sm.built = false) : s.cmdSlotHold = s.refuseCommand 0x11 .noPool := by
  simp [State.cmdSlotHold, h]

theorem cmdSlotHold_of_invalid (hbuilt : s.sm.built = true)
    (h : inputArg s.cu.args.arg0 = none ∨ endArg s.cu.args.arg1 = none) :
    s.cmdSlotHold = s.refuseCommand 0x11 .badArgument := by
  rw [State.cmdSlotHold, hbuilt]
  obtain h | h := h
  · rw [h]; rfl
  · rw [h]; cases inputArg s.cu.args.arg0 <;> rfl

theorem cmdSlotHold_of_empty {n : Fin 4} {e : ListEnd} (hbuilt : s.sm.built = true) (hn : inputArg s.cu.args.arg0 = some n)
    (he : endArg s.cu.args.arg1 = some e) (h : s.sm.readyOf n = []) :
    s.cmdSlotHold = s.refuseCommand 0x11 .empty := by
  simp [State.cmdSlotHold, hbuilt, hn, he, h, endEntry_nil]

theorem cmdSlotHold_of_taken {n : Fin 4} {e : ListEnd} {j : Nat} (hbuilt : s.sm.built = true)
    (hn : inputArg s.cu.args.arg0 = some n) (he : endArg s.cu.args.arg1 = some e) (h : endEntry e (s.sm.readyOf n) = some j) :
    s.cmdSlotHold = { s with sm := s.sm.hold n e j }.completeCommand 0x11 .ok (slotValue j) := by
  simp [State.cmdSlotHold, hbuilt, hn, he, h]

/-! ### SLOT RELEASE (R119) -/

theorem cmdSlotRelease_of_absent (h : s.sm.built = false) : s.cmdSlotRelease = s.refuseCommand 0x12 .noPool := by
  simp [State.cmdSlotRelease, h]

theorem cmdSlotRelease_of_invalid (hbuilt : s.sm.built = true) (h : slotArg s.sm.count s.cu.args.arg0 = none) :
    s.cmdSlotRelease = s.refuseCommand 0x12 .badArgument := by
  simp [State.cmdSlotRelease, hbuilt, h]

theorem cmdSlotRelease_of_valid {k : Nat} (hbuilt : s.sm.built = true) (hk : slotArg s.sm.count s.cu.args.arg0 = some k) :
    s.cmdSlotRelease =
      if (s.sm.slot k).state ≠ .held then s.refuseCommand 0x12 .notHeld
      else if (s.sm.slot k).writePending then s.refuseCommand 0x12 .slotBusy
      else { s with sm := s.sm.retire k }.completeCommand 0x12 .ok (slotValue k) := by
  simp only [State.cmdSlotRelease, hbuilt, hk, Bool.not_true, Bool.false_eq_true, if_false]

/-! ### SLOT PUBLISH (R120) -/

theorem cmdSlotPublish_of_absent (h : s.sm.built = false) : s.cmdSlotPublish = s.refuseCommand 0x13 .noPool := by
  simp [State.cmdSlotPublish, h]

theorem cmdSlotPublish_of_invalid (hbuilt : s.sm.built = true) (h : publishArgs s.sm.count s.sm.stride s.cu.args = none) :
    s.cmdSlotPublish = s.refuseCommand 0x13 .badArgument := by
  simp [State.cmdSlotPublish, hbuilt, h]

theorem cmdSlotPublish_of_valid {a : PublishArgs} (hbuilt : s.sm.built = true)
    (ha : publishArgs s.sm.count s.sm.stride s.cu.args = some a) :
    s.cmdSlotPublish =
      if (s.sm.slot a.slot).state ≠ .held then s.refuseCommand 0x13 .notHeld
      else if (s.sm.slot a.slot).writePending then s.refuseCommand 0x13 .slotBusy
      else if (s.input a.input).state = .resetting then s.refuseCommand 0x13 .wrongState
      else (s.publishSlot a.input a.slot fun r => r.published a).completeCommand 0x13 .ok (s.sm.seqOf a.input) := by
  simp only [State.cmdSlotPublish, hbuilt, ha, Bool.not_true, Bool.false_eq_true, if_false]

/-! ### SLOT CLEAR (R121) -/

theorem cmdSlotClear_of_absent (h : s.sm.built = false) : s.cmdSlotClear = s.refuseCommand 0x14 .noPool := by
  simp [State.cmdSlotClear, h]

theorem cmdSlotClear_of_invalid (hbuilt : s.sm.built = true) (h : slotArg s.sm.count s.cu.args.arg0 = none) :
    s.cmdSlotClear = s.refuseCommand 0x14 .badArgument := by
  simp [State.cmdSlotClear, hbuilt, h]

theorem cmdSlotClear_of_valid {k : Nat} (hbuilt : s.sm.built = true) (hk : slotArg s.sm.count s.cu.args.arg0 = some k) :
    s.cmdSlotClear =
      if (s.sm.slot k).state ≠ .held then s.refuseCommand 0x14 .notHeld
      else if (s.sm.slot k).writePending then s.refuseCommand 0x14 .slotBusy
      else s.startClear k := by
  simp only [State.cmdSlotClear, hbuilt, hk, Bool.not_true, Bool.false_eq_true, if_false]

end

/-- Settles O54: the first check that fails decides the refusal, and a command that passes them all has its effect. -/
theorem slotCommands : Obligations.SlotCommands := by
  intro s refused k hreset hidle hrefused hk
  subst hrefused hk
  rw [exec_of_idle hreset hidle (c := .slotClaim) rfl, exec_of_idle hreset hidle (c := .slotHold) rfl,
    exec_of_idle hreset hidle (c := .slotRelease) rfl, exec_of_idle hreset hidle (c := .slotPublish) rfl,
    exec_of_idle hreset hidle (c := .slotClear) rfl]
  refine ⟨fun habsent => ?_, fun hbuilt => ⟨fun hfree => ?_, fun j rest hfree => ?_, fun hinvalid => ?_,
    fun n hn hend => ⟨fun hempty => ?_, fun j rest hentry => ?_⟩, fun hk => ?_, fun hk => ?_⟩⟩
  · rw [cmdSlotClaim_of_absent habsent, cmdSlotHold_of_absent habsent, cmdSlotRelease_of_absent habsent,
      cmdSlotPublish_of_absent habsent, cmdSlotClear_of_absent habsent]
    exact ⟨rfl, rfl, rfl, rfl, rfl⟩
  · rw [cmdSlotClaim_of_empty hbuilt hfree]
    rfl
  · rw [cmdSlotClaim_of_taken hbuilt hfree]
    rfl
  · rw [cmdSlotHold_of_invalid hbuilt (hinvalid.imp inputArg_eq_none.2 endArg_eq_none.2)]
    rfl
  · obtain ⟨e, he⟩ := Option.ne_none_iff_exists'.1 (mt endArg_eq_none.1 hend.not_ge)
    rw [cmdSlotHold_of_empty hbuilt (inputArg_eq_some.2 hn) he hempty]
    rfl
  · obtain ⟨e, he, hj, hrest⟩ := endArg_selects hentry
    rw [cmdSlotHold_of_taken hbuilt (inputArg_eq_some.2 hn) he hj, SlotManager.hold, hrest]
    rfl
  · have hslot := slotArg_of_ge hk
    rw [cmdSlotRelease_of_invalid hbuilt hslot, cmdSlotPublish_of_invalid hbuilt (publishArgs_of_invalid_slot hk),
      cmdSlotClear_of_invalid hbuilt hslot]
    exact ⟨rfl, rfl, rfl⟩
  · have hslot := slotArg_of_lt hk
    rw [cmdSlotRelease_of_valid hbuilt hslot, cmdSlotClear_of_valid hbuilt hslot]
    refine ⟨fun hother => ?_, fun hheld hbusy => ?_, fun hheld hwritten => ?_, fun inputNo len lines hin hlen hlines => ?_⟩
    · rw [if_pos hother, if_pos hother]
      exact ⟨rfl, rfl⟩
    · rw [if_neg (not_not.2 hheld), if_pos hbusy, if_neg (not_not.2 hheld), if_pos hbusy]
      exact ⟨rfl, rfl⟩
    · rw [if_neg (not_not.2 hheld), hwritten]
      rfl
    · subst hin hlen hlines
      refine ⟨fun hinvalid => ?_, fun n hn hlen hlen' hlines hlines' hfits => ?_⟩
      · rw [cmdSlotPublish_of_invalid hbuilt (publishArgs_of_invalid_frame hinvalid)]
        rfl
      · rw [cmdSlotPublish_of_valid hbuilt (publishArgs_of_valid hk hn ⟨hlen, hlen'⟩ ⟨hlines, hlines'⟩ hfits)]
        dsimp only
        refine ⟨fun hother => ?_, fun hheld hbusy => ?_, fun hheld hwritten => ⟨fun hresetting => ?_,
          fun hactive p hp => ?_⟩⟩
        · rw [if_pos hother]
          rfl
        · rw [if_neg (not_not.2 hheld), if_pos hbusy]
          rfl
        · rw [if_neg (not_not.2 hheld), hwritten, if_neg Bool.false_ne_true, if_pos hresetting]
          rfl
        · have hargs : p.cu.args = s.cu.args := by rw [hp]; simp
          rw [if_neg (not_not.2 hheld), hwritten, if_neg Bool.false_ne_true, if_neg hactive]
          exact congrArg Host.Outcome.next ((congrArg (·.completeCommand 0x13 .ok (s.sm.seqOf n)) hp.symm).trans
            (completeCommand_ok hargs _ _))

/-! ### The run of SLOT CLEAR (R121, R122) -/

section

variable {s : State} {r : MemRequest} {rc : RunningCommand} {c : ClearProgress}

theorem exec_clearWriteCompletion (hexec : s.mc.exec = some ⟨r, false⟩) (hkind : r.kind = .clearWrite)
    (hinside : r.addr + r.count ≤ 16777216) (hwords : r.words.length ≤ r.count) (hrunning : s.cu.running = some rc)
    (hclear : rc.clear = some c) :
    exec .clearWriteCompletion s = .next ((s.endExec.storeWords r).clearAdvance rc c).afterDelivery := by
  refine (completing_of State.clearWriteDone hexec hkind (r.inStore_iff.2 ⟨hinside, hwords⟩)).trans ?_
  have hrunning' : s.endExec.cu.running = some rc := hrunning
  simp only [State.clearWriteDone, hrunning', hclear]

theorem clearAdvance_of_left (h : c.progress + 1024 < s.sm.stride.toNat) :
    s.clearAdvance rc c = { s with
      cu := { s.cu with running := some { rc with clear := some { c with progress := c.progress + 1024 } } }
    }.raiseClear { c with progress := c.progress + 1024 } := if_pos h

theorem clearAdvance_of_done (h : s.sm.stride.toNat ≤ c.progress + 1024) :
    s.clearAdvance rc c = { s with sm := s.sm.clearPending [c.slot] }.completeCommand rc.code .ok (BitVec.ofNat 32 c.slot) :=
  if_neg h.not_gt

end

/-- Settles O49: an accepted clear requests its first block, and each completion the next one until the stride is reached. -/
theorem slotClearRuns : Obligations.SlotClearRuns := by
  refine ⟨fun k s hreset hidle hbuilt hk hlt hheld hwritten => ?_,
    fun r rc c s hexec hkind hinside hwords hrunning hclear => ?_⟩
  · subst hk
    rw [exec_of_idle hreset hidle (c := .slotClear) rfl, cmdSlotClear_of_valid hbuilt (slotArg_of_lt hlt),
      if_neg (not_not.2 hheld), hwritten]
    rfl
  · rw [exec_clearWriteCompletion hexec hkind hinside hwords hrunning hclear]
    refine ⟨fun hleft => ?_, fun hdone => ?_⟩
    · rw [clearAdvance_of_left (s := s.endExec.storeWords r) hleft]
      rfl
    · rw [clearAdvance_of_done (s := s.endExec.storeWords r) hdone]
      rfl

end Sys2Proof.Machine
end

