-- ==== Sys2Proof/Proofs/Initialisation.lean ====
section
/-! MEMORY INIT and the stages of the initialisation (R113, R114, R141 to R143). -/

namespace Sys2Proof.Machine

-- One theorem after another, as in the tests: many of them at once would need a thread each.
set_option Elab.async false

/-! ### MEMORY INIT (R113, R141) -/

section

variable {s : State}

theorem MemController.startInit_eq (mc : MemController) (now : Word) : mc.startInit now = { mc with
    state := .initializing, refreshTimer := none, refreshDue := false,
    stage := if mc.exec = none then 1 else 0, stageStart := now } := by
  cases hexec : mc.exec <;> simp [MemController.startInit, hexec]

theorem initAccepted_eq_true (h : s.mc.state = .uninit ∨ (s.mc.state = .ready ∧ s.sm.built = false)) :
    s.initAccepted = true := by
  obtain h | ⟨h, habsent⟩ := h
  · simp [State.initAccepted, h]
  · simp [State.initAccepted, h, habsent]

theorem initAccepted_eq_false (h : s.mc.state = .initializing ∨ (s.mc.state = .ready ∧ s.sm.built = true)) :
    s.initAccepted = false := by
  obtain h | ⟨h, hbuilt⟩ := h
  · simp [State.initAccepted, h]
  · simp [State.initAccepted, h, hbuilt]

/-! ### The ends of the stages (R142, R143) -/

theorem exec_initStageEnd_of_other (h : s.mc.state ≠ .initializing ∨ s.mc.stage = 0 ∨ 5 ≤ s.mc.stage) :
    exec .initStageEnd s = .refused .stageNotRunning := by
  refine if_neg ?_
  simp only [Bool.and_eq_true, decide_eq_true_eq]
  rintro ⟨⟨hinit, hfirst⟩, hlast⟩
  exact h.elim (· hinit) (by omega)

theorem exec_initStageEnd_of_running (hinit : s.mc.state = .initializing) (hfirst : 1 ≤ s.mc.stage)
    (hlast : s.mc.stage ≤ 4) :
    exec .initStageEnd s =
      if s.mc.stage = 1 && (s.timeBase - s.mc.stageStart).toNat < 200 then .refused .timeNotElapsed
      else .next { s with mc := { s.mc with stage := s.mc.stage + 1, stageStart := s.timeBase } } :=
  if_pos (by simp [hinit, hfirst, hlast])

theorem exec_endOfStage5_of_other (h : s.mc.state ≠ .initializing ∨ s.mc.stage ≠ 5) :
    exec .endOfStage5 s = .refused .stageNotRunning := by
  refine if_neg ?_
  simp only [Bool.and_eq_true, decide_eq_true_eq]
  rintro ⟨hinit, hstage⟩
  exact h.elim (· hinit) (· hstage)

theorem exec_endOfStage5_of_running (hinit : s.mc.state = .initializing) (hstage : s.mc.stage = 5) :
    exec .endOfStage5 s =
      if (s.timeBase - s.mc.stageStart).toNat < 2 then .refused .timeNotElapsed else .next s.enterReady :=
  if_pos (by simp [hinit, hstage])

end

/-- Settles O51: the controller's state and the pool decide the command, the stage and the time its ends. -/
theorem memoryInitialisation : Obligations.MemoryInitialisation := by
  refine ⟨fun s hreset hidle => ?_,
    fun s => ⟨exec_initStageEnd_of_other, fun hinit hstage hearly => ?_, fun hinit hdone => ?_⟩,
    fun s => ⟨exec_endOfStage5_of_other, fun hinit hstage hearly => ?_, fun hinit hstage hdone => ?_⟩⟩
  · rw [exec_of_idle hreset hidle (c := .memoryInit) rfl, State.cmdMemoryInit]
    refine ⟨fun haccepted => ?_, fun hrefused => ?_⟩
    · rw [if_pos (initAccepted_eq_true haccepted), MemController.startInit_eq]
      rfl
    · rw [initAccepted_eq_false hrefused]
      rfl
  · rw [exec_initStageEnd_of_running hinit (by omega) (by omega), if_pos]
    simp only [Bool.and_eq_true, decide_eq_true_eq]
    exact ⟨hstage, hearly⟩
  · rw [exec_initStageEnd_of_running hinit (by omega) (by omega), if_neg]
    simp only [Bool.and_eq_true, decide_eq_true_eq]
    omega
  · rw [exec_endOfStage5_of_running hinit hstage, if_pos hearly]
  · rw [exec_endOfStage5_of_running hinit hstage, if_neg hdone.not_gt]
    rfl

end Sys2Proof.Machine
end

