-- ==== Sys2Proof/Proofs/AccessPort.lean ====
section
/-! The frame store access port: the completions of its requests, its orders and its registers (R21, R126 to R134, R137). -/

namespace Sys2Proof.Machine

-- One theorem after another, as in the tests: many of them at once would need a thread each.
set_option Elab.async false

/-! ### Write pending on the slots listed (R21) -/

/-- A change made on slot `k` and then on the slots `ks` is the change made once on all of them, when twice is as once. -/
theorem mapIdx_modify_of_idempotent {f : SlotRecord → SlotRecord} (hf : ∀ x, f (f x) = f x) (l : List SlotRecord)
    (k : Nat) (ks : List Nat) :
    (l.modify k f).mapIdx (fun i x => if i ∈ ks then f x else x) =
      l.mapIdx fun i x => if i ∈ k :: ks then f x else x := by
  refine List.ext_getElem (by simp) fun i _ _ => ?_
  simp only [List.getElem_mapIdx, List.getElem_modify, List.mem_cons]
  by_cases hk : k = i
  · by_cases hi : i ∈ ks <;> simp [hk, hi, hf]
  · simp [hk, Ne.symm hk]

/-- An operation that changes the slots listed one after another changes each of them once. -/
theorem eq_mapIdx_of_modSlot {f : SlotRecord → SlotRecord} (hf : ∀ x, f (f x) = f x)
    {g : SlotManager → List Nat → SlotManager} (hnil : ∀ sm, g sm [] = sm)
    (hcons : ∀ sm k ks, g sm (k :: ks) = g (sm.modSlot k f) ks) (sm : SlotManager) (ks : List Nat) :
    g sm ks = { sm with slots := sm.slots.mapIdx fun i x => if i ∈ ks then f x else x } := by
  induction ks generalizing sm with
  | nil => simp [hnil, List.mapIdx_eq_zipIdx_map]
  | cons k ks ih => rw [hcons, ih, SlotManager.modSlot, mapIdx_modify_of_idempotent hf]

theorem clearPending_eq (sm : SlotManager) (ks : List Nat) :
    sm.clearPending ks = { sm with slots := sm.slots.mapIdx fun i x =>
      if i ∈ ks then { x with writePending := false } else x } :=
  eq_mapIdx_of_modSlot (g := SlotManager.clearPending) (f := fun x => { x with writePending := false })
    (fun _ => rfl) (fun _ => rfl) (fun _ _ _ => rfl) sm ks

theorem setPending_eq (sm : SlotManager) (ks : List Nat) :
    sm.setPending ks = { sm with slots := sm.slots.mapIdx fun i x =>
      if i ∈ ks then { x with writePending := true } else x } :=
  eq_mapIdx_of_modSlot (g := SlotManager.setPending) (f := fun x => { x with writePending := true })
    (fun _ => rfl) (fun _ => rfl) (fun _ _ _ => rfl) sm ks

/-! ### The completions of the port's requests (R129, R133, R148) -/

section

variable {s : State}

/-- A delivered block read, once its words are counted (R129): the events fall in one order, ACCESS_POISON last. -/
theorem blockReadDone_eq (r : MemRequest) {ws : List WordRead} (hws : ws = s.store.readWords r.addr r.count) :
    s.blockReadDone r = { s.countEcc ws with
      ap := { s.ap with readBuf := ws.map readWordOf, state := .readReady }
      eu := if anyPoisoned ws then ((s.countEcc ws).eu.setBits .global 0x008).setBits .global 0x020
        else (s.countEcc ws).eu.setBits .global 0x008 } := by
  have hap : (s.countEcc ws).ap = s.ap := by simp
  rw [State.blockReadDone, ← hws, hap]
  cases anyPoisoned ws <;> rfl

theorem blockWriteDone_of_record (r : MemRequest) {fr : FlushRecord} (h : s.ap.flushRecord = some fr) :
    s.blockWriteDone r = { s with
      store := s.store.write r.addr r.words
      sm := s.sm.clearPending fr.slots
      ap := { s.ap with
        addr := s.ap.addr + BitVec.ofNat 32 fr.count, writeBuf := [], flushRecord := none, state := .idle }
      eu := s.eu.setBits .global 0x008 } := by
  rw [State.blockWriteDone, h]
  rfl

end

/-- Settles O48: each delivery by its own equation, and write pending by induction on the slots listed. -/
theorem portCompletions : Obligations.PortCompletions := by
  refine ⟨fun r s read ws hexec hkind hinside hwords hws hread => ?_,
    fun r fr s hexec hkind hinside hwords hrecord => ?_, fun sm ks => ⟨clearPending_eq sm ks, setPending_eq sm ks⟩⟩
  · refine (completing_of State.blockReadDone hexec hkind (r.inStore_iff.2 ⟨hinside, hwords⟩)).trans ?_
    rw [blockReadDone_eq (s := s.endExec) r hws, hread]
    rfl
  · refine (completing_of State.blockWriteDone hexec hkind (r.inStore_iff.2 ⟨hinside, hwords⟩)).trans ?_
    rw [blockWriteDone_of_record (s := s.endExec) r hrecord]
    rfl

/-! ### Host cycles at the port while RESET_N is not asserted (R178) -/

section

variable {s : State} (hreset : s.resetAsserted = false)

include hreset

theorem hostRead_of_released (f : State → State) : hostRead s f = .next (f s) := by
  simp [hostRead, hreset]

theorem exec_read : exec .read s = .next s.portRead := hostWrite_of_released hreset State.portRead

theorem exec_flush : exec .flush s = .next s.portFlush := hostWrite_of_released hreset State.portFlush

theorem exec_discard : exec .discard s = .next s.portDiscard := hostWrite_of_released hreset State.portDiscard

theorem exec_accDataRead : exec .accDataRead s = .next s.readAccData := hostRead_of_released hreset State.readAccData

theorem exec_accDataWrite (w : Word) : exec (.accDataWrite w) s = .next (s.writeAccData w) :=
  hostWrite_of_released hreset fun s => s.writeAccData w

theorem exec_accAddrWrite (w : Word) : exec (.accAddrWrite w) s = .next (s.writeAccAddr w) :=
  hostWrite_of_released hreset fun s => s.writeAccAddr w

theorem exec_accCountWrite (w : Word) : exec (.accCountWrite w) s = .next (s.writeAccCount w) :=
  hostWrite_of_released hreset fun s => s.writeAccCount w

end

/-! ### The range check and the protection check (R127, R132) -/

section

variable {s : State}

theorem portRangeOk_iff {n : Nat} :
    s.portRangeOk n = true ↔ s.mc.state = .ready ∧ s.ap.addr.toNat + n ≤ s.mc.size.words := by
  simp [State.portRangeOk]

theorem portRangeOk_of_outside {n : Nat} (h : s.mc.state ≠ .ready ∨ s.mc.size.words < s.ap.addr.toNat + n) :
    s.portRangeOk n = false := by
  refine Bool.eq_false_iff.2 fun hrange => ?_
  obtain ⟨hready, hinside⟩ := portRangeOk_iff.1 hrange
  exact h.elim (· hready) hinside.not_gt

theorem writable_iff {sm : SlotManager} {a : Nat} :
    sm.writable a = true ↔ ∀ k, sm.slotAt a = some k → (sm.slot k).state = .held ∧ (sm.slot k).writePending = false := by
  unfold SlotManager.writable
  cases sm.slotAt a <;> simp

theorem all_writable_iff {sm : SlotManager} {a n : Nat} :
    (flushRange a n).all sm.writable = true ↔ ∀ i, i < n → ∀ k, sm.slotAt (a + i) = some k →
      (sm.slot k).state = .held ∧ (sm.slot k).writePending = false := by
  simp [flushRange, writable_iff]

theorem slotsOf_flushRange (sm : SlotManager) (a n : Nat) :
    sm.slotsOf (flushRange a n) = ((List.range n).filterMap fun i => sm.slotAt (a + i)).dedup := by
  rw [SlotManager.slotsOf, flushRange, List.filterMap_map]
  rfl

/-! ### READ (R127, R128, R131) -/

theorem portRead_of_busy (h : s.ap.state = .reading ∨ s.ap.state = .writeFilling ∨ s.ap.state = .writing) :
    s.portRead = s.portError .busy := by
  obtain h | h | h := h <;> simp [State.portRead, h]

theorem portRead_of_resting (h : s.ap.state = .idle ∨ s.ap.state = .readReady) : s.portRead = s.startRead := by
  obtain h | h := h <;> simp [State.portRead, h]

theorem startRead_of_outside (h : s.mc.state ≠ .ready ∨ s.mc.size.words < s.ap.addr.toNat + s.ap.count) :
    s.startRead = s.portError .range := by
  simp [State.startRead, portRangeOk_of_outside h]

theorem startRead_of_inside (hready : s.mc.state = .ready) (hrange : s.ap.addr.toNat + s.ap.count ≤ s.mc.size.words) :
    s.startRead = { s with ap := { s.ap with error := .none, readBuf := [], state := .reading } }.raisePort
      s.ap.readRequest :=
  if_pos (portRangeOk_iff.2 ⟨hready, hrange⟩)

/-! ### FLUSH (R128, R130, R132) -/

theorem portFlush_of_idle (h : s.ap.state = .idle) : s.portFlush = s := by simp [State.portFlush, h]

theorem portFlush_of_busy (h : s.ap.state = .reading ∨ s.ap.state = .readReady ∨ s.ap.state = .writing) :
    s.portFlush = s.portError .busy := by
  obtain h | h | h := h <;> simp [State.portFlush, h]

theorem portFlush_of_filling (h : s.ap.state = .writeFilling) : s.portFlush = s.startFlush := by simp [State.portFlush, h]

theorem startFlush_of_outside (h : s.mc.state ≠ .ready ∨ s.mc.size.words < s.ap.addr.toNat + s.ap.writeBuf.length) :
    s.startFlush = s.portError .range := by
  simp [State.startFlush, portRangeOk_of_outside h]

theorem startFlush_of_inside (hready : s.mc.state = .ready)
    (hrange : s.ap.addr.toNat + s.ap.writeBuf.length ≤ s.mc.size.words) :
    s.startFlush = if (flushRange s.ap.addr.toNat s.ap.writeBuf.length).all s.sm.writable then s.takeFlush
      else s.violateFlush := by
  simp [State.startFlush, portRangeOk_iff.2 ⟨hready, hrange⟩]

/-! ### An operation in flight (R128, R133, R134) -/

theorem inFlight_of_busy (h : s.ap.state = .reading ∨ s.ap.state = .writing) : s.ap.inFlight = true := by
  simpa [AccessPort.inFlight] using h

theorem inFlight_of_resting (h : s.ap.state = .idle ∨ s.ap.state = .readReady ∨ s.ap.state = .writeFilling) :
    s.ap.inFlight = false := by
  obtain h | h | h := h <;> simp [AccessPort.inFlight, h]

end

/-- Settles O55: the port's state decides between BUSY and the operation, which its range and protection checks may refuse. -/
theorem portOrders : Obligations.PortOrders := by
  intro s raised hreset hraised
  have hraise (ap : AccessPort) (sm : SlotManager) (r : MemRequest) :
      raised ap sm r = ({ s with sm := sm, ap := ap } : State).raisePort r := by rw [hraised]; rfl
  rw [exec_read hreset, exec_flush hreset, exec_discard hreset]
  refine ⟨⟨fun hbusy => ?_, fun hresting => ?_⟩, ⟨fun hidle => ?_, fun hbusy => ?_, fun hfilling a n ha hn => ?_⟩,
    fun hbusy => ?_, fun hresting => ?_⟩
  · rw [portRead_of_busy hbusy]
    rfl
  · rw [portRead_of_resting hresting]
    refine ⟨fun houtside => ?_, fun hready hrange => ?_⟩
    · rw [startRead_of_outside houtside]
      rfl
    · rw [startRead_of_inside hready hrange, hraise]
      rfl
  · rw [portFlush_of_idle hidle]
  · rw [portFlush_of_busy hbusy]
    rfl
  · subst ha hn
    rw [portFlush_of_filling hfilling]
    refine ⟨fun houtside => ?_, fun hready hrange => ?_⟩
    · rw [startFlush_of_outside houtside]
      rfl
    · rw [startFlush_of_inside hready hrange]
      refine ⟨fun ⟨i, hi, k, hk, hprotected⟩ => ?_, fun hwritable ks hks => ?_⟩
      · rw [if_neg]
        · rfl
        · intro hall
          obtain ⟨hheld, hclear⟩ := all_writable_iff.1 hall i hi k hk
          exact hprotected.elim (· hheld) (by simp [hclear])
      · rw [if_pos (all_writable_iff.2 hwritable), hraise, hks, ← slotsOf_flushRange]
        rfl
  · rw [State.portDiscard, if_pos (inFlight_of_busy hbusy)]
    rfl
  · rw [State.portDiscard, inFlight_of_resting hresting]
    rfl

/-! ### ACC_DATA, ACC_ADDR and ACC_COUNT (R126, R128, R130, R131) -/

section

variable {s : State}

theorem readAccData_of_ready {x : ReadWord} {rest : List ReadWord} (h : s.ap.state = .readReady)
    (hbuf : s.ap.readBuf = x :: rest) :
    s.readAccData = { s with ap := { s.ap with readBuf := rest, state := if rest = [] then .idle else .readReady } }.drive
      x.word := by
  simp [State.readAccData, State.popWord, h, hbuf]

theorem readAccData_of_empty (h : s.ap.state = .idle ∨ s.ap.state = .writeFilling) :
    s.readAccData = (s.portError .emptyRead).drive 0 := by
  obtain h | h := h <;> simp [State.readAccData, h]

theorem readAccData_of_busy (h : s.ap.state = .reading ∨ s.ap.state = .writing) :
    s.readAccData = (s.portError .busy).drive 0 := by
  obtain h | h := h <;> simp [State.readAccData, h]

theorem writeAccData_of_idle (h : s.ap.state = .idle) (w : Word) :
    s.writeAccData w = { s with ap := { s.ap with writeBuf := [w], state := .writeFilling } } := by
  simp [State.writeAccData, h]

theorem writeAccData_of_filling (h : s.ap.state = .writeFilling) (w : Word) :
    s.writeAccData w = if s.ap.writeBuf.length < 16 then { s with ap := { s.ap with writeBuf := s.ap.writeBuf ++ [w] } }
      else s.portError .full := by
  simp [State.writeAccData, Config.bufferWords, h]

theorem writeAccData_of_busy (h : s.ap.state = .reading ∨ s.ap.state = .readReady ∨ s.ap.state = .writing) (w : Word) :
    s.writeAccData w = s.portError .busy := by
  obtain h | h | h := h <;> simp [State.writeAccData, h]

theorem writeAccCount_of_resting (h : s.ap.inFlight = false) (w : Word) :
    s.writeAccCount w = if 1 ≤ w.toNat ∧ w.toNat ≤ 16 then { s with ap := { s.ap with count := w.toNat } }
      else s.portError .range := by
  simp [State.writeAccCount, h, inRange_iff]

end

/-- Settles O56: one equation per register and state of the port. -/
theorem portRegisters : Obligations.PortRegisters := by
  intro s w hreset
  rw [exec_accDataRead hreset, exec_accDataWrite hreset, exec_accAddrWrite hreset, exec_accCountWrite hreset]
  refine ⟨fun x rest hready hbuf => ?_, fun hempty => ?_, fun hbusy => ?_, fun hidle => ?_,
    fun hfilling => ⟨fun hroom => ?_, fun hfull => ?_⟩, fun hbusy => ?_, fun hbusy => ⟨?_, ?_⟩,
    fun hresting => ⟨?_, fun hlo hhi => ?_, fun houtside => ?_⟩⟩
  · rw [readAccData_of_ready hready hbuf]
    rfl
  · rw [readAccData_of_empty hempty]
    rfl
  · rw [readAccData_of_busy hbusy]
    rfl
  · rw [writeAccData_of_idle hidle]
  · rw [writeAccData_of_filling hfilling, if_pos hroom]
  · rw [writeAccData_of_filling hfilling, if_neg hfull.not_gt]
    rfl
  · rw [writeAccData_of_busy hbusy]
    rfl
  · rw [State.writeAccAddr, if_pos (inFlight_of_busy hbusy)]
    rfl
  · rw [State.writeAccCount, if_pos (inFlight_of_busy hbusy)]
    rfl
  · rw [State.writeAccAddr, inFlight_of_resting hresting]
    rfl
  · rw [writeAccCount_of_resting (inFlight_of_resting hresting), if_pos ⟨hlo, hhi⟩]
  · rw [writeAccCount_of_resting (inFlight_of_resting hresting), if_neg (by omega)]
    rfl

end Sys2Proof.Machine
end

