-- ==== Sys2Proof/Proofs/StoreKept.lean ====
section
/-! What a step can do to the frame store, and the canonical form that every step keeps (R138, R143, R146, R150, R152). -/

namespace Sys2Proof.Machine

-- One theorem after another, as in the tests: many of them at once would need a thread each.
set_option Elab.async false

section

variable {s t : State}

/-! ### Completed writes (R146) -/

@[simp] theorem State.storeWords_store (s : State) (r : MemRequest) :
    (s.storeWords r).store = s.store.write r.addr r.words := rfl

@[simp] theorem State.lineWriteDone_store (s : State) (r : MemRequest) :
    (s.lineWriteDone r).store = s.store.write r.addr r.words := by
  unfold State.lineWriteDone
  split <;> simp

@[simp] theorem State.blockWriteDone_store (s : State) (r : MemRequest) :
    (s.blockWriteDone r).store = s.store.write r.addr r.words := by
  unfold State.blockWriteDone
  dsimp only
  split <;> simp

@[simp] theorem State.clearWriteDone_store (s : State) (r : MemRequest) :
    (s.clearWriteDone r).store = s.store.write r.addr r.words := by
  unfold State.clearWriteDone
  dsimp only
  (repeat' split) <;> simp

@[simp] theorem State.enterReady_store (s : State) : s.enterReady.store = s.store.forgetAll := by
  simp [State.enterReady]

/-! ### Every step -/

/-- What a step can leave in the frame store. -/
inductive StoreChange (s : State) : FrameStore → Prop
  | kept {st : FrameStore} (h : st = s.store) : StoreChange s st
  | written (e : Execution) (h : s.mc.exec = some e) (inside : e.request.inStore = true) :
      StoreChange s (s.store.write e.request.addr e.request.words)
  | aborted (a n : Nat) : StoreChange s (s.store.forget a n)
  | initialised : StoreChange s s.store.forgetAll
  | decayed (ds : List (Nat × BitVec 39)) : StoreChange s (s.store.decay ds)

theorem State.abortStore_change (s : State) : StoreChange s s.abortStore := by
  unfold State.abortStore
  split
  · exact .kept rfl
  · split
    case h_1 | h_2 | h_3 => exact .aborted _ _
    case h_4 | h_5 | h_6 => exact .kept rfl

/-- An orphan's memory effect: a write stores its words, any other kind leaves the store as it is (R151). -/
theorem State.orphanEffect_change {r : MemRequest} (h : s.mc.exec = some ⟨r, true⟩) (inside : r.inStore = true) :
    StoreChange s (s.endExec.orphanEffect r).store := by
  unfold State.orphanEffect
  split
  case h_1 | h_2 | h_3 => exact .written _ h inside
  case h_4 | h_5 | h_6 => exact .kept (by simp)

theorem CommandEffect.store_eq (e : CommandEffect s t) : t.store = s.store := by
  cases e <;> simp

theorem HostEffect.store_eq (e : HostEffect s t) : t.store = s.store := by
  cases e with
  | command _ e => exact e.store_eq
  | _ => simp

/-- Only the completion of a write, an entry into READY, an aborted write and loss of charge change the store. -/
theorem Effect.storeChange (e : Effect s t) : StoreChange s t.store := by
  cases e with
  | hostEffect _ e => exact .kept e.store_eq
  | lineWriteDone r h _ inside => simpa using StoreChange.written _ h inside
  | blockWriteDone r h _ inside => simpa using StoreChange.written _ h inside
  | clearWriteDone r h _ inside => simpa using StoreChange.written _ h inside
  | orphanDone r h inside => simpa using State.orphanEffect_change h inside
  | enterReady => simpa using StoreChange.initialised
  | loseCharge decay => exact .decayed _
  | pinReset => exact s.abortStore_change
  | _ => exact .kept (by simp)

theorem StoreChange.wf {st : FrameStore} (h : StoreChange s st) (hs : s.store.wf) : st.wf := by
  cases h with
  | kept h => exact h ▸ hs
  | written e _ inside =>
    obtain ⟨hinside, hwords⟩ := e.request.inStore_iff.1 inside
    exact s.store.wf_write _ _ hs (le_trans (Nat.add_le_add_left hwords _) hinside)
  | aborted a n => exact s.store.wf_forget a n hs
  | initialised => exact s.store.wf_forgetAll
  | decayed ds => exact s.store.wf_decay ds hs

end

/-- Settles O11: each change that a step can make to the store keeps its canonical form. -/
theorem storeCanonicalKept : Obligations.StoreCanonicalKept := by
  intro s t hs hstep
  obtain ⟨rest, heffect⟩ := step_effect hstep
  exact heffect.storeChange.wf hs

end Sys2Proof.Machine
end

