-- ==== Sys2Proof/Proofs/ErrorCorrection.lean ====
section
/-! Error correction, its counts and events, and loss of charge (R139, R148, R149, R152, R169). -/

namespace Sys2Proof.Machine

-- One theorem after another, as in the tests: many of them at once would need a thread each.
set_option Elab.async false

/-! ### Bits in error (R148) -/

/-- The number of bits in error is the size of the set of failed bits. -/
theorem errorBits_eq_card {flips : BitVec 39} {bits : Finset Nat} (hbits : ∀ i, flips.getLsbD i = true ↔ i ∈ bits) :
    errorBits flips = bits.card := by
  have hfilter : (List.range 39).toFinset.filter (fun i => flips.getLsbD i = true) = bits := by
    ext i
    simp only [Finset.mem_filter, List.mem_toFinset, List.mem_range, hbits, and_iff_right_iff_imp]
    exact fun hi => BitVec.lt_of_getLsbD ((hbits i).2 hi)
  rw [errorBits, List.countP_eq_length_filter, ← hfilter, ← List.toFinset_filter,
    List.toFinset_card_of_nodup (List.nodup_range.filter _)]

theorem getLsbD_one_shiftLeft {i : Nat} (hi : i < 39) (k : Nat) : (1#39 <<< i).getLsbD k = true ↔ k = i := by
  rw [← BitVec.twoPow_eq, BitVec.getLsbD_twoPow, Bool.and_eq_true, decide_eq_true_eq, decide_eq_true_eq]
  omega

/-- One failed bit of the 39 is corrected. -/
theorem eccRead_oneFailed (w : Word) {i : Nat} (hi : i < 39) : eccRead ⟨w, 1#39 <<< i⟩ = ⟨w, .corrected⟩ := by
  have hone : errorBits (1#39 <<< i) = 1 :=
    errorBits_eq_card (bits := {i}) fun k => by rw [getLsbD_one_shiftLeft hi, Finset.mem_singleton]
  rw [eccRead, hone]
  rfl

/-- Two failed bits are found, and the data bits delivered as they are. -/
theorem eccRead_twoFailed (w : Word) {i j : Nat} (hij : i < j) (hj : j < 39) :
    eccRead ⟨w, (1#39 <<< i) ||| (1#39 <<< j)⟩ =
      ⟨w ^^^ ((1#39 <<< i) ||| (1#39 <<< j)).setWidth 32, .uncorrectable⟩ := by
  have htwo : errorBits ((1#39 <<< i) ||| (1#39 <<< j)) = 2 := by
    rw [← Finset.card_pair hij.ne]
    refine errorBits_eq_card fun k => ?_
    rw [BitVec.getLsbD_or, Bool.or_eq_true, getLsbD_one_shiftLeft (hij.trans hj), getLsbD_one_shiftLeft hj,
      Finset.mem_insert, Finset.mem_singleton]
  rw [eccRead, htwo]
  rfl

/-- A run of words just written reads clean, word by word. -/
theorem FrameStore.readWords_write (st : FrameStore) (a : Nat) (ws : List Word) (h : st.wf) :
    (st.write a ws).readWords a ws.length = ws.map fun w => ⟨w, .clean⟩ := by
  refine List.ext_getElem (by simp [FrameStore.readWords]) fun i hread hi => ?_
  have hlt : i < ws.length := by simpa using hi
  have hin : a ≤ a + i ∧ a + i < a + ws.length := by omega
  simp only [FrameStore.readWords, List.getElem_map, List.getElem_range, st.read_write _ _ _ h, if_pos hin, eccRead_fresh]
  simp [hlt]

/-! ### The counts and events of a read (R148, R149, R169) -/

section

variable (s : State) (ws : List WordRead)

theorem countEcc_eccCorrected :
    (s.countEcc ws).mc.eccCorrected = satAdd s.mc.eccCorrected (findingCount .corrected ws) := by
  unfold State.countEcc
  dsimp only
  split <;> split <;> rfl

theorem countEcc_eccUncorrectable :
    (s.countEcc ws).mc.eccUncorrectable = satAdd s.mc.eccUncorrectable (findingCount .uncorrectable ws) := by
  unfold State.countEcc
  dsimp only
  split <;> split <;> rfl

theorem findingCount_eq_zero_iff {f : EccFinding} :
    findingCount f ws = 0 ↔ (ws.any fun w => w.finding = f) = false := by
  simp [findingCount, List.countP_eq_zero]

/-- Sets bits of EVT_GLOBAL when a condition holds. -/
def EventUnit.setGlobalIf (eu : EventUnit) (c : Bool) (mask : Word) : EventUnit :=
  if c then eu.setBits .global mask else eu

theorem setGlobalIf_status_global (eu : EventUnit) (c : Bool) (mask : Word) :
    (eu.setGlobalIf c mask).status[(10 : Fin 11)] = eu.status[(10 : Fin 11)] ||| (if c then mask else 0) := by
  cases c
  · exact BitVec.or_zero.symm
  · exact (eu.setBits_status .global mask 10).trans (if_pos rfl)

theorem setGlobalIf_status_other (eu : EventUnit) (c : Bool) (mask : Word) {i : Fin 11} (hi : i ≠ 10) :
    (eu.setGlobalIf c mask).status[i] = eu.status[i] := by
  cases c
  · rfl
  · exact (eu.setBits_status .global mask i).trans (if_neg hi.symm)

/-- Each event is raised when some word has its finding. -/
theorem countEcc_eu : (s.countEcc ws).eu =
    (s.eu.setGlobalIf (ws.any fun w => w.finding = .corrected) 0x80).setGlobalIf
      (ws.any fun w => w.finding = .uncorrectable) 0x100 := by
  cases hcorrected : ws.any fun w => w.finding = .corrected <;>
    cases hpoisoned : ws.any fun w => w.finding = .uncorrectable <;>
      simp only [State.countEcc, findingCount_eq_zero_iff, hcorrected, hpoisoned] <;> rfl

end

/-! ### Loss of charge (R139, R152) -/

/-- The failed bits of the word at `a` after losses of charge, one after another. -/
def decayedFlips (a : Nat) (ds : List (Nat × BitVec 39)) (flips : BitVec 39) : BitVec 39 :=
  ds.foldl (fun f d => if d.1 = a then f ||| d.2 else f) flips

theorem decayedFlips_cons (a : Nat) (d : Nat × BitVec 39) (ds : List (Nat × BitVec 39)) (flips : BitVec 39) :
    decayedFlips a (d :: ds) flips = decayedFlips a ds (if d.1 = a then flips ||| d.2 else flips) := rfl

/-- Losses of charge at other addresses do not touch the word at `a`. -/
theorem decayedFlips_filter (a : Nat) (p : Nat × BitVec 39 → Bool) (hp : ∀ d, d.1 = a → p d = true)
    (ds : List (Nat × BitVec 39)) (flips : BitVec 39) :
    decayedFlips a (ds.filter p) flips = decayedFlips a ds flips := by
  unfold decayedFlips
  rw [List.foldl_filter]
  congr 1
  funext f d
  by_cases ha : d.1 = a
  · rw [hp d ha, if_pos rfl]
  · rw [if_neg ha, ite_self]

theorem FrameStore.lookupCell_decayWord (st : FrameStore) (d : Nat × BitVec 39) (h : st.wf) (a : Nat) :
    lookupCell (st.decayWord d).cells a = (lookupCell st.cells a).map fun c : StoredWord =>
      { c with flips := if d.1 = a then c.flips ||| d.2 else c.flips } := by
  unfold FrameStore.decayWord
  split
  next c hc =>
    rw [lookupCell_writeCell _ _ _ _ h.1]
    by_cases ha : a = d.1
    · simp [ha, hc]
    · simp [ha, Ne.symm ha]
  next hnone =>
    by_cases ha : d.1 = a
    · simp [← ha, hnone]
    · simp [ha]

/-- A listed word collects every bit that fails at its address; an undefined word stays unlisted. -/
theorem FrameStore.lookupCell_decay (st : FrameStore) (ds : List (Nat × BitVec 39)) (h : st.wf) (a : Nat) :
    lookupCell (st.decay ds).cells a = (lookupCell st.cells a).map fun c : StoredWord =>
      { c with flips := decayedFlips a ds c.flips } := by
  induction ds generalizing st with
  | nil => simp [FrameStore.decay, decayedFlips]
  | cons d ds ih =>
    rw [FrameStore.decay, ih _ (st.wf_decayWord d h), st.lookupCell_decayWord d h, Option.map_map]
    rfl

theorem chargeMayLeak_iff (s : State) :
    s.chargeMayLeak = true ↔ s.mc.state ≠ .ready ∨ Config.deviceRefreshLimit < s.mc.refreshInterval := by
  simp [State.chargeMayLeak]

/-- Losses of charge beyond the store touch no listed word. -/
theorem FrameStore.lookupCell_decay_filter (st : FrameStore) (ds : List (Nat × BitVec 39)) (h : st.wf) (a : Nat) :
    lookupCell (st.decay (ds.filter fun d => d.1 < Config.storeWords)).cells a =
      (lookupCell st.cells a).map fun c : StoredWord => { c with flips := decayedFlips a ds c.flips } := by
  rw [st.lookupCell_decay _ h]
  refine Option.map_congr fun c hc => ?_
  have hlt : a < Config.storeWords := h.2 _ (lookupCell_mem hc)
  rw [decayedFlips_filter a _ fun d hd => decide_eq_true (hd ▸ hlt)]

/-- Settles O23: the failed bits of a word as a set give its finding, the findings the counts and events, and the bits lost at
an address collect in its word. -/
theorem eccAndCharge : Obligations.EccAndCharge := by
  refine ⟨⟨eccRead_fresh, fun w i => eccRead_oneFailed w, fun w i j => eccRead_twoFailed w,
      fun st a ws hwf => ⟨st.readWords_write a ws hwf, fun b hb => ?_⟩⟩,
    fun s ws => ⟨?_, ?_, ?_, fun i hi => ?_⟩, fun decay s => ⟨fun hkept => ?_, fun hleaks hwf => ?_⟩⟩
  · rw [st.read_write _ _ _ hwf, if_neg (by omega)]
  · rw [countEcc_eccCorrected, satAdd_toNat]
    rfl
  · rw [countEcc_eccUncorrectable, satAdd_toNat]
    rfl
  · rw [countEcc_eu, setGlobalIf_status_global, setGlobalIf_status_global]
  · rw [countEcc_eu, setGlobalIf_status_other _ _ _ hi, setGlobalIf_status_other _ _ _ hi]
  · refine if_neg fun hleaks => ?_
    exact ((chargeMayLeak_iff s).1 hleaks).elim (· hkept.1) hkept.2.not_gt
  · exact ⟨_, if_pos ((chargeMayLeak_iff s).2 hleaks), s.store.lookupCell_decay_filter decay hwf⟩

end Sys2Proof.Machine
end

