-- ==== Sys2Proof/Proofs/RefreshAndOrphans.lean ====
section
/-! The refresh timer, the completion of a refresh, and of a request that a full soft reset left in execution; completions
refused (R95, R137, R144 to R148, R151). -/

namespace Sys2Proof.Machine

-- One theorem after another, as in the tests: many of them at once would need a thread each.
set_option Elab.async false

section

variable {s : State}

/-! ### REFRESH_TIMER_EXPIRY (R144) -/

theorem exec_refreshTimerExpiry_of_stopped (h : s.mc.refreshTimer = none) :
    exec .refreshTimerExpiry s = .refused .timerNotRunning := by
  rw [exec, execRefreshTimerExpiry, h]

theorem exec_refreshTimerExpiry_of_running {x : RefreshTimer} (h : s.mc.refreshTimer = some x) :
    exec .refreshTimerExpiry s =
      if (s.timeBase - x.start).toNat < x.interval then .refused .timeNotElapsed else .next s.refreshExpired := by
  rw [exec, execRefreshTimerExpiry, h]
  rfl

theorem refreshExpired_of_clear (h : s.mc.refreshDue = false) :
    s.refreshExpired = ({ s with mc := { s.mc with
      refreshTimer := some ⟨s.timeBase, s.mc.refreshInterval⟩, refreshDue := true } } : State).grantMoment :=
  if_neg (by simp [h])

theorem refreshExpired_of_due (h : s.mc.refreshDue = true) :
    s.refreshExpired = { s with mc := { s.mc with
      refreshTimer := some ⟨s.timeBase, s.mc.refreshInterval⟩
      refreshBacklog := BitVec.ofNat 16 (min 65535 (s.mc.refreshBacklog.toNat + 1)) } } :=
  if_pos h

/-! ### The completions by what is in execution (R145, R147, R151) -/

theorem exec_refreshCompletion_of_none (h : s.mc.exec = none) :
    exec .refreshCompletion s = .refused .noSuchCompletion := by
  rw [exec, execRefreshCompletion, h]

theorem exec_refreshCompletion {e : Execution} (h : s.mc.exec = some e) :
    exec .refreshCompletion s =
      if e.request.kind = .refresh then .next s.endExec.refreshDone.afterDelivery else .refused .noSuchCompletion := by
  rw [exec, execRefreshCompletion, h]

theorem exec_orphanCompletion_of_none (h : s.mc.exec = none) :
    exec .orphanCompletion s = .refused .noSuchCompletion := by
  rw [exec, execOrphanCompletion, h]

theorem exec_orphanCompletion {r : MemRequest} (h : s.mc.exec = some ⟨r, true⟩) (hinside : r.inStore = true) :
    exec .orphanCompletion s =
      .next (((s.endExec.orphanEffect r).raiseDeferred).retestReader r.client).afterDelivery := by
  simp [exec, execOrphanCompletion, h, hinside]

theorem exec_orphanCompletion_of_owned {e : Execution} (h : s.mc.exec = some e) (howned : e.orphan = false) :
    exec .orphanCompletion s = .refused .noSuchCompletion := by
  simp [exec, execOrphanCompletion, h, howned]

theorem completing_of_none (kind : RequestKind) (deliver : State → MemRequest → State) (h : s.mc.exec = none) :
    completing kind s deliver = .refused .noSuchCompletion := by
  rw [completing, h]

theorem completing_of_other {e : Execution} {kind : RequestKind} (deliver : State → MemRequest → State)
    (h : s.mc.exec = some e) (hother : e.orphan = true ∨ e.request.kind ≠ kind) :
    completing kind s deliver = .refused .noSuchCompletion := by
  rw [completing, h]
  exact if_pos (by simpa using hother)

/-! ### ORPHAN_COMPLETION (R137, R148, R151) -/

/-- An orphan's memory effect takes nothing into execution. -/
theorem orphanEffect_exec (r : MemRequest) : (s.orphanEffect r).mc.exec = s.mc.exec := by
  unfold State.orphanEffect
  split
  case h_1 | h_2 | h_3 => simp
  case h_4 | h_5 => exact exec_countEcc _ _
  case h_6 => rfl

theorem raiseDeferred_of_none (h : s.ap.deferred = none) : s.raiseDeferred = s := by
  rw [State.raiseDeferred, h]

/-- The deferred port request becomes pending, which is a grant moment, once the controller is free (R137). -/
theorem raiseDeferred_of_some {d : MemRequest} (h : s.ap.deferred = some d) (hfree : s.mc.exec = none) :
    s.raiseDeferred = ({ s with
      ap := { s.ap with deferred := none }, arb := { s.arb with apReq := some ⟨d, 0⟩ } } : State).grantMoment := by
  rw [State.raiseDeferred, h]
  exact if_neg (by simp [State.execBy, hfree])

theorem retestReader_of_other {c : Client} (h : ∀ m : Fin 6, c ≠ .output m) : s.retestReader c = s := by
  unfold State.retestReader
  split
  next m => exact absurd rfl (h m)
  · rfl

end

/-- Settles O50: the timer and refresh-due decide an expiry, the request in execution which completion may come, and an
orphan's client what is raised after it. -/
theorem refreshAndOrphan : Obligations.RefreshAndOrphan := by
  refine ⟨fun s => ⟨exec_refreshTimerExpiry_of_stopped, fun x hx => ?_⟩, fun s e hexec hkind => ?_,
    fun s effect r hexec hinside hwords heffect => ?_, fun s hfree c hc => ?_,
    fun s e hexec => ⟨fun c kind hc hother => ?_, fun hkind => ?_, exec_orphanCompletion_of_owned hexec⟩⟩
  · rw [exec_refreshTimerExpiry_of_running hx]
    refine ⟨fun hearly => if_pos hearly, fun hpassed => ?_⟩
    rw [if_neg hpassed.not_gt]
    exact ⟨fun hclear => by rw [refreshExpired_of_clear hclear], fun hdue => by rw [refreshExpired_of_due hdue]⟩
  · rw [exec_refreshCompletion hexec, if_pos hkind]
    rfl
  · have hrun := exec_orphanCompletion hexec (r.inStore_iff.2 ⟨hinside, hwords⟩)
    have hap : (s.endExec.orphanEffect r).ap = s.ap := by simp
    have harb : (s.endExec.orphanEffect r).arb = s.arb := by simp
    have hfree : (s.endExec.orphanEffect r).mc.exec = none := orphanEffect_exec r
    obtain rfl : effect = s.endExec.orphanEffect r := by
      rw [heffect, State.orphanEffect]
      cases r.kind <;> rfl
    rw [hrun, ← hap, ← harb]
    refine ⟨fun hnone hother => ?_, fun hnone m hclient => ?_, fun d hdeferred hclient => ?_⟩
    · rw [raiseDeferred_of_none hnone, retestReader_of_other hother]
    · rw [raiseDeferred_of_none hnone, hclient, State.retestReader]
    · rw [raiseDeferred_of_some hdeferred hfree, retestReader_of_other (by simp [hclient])]
  · simp only [List.mem_cons, List.not_mem_nil, or_false] at hc
    rcases hc with rfl | rfl | rfl | rfl | rfl | rfl | rfl
    on_goal 7 => exact exec_orphanCompletion_of_none hfree
    on_goal 6 => exact exec_refreshCompletion_of_none hfree
    all_goals exact completing_of_none _ _ hfree
  · simp only [List.mem_cons, List.not_mem_nil, or_false, Prod.mk.injEq] at hc
    rcases hc with ⟨rfl, rfl⟩ | ⟨rfl, rfl⟩ | ⟨rfl, rfl⟩ | ⟨rfl, rfl⟩ | ⟨rfl, rfl⟩ <;>
      exact completing_of_other _ hexec hother
  · rw [exec_refreshCompletion hexec, if_neg hkind]

end Sys2Proof.Machine
end

