-- ==== Sys2Proof/Proofs/GrantOrder.lean ====
section
/-! The order of a grant: the rotation from a pointer, what is urgent, normal and promoted, and the classes from refresh down
to the host (R156 to R160). -/

namespace Sys2Proof.Machine

-- One theorem after another, as in the tests: many of them at once would need a thread each.
set_option Elab.async false

/-! ### The rotation (R158) -/

section

variable {k : Nat} {p : Fin k} {ok : Fin k → Bool}

/-- The rotation tries the places by their distance from the pointer. -/
theorem rotate_eq_map : rotate p ok = ((List.finRange k).find? fun d => ok (p + d)).map (p + ·) := List.find?_map ..

theorem rotate_eq_none : rotate p ok = none ↔ ∀ i, ok i = false := by
  have : NeZero k := ⟨p.pos.ne'⟩
  simp only [rotate_eq_map, Option.map_eq_none_iff, List.find?_eq_none, List.mem_finRange, true_imp_iff,
    Bool.not_eq_true]
  exact ⟨fun h i => by simpa using h (i - p), fun h d => h (p + d)⟩

/-- The distances rise along the list, so whatever qualifies is no nearer than the first that does. -/
theorem rotate_first {i : Fin k} (h : rotate p ok = some i) :
    ok i = true ∧ ∀ j, ok j = true → (i - p).val ≤ (j - p).val := by
  have : NeZero k := ⟨p.pos.ne'⟩
  rw [rotate_eq_map, Option.map_eq_some_iff] at h
  obtain ⟨d, hd, rfl⟩ := h
  obtain ⟨hok, before, after, hsplit, hbefore⟩ := List.find?_eq_some_iff_append.1 hd
  refine ⟨hok, fun j hj => ?_⟩
  have hrises : (before ++ d :: after).Pairwise (· < ·) := hsplit ▸ List.pairwise_lt_finRange k
  have hmem : j - p ∈ before ++ d :: after := hsplit ▸ List.mem_finRange _
  rw [add_sub_cancel_left]
  rcases List.mem_append.1 hmem with hearlier | hlater
  · exact absurd (hbefore _ hearlier) (by simp [hj])
  · rcases List.mem_cons.1 hlater with heq | hlater
    · exact heq ▸ le_rfl
    · exact le_of_lt (List.rel_of_pairwise_cons (List.pairwise_append.1 hrises).2.1 hlater)

theorem exists_rotate_eq_some (h : ∃ i, ok i = true) : ∃ i, rotate p ok = some i := by
  obtain ⟨i, hi⟩ := h
  exact Option.ne_none_iff_exists'.1 fun hnone => by simp [rotate_eq_none.1 hnone i] at hi

end

/-! ### Urgent, normal and promoted requests (R41, R96, R156, R159, R160) -/

section

variable {s : State}

theorem urgentInput_iff {n : Fin 4} : s.urgentInput n = true ↔
    ∃ r, s.arb.inReq[n] = some r ∧ (s.input n).cfg.watermark ≤ (s.input n).fifo.length := by
  simp [State.urgentInput, Option.isSome_iff_exists]

theorem urgentOutput_iff {m : Fin 6} : s.urgentOutput m = true ↔
    ∃ r f, s.arb.outReq[m] = some r ∧ (s.output m).frame = some f ∧ (s.output m).fifo.length ≤ f.watermark := by
  unfold State.urgentOutput
  cases (s.output m).frame <;> simp [Option.isSome_iff_exists]

theorem normalClient_input {n : Fin 4} {i : Fin 10} (h : i.val = n.val) : normalClient i = .input n := by
  rw [normalClient, dif_pos (h ▸ n.isLt)]
  exact congrArg Client.input (Fin.ext h)

theorem normalClient_output {m : Fin 6} {i : Fin 10} (h : i.val = m.val + 4) : normalClient i = .output m := by
  rw [normalClient, dif_neg (by omega)]
  exact congrArg Client.output (Fin.ext (by simp [h]))

theorem normalPending_input_iff {n : Fin 4} {i : Fin 10} (h : i.val = n.val) : s.normalPending i = true ↔
    ∃ r, s.arb.inReq[n] = some r ∧ (s.input n).fifo.length < (s.input n).cfg.watermark := by
  rw [State.normalPending, normalClient_input h]
  cases hr : s.arb.inReq[n] <;> simp [State.urgentInput, hr]

theorem normalPending_output_iff {m : Fin 6} {i : Fin 10} (h : i.val = m.val + 4) :
    s.normalPending i = true ↔ ∃ r, s.arb.outReq[m] = some r ∧ s.urgentOutput m = false := by
  rw [State.normalPending, normalClient_output h]
  simp [Option.isSome_iff_exists]

theorem hostPending_iff {a : Arbiter} {promoted : Bool} {h : HostClient} :
    a.hostPending promoted h = true ↔ ∃ r, a.hostReq h = some r ∧ (promoted = true ↔ 8 ≤ r.passed) := by
  unfold Arbiter.hostPending Config.promoteAt
  cases a.hostReq h <;> cases promoted <;> simp

/-! ### The urgent class (R157) -/

/-- The outputs come first by the profile and the preference, or alone. -/
theorem pickUrgent_output {m : Fin 6} (h : rotate s.arb.urgentOut s.urgentOutput = some m)
    (hfirst : s.arb.profile = .outputFirst ∨ (s.arb.profile = .interleaved ∧ s.arb.preference = .outputs) ∨
      ∀ n, s.urgentInput n = false) : s.pickUrgent = some (.urgentOutput m) := by
  unfold State.pickUrgent
  rw [h]
  rcases hfirst with hprofile | ⟨hprofile, hpreference⟩ | hnone
  · rw [hprofile]; rfl
  · rw [hprofile, hpreference]; rfl
  · rw [rotate_eq_none.2 hnone]
    split <;> rfl

/-- The inputs come first by the profile and the preference, or alone. -/
theorem pickUrgent_input {n : Fin 4} (h : rotate s.arb.urgentIn s.urgentInput = some n)
    (hfirst : s.arb.profile = .inputFirst ∨ (s.arb.profile = .interleaved ∧ s.arb.preference = .inputs) ∨
      ∀ m, s.urgentOutput m = false) : s.pickUrgent = some (.urgentInput n) := by
  unfold State.pickUrgent
  rw [h]
  rcases hfirst with hprofile | ⟨hprofile, hpreference⟩ | hnone
  · rw [hprofile]; rfl
  · rw [hprofile, hpreference]; rfl
  · rw [rotate_eq_none.2 hnone]
    split <;> rfl

theorem pickUrgent_eq_none (hout : ∀ m, s.urgentOutput m = false) (hin : ∀ n, s.urgentInput n = false) :
    s.pickUrgent = none := by
  unfold State.pickUrgent
  rw [rotate_eq_none.2 hout, rotate_eq_none.2 hin]
  split <;> rfl

/-! ### The host class (R158, R160) -/

theorem pickHost_at {a : Arbiter} {promoted : Bool} (h : a.hostPending promoted a.host = true) :
    a.pickHost promoted = some (.host a.host) := if_pos h

theorem pickHost_other {a : Arbiter} {promoted : Bool} (h : a.hostPending promoted a.host = false)
    (hother : a.hostPending promoted a.host.other = true) : a.pickHost promoted = some (.host a.host.other) := by
  simp [Arbiter.pickHost, h, hother]

theorem pickHost_eq_none {a : Arbiter} {promoted : Bool} (h : ∀ c, a.hostPending promoted c = false) :
    a.pickHost promoted = none := by
  simp [Arbiter.pickHost, h]

/-! ### The classes in order (R156) -/

theorem chooseGrant_of_refresh (h : s.mc.refreshDue = true) : s.chooseGrant = some .refresh := if_pos h

theorem chooseGrant_of_urgent (hdue : s.mc.refreshDue = false) {w : Winner} (h : s.pickUrgent = some w) :
    s.chooseGrant = some w := by
  simp [State.chooseGrant, hdue, h]

/-- With no refresh due and nothing urgent, the promoted host requests come before the normal class, and the others after. -/
theorem chooseGrant_of_calm (hdue : s.mc.refreshDue = false) (hurgent : s.pickUrgent = none) :
    s.chooseGrant = (s.arb.pickHost true).or
      (((rotate s.arb.normal s.normalPending).map Winner.normal).or (s.arb.pickHost false)) := by
  simp [State.chooseGrant, hdue, hurgent]

end

/-- Settles O24: the rotation finds the nearest that qualifies, and each class is weighed once those above it are empty. -/
theorem grantOrder : Obligations.GrantOrder := by
  refine ⟨fun k p ok => ⟨rotate_eq_none, fun i => rotate_first⟩,
    fun s => ⟨fun n => urgentInput_iff, fun m => urgentOutput_iff, fun n i => normalPending_input_iff,
      fun m i => normalPending_output_iff, fun promoted => ⟨hostPending_iff, hostPending_iff⟩⟩,
    fun s => ⟨chooseGrant_of_refresh, fun hdue => ⟨fun hsome hfirst => ?_, fun hsome hfirst => ?_, fun hout hin => ?_⟩⟩⟩
  · obtain ⟨m, hm⟩ := exists_rotate_eq_some (p := s.arb.urgentOut) hsome
    exact ⟨m, chooseGrant_of_urgent hdue (pickUrgent_output hm hfirst), hm⟩
  · obtain ⟨n, hn⟩ := exists_rotate_eq_some (p := s.arb.urgentIn) hsome
    exact ⟨n, chooseGrant_of_urgent hdue (pickUrgent_input hn hfirst), hn⟩
  · rw [chooseGrant_of_calm hdue (pickUrgent_eq_none hout hin)]
    refine ⟨fun hat => ?_, fun hat hother => ?_, fun hpromoted => ?_⟩
    · rw [pickHost_at hat, Option.some_or]
    · rw [pickHost_other hat hother, Option.some_or]
    · rw [pickHost_eq_none hpromoted, Option.none_or]
      refine ⟨fun i hnormal => ?_, fun hnormal => ?_⟩
      · rw [hnormal, Option.map_some, Option.some_or]
      · rw [hnormal, Option.map_none, Option.none_or]
        exact ⟨pickHost_at, pickHost_other, pickHost_eq_none⟩

end Sys2Proof.Machine
end

