-- ==== Sys2Proof/Proofs/GrantMoment.lean ====
section
/-! The grant moment: what goes into execution, which pointer moves, who is passed over, and the mark of an input's line
(R41, R141, R155, R157, R158, R160). -/

namespace Sys2Proof.Machine

-- One theorem after another, as in the tests: many of them at once would need a thread each.
set_option Elab.async false

/-! ### Pass-over counts and the mark of the line at the FIFO head (R41, R160) -/

theorem pass_eq (r : HostRequest) : r.pass = { r with passed := if r.passed < 8 then r.passed + 1 else 8 } := by
  rw [HostRequest.pass, Config.promoteAt]
  congr 1
  split <;> omega

theorem passOver_eq (a : Arbiter) : a.passOver = { a with
    apReq := a.apReq.map fun r => { r with passed := if r.passed < 8 then r.passed + 1 else 8 }
    cuReq := a.cuReq.map fun r => { r with passed := if r.passed < 8 then r.passed + 1 else 8 } } := by
  rw [Arbiter.passOver, funext pass_eq]

theorem markInFlight_of_nil {ch : InputChannel} (h : ch.fifo = []) : ch.markInFlight = ch := by
  rw [InputChannel.markInFlight, h]

theorem markInFlight_of_cons {ch : InputChannel} {l : FifoLine} {rest : List FifoLine} (h : ch.fifo = l :: rest) :
    ch.markInFlight = { ch with
      fill := ch.fill.map fun e => { e with writeInFlight := e.writeInFlight || e.slot = l.slot } } := by
  have hentry (e : FrameEntry) : (if e.slot = l.slot then { e with writeInFlight := true } else e) =
      { e with writeInFlight := e.writeInFlight || e.slot = l.slot } := by
    by_cases hslot : e.slot = l.slot <;> simp [hslot]
  rw [InputChannel.markInFlight, h]
  simp only [hentry]

/-! ### Grants (R155, R157, R158) -/

section

variable {s : State}

theorem grantInput_of_pending {n : Fin 4} {r : MemRequest} (h : s.arb.inReq[n] = some r) :
    s.grantInput n = ({ s with
      arb := { s.arb with inReq := s.arb.inReq.set n none }.passOver
      mc := { s.mc with exec := some ⟨r, false⟩ } } : State).setInput n (s.input n).markInFlight := by
  rw [State.grantInput, h]
  rfl

theorem grantOutput_of_pending {m : Fin 6} {r : MemRequest} (h : s.arb.outReq[m] = some r) :
    s.grantOutput m = { s with
      arb := { s.arb with outReq := s.arb.outReq.set m none }.passOver
      mc := { s.mc with exec := some ⟨r, false⟩ } } := by
  rw [State.grantOutput, h]
  rfl

theorem applyGrant_normal_input {i : Fin 10} {n : Fin 4} (h : normalClient i = .input n) :
    s.applyGrant (.normal i) = ({ s with arb := { s.arb with normal := i + 1 } } : State).grantInput n := by
  rw [State.applyGrant, h]

theorem applyGrant_normal_output {i : Fin 10} {m : Fin 6} (h : normalClient i = .output m) :
    s.applyGrant (.normal i) = ({ s with arb := { s.arb with normal := i + 1 } } : State).grantOutput m := by
  rw [State.applyGrant, h]

theorem applyGrant_accessPort {r : HostRequest} (h : s.arb.apReq = some r) :
    s.applyGrant (.host .accessPort) = { s with
      arb := { s.arb with apReq := none, host := .commandUnit }
      mc := { s.mc with exec := some ⟨r.request, false⟩ } } := by
  rw [State.applyGrant, State.grantHost, Arbiter.hostReq, h]
  rfl

theorem applyGrant_commandUnit {r : HostRequest} (h : s.arb.cuReq = some r) :
    s.applyGrant (.host .commandUnit) = { s with
      arb := { s.arb with cuReq := none, host := .accessPort }
      mc := { s.mc with exec := some ⟨r.request, false⟩ } } := by
  rw [State.applyGrant, State.grantHost, Arbiter.hostReq, h]
  rfl

/-! ### Grant moments (R141, R155) -/

theorem grantMoment_of_idle (h : s.mc.state ≠ .ready ∨ s.mc.exec ≠ none ∨ s.chooseGrant = none) :
    s.grantMoment = s := by
  rcases s.grantMoment_cases with hsame | ⟨w, hready, hfree, hwinner, -⟩
  · exact hsame
  · rcases h with h | h | h
    · exact absurd hready h
    · exact absurd hfree h
    · cases hwinner.symm.trans h

theorem grantMoment_of_winner (hready : s.mc.state = .ready) (hfree : s.mc.exec = none) {w : Winner}
    (h : s.chooseGrant = some w) : s.grantMoment = s.applyGrant w := by
  simp [State.grantMoment, hready, hfree, h]

/-- The controller is not READY while a waiting stage 1 begins, so what follows a delivery is that or a grant moment. -/
theorem afterDelivery_eq (s : State) :
    s.afterDelivery = (if s.mc.state = .initializing ∧ s.mc.stage = 0 then
      { s with mc := { s.mc with stage := 1, stageStart := s.timeBase } } else s.grantMoment) := by
  rw [State.afterDelivery, State.startWaitingStage]
  simp only [Bool.and_eq_true, decide_eq_true_eq]
  split
  next hwaiting => exact grantMoment_of_idle (.inl (by simp [hwaiting.1]))
  next => rfl

end

/-- Settles O25: a free controller in READY takes the winner's request, and the winner's class says what the arbiter keeps. -/
theorem grantMoment : Obligations.GrantMoment := by
  refine ⟨afterDelivery_eq, passOver_eq, fun ch => ⟨markInFlight_of_nil, fun l rest => markInFlight_of_cons⟩,
    fun s => ⟨grantMoment_of_idle, fun hready hfree => ?_⟩⟩
  have hgrant {w : Winner} (h : s.chooseGrant = some w) := grantMoment_of_winner hready hfree h
  refine ⟨fun hw => hgrant hw, fun m r hw hr => ?_, fun n r hw hr => ?_, fun i n r hw hi hr => ?_,
    fun i m r hw hi hr => ?_, fun r hw hr => ?_, fun r hw hr => ?_⟩
  · exact (hgrant hw).trans (grantOutput_of_pending hr)
  · exact (hgrant hw).trans (grantInput_of_pending hr)
  · exact (hgrant hw).trans ((applyGrant_normal_input hi).trans (grantInput_of_pending hr))
  · exact (hgrant hw).trans ((applyGrant_normal_output hi).trans (grantOutput_of_pending hr))
  · exact (hgrant hw).trans (applyGrant_accessPort hr)
  · exact (hgrant hw).trans (applyGrant_commandUnit hr)

end Sys2Proof.Machine
end

