-- ==== Sys2Proof/Proofs/EventRules.lean ====
section
/-! The summary bits and the interrupt line, and the host's writes to the event unit and the counters (R164, R165, R166,
R170). -/

namespace Sys2Proof.Machine

-- One theorem after another, as in the tests: many of them at once would need a thread each.
set_option Elab.async false

/-! ### EVT_SUMMARY and the interrupt line (R166) -/

theorem word_ne_zero_iff {w : Word} : w ≠ 0 ↔ ∃ b, w.getLsbD b = true := by
  constructor
  · intro hne
    by_contra hclear
    refine hne (BitVec.eq_of_getLsbD_eq fun b _ => ?_)
    rw [Bool.eq_false_iff.2 fun hb => hclear ⟨b, hb⟩]
    exact BitVec.getLsbD_zero.symm
  · rintro ⟨b, hb⟩ rfl
    exact Bool.false_ne_true (BitVec.getLsbD_zero.symm.trans hb)

/-- A bit of such a fold was set at the start, or is the place of an element of the list where `p` holds. -/
theorem getLsbD_setWhere (p : Fin 11 → Bool) (l : List (Fin 11)) (w : Word) (b : Nat) :
    (l.foldl (fun (w : Word) i => if p i then w ||| (1 <<< i.val) else w) w).getLsbD b = true ↔
      w.getLsbD b = true ∨ ∃ i ∈ l, p i = true ∧ i.val = b := by
  induction l generalizing w with
  | nil => simp
  | cons i l ih =>
    have hplace : (BitVec.ofNat 32 (1 <<< i.val)).getLsbD b = true ↔ i.val = b := by
      rw [BitVec.getLsbD_ofNat, Nat.one_shiftLeft, Nat.testBit_two_pow, Bool.and_eq_true, decide_eq_true_eq,
        decide_eq_true_eq]
      omega
    rw [List.foldl_cons, ih]
    cases hp : p i <;> simp [hp, hplace, or_assoc]

section

variable (eu : EventUnit)

theorem summaryBit_iff (i : Fin 11) :
    eu.summaryBit i = true ↔ ∃ b, eu.status[i].getLsbD b = true ∧ eu.enable[i].getLsbD b = true := by
  rw [EventUnit.summaryBit, bne_iff_ne, word_ne_zero_iff]
  simp only [BitVec.getLsbD_and, Bool.and_eq_true]

theorem summary_getLsbD (b : Nat) : eu.summary.getLsbD b = true ↔ ∃ i : Fin 11, eu.summaryBit i = true ∧ i.val = b := by
  rw [EventUnit.summary, getLsbD_setWhere]
  simp

theorem summary_at (i : Fin 11) : eu.summary.getLsbD i.val = true ↔ eu.summaryBit i = true := by
  rw [summary_getLsbD]
  exact ⟨fun ⟨_, hbit, hk⟩ => Fin.ext hk ▸ hbit, fun hbit => ⟨i, hbit, rfl⟩⟩

theorem summary_beyond {b : Nat} (hb : 11 ≤ b) : eu.summary.getLsbD b = false := by
  rw [Bool.eq_false_iff, ne_eq, summary_getLsbD]
  rintro ⟨i, _, rfl⟩
  omega

theorem interruptLine_iff : eu.interruptLine = true ↔ eu.summary ≠ 0 := by
  have hline : eu.interruptLine = true ↔ ∃ i, eu.summaryBit i = true := by simp [EventUnit.interruptLine]
  rw [hline, word_ne_zero_iff]
  exact ⟨fun ⟨i, hi⟩ => ⟨i.val, (summary_at eu i).2 hi⟩, fun ⟨b, hb⟩ =>
    ((summary_getLsbD eu b).1 hb).imp fun _ => And.left⟩

end

/-! ### Host writes (R164, R165, R170) -/

/-- The three kinds of event register with their places and the bits that name events (R172). -/
theorem eventReg_place {reg : EventReg} {i : Fin 11} {named : Word}
    (h : (∃ n : Fin 4, reg = .input n ∧ i.val = n.val ∧ named = 0x7FF) ∨
      (∃ m : Fin 6, reg = .output m ∧ i.val = m.val + 4 ∧ named = 0x7F) ∨ (reg = .global ∧ i = 10 ∧ named = 0x3FF)) :
    eventRegIdx reg = i ∧ eventRegNamed reg = named := by
  rcases h with ⟨n, rfl, hi, rfl⟩ | ⟨m, rfl, hi, rfl⟩ | ⟨rfl, rfl, rfl⟩
  · exact ⟨Fin.ext hi.symm, rfl⟩
  · exact ⟨Fin.ext hi.symm, rfl⟩
  · exact ⟨rfl, rfl⟩

section

variable {s : State} (hreset : s.resetAsserted = false)

include hreset

theorem exec_eventClear (reg : EventReg) (w : Word) : exec (.eventClear reg w) s = .next (s.clearEvents reg w) :=
  hostWrite_of_released hreset fun s => s.clearEvents reg w

theorem exec_eventEnableWrite (reg : EventReg) (w : Word) :
    exec (.eventEnableWrite reg w) s = .next (s.writeEnables reg w) :=
  hostWrite_of_released hreset fun s => s.writeEnables reg w

theorem exec_counterClear (x : CounterName) (w : Word) : exec (.counterClear x w) s = .next (s.clearCounter x) :=
  hostWrite_of_released hreset fun s => s.clearCounter x

end

/-- Settles O27: the fold of the summary bit by bit, and each write at the place of its register. -/
theorem eventUnitRules : Obligations.EventUnitRules := by
  refine ⟨fun eu => ⟨fun i => (summary_at eu i).trans (summaryBit_iff eu i), fun b => summary_beyond eu,
    interruptLine_iff eu⟩, fun s w hreset => ⟨fun reg i named h => ?_, fun n c => exec_counterClear hreset _ w,
    fun m c => exec_counterClear hreset _ w, exec_counterClear hreset _ w, exec_counterClear hreset _ w,
    exec_counterClear hreset _ w⟩⟩
  obtain ⟨rfl, rfl⟩ := eventReg_place h
  exact ⟨exec_eventClear hreset reg w, exec_eventEnableWrite hreset reg w⟩

end Sys2Proof.Machine
end

