-- ==== Sys2Proof/Proofs/Rises.lean ====
section
/-! Status bits that stay and counters that do not fall, operation by operation (R163, R164, R167, R169, R170). -/

namespace Sys2Proof.Machine

-- One theorem after another, as in the tests: many of them at once would need a thread each.
set_option Elab.async false

/-! ### Counters (R50, R89, R169) -/

theorem toNat_le_satAdd (c : Count) (k : Nat) : c.toNat ≤ (satAdd c k).toNat := by
  have := c.isLt
  rw [satAdd_toNat]
  omega

/-- No counter of a channel is lower than it was. -/
def CountsRise {k : Nat} (v w : Vector Count k) : Prop := ∀ i : Fin k, v[i].toNat ≤ w[i].toNat

namespace CountsRise

variable {k : Nat}

theorem refl (v : Vector Count k) : CountsRise v v := fun _ => le_rfl

theorem trans {u v w : Vector Count k} (h : CountsRise u v) (h' : CountsRise v w) : CountsRise u w :=
  fun i => (h i).trans (h' i)

theorem add (v : Vector Count k) (i : Fin k) (x : Nat) : CountsRise v (v.set i (satAdd v[i] x)) := fun j => by
  by_cases hij : i = j
  · subst hij
    simpa using toNat_le_satAdd v[i] x
  · have hne : i.val ≠ j.val := fun e => hij (Fin.ext e)
    simp [hne]

theorem count (ch : InputChannel) (c : InCounter) : CountsRise ch.counters (ch.count c).counters := add _ _ 1

theorem published (ch : InputChannel) : CountsRise ch.counters ch.published.counters := count ch .framesPublished

theorem countEvicted (ch : InputChannel) (x : Nat) : CountsRise ch.counters (ch.countEvicted x).counters := add _ _ x

theorem countBy (o : OutputChannel) (c : OutCounter) (x : Nat) : CountsRise o.counters (o.countBy c x).counters :=
  add _ _ x

end CountsRise

/-- No counter of the memory controller is lower than it was. -/
structure MemController.CountsRise (mc mc' : MemController) : Prop where
  corrected : mc.eccCorrected.toNat ≤ mc'.eccCorrected.toNat
  uncorrectable : mc.eccUncorrectable.toNat ≤ mc'.eccUncorrectable.toNat
  backlog : mc.refreshBacklog.toNat ≤ mc'.refreshBacklog.toNat

/-! ### Events (R163) -/

/-- A raise clears no bit of any register. -/
theorem EventsStay.setBits {s t u : State} (h : EventsStay s t) {reg : EventReg} {mask : Word}
    (heu : u.eu = t.eu.setBits reg mask := by rfl) : EventsStay s u := fun i w hw => by
  rw [heu, EventUnit.setBits_status]
  split
  · exact and_of_or (h i w hw) _
  · exact h i w hw

/-- A bit that is set stays set. -/
theorem EventsStay.bit {s t : State} (h : EventsStay s t) {i : Fin 11} {b : Nat}
    (hb : s.eu.status[i].getLsbD b = true) : t.eu.status[i].getLsbD b = true := by
  have hmask : s.eu.status[i] &&& BitVec.twoPow 32 b = BitVec.twoPow 32 b := by rw [BitVec.and_twoPow, if_pos hb]
  have hafter := h i _ hmask
  rw [BitVec.and_twoPow] at hafter
  by_contra hclear
  rw [if_neg hclear] at hafter
  have hzero := congrArg (BitVec.getLsbD · b) hafter
  simp [BitVec.lt_of_getLsbD hb] at hzero

/-! ### Changes of the state -/

/-- From `s` to `t` no status bit is cleared and no counter lowered. -/
structure Rises (s t : State) : Prop where
  events : EventsStay s t
  inputs : ∀ n, CountsRise (s.input n).counters (t.input n).counters
  outputs : ∀ m, CountsRise (s.output m).counters (t.output m).counters
  memory : s.mc.CountsRise t.mc

namespace Rises

variable {s t : State}

theorem refl (s : State) : Rises s s := ⟨.refl s, fun _ => .refl _, fun _ => .refl _, ⟨le_rfl, le_rfl, le_rfl⟩⟩

theorem trans {u : State} (h : Rises s t) (h' : Rises t u) : Rises s u where
  events i w := h'.events i w ∘ h.events i w
  inputs n := (h.inputs n).trans (h'.inputs n)
  outputs m := (h.outputs m).trans (h'.outputs m)
  memory := ⟨h.memory.corrected.trans h'.memory.corrected, h.memory.uncorrectable.trans h'.memory.uncorrectable,
    h.memory.backlog.trans h'.memory.backlog⟩

/-- A change beside the events and the channels, and of the memory controller's counters only upward. -/
theorem of_eq (h : Rises s t) {u : State} (heu : u.eu = t.eu := by rfl) (hin : u.inputs = t.inputs := by rfl)
    (hout : u.outputs = t.outputs := by rfl) (hmc : t.mc.CountsRise u.mc := by exact ⟨le_rfl, le_rfl, le_rfl⟩) :
    Rises s u :=
  h.trans {
    events := (EventsStay.refl t).keep heu
    inputs := fun n => by rw [State.input_eq_of_inputs_eq hin]; exact .refl _
    outputs := fun m => by rw [State.output_eq_of_outputs_eq hout]; exact .refl _
    memory := hmc }

/-- A change beside the events, the channels and the memory controller. -/
theorem keep (h : Rises s t) {u : State} (heu : u.eu = t.eu := by simp) (hin : u.inputs = t.inputs := by simp)
    (hout : u.outputs = t.outputs := by simp) (hmc : u.mc = t.mc := by simp) : Rises s u :=
  h.of_eq heu hin hout (hmc ▸ ⟨le_rfl, le_rfl, le_rfl⟩)

theorem setSm (h : Rises s t) {sm : SlotManager} : Rises s { t with sm := sm } := h.of_eq

theorem setArb (h : Rises s t) {a : Arbiter} : Rises s { t with arb := a } := h.of_eq

theorem setAp (h : Rises s t) {ap : AccessPort} : Rises s { t with ap := ap } := h.of_eq

theorem setInput (h : Rises s t) {n : Fin 4} {ch : InputChannel}
    (hch : CountsRise (t.input n).counters ch.counters := by exact .refl _) : Rises s (t.setInput n ch) :=
  h.trans { refl t with
    inputs := fun k => by
      rw [State.input_setInput]
      split
      next hk => exact hk ▸ hch
      next => exact .refl _
    outputs := fun m => by rw [State.output_setInput]; exact .refl _ }

theorem modInput (h : Rises s t) {n : Fin 4} {f : InputChannel → InputChannel}
    (hf : CountsRise (t.input n).counters (f (t.input n)).counters := by exact .refl _) : Rises s (t.modInput n f) :=
  h.setInput hf

theorem setOutput (h : Rises s t) {m : Fin 6} {o : OutputChannel}
    (ho : CountsRise (t.output m).counters o.counters := by exact .refl _) : Rises s (t.setOutput m o) :=
  h.trans { refl t with
    inputs := fun n => by rw [State.input_setOutput]; exact .refl _
    outputs := fun k => by
      rw [State.output_setOutput]
      split
      next hk => exact hk ▸ ho
      next => exact .refl _ }

theorem modOutput (h : Rises s t) {m : Fin 6} {f : OutputChannel → OutputChannel}
    (hf : CountsRise (t.output m).counters (f (t.output m)).counters := by exact .refl _) : Rises s (t.modOutput m f) :=
  h.setOutput hf

theorem raiseIn (h : Rises s t) {n : Fin 4} {e : InEvent} : Rises s (t.raiseIn n e) :=
  h.trans { refl t with events := (EventsStay.refl t).setBits }

theorem raiseOut (h : Rises s t) {m : Fin 6} {e : OutEvent} : Rises s (t.raiseOut m e) :=
  h.trans { refl t with events := (EventsStay.refl t).setBits }

theorem raiseGlobal (h : Rises s t) {e : GlobalEvent} : Rises s (t.raiseGlobal e) :=
  h.trans { refl t with events := (EventsStay.refl t).setBits }

theorem configIgnored (h : Rises s t) : Rises s t.configIgnored := h.raiseGlobal

theorem countIn (h : Rises s t) {n : Fin 4} {c : InCounter} : Rises s (t.countIn n c) := h.modInput (.count _ c)

theorem countOut (h : Rises s t) {m : Fin 6} {c : OutCounter} : Rises s (t.countOut m c) := h.modOutput (.countBy _ c 1)

/-! ### Arbitration (chapter 9) -/

theorem startExec (h : Rises s t) {r : MemRequest} : Rises s (t.startExec r) := h.of_eq

theorem withdrawRead (h : Rises s t) {m : Fin 6} : Rises s (t.withdrawRead m) := h.setArb

theorem markInFlight (h : Rises s t) {n : Fin 4} : Rises s (t.modInput n InputChannel.markInFlight) :=
  h.modInput (by rw [InputChannel.markInFlight_eq]; exact .refl _)

theorem grantInput (h : Rises s t) {n : Fin 4} : Rises s (t.grantInput n) := by
  unfold State.grantInput
  split
  · exact h
  · exact h.setArb.markInFlight.startExec

theorem grantOutput (h : Rises s t) {m : Fin 6} : Rises s (t.grantOutput m) := by
  unfold State.grantOutput
  split
  · exact h
  · exact h.setArb.startExec

theorem grantHost (h : Rises s t) {c : HostClient} : Rises s (t.grantHost c) := by
  unfold State.grantHost
  split
  · exact h
  · exact h.setArb.startExec

theorem applyGrant (h : Rises s t) {w : Winner} : Rises s (t.applyGrant w) := by
  cases w with
  | refresh => exact h.startExec
  | urgentOutput m => exact h.setArb.grantOutput
  | urgentInput n => exact h.setArb.grantInput
  | normal i =>
    simp only [State.applyGrant]
    split
    · exact h.setArb.grantInput
    · exact h.setArb.grantOutput
    · exact h
  | host c => exact h.grantHost

theorem grantMoment (h : Rises s t) : Rises s t.grantMoment := by
  rcases t.grantMoment_cases with hg | ⟨w, _, _, _, hg⟩ <;> rw [hg]
  · exact h
  · exact h.applyGrant

theorem raiseWrite (h : Rises s t) {n : Fin 4} : Rises s (t.raiseWrite n) := by
  unfold State.raiseWrite
  split
  · exact h
  · split
    · exact h
    · exact h.setArb.grantMoment

theorem raiseRead (h : Rises s t) {m : Fin 6} : Rises s (t.raiseRead m) := by
  unfold State.raiseRead
  split
  · exact h
  · exact h.setArb.modOutput.grantMoment

theorem raisePort (h : Rises s t) {r : MemRequest} : Rises s (t.raisePort r) := by
  unfold State.raisePort
  split
  · exact h.setAp
  · exact h.setArb.grantMoment

theorem raiseClear (h : Rises s t) {c : ClearProgress} : Rises s (t.raiseClear c) := h.setArb.grantMoment

/-! ### Input channels (chapters 2 and 3) -/

theorem stopCompletion (h : Rises s t) {n : Fin 4} : Rises s (t.stopCompletion n) := by
  rw [State.stopCompletion_eq]
  split
  · exact h.modInput.raiseIn
  · exact h.modInput

theorem finishStopping (h : Rises s t) {n : Fin 4} : Rises s (t.finishStopping n) := by
  unfold State.finishStopping
  split
  · exact h.stopCompletion
  · exact h

theorem publishSlot (h : Rises s t) {n : Fin 4} {k : Nat} {f : SlotRecord → SlotRecord} :
    Rises s (t.publishSlot n k f) := by
  unfold State.publishSlot
  dsimp only
  split
  · exact h.setSm.countIn
  · exact h.setSm

theorem publishEntry (h : Rises s t) {n : Fin 4} {e : FrameEntry} {rest : List FrameEntry} :
    Rises s (t.publishEntry n e rest) := by
  have hpublished : Rises s ((((t.modInput n fun ch => { ch with fill := rest }).publishSlot n e.slot
      fun r => { r with short := e.shortMark }).modInput n InputChannel.published).raiseIn n .framePublished) :=
    (h.modInput.publishSlot.modInput (.published _)).raiseIn
  rw [State.publishEntry_eq]
  dsimp only
  split
  · exact hpublished.raiseIn.stopCompletion
  · exact hpublished

theorem publishLoop (h : Rises s t) {n : Fin 4} {l : List FrameEntry} : Rises s (t.publishLoop n l) := by
  induction l generalizing t with
  | nil => exact h
  | cons e rest ih =>
    unfold State.publishLoop
    split
    · exact ih h.publishEntry
    · exact h

theorem settle (h : Rises s t) {n : Fin 4} : Rises s (t.settle n) := by
  unfold State.settle State.leaveDiscards
  exact publishLoop h.setSm.modInput

theorem closeFrame (h : Rises s t) {n : Fin 4} {v : Verdict} {short : Bool} : Rises s (t.closeFrame n v short) := by
  have hclose : Rises s (t.closeOpen n v short) := by
    unfold State.closeOpen
    split
    · exact h
    · dsimp only
      split
      · exact h.setSm.modInput.setArb
      · exact h.setSm.modInput
  exact hclose.settle.raiseWrite

theorem broken (h : Rises s t) {n : Fin 4} : Rises s (t.broken n) := h.countIn.raiseIn

theorem endFrame (h : Rises s t) {n : Fin 4} {st : InState} {v : Verdict} {short : Bool} :
    Rises s (t.endFrame n st v short) := by
  rw [endFrame_eq]
  split
  · exact h.modInput.closeFrame.stopCompletion
  · exact h.modInput.closeFrame

theorem skip (h : Rises s t) {n : Fin 4} {c : InCounter} : Rises s (t.skip n c) := h.countIn.modInput

theorem allocate (h : Rises s t) {n : Fin 4} {tag : Option Word} {k : Nat} : Rises s (t.allocate n tag k) :=
  h.setSm.modInput

theorem reclaim (h : Rises s t) {n : Fin 4} {k : Nat} : Rises s (t.reclaim n k) := by
  unfold State.reclaim
  dsimp only
  split
  · exact h.setSm.countIn
  · exact h.setSm.countIn.countIn

theorem admitFrame (h : Rises s t) {n : Fin 4} {tag : Option Word} : Rises s (t.admitFrame n tag) := by
  unfold State.admitFrame
  split
  · exact h.skip
  · split
    · exact h.skip.raiseIn
    · split
      · exact h.setSm.allocate
      · split
        · exact h.reclaim.allocate
        · exact h.skip.raiseIn

theorem takeFrameStart (h : Rises s t) {n : Fin 4} {tag : Option Word} : Rises s (t.takeFrameStart n tag) := by
  have htimer : Rises s (t.modInput n fun ch => ch.restartLossTimer t.timeBase) := h.modInput (by
    unfold InputChannel.restartLossTimer
    split <;> exact .refl _)
  unfold State.takeFrameStart State.signalFound
  split
  · exact htimer.modInput.raiseIn.admitFrame
  · exact htimer.admitFrame

theorem stray (h : Rises s t) {n : Fin 4} : Rises s (t.stray n) := h.countIn.raiseIn

theorem frameStartFilling (h : Rises s t) {n : Fin 4} {tag : Option Word} : Rises s (t.frameStartFilling n tag) := by
  unfold State.frameStartFilling
  dsimp only
  split
  · exact h.broken.closeFrame.stopCompletion
  · exact h.broken.closeFrame.takeFrameStart

theorem lineFilling (h : Rises s t) {n : Fin 4} {e : FrameEntry} {payload : List Word} :
    Rises s (t.lineFilling n e payload) := by
  unfold State.lineFilling
  dsimp only
  split
  · exact h.broken.endFrame
  · split
    · exact h.broken.endFrame
    · split
      · exact h.countIn.raiseIn.endFrame
      · exact h.modInput.raiseWrite

theorem frameEndFilling (h : Rises s t) {n : Fin 4} {e : FrameEntry} : Rises s (t.frameEndFilling n e) := by
  unfold State.frameEndFilling
  split
  · exact h.endFrame
  · split
    · exact h.endFrame
    · exact h.broken.endFrame

theorem signalLost (h : Rises s t) {n : Fin 4} : Rises s (t.signalLost n) := by
  unfold State.signalLost
  dsimp only
  split
  · exact h.modInput.countIn.raiseIn.broken.endFrame
  · exact h.modInput.countIn.raiseIn.modInput

theorem of_pushEffect {n : Fin 4} (e : PushEffect n s t) : Rises s t := by
  have h := refl s
  cases e with
  | dropped => exact h
  | stray => exact h.stray
  | takeFrameStart tag => exact h.takeFrameStart
  | frameStartFilling tag => exact h.frameStartFilling
  | lineFilling e payload => exact h.lineFilling
  | frameEndFilling e => exact h.frameEndFilling
  | frameEndSkipping => exact h.modInput
  | signalLost => exact h.signalLost

theorem writeDisable (h : Rises s t) {n : Fin 4} {mode : StopMode} : Rises s (t.writeDisable n mode) := by
  have hnow : Rises s (t.stopNow n) := by
    unfold State.stopNow
    dsimp only
    split
    · exact h.countIn.closeFrame.stopCompletion
    · exact h.stopCompletion
  have hatEnd : Rises s (t.stopAtEnd n) := by
    unfold State.stopAtEnd
    split
    · exact h.modInput
    · exact h.stopCompletion
  unfold State.writeDisable
  split
  case h_1 | h_2 | h_3 =>
    split
    · exact h
    · split
      · exact hnow
      · exact hatEnd
  all_goals exact h

theorem writeEnable (h : Rises s t) {n : Fin 4} : Rises s (t.writeEnable n) := by
  have hattempt : Rises s (t.tryEnable n) := by
    unfold State.tryEnable
    split
    · exact h.modInput
    · exact h.modInput.raiseIn
  have hrunning : Rises s (if (t.input n).stopPending then t.configIgnored else t) := by
    split
    · exact h.configIgnored
    · exact h
  unfold State.writeEnable
  split
  case h_1 => exact hattempt
  case h_2 | h_3 | h_4 => exact hrunning
  case h_5 => exact h.configIgnored
  case h_6 => exact h

theorem writeInCtrl (h : Rises s t) {n : Fin 4} {enable : Bool} {mode : StopMode} :
    Rises s (t.writeInCtrl n enable mode) := by
  unfold State.writeInCtrl
  split
  · exact h.configIgnored
  · dsimp only
    split
    · exact h.modInput.writeEnable
    · exact h.modInput.writeDisable

theorem trimReady (h : Rises s t) {n : Fin 4} {quota : Nat} : Rises s (t.trimReady n quota) := by
  unfold State.trimReady
  exact h.setSm.modInput (.countEvicted _ _)

theorem writeInConfig (h : Rises s t) {n : Fin 4} {reg : InConfigReg} {w : Word} : Rises s (t.writeInConfig n reg w) := by
  unfold State.writeInConfig
  split
  · split
    · exact h.configIgnored
    · dsimp only
      split
      · exact h.modInput.trimReady
      · exact h.modInput
  · exact h.configIgnored

/-! ### Output channels (chapters 4 and 5) -/

theorem release (h : Rises s t) {m : Fin 6} : Rises s (t.release m) := by
  unfold State.release
  split
  · exact h
  · exact h.setSm.modOutput

theorem closeOutput (h : Rises s t) {m : Fin 6} : Rises s (t.closeOutput m) := by
  unfold State.closeOutput
  split
  · exact h
  · dsimp only
    split
    · exact h.countOut.raiseOut.modOutput.withdrawRead
    · exact h.modOutput.withdrawRead

theorem enterDisabled (h : Rises s t) {m : Fin 6} : Rises s (t.enterDisabled m) := h.modOutput.raiseOut

theorem closeDisabling (h : Rises s t) {m : Fin 6} : Rises s (t.closeDisabling m) := by
  unfold State.closeDisabling
  dsimp only
  split
  · exact h.closeOutput.release
  · exact h.closeOutput.release.enterDisabled

theorem protocolError (h : Rises s t) {m : Fin 6} : Rises s (t.protocolError m) := h.countOut.raiseOut

theorem answerOffline (h : Rises s t) {m : Fin 6} : Rises s (t.answerOffline m) := h.modOutput

theorem openDisabling (h : Rises s t) {m : Fin 6} : Rises s (t.openDisabling m) := by
  unfold State.openDisabling
  split
  · exact h.protocolError.closeDisabling.answerOffline
  · exact h.answerOffline

theorem openBlank (h : Rises s t) {m : Fin 6} {lost : Bool} : Rises s (t.openBlank m lost) :=
  h.modOutput (.countBy _ .framesBlank 1)

theorem openShown (h : Rises s t) {m : Fin 6} {k : Nat} {status : AnswerStatus} {short lost : Bool} :
    Rises s (t.openShown m k status short lost) := h.modOutput.raiseRead

theorem bind (h : Rises s t) {m : Fin 6} {k : Nat} {short lost : Bool} : Rises s (t.bind m k short lost) := by
  unfold State.bind
  dsimp only
  exact (h.setSm.modOutput (.trans (.countBy _ .framesDropped _) (.countBy _ _ 1))).openShown

theorem policyStep (h : Rises s t) {m : Fin 6} {lost : Bool} : Rises s (t.policyStep m lost) := by
  unfold State.policyStep
  dsimp only
  split
  · exact h.modOutput.bind
  · unfold State.fallback
    split
    · exact h.modOutput.countOut.openShown
    · exact h.modOutput.openBlank

theorem reportLoss (h : Rises s t) {m : Fin 6} : Rises s (t.reportLoss m) := by
  unfold State.reportLoss
  split
  · exact h
  · exact h.modOutput.raiseOut

theorem lossStep (h : Rises s t) {m : Fin 6} {lost : Bool} : Rises s (t.lossStep m lost) := by
  unfold State.lossStep
  dsimp only
  split
  · exact h.modOutput.reportLoss.release.openBlank
  · unfold State.freezeStep
    split
    · exact h.modOutput.countOut.openShown
    · exact h.modOutput.policyStep

theorem select (h : Rises s t) {m : Fin 6} : Rises s (t.select m) := by
  unfold State.select
  dsimp only
  split
  · exact h.release.openBlank
  · exact h.lossStep

theorem refetch (h : Rises s t) {m : Fin 6} : Rises s (t.refetch m) := by
  unfold State.refetch
  split
  · exact h.withdrawRead.raiseRead
  · exact h.raiseRead

theorem pullPoisoned (h : Rises s t) {m : Fin 6} {f : OpenFrame} {k : Nat} :
    Rises s (t.setOutput m ((t.output m).pullPoisoned f k)) := by
  obtain ⟨kind, payload, hs⟩ := Quiet.sendFill_eq (t.output m) f k
  simp only [OutputChannel.pullPoisoned, hs]
  exact h.setOutput (.countBy (((t.output m).send k kind payload).advance k) .poisonedLines 1)

theorem pullMissing (h : Rises s t) {m : Fin 6} {f : OpenFrame} {k : Nat} :
    Rises s (t.setOutput m ((t.output m).pullMissing f k)) := by
  obtain ⟨kind, payload, hs⟩ := Quiet.sendFill_eq (t.output m) f k
  simp only [OutputChannel.pullMissing, hs]
  exact h.setOutput (.countBy (((t.output m).send k kind payload).advance k) .fillLines 1)

theorem pullLine (h : Rises s t) {m : Fin 6} {f : OpenFrame} : Rises s (t.pullLine m f) := by
  have hmissing : Rises s (if f.firstUnderrun then t.setOutput m ((t.output m).pullMissing f (t.output m).pull)
      else (t.setOutput m ((t.output m).pullMissing f (t.output m).pull)).raiseOut m .underrun) := by
    split
    · exact h.pullMissing
    · exact h.pullMissing.raiseOut
  unfold State.pullLine
  refine refetch ?_
  split
  · split
    · split
      · exact h.pullPoisoned.raiseOut
      · exact h.setOutput
    · exact hmissing
  · exact hmissing

theorem overpull (h : Rises s t) {m : Fin 6} {f : OpenFrame} : Rises s (t.overpull m f) := by
  have hcounted := fun p : Nat => h.setOutput (m := m) (o := { ((t.output m).send p .fillBlank f.blankLine).countBy
    .overpulls 1 with pull := pullNext p, frame := some { f with firstOverpull := true } })
    (.countBy ((t.output m).send p .fillBlank f.blankLine) .overpulls 1)
  unfold State.overpull
  dsimp only
  split
  · exact hcounted _
  · exact (hcounted _).raiseOut

theorem pullClosed (h : Rises s t) {m : Fin 6} : Rises s (t.pullClosed m) := by
  unfold State.pullClosed
  dsimp only
  split
  · exact h.setOutput.protocolError
  · exact h.setOutput

theorem writeOutConfig (h : Rises s t) {m : Fin 6} {reg : OutConfigReg} {enable : Bool} {w : Word} :
    Rises s (t.writeOutConfig m reg enable w) := by
  unfold State.writeOutConfig
  split
  · exact h.configIgnored
  · split
    · exact h.configIgnored
    · dsimp only
      split
      · unfold State.writeOutEnable
        split
        · exact h.modOutput.modOutput
        · exact h.modOutput.release.modOutput.enterDisabled
        · exact h.modOutput.modOutput
        · exact h.modOutput
      · exact h.modOutput

/-! ### Completions and time (chapter 8) -/

theorem endExec (h : Rises s t) : Rises s t.endExec := h.of_eq

theorem afterDelivery (h : Rises s t) : Rises s t.afterDelivery := by
  unfold State.afterDelivery State.startWaitingStage
  split
  · exact h.of_eq.grantMoment
  · exact h.grantMoment

theorem lineWriteDone (h : Rises s t) {r : MemRequest} : Rises s (t.lineWriteDone r) := by
  have hstored : Rises s (t.storeWords r) := h.of_eq
  unfold State.lineWriteDone
  split
  · unfold State.inputWriteDone
    split
    · exact hstored.setSm.modInput
    · refine (settle (hstored.modInput ?_)).finishStopping.raiseWrite
      unfold InputChannel.lineWritten
      split <;> exact .refl _
  · exact hstored

theorem countEcc (h : Rises s t) {ws : List WordRead} : Rises s (t.countEcc ws) := by
  have hcounted : Rises s { t with mc := { t.mc with
      eccCorrected := satAdd t.mc.eccCorrected (findingCount .corrected ws)
      eccUncorrectable := satAdd t.mc.eccUncorrectable (findingCount .uncorrectable ws) } } :=
    h.of_eq (hmc := ⟨toNat_le_satAdd _ _, toNat_le_satAdd _ _, le_rfl⟩)
  unfold State.countEcc
  dsimp only
  split <;> split
  · exact hcounted
  · exact hcounted.raiseGlobal
  · exact hcounted.raiseGlobal
  · exact hcounted.raiseGlobal.raiseGlobal

theorem judgeLine (h : Rises s t) {m : Fin 6} {r : MemRequest} {ws : List WordRead} : Rises s (t.judgeLine m r ws) := by
  unfold State.judgeLine
  split
  · exact h
  · split
    · exact h
    · unfold State.enterLine
      dsimp only
      split
      · exact h.modOutput.setSm
      · exact h.modOutput

theorem endHandshake (h : Rises s t) {m : Fin 6} : Rises s (t.endHandshake m) := by
  unfold State.endHandshake
  split
  · exact h.enterDisabled
  · exact h

theorem lineReadDone (h : Rises s t) {r : MemRequest} : Rises s (t.lineReadDone r) := by
  unfold State.lineReadDone
  dsimp only
  split
  · exact h.countEcc.judgeLine.endHandshake.raiseRead
  · exact h.countEcc

theorem blockReadDone (h : Rises s t) {r : MemRequest} : Rises s (t.blockReadDone r) := by
  unfold State.blockReadDone
  dsimp only
  split
  · exact h.countEcc.setAp.raiseGlobal.raiseGlobal
  · exact h.countEcc.setAp.raiseGlobal

theorem blockWriteDone (h : Rises s t) {r : MemRequest} : Rises s (t.blockWriteDone r) := by
  unfold State.blockWriteDone
  split
  · exact h.of_eq
  · exact h.of_eq.raiseGlobal

theorem completeCommand (h : Rises s t) {code : BitVec 8} {r : ResultCode} {v : Word} :
    Rises s (t.completeCommand code r v) := h.of_eq.raiseGlobal

theorem clearWriteDone (h : Rises s t) {r : MemRequest} : Rises s (t.clearWriteDone r) := by
  unfold State.clearWriteDone
  split
  · exact h.of_eq
  · split
    · exact h.of_eq
    · unfold State.clearAdvance
      dsimp only
      split
      · exact h.of_eq.raiseClear
      · exact h.of_eq.completeCommand

theorem orphanEffect (h : Rises s t) {r : MemRequest} : Rises s (t.orphanEffect r) := by
  unfold State.orphanEffect
  split
  case h_1 | h_2 | h_3 => exact h.of_eq
  case h_4 | h_5 => exact h.countEcc
  case h_6 => exact h.of_eq

theorem raiseDeferred (h : Rises s t) : Rises s t.raiseDeferred := by
  unfold State.raiseDeferred
  split
  · exact h
  · exact h.setAp.raisePort

theorem retestReader (h : Rises s t) {c : Client} : Rises s (t.retestReader c) := by
  unfold State.retestReader
  split
  · exact h.raiseRead
  · exact h

theorem refreshExpired (h : Rises s t) : Rises s t.refreshExpired := by
  unfold State.refreshExpired
  dsimp only
  split
  · exact h.of_eq (hmc := ⟨le_rfl, le_rfl, toNat_le_satAdd _ _⟩)
  · exact h.of_eq.grantMoment

theorem enterReady (h : Rises s t) : Rises s t.enterReady := h.of_eq.raiseGlobal.completeCommand.grantMoment

/-! ### Commands of the host (chapter 6) -/

theorem refuseCommand (h : Rises s t) {code : BitVec 8} {r : ResultCode} : Rises s (t.refuseCommand code r) :=
  h.completeCommand

theorem cmdMemoryInit (h : Rises s t) : Rises s t.cmdMemoryInit := by
  unfold State.cmdMemoryInit
  split
  · exact h.of_eq
  · exact h.refuseCommand

theorem cmdPoolBuild (h : Rises s t) : Rises s t.cmdPoolBuild := by
  unfold State.cmdPoolBuild
  split
  · exact h.refuseCommand
  · split
    · exact h.refuseCommand
    · split
      · exact h.refuseCommand
      · split
        · exact h.refuseCommand
        · exact h.of_eq.completeCommand

theorem cmdPoolTeardown (h : Rises s t) : Rises s t.cmdPoolTeardown := by
  unfold State.cmdPoolTeardown
  split
  · exact h.refuseCommand
  · split
    · exact h.refuseCommand
    · split
      · exact h.refuseCommand
      · exact h.of_eq.completeCommand

theorem cmdSlotClaim (h : Rises s t) : Rises s t.cmdSlotClaim := by
  unfold State.cmdSlotClaim
  split
  · exact h.refuseCommand
  · split
    · exact h.refuseCommand
    · exact h.setSm.completeCommand

theorem cmdSlotHold (h : Rises s t) : Rises s t.cmdSlotHold := by
  unfold State.cmdSlotHold
  split
  · exact h.refuseCommand
  · split
    · split
      · exact h.refuseCommand
      · exact h.setSm.completeCommand
    · exact h.refuseCommand

theorem cmdSlotRelease (h : Rises s t) : Rises s t.cmdSlotRelease := by
  unfold State.cmdSlotRelease
  split
  · exact h.refuseCommand
  · split
    · exact h.refuseCommand
    · split
      · exact h.refuseCommand
      · split
        · exact h.refuseCommand
        · exact h.setSm.completeCommand

theorem cmdSlotPublish (h : Rises s t) : Rises s t.cmdSlotPublish := by
  unfold State.cmdSlotPublish
  split
  · exact h.refuseCommand
  · split
    · exact h.refuseCommand
    · split
      · exact h.refuseCommand
      · split
        · exact h.refuseCommand
        · split
          · exact h.refuseCommand
          · exact h.publishSlot.completeCommand

theorem cmdSlotClear (h : Rises s t) : Rises s t.cmdSlotClear := by
  unfold State.cmdSlotClear
  split
  · exact h.refuseCommand
  · split
    · exact h.refuseCommand
    · split
      · exact h.refuseCommand
      · split
        · exact h.refuseCommand
        · exact h.of_eq.raiseClear

theorem cmdInputFlush (h : Rises s t) : Rises s t.cmdInputFlush := by
  unfold State.cmdInputFlush
  split
  · exact h.refuseCommand
  · split
    · exact h.refuseCommand
    · exact h.setSm.completeCommand

theorem of_commandEffect (e : CommandEffect s t) : Rises s t := by
  have h := refl s
  cases e with
  | memoryInit => exact h.cmdMemoryInit
  | poolBuild => exact h.cmdPoolBuild
  | poolTeardown => exact h.cmdPoolTeardown
  | slotClaim => exact h.cmdSlotClaim
  | slotHold => exact h.cmdSlotHold
  | slotRelease => exact h.cmdSlotRelease
  | slotPublish => exact h.cmdSlotPublish
  | slotClear => exact h.cmdSlotClear
  | inputFlush => exact h.cmdInputFlush
  | unknown => exact h.refuseCommand

/-! ### Access port and configuration writes (chapters 7 to 9) -/

theorem portError (h : Rises s t) {e : PortError} : Rises s (t.portError e) := h.setAp

theorem portRead (h : Rises s t) : Rises s t.portRead := by
  have hstart : Rises s t.startRead := by
    unfold State.startRead
    split
    · exact h.setAp.raisePort
    · exact h.portError
  unfold State.portRead
  split
  case h_1 | h_2 => exact hstart
  all_goals exact h.portError

theorem portFlush (h : Rises s t) : Rises s t.portFlush := by
  have hstart : Rises s t.startFlush := by
    unfold State.startFlush
    split
    · exact h.portError
    · split
      · exact h.of_eq.raisePort
      · exact h.setAp.raiseGlobal
  unfold State.portFlush
  split
  · exact h
  · exact hstart
  all_goals exact h.portError

theorem writeGeometry (h : Rises s t) {reg : GeometryReg} {w : Word} : Rises s (t.writeGeometry reg w) := by
  unfold State.writeGeometry
  split
  · exact h.configIgnored
  · exact h.setSm

theorem writeMcCfg (h : Rises s t) {w : Word} : Rises s (t.writeMcCfg w) := by
  unfold State.writeMcCfg
  split
  · exact h.configIgnored
  · split
    · exact h.configIgnored
    · exact h.of_eq

theorem writeMcRefresh (h : Rises s t) {w : Word} : Rises s (t.writeMcRefresh w) := by
  unfold State.writeMcRefresh
  split
  · exact h.of_eq
  · exact h.configIgnored

theorem writeArbCfg (h : Rises s t) {w : Word} : Rises s (t.writeArbCfg w) := by
  unfold State.writeArbCfg
  split
  · exact h.configIgnored
  · exact h.setArb

end Rises

end Sys2Proof.Machine
end

