-- ==== Sys2Proof/Proofs/EventsAndCounters.lean ====
section
/-! Status bits are sticky and counters never decrease, but for the commands that clear them (R163, R164, R167, R169, R170). -/

namespace Sys2Proof.Machine

-- One theorem after another, as in the tests: many of them at once would need a thread each.
set_option Elab.async false

section

variable {s t : State}

/-! ### Every command but the clears -/

/-- The commands that clear status bits or counters: the host's clears, the resets, and a register write, which may be any of
them. -/
inductive Clears : Instr → Prop
  | eventClear (reg : EventReg) (w : Word) : Clears (.eventClear reg w)
  | counterClear (x : CounterName) (w : Word) : Clears (.counterClear x w)
  | registerWrite (offset : BitVec 12) (w : Word) : Clears (.registerWrite offset w)
  | fullSoftReset : Clears .fullSoftReset
  | inputChannelReset (n : Fin 4) : Clears (.inputChannelReset n)
  | outputChannelReset (m : Fin 6) : Clears (.outputChannelReset m)
  | pinReset : Clears .pinReset

/-- Without register writes and resets there remain the host's clears of events and of counters. -/
theorem Clears.by_host {c : Instr} (hc : Clears c) (hwrite : ∀ offset w, c ≠ .registerWrite offset w)
    (hfull : c ≠ .fullSoftReset) (hin : ∀ n, c ≠ .inputChannelReset n) (hout : ∀ m, c ≠ .outputChannelReset m)
    (hpin : c ≠ .pinReset) : (∃ reg w, c = .eventClear reg w) ∨ ∃ x w, c = .counterClear x w := by
  cases hc with
  | eventClear reg w => exact .inl ⟨reg, w, rfl⟩
  | counterClear x w => exact .inr ⟨x, w, rfl⟩
  | registerWrite offset w => exact absurd rfl (hwrite offset w)
  | fullSoftReset => exact absurd rfl hfull
  | inputChannelReset n => exact absurd rfl (hin n)
  | outputChannelReset m => exact absurd rfl (hout m)
  | pinReset => exact absurd rfl hpin

namespace Rises

/-- A host write cycle: nothing while RESET_N is asserted, and else what the access does. -/
theorem hostWrite {u : State} (h : hostWrite s (fun _ => u) = .next t) (hu : Rises s u) : Rises s t := by
  rcases (hostWrite_next s t _).1 h with ⟨_, rfl⟩ | ⟨_, rfl⟩
  · exact refl _
  · exact hu

/-- A host read cycle: 0 is returned while RESET_N is asserted, and else what the access does. -/
theorem hostRead {u : State} (h : hostRead s (fun _ => u) = .next t) (hu : Rises s u) : Rises s t := by
  rcases (hostRead_next s t _).1 h with ⟨_, rfl⟩ | ⟨_, rfl⟩
  · exact (refl s).of_eq
  · exact hu

theorem issue {f : State → State} (e : CommandEffect s (f s)) : Rises s (s.issue f) := by
  rcases s.issue_cases f with ⟨_, hf⟩ | ⟨_, hf⟩ <;> rw [hf]
  · exact of_commandEffect e
  · exact (refl s).raiseGlobal

theorem completing {kind : RequestKind} {deliver : State → MemRequest → State}
    (h : completing kind s deliver = .next t) (hdeliver : ∀ r, Rises s (deliver s.endExec r)) : Rises s t := by
  obtain ⟨r, _, _, _, rfl⟩ := completing_next h
  exact (hdeliver r).afterDelivery

theorem frameOpen {m : Fin 6} (h : execFrameOpen m s = .next t) : Rises s t := by
  unfold execFrameOpen at h
  split at h <;> cases h
  · exact (refl s).answerOffline
  · exact (refl s).select
  · exact (refl s).protocolError.closeOutput.select
  · exact (refl s).openDisabling

theorem linePull {m : Fin 6} (h : execLinePull m s = .next t) : Rises s t := by
  unfold execLinePull at h
  split at h
  · cases h; exact (refl s).pullClosed
  · split at h
    · cases h; exact (refl s).overpull
    · split at h <;> cases h
      · exact (refl s).setOutput
      · exact (refl s).pullLine

theorem frameClose {m : Fin 6} (h : execFrameClose m s = .next t) : Rises s t := by
  unfold execFrameClose at h
  split at h <;> cases h
  · exact refl s
  · exact (refl s).protocolError
  · exact (refl s).closeOutput.modOutput
  · split
    · exact (refl s).closeDisabling
    · exact refl s

theorem refreshCompletion (h : execRefreshCompletion s = .next t) : Rises s t := by
  unfold execRefreshCompletion at h
  split at h
  · cases h
  · split at h <;> cases h
    exact (refl s).of_eq.afterDelivery

theorem timeBaseAdvance (h : execTimeBaseAdvance s = .next t) : Rises s t := by
  unfold execTimeBaseAdvance at h
  cases h
  split
  · exact refl s
  · exact (refl s).of_eq

theorem lossOfCharge {decay : List (Nat × BitVec 39)} (h : execLossOfCharge decay s = .next t) : Rises s t := by
  unfold execLossOfCharge at h
  split at h <;> cases h
  exact (refl s).of_eq

end Rises

/-- Only the clears clear a status bit or lower a counter. -/
theorem exec_rises {c : Instr} (h : exec c s = .next t) (hc : ¬ Clears c) : Rises s t := by
  have hsame := Rises.refl s
  cases c with
  -- the push link (chapter 2)
  | frameStart n tag => exact .of_pushEffect (.of_frameStart h)
  | line n payload => exact .of_pushEffect (.of_line h)
  | frameEnd n => exact .of_pushEffect (.of_frameEnd h)
  | lossTimerExpiry n => exact .of_pushEffect (.of_lossTimerExpiry h)
  -- the pull link (chapters 4 and 5)
  | frameOpen m => exact .frameOpen h
  | linePull m => exact .linePull h
  | frameClose m => exact .frameClose h
  -- time (chapters 8 and 11)
  | refreshTimerExpiry =>
    obtain ⟨_, _, _, rfl⟩ := execRefreshTimerExpiry_next h
    exact hsame.refreshExpired
  | initStageEnd =>
    obtain ⟨_, _, _, _, rfl⟩ := execInitStageEnd_next h
    exact hsame.of_eq
  | endOfStage5 =>
    obtain ⟨_, _, _, rfl⟩ := execEndOfStage5_next h
    exact hsame.enterReady
  | timeBaseAdvance => exact .timeBaseAdvance h
  | lossOfCharge decay => exact .lossOfCharge h
  | resetNDeassertion =>
    cases h
    exact hsame.of_eq
  -- completions (chapter 8)
  | lineWriteCompletion => exact .completing h fun _ => hsame.endExec.lineWriteDone
  | lineReadCompletion => exact .completing h fun _ => hsame.endExec.lineReadDone
  | blockReadCompletion => exact .completing h fun _ => hsame.endExec.blockReadDone
  | blockWriteCompletion => exact .completing h fun _ => hsame.endExec.blockWriteDone
  | clearWriteCompletion => exact .completing h fun _ => hsame.endExec.clearWriteDone
  | refreshCompletion => exact .refreshCompletion h
  | orphanCompletion =>
    obtain ⟨r, _, _, rfl⟩ := execOrphanCompletion_next h
    exact hsame.endExec.orphanEffect.raiseDeferred.retestReader.afterDelivery
  -- the command unit (chapter 6)
  | memoryInit => exact .hostWrite h (.issue .memoryInit)
  | poolBuild => exact .hostWrite h (.issue .poolBuild)
  | poolTeardown => exact .hostWrite h (.issue .poolTeardown)
  | slotClaim => exact .hostWrite h (.issue .slotClaim)
  | slotHold => exact .hostWrite h (.issue .slotHold)
  | slotRelease => exact .hostWrite h (.issue .slotRelease)
  | slotPublish => exact .hostWrite h (.issue .slotPublish)
  | slotClear => exact .hostWrite h (.issue .slotClear)
  | inputFlush => exact .hostWrite h (.issue .inputFlush)
  | unknownCommand code => exact .hostWrite h (.issue .unknown)
  -- the access port (chapter 7)
  | read => exact .hostWrite h hsame.portRead
  | flush => exact .hostWrite h hsame.portFlush
  | discard => exact .hostWrite h hsame.keep
  | accDataRead => exact .hostRead h hsame.keep
  | accDataWrite w => exact .hostWrite h hsame.keep
  | accAddrWrite w => exact .hostWrite h hsame.keep
  | accCountWrite w => exact .hostWrite h hsame.keep
  -- configuration (chapters 1, 2, 4, 8 and 9)
  | enableAttempt n mode => exact .hostWrite h hsame.writeInCtrl
  | immediateStop n => exact .hostWrite h hsame.writeInCtrl
  | stopAtFrameEnd n => exact .hostWrite h hsame.writeInCtrl
  | stopModeWrite n enable mode => exact .hostWrite h hsame.writeInCtrl
  | inputConfigWrite n reg w => exact .hostWrite h hsame.writeInConfig
  | outputEnable m w => exact .hostWrite h hsame.writeOutConfig
  | outputDisable m w => exact .hostWrite h hsame.writeOutConfig
  | outputConfigWrite m reg w => exact .hostWrite h hsame.writeOutConfig
  | geometryWrite reg w => exact .hostWrite h hsame.writeGeometry
  | mcCfgWrite w => exact .hostWrite h hsame.writeMcCfg
  | mcRefreshWrite w => exact .hostWrite h hsame.writeMcRefresh
  | arbCfgWrite w => exact .hostWrite h hsame.writeArbCfg
  -- events and the register window (chapters 10 and 11)
  | eventEnableWrite reg w => exact .hostWrite h { hsame with events := fun _ _ => id }
  | recordCapture k => exact .hostRead h hsame.of_eq
  | listCapture l => exact .hostRead h hsame.of_eq
  | eventClear reg w => exact absurd (.eventClear reg w) hc
  | counterClear x w => exact absurd (.counterClear x w) hc
  | registerWrite offset w => exact absurd (.registerWrite offset w) hc
  | fullSoftReset => exact absurd .fullSoftReset hc
  | inputChannelReset n => exact absurd (.inputChannelReset n) hc
  | outputChannelReset m => exact absurd (.outputChannelReset m) hc
  | pinReset => exact absurd .pinReset hc

/-! ### What a clear of the other kind leaves -/

theorem counterClear_eu {x : CounterName} {w : Word} (h : exec (.counterClear x w) s = .next t) : t.eu = s.eu := by
  rcases (hostWrite_next s t fun s => s.clearCounter x).1 h with ⟨_, rfl⟩ | ⟨_, rfl⟩
  · rfl
  · simp

theorem eventClear_counterValue {reg : EventReg} {w : Word} (h : exec (.eventClear reg w) s = .next t) (x : CounterName) :
    t.counterValue x = s.counterValue x := by
  rcases (hostWrite_next s t fun s => s.clearEvents reg w).1 h with ⟨_, rfl⟩ | ⟨_, rfl⟩
  · rfl
  · unfold State.counterValue
    cases x <;> rfl

/-- A counter's register rises with the counter. -/
theorem Rises.counterValue (h : Rises s t) (x : CounterName) : (s.counterValue x).toNat ≤ (t.counterValue x).toNat := by
  have hregister {v w : Count} (hvw : v.toNat ≤ w.toNat) : (v.setWidth 32).toNat ≤ (w.setWidth 32).toNat := by
    rwa [BitVec.toNat_setWidth_of_le (by decide), BitVec.toNat_setWidth_of_le (by decide)]
  match x with
  | .input n c => exact hregister (h.inputs n _)
  | .output m c => exact hregister (h.outputs m _)
  | .memory .eccCorrected => exact hregister h.memory.corrected
  | .memory .eccUncorrectable => exact hregister h.memory.uncorrectable
  | .memory .refreshBacklog => exact hregister h.memory.backlog

end

/-- Settles O12: only the clears of both kinds lower anything, and a clear of one kind leaves what the other clears. -/
theorem eventsStickyCountersRise : Obligations.EventsStickyCountersRise := by
  refine ⟨fun c s t h hevent hwrite hfull hin hout hpin i b hb => ?_, fun c s t h hcounter hwrite hfull hin hout hpin x => ?_⟩
  · by_cases hc : Clears c
    · rcases hc.by_host hwrite hfull hin hout hpin with ⟨reg, w, rfl⟩ | ⟨x, w, rfl⟩
      · exact absurd rfl (hevent reg w)
      · exact counterClear_eu h ▸ hb
    · exact (exec_rises h hc).events.bit hb
  · by_cases hc : Clears c
    · rcases hc.by_host hwrite hfull hin hout hpin with ⟨reg, w, rfl⟩ | ⟨y, w, rfl⟩
      · exact (congrArg BitVec.toNat (eventClear_counterValue h x)).ge
      · exact absurd rfl (hcounter y w)
    · exact (exec_rises h hc).counterValue x

end Sys2Proof.Machine
end

