-- ==== Sys2Proof/Proofs/Resets.lean ====
section
/-! The resets of the whole machine: PIN_RESET with the bus under RESET_N, FULL_SOFT_RESET, and the state that every step
keeps while RESET_N is asserted (R150, R151, R171, R177, R178). -/

namespace Sys2Proof.Machine

-- One theorem after another, as in the tests: many of them at once would need a thread each.
set_option Elab.async false

/-! ### RESET_N (R150, R171, R178) -/

/-- A look-up in the words of the addresses that a test keeps. -/
theorem lookupCell_filter (p : Nat → Bool) (cells : List (Nat × StoredWord)) (a : Nat) :
    lookupCell (cells.filter fun c => p c.1) a = if p a then lookupCell cells a else none := by
  induction cells with
  | nil => simp [lookupCell]
  | cons c cells ih =>
    obtain ⟨b, v⟩ := c
    by_cases hab : a = b
    · subst hab
      cases hp : p a <;> simp [hp, ih, lookupCell]
    · cases hp : p b <;> simp [hp, ih, lookupCell, hab]

theorem lookupCell_forget (st : FrameStore) (b n a : Nat) :
    lookupCell (st.forget b n).cells a = if b ≤ a ∧ a < b + n then none else lookupCell st.cells a := by
  rw [FrameStore.forget, lookupCell_filter fun a => !(b ≤ a && a < b + n)]
  by_cases hin : b ≤ a ∧ a < b + n <;> simp [hin]

section

variable {s t : State}

theorem abortStore_of_idle (h : s.mc.exec = none) : s.abortStore = s.store := by
  simp [State.abortStore, h]

theorem abortStore_of_write {e : Execution} (h : s.mc.exec = some e)
    (hkind : e.request.kind = .lineWrite ∨ e.request.kind = .blockWrite ∨ e.request.kind = .clearWrite) :
    s.abortStore = s.store.forget e.request.addr e.request.count := by
  rcases hkind with hkind | hkind | hkind <;> simp [State.abortStore, h, hkind]

theorem abortStore_of_other {e : Execution} (h : s.mc.exec = some e)
    (hkind : ¬ (e.request.kind = .lineWrite ∨ e.request.kind = .blockWrite ∨ e.request.kind = .clearWrite)) :
    s.abortStore = s.store := by
  unfold State.abortStore
  rw [h]
  cases hk : e.request.kind <;> simp_all

theorem lookupCell_abortStore_of_some {e : Execution} (h : s.mc.exec = some e) (a : Nat) :
    lookupCell s.abortStore.cells a =
      if (e.request.kind = .lineWrite ∨ e.request.kind = .blockWrite ∨ e.request.kind = .clearWrite) ∧
          e.request.addr ≤ a ∧ a < e.request.addr + e.request.count then none
      else lookupCell s.store.cells a := by
  by_cases hkind : e.request.kind = .lineWrite ∨ e.request.kind = .blockWrite ∨ e.request.kind = .clearWrite
  · rw [abortStore_of_write h hkind, lookupCell_forget]
    simp only [hkind, true_and]
  · rw [abortStore_of_other h hkind]
    simp only [hkind, false_and, if_false]

theorem hostWrite_of_held (hreset : s.resetAsserted = true) (f : State → State) : hostWrite s f = .next s := by
  simp [hostWrite, hreset]

theorem hostRead_of_held (hreset : s.resetAsserted = true) (f : State → State) : hostRead s f = .next (s.drive 0) := by
  simp [hostRead, State.drive, hreset]

theorem exec_timeBaseAdvance_of_held (hreset : s.resetAsserted = true) : exec .timeBaseAdvance s = .next s :=
  congrArg Host.Outcome.next (if_pos hreset)

end

/-- Settles O5: an aborted write's words are the ones that the store forgets, and host accesses under RESET_N come to nothing. -/
theorem pinReset : Obligations.PinReset := by
  refine ⟨fun s => ⟨s.abortStore, rfl, fun a => ?_⟩, fun s => rfl, fun s offset w hreset => ⟨?_, ?_⟩,
    fun s hreset => exec_timeBaseAdvance_of_held hreset, fun s offset w => rfl⟩
  · cases hexec : s.mc.exec with
    | none => rw [abortStore_of_idle hexec]
    | some e => exact lookupCell_abortStore_of_some hexec a
  · exact hostWrite_of_held hreset fun s => s.writeOffset offset w
  · exact hostRead_of_held hreset fun s => s.readOffset offset

/-! ### The full soft reset (R151, R177) -/

section

variable (mc : MemController)

theorem MemController.softReset_kept (built : Bool) :
    (mc.softReset built).size = mc.size ∧ (mc.softReset built).profile = mc.profile ∧
    (mc.softReset built).modeFirst = mc.modeFirst ∧ (mc.softReset built).refreshInterval = mc.refreshInterval :=
  ⟨rfl, rfl, rfl, rfl⟩

theorem MemController.softReset_cleared (built : Bool) :
    (mc.softReset built).stage = 0 ∧ (mc.softReset built).eccCorrected = 0 ∧
    (mc.softReset built).eccUncorrectable = 0 ∧ (mc.softReset built).refreshBacklog = 0 :=
  ⟨rfl, rfl, rfl, rfl⟩

theorem MemController.softReset_of_ready {built : Bool} (hready : mc.state = .ready) (hbuilt : built = true) :
    (mc.softReset built).state = .ready ∧ (mc.softReset built).refreshTimer = mc.refreshTimer ∧
    (mc.softReset built).refreshDue = mc.refreshDue := by
  simp [MemController.softReset, hready, hbuilt]

theorem MemController.softReset_of_not_ready {built : Bool} (h : mc.state ≠ .ready ∨ built = false) :
    (mc.softReset built).state = .uninit ∧ (mc.softReset built).refreshTimer = none ∧
    (mc.softReset built).refreshDue = false := by
  rcases h with h | h <;> simp [MemController.softReset, h]

end

theorem exec_fullSoftReset {s : State} (hreset : s.resetAsserted = false) : exec .fullSoftReset s = .next s.softReset :=
  hostWrite_of_released hreset State.softReset

/-- Settles O6: the controller through a soft reset, by whether it stays READY. -/
theorem fullSoftResetState : Obligations.FullSoftResetState := by
  intro s hreset
  refine ⟨s.mc.softReset s.sm.built, ?_, s.mc.softReset_kept _, s.mc.softReset_cleared _, rfl,
    s.mc.softReset_of_ready, s.mc.softReset_of_not_ready⟩
  rw [exec_fullSoftReset hreset, State.softReset, hreset]
  rfl

/-! ### While RESET_N is asserted (R178) -/

/-- The pin-reset state with RESET_N asserted, field by field: the queue, the store, the last word returned and the last messages
to the sinks are left open. -/
structure State.AtPinReset (s : State) : Prop where
  asserted : s.resetAsserted = true
  time : s.timeBase = 0
  slots : s.sm = SlotManager.reset
  inputs : s.inputs = State.reset.inputs
  outputs : ∀ m, s.output m = { State.reset.output m with answer := (s.output m).answer, line := (s.output m).line }
  command : s.cu = CommandUnit.reset
  port : s.ap = AccessPort.reset
  arbiter : s.arb = Arbiter.reset
  memory : s.mc = MemController.reset
  events : s.eu = EventUnit.reset
  host : s.host = { HostInterface.reset with data := s.host.data }

theorem output_heldInReset (s : State) (m : Fin 6) : s.heldInReset.output m =
    { State.reset.output m with answer := (s.output m).answer, line := (s.output m).line } := by
  simp [State.heldInReset, State.output]

theorem State.AtPinReset.of_eq {s : State} (h : s = s.heldInReset) : s.AtPinReset where
  asserted := h ▸ rfl
  time := h ▸ rfl
  slots := h ▸ rfl
  inputs := h ▸ rfl
  outputs m := (congrArg (State.output · m) h).trans (output_heldInReset s m)
  command := h ▸ rfl
  port := h ▸ rfl
  arbiter := h ▸ rfl
  memory := h ▸ rfl
  events := h ▸ rfl
  host := congrArg State.host h

namespace State.AtPinReset

variable {s t : State}

theorem eq_heldInReset (h : s.AtPinReset) : s = s.heldInReset := by
  have houtputs : s.outputs = s.heldInReset.outputs := Vector.ext fun m hm =>
    (h.outputs ⟨m, hm⟩).trans (output_heldInReset s ⟨m, hm⟩).symm
  obtain ⟨pending, asserted, time, slots, inputs, outputs, command, port, arbiter, memory, store, events, host⟩ := s
  rw [State.heldInReset]
  congr 1
  · exact h.asserted
  · exact h.time
  · exact h.slots
  · exact h.inputs
  · exact h.command
  · exact h.port
  · exact h.arbiter
  · exact h.memory
  · exact h.events
  · exact h.host

theorem input_eq (h : s.AtPinReset) (n : Fin 4) : s.input n = InputChannel.reset := State.input_of_reset h.inputs n

theorem output_off (h : s.AtPinReset) (m : Fin 6) : (s.output m).state = .off := by
  rw [h.outputs m, output_reset]
  rfl

theorem frame_none (h : s.AtPinReset) (m : Fin 6) : (s.output m).frame = none := by
  rw [h.outputs m, output_reset]
  rfl

/-- A message to a sink is left open. -/
theorem setOutput (h : s.AtPinReset) {m : Fin 6} {o : OutputChannel}
    (ho : o = { s.output m with answer := o.answer, line := o.line }) : (s.setOutput m o).AtPinReset where
  asserted := h.asserted
  time := h.time
  slots := h.slots
  inputs := h.inputs
  outputs k := by
    rw [State.output_setOutput]
    split
    next hmk =>
      subst hmk
      rw [ho, h.outputs m]
    · exact h.outputs k
  command := h.command
  port := h.port
  arbiter := h.arbiter
  memory := h.memory
  events := h.events
  host := h.host

theorem pinReset (s : State) : s.pinReset.AtPinReset where
  asserted := rfl
  time := rfl
  slots := rfl
  inputs := rfl
  outputs _ := rfl
  command := rfl
  port := rfl
  arbiter := rfl
  memory := rfl
  events := rfl
  host := rfl

theorem pullClosed (h : s.AtPinReset) (m : Fin 6) : (s.pullClosed m).AtPinReset := by
  have hclosed : s.pullClosed m =
      s.setOutput m ((s.output m).send 0 .fillBlank
        (List.replicate (s.output m).cfg.blankLength (s.output m).cfg.blankWord)) := by
    simp [State.pullClosed, h.output_off m]
  exact hclosed ▸ h.setOutput rfl

/-- What no state of the pin reset shows: a channel at work, a timer, a stage or a request in execution. -/
theorem quiet (h : s.AtPinReset) : (∀ n, (s.input n).state = .off ∧ (s.input n).lossTimer = none) ∧
    (∀ m, (s.output m).state = .off ∧ (s.output m).frame = none) ∧
    s.mc.state = .uninit ∧ s.mc.refreshTimer = none ∧ s.mc.exec = none :=
  ⟨fun n => by simp [h.input_eq n, InputChannel.reset], fun m => ⟨h.output_off m, h.frame_none m⟩, by
    simp [h.memory, MemController.reset]⟩

end State.AtPinReset

/-- Under RESET_N the machine stays in the pin-reset state until RESET_N is deasserted. -/
theorem Effect.atPinReset {s t : State} (e : Effect s t) (hs : s.AtPinReset) : t.AtPinReset ∨ t.resetAsserted = false := by
  obtain ⟨hinput, houtput, hmemory, htimer, hexec⟩ := hs.quiet
  cases e with
  | idle => exact .inl hs
  | heldRead _ => exact .inl { hs with host := by rw [hs.host] }
  | answerOffline m _ => exact .inl (hs.setOutput rfl)
  | pullClosed m _ => exact .inl (hs.pullClosed m)
  | loseCharge decay _ => exact .inl { hs with }
  | pinReset => exact .inl (.pinReset s)
  | deassert => exact .inr rfl
  | hostEffect released _ => exact absurd hs.asserted (by simp [released])
  | advanceTime released => exact absurd hs.asserted (by simp [released])
  -- every other effect needs a channel at work, a timer, a stage or a request in execution
  | _ => simp_all

theorem CommandEffect.resetAsserted_eq {s t : State} (e : CommandEffect s t) : t.resetAsserted = s.resetAsserted := by
  cases e <;> simp

theorem HostEffect.resetAsserted_eq {s t : State} (e : HostEffect s t) : t.resetAsserted = s.resetAsserted := by
  cases e with
  | command _ e => exact e.resetAsserted_eq
  | _ => simp

/-- Only a pin reset asserts RESET_N. -/
theorem Effect.of_released {s t : State} (e : Effect s t) (hs : s.resetAsserted = false) :
    t.AtPinReset ∨ t.resetAsserted = false := by
  cases e with
  | pinReset => exact .inl (.pinReset s)
  | hostEffect _ e => exact .inr (e.resetAsserted_eq.trans hs)
  | deassert => exact .inr rfl
  | _ => exact .inr (by simpa using hs)

/-- Settles O19: from the pin-reset state by what remains possible there, and into it by the pin reset alone. -/
theorem resetStateHeld : Obligations.ResetStateHeld := by
  intro s t hs hstep ht
  obtain ⟨rest, e⟩ := step_effect hstep
  have hnext : t.AtPinReset ∨ t.resetAsserted = false := by
    cases hreset : s.resetAsserted with
    | false => exact e.of_released hreset
    | true => exact e.atPinReset { State.AtPinReset.of_eq (hs hreset) with }
  rcases hnext with h | h
  · exact h.eq_heldInReset
  · exact absurd (ht.symm.trans h) (by simp)

end Sys2Proof.Machine
end

