-- ==== Sys2Proof/Proofs/RegisterMap.lean ====
section
/-! The register map (R172): which register stands at each offset of the window, and what a write there is (R171, R173, R176). -/

namespace Sys2Proof.Machine

-- One theorem after another, as in the tests: many of them at once would need a thread each.
set_option Elab.async false

/-! ### The register map by region (R171, R172) -/

/-- The two lowest bits of an offset do not count: what is left is the word's index (R171). -/
theorem toNat_and_word (offset : BitVec 12) : (offset &&& 0xFFC).toNat = 4 * (offset.toNat / 4) := by
  have hmask : offset &&& (0xFFC : BitVec 12) = (offset >>> 2) <<< 2 := by
    have hbits : ∀ i < 12, (0xFFC : BitVec 12).getLsbD i = decide (2 ≤ i) := by decide
    refine BitVec.eq_of_getLsbD_eq fun i hi => ?_
    rw [BitVec.getLsbD_and, hbits i hi, BitVec.getLsbD_shiftLeft, BitVec.getLsbD_ushiftRight]
    by_cases h2 : 2 ≤ i
    · simp [h2, hi, Nat.lt_of_succ_le h2]
    · simp [h2, Nat.lt_of_not_le h2]
  have hshift : (offset >>> 2).toNat = offset.toNat / 4 := by
    rw [BitVec.toNat_ushiftRight, Nat.shiftRight_eq_div_pow]
  rw [hmask, BitVec.toNat_shiftLeft, hshift, Nat.shiftLeft_eq]
  omega

theorem below_val {k : Nat} (i : Fin k) : below k i.val = some i := dif_pos i.isLt

/-- The index of the word at an offset given by its number. -/
theorem word_ofNat {x w : Nat} (h : x / 4 = w) (hx : x < 4096) : (BitVec.ofNat 12 x).toNat / 4 = w := by
  rw [BitVec.toNat_ofNat, Nat.mod_eq_of_lt hx, h]

section

variable {offset : BitVec 12} {i : Nat}

theorem regAt_and_word (offset : BitVec 12) : regAt (offset &&& 0xFFC) = regAt offset := by
  have hword : (offset &&& 0xFFC).toNat / 4 = offset.toNat / 4 := by rw [toNat_and_word]; omega
  simp only [regAt, hword]

theorem regAt_device (h : offset.toNat / 4 < 0x40) : regAt offset = deviceReg (offset.toNat / 4) := if_pos h

theorem regAt_input {n : Fin 4} (hi : i < 8) (h : offset.toNat / 4 = 0x40 + 8 * n.val + i) :
    regAt offset = inputReg n i := by
  have hn : (0x40 + 8 * n.val + i - 0x40) / 8 = n.val := by omega
  have hi' : (0x40 + 8 * n.val + i) % 8 = i := by omega
  simp (disch := omega) only [regAt, h, if_pos, if_neg]
  rw [hn, hi', below_val, Option.bind_some]

theorem regAt_output {m : Fin 6} (hi : i < 8) (h : offset.toNat / 4 = 0x60 + 8 * m.val + i) :
    regAt offset = outputReg m i := by
  have hm : (0x60 + 8 * m.val + i - 0x60) / 8 = m.val := by omega
  have hi' : (0x60 + 8 * m.val + i) % 8 = i := by omega
  simp (disch := omega) only [regAt, h, if_pos, if_neg]
  rw [hm, hi', below_val, Option.bind_some]

theorem regAt_port (hi : i < 0x20) (h : offset.toNat / 4 = 0xA0 + i) : regAt offset = portReg i := by
  simp (disch := omega) only [regAt, h, if_pos, if_neg, Nat.add_sub_cancel_left]

theorem regAt_eventStatus (hi : i < 11) (h : offset.toNat / 4 = 0xC0 + i) :
    regAt offset = (eventRegAt i).map Reg.eventStatus := by
  simp (disch := omega) only [regAt, h, if_pos, if_neg, Nat.add_sub_cancel_left]

theorem regAt_eventEnable (hi : i < 11) (h : offset.toNat / 4 = 0xD0 + i) :
    regAt offset = (eventRegAt i).map Reg.eventEnable := by
  simp (disch := omega) only [regAt, h, if_pos, if_neg, Nat.add_sub_cancel_left]

theorem regAt_inCounter {n : Fin 4} (hi : i < 16) (h : offset.toNat / 4 = 0x100 + 16 * n.val + i) :
    regAt offset = (inCounterAt i).map fun c => .counter (.input n c) := by
  have hn : (0x100 + 16 * n.val + i - 0x100) / 16 = n.val := by omega
  have hi' : (0x100 + 16 * n.val + i) % 16 = i := by omega
  simp (disch := omega) only [regAt, h, if_pos, if_neg]
  rw [hn, hi', below_val, Option.bind_some]

theorem regAt_outCounter {m : Fin 6} (hi : i < 16) (h : offset.toNat / 4 = 0x140 + 16 * m.val + i) :
    regAt offset = (outCounterAt i).map fun c => .counter (.output m c) := by
  have hm : (0x140 + 16 * m.val + i - 0x140) / 16 = m.val := by omega
  have hi' : (0x140 + 16 * m.val + i) % 16 = i := by omega
  simp (disch := omega) only [regAt, h, if_pos, if_neg]
  rw [hm, hi', below_val, Option.bind_some]

end

theorem eventRegAt_idx (reg : EventReg) : eventRegAt (eventRegIdx reg).val = some reg := by
  cases reg with
  | input n => exact dif_pos n.isLt
  | output m =>
    have hm : ¬ m.val + 4 < 4 := by omega
    simp [eventRegAt, eventRegIdx, hm]
  | global => rfl

theorem inCounterAt_idx (c : InCounter) : inCounterAt (inCounterIdx c).val = some c := by cases c <;> rfl

theorem outCounterAt_idx (c : OutCounter) : outCounterAt (outCounterIdx c).val = some c := by cases c <;> rfl

/-! ### Offsets that hold no register (R172) -/

section

variable {i : Nat}

theorem deviceReg_eq_none_iff : deviceReg i = none ↔ i ∈ [2, 3, 7, 15] ∨ 0x15 ≤ i := by
  unfold deviceReg
  split <;> grind

theorem inputReg_eq_none_iff (n : Fin 4) : inputReg n i = none ↔ 7 ≤ i := by
  unfold inputReg
  split <;> grind

theorem outputReg_eq_none_iff (m : Fin 6) : outputReg m i = none ↔ 7 ≤ i := by
  unfold outputReg
  split <;> grind

theorem portReg_eq_none_iff : portReg i = none ↔ 5 ≤ i := by
  unfold portReg
  split <;> grind

theorem inCounterAt_eq_none_iff : inCounterAt i = none ↔ 11 ≤ i := by
  unfold inCounterAt
  split <;> grind

theorem outCounterAt_eq_none_iff : outCounterAt i = none ↔ 10 ≤ i := by
  unfold outCounterAt
  split <;> grind

theorem eventRegAt_ne_none (hi : i < 11) : eventRegAt i ≠ none := by
  unfold eventRegAt
  split
  · nofun
  · split
    · nofun
    · rw [if_pos (by omega)]
      nofun

end

/-- The words of the window below 0x800 that hold no register. -/
def Unmapped (w : Nat) : Prop :=
  w ∈ [2, 3, 7, 15] ∨ (0x15 ≤ w ∧ w < 0x40) ∨ (0x40 ≤ w ∧ w < 0x60 ∧ w % 8 = 7) ∨
  (0x60 ≤ w ∧ w < 0x90 ∧ w % 8 = 7) ∨ (0x90 ≤ w ∧ w < 0xA0) ∨ (0xA5 ≤ w ∧ w < 0xC0) ∨
  (0xCC ≤ w ∧ w < 0xD0) ∨ (0xDB ≤ w ∧ w < 0x100) ∨
  (0x100 ≤ w ∧ w < 0x140 ∧ 11 ≤ w % 16) ∨ (0x140 ≤ w ∧ w < 0x1A0 ∧ 10 ≤ w % 16) ∨ (0x1A3 ≤ w ∧ w < 0x200)

theorem Unmapped.lt {w : Nat} (h : Unmapped w) : w < 0x200 := by
  simp only [Unmapped, List.mem_cons, List.not_mem_nil, or_false] at h
  omega

theorem regAt_eccCorrected : regAt 0x680 = some (.counter (.memory .eccCorrected)) := rfl

theorem regAt_eccUncorrectable : regAt 0x684 = some (.counter (.memory .eccUncorrectable)) := rfl

theorem regAt_refreshBacklog : regAt 0x688 = some (.counter (.memory .refreshBacklog)) := rfl

/-- The words between the regions hold no register. -/
theorem regAt_gap {offset : BitVec 12} (h : (0x90 ≤ offset.toNat / 4 ∧ offset.toNat / 4 < 0xA0) ∨
    (0xCC ≤ offset.toNat / 4 ∧ offset.toNat / 4 < 0xD0) ∨ (0xDB ≤ offset.toNat / 4 ∧ offset.toNat / 4 < 0x100) ∨
    (0x1A3 ≤ offset.toNat / 4 ∧ offset.toNat / 4 < 0x200)) : regAt offset = none := by
  rcases h with h | h | h | h <;> simp (disch := omega) only [regAt, if_pos, if_neg]

/-- EVT_SUMMARY and the counters of the memory controller stand alone. -/
theorem regAt_single {offset : BitVec 12} (h : offset.toNat / 4 ∈ [0xCB, 0x1A0, 0x1A1, 0x1A2]) : regAt offset ≠ none := by
  simp only [List.mem_cons, List.not_mem_nil, or_false] at h
  rcases h with h | h | h | h <;> simp [regAt, h]

/-- Below 0x800 each region's own map says which of its words hold no register. -/
theorem regAt_eq_none_iff {offset : BitVec 12} (h : offset.toNat < 0x800) :
    regAt offset = none ↔ Unmapped (offset.toNat / 4) := by
  generalize hw : offset.toNat / 4 = w
  have hw' : w < 0x200 := by omega
  simp only [Unmapped, List.mem_cons, List.not_mem_nil, or_false]
  by_cases hdevice : w < 0x40
  · rw [regAt_device (by omega), hw, deviceReg_eq_none_iff]
    simp only [List.mem_cons, List.not_mem_nil, or_false]
    omega
  by_cases hinput : w < 0x60
  · rw [regAt_input (n := ⟨(w - 0x40) / 8, by omega⟩) (i := w % 8) (by omega) (by simp only; omega), inputReg_eq_none_iff]
    omega
  by_cases houtput : w < 0x90
  · rw [regAt_output (m := ⟨(w - 0x60) / 8, by omega⟩) (i := w % 8) (by omega) (by simp only; omega),
      outputReg_eq_none_iff]
    omega
  by_cases hgap : w < 0xA0
  · exact iff_of_true (regAt_gap (by omega)) (by omega)
  by_cases hport : w < 0xC0
  · rw [regAt_port (i := w - 0xA0) (by omega) (by omega), portReg_eq_none_iff]
    omega
  by_cases hstatus : w < 0xCB
  · rw [regAt_eventStatus (i := w - 0xC0) (by omega) (by omega), Option.map_eq_none_iff]
    exact iff_of_false (eventRegAt_ne_none (by omega)) (by omega)
  by_cases hsummary : w = 0xCB
  · exact iff_of_false (regAt_single (by simp [hw, hsummary])) (by omega)
  by_cases hgap : w < 0xD0
  · exact iff_of_true (regAt_gap (by omega)) (by omega)
  by_cases henable : w < 0xDB
  · rw [regAt_eventEnable (i := w - 0xD0) (by omega) (by omega), Option.map_eq_none_iff]
    exact iff_of_false (eventRegAt_ne_none (by omega)) (by omega)
  by_cases hgap : w < 0x100
  · exact iff_of_true (regAt_gap (by omega)) (by omega)
  by_cases hin : w < 0x140
  · rw [regAt_inCounter (n := ⟨(w - 0x100) / 16, by omega⟩) (i := w % 16) (by omega) (by simp only; omega),
      Option.map_eq_none_iff, inCounterAt_eq_none_iff]
    omega
  by_cases hout : w < 0x1A0
  · rw [regAt_outCounter (m := ⟨(w - 0x140) / 16, by omega⟩) (i := w % 16) (by omega) (by simp only; omega),
      Option.map_eq_none_iff, outCounterAt_eq_none_iff]
    omega
  by_cases hmemory : w < 0x1A3
  · exact iff_of_false (regAt_single (by simp only [hw, List.mem_cons]; omega)) (by omega)
  · exact iff_of_true (regAt_gap (by omega)) (by omega)

/-! ### Writes by register (R171 to R176) -/

theorem writeOffset_of_some {offset : BitVec 12} {r : Reg} (hr : regAt offset = some r) (s : State) (w : Word) :
    s.writeOffset offset w = s.writeReg r w := by
  simp only [State.writeOffset, hr]

theorem writeOffset_of_none {offset : BitVec 12} (hr : regAt offset = none) (s : State) (w : Word) :
    s.writeOffset offset w = s := by
  simp only [State.writeOffset, hr]

theorem writeOffset_and_word (s : State) (offset : BitVec 12) (w : Word) :
    s.writeOffset (offset &&& 0xFFC) w = s.writeOffset offset w := by
  simp only [State.writeOffset, regAt_and_word]

/-- The registers of the slot and list windows, from 0x800 upward. -/
inductive Reg.Window : Reg → Prop
  | record (k : Fin 32) (i : Nat) : Window (.record k i)
  | listLength (l : ListName) : Window (.listLength l)
  | listEntry (l : ListName) (i : Nat) : Window (.listEntry l i)
  | drainingSet : Window .drainingSet
  | heldSet : Window .heldSet

theorem Reg.Window.of_readyReg {n : Fin 4} {i : Nat} {r : Reg} (h : readyReg n i = some r) : r.Window := by
  unfold readyReg at h
  split at h
  · cases h; exact .listLength _
  · split at h <;> cases h
    exact .listEntry _ _

theorem Reg.Window.of_regAt {offset : BitVec 12} {r : Reg} (h : 0x800 ≤ offset.toNat) (hr : regAt offset = some r) :
    r.Window := by
  simp (disch := omega) only [regAt, if_neg] at hr
  split at hr
  · obtain ⟨k, -, rfl⟩ := Option.map_eq_some_iff.1 hr
    exact .record k _
  split at hr
  · cases hr; exact .listLength _
  split at hr
  · cases hr; exact .listEntry _ _
  split at hr
  · cases hr
  split at hr
  · obtain ⟨n, -, hn⟩ := Option.bind_eq_some_iff.1 hr
    exact .of_readyReg hn
  split at hr
  · cases hr; exact .drainingSet
  split at hr <;> cases hr
  exact .heldSet

theorem writeOffset_of_window {offset : BitVec 12} (h : 0x800 ≤ offset.toNat) (s : State) (w : Word) :
    s.writeOffset offset w = s := by
  cases hr : regAt offset with
  | none => exact writeOffset_of_none hr s w
  | some r =>
    rw [writeOffset_of_some hr]
    cases Reg.Window.of_regAt h hr <;> rfl

/-- The status words of an output are the four words from 0x18C + 0x20·m. -/
theorem writeOffset_of_outStatus {offset : BitVec 12} {m : Fin 6} (hlow : 0x63 + 8 * m.val ≤ offset.toNat / 4)
    (hhigh : offset.toNat / 4 ≤ 0x66 + 8 * m.val) (s : State) (w : Word) : s.writeOffset offset w = s := by
  obtain ⟨i, hi⟩ : ∃ i : Fin 4, offset.toNat / 4 = 0x60 + 8 * m.val + (i.val + 3) :=
    ⟨⟨offset.toNat / 4 - (0x63 + 8 * m.val), by omega⟩, by simp only; omega⟩
  have hreg : outputReg m (i.val + 3) = some (.outStatus m i) := by
    fin_cases i <;> rfl
  rw [writeOffset_of_some ((regAt_output (by omega) hi).trans hreg)]
  rfl

theorem field_zero (w : Word) (k : Nat) : field w 0 k = (w.setWidth k).toNat := by
  rw [field_eq, BitVec.toNat_setWidth, pow_zero, Nat.div_one]

/-- The command codes of R176 with their commands. -/
def codeTable : List (BitVec 8 × Instr) :=
  [(0x01#8, .memoryInit), (0x02#8, .poolBuild), (0x03#8, .poolTeardown), (0x10#8, .slotClaim), (0x11#8, .slotHold),
    (0x12#8, .slotRelease), (0x13#8, .slotPublish), (0x14#8, .slotClear), (0x15#8, .inputFlush)]

/-- A written code of the table issues its command. -/
theorem writeCmd_of_code {p : BitVec 8 × Instr} (hp : p ∈ codeTable) :
    ∃ f, commandOf p.2 = some f ∧ ∀ (s : State) (w : Word), field w 0 8 = p.1.toNat → s.writeCmd w = s.issue f := by
  simp only [codeTable, List.mem_cons, List.not_mem_nil, or_false] at hp
  rcases hp with rfl | rfl | rfl | rfl | rfl | rfl | rfl | rfl | rfl <;>
    exact ⟨_, rfl, fun s w hw => by rw [State.writeCmd, hw]; rfl⟩

theorem writeCmd_of_unknown {w : Word} (h : w.setWidth 8 ∉ commandCodes) (s : State) :
    s.writeCmd w = s.issue State.cmdUnknown := by
  have hcode {c : BitVec 8} (hc : c ∈ commandCodes) : field w 0 8 ≠ c.toNat := fun hw =>
    h (BitVec.eq_of_toNat_eq ((field_zero w 8).symm.trans hw) ▸ hc)
  unfold State.writeCmd
  split
  case h_1 hw => exact absurd hw (hcode (c := 0x01) (by decide))
  case h_2 hw => exact absurd hw (hcode (c := 0x02) (by decide))
  case h_3 hw => exact absurd hw (hcode (c := 0x03) (by decide))
  case h_4 hw => exact absurd hw (hcode (c := 0x10) (by decide))
  case h_5 hw => exact absurd hw (hcode (c := 0x11) (by decide))
  case h_6 hw => exact absurd hw (hcode (c := 0x12) (by decide))
  case h_7 hw => exact absurd hw (hcode (c := 0x13) (by decide))
  case h_8 hw => exact absurd hw (hcode (c := 0x14) (by decide))
  case h_9 hw => exact absurd hw (hcode (c := 0x15) (by decide))
  case h_10 => rfl

section

variable {s : State} (hreset : s.resetAsserted = false)

include hreset

theorem exec_registerWrite (offset : BitVec 12) (w : Word) :
    exec (.registerWrite offset w) s = .next (s.writeOffset offset w) :=
  hostWrite_of_released hreset fun s => s.writeOffset offset w

theorem exec_registerWrite_of_same {offset : BitVec 12} {w : Word} (h : s.writeOffset offset w = s) :
    exec (.registerWrite offset w) s = .next s := by
  rw [exec_registerWrite hreset, h]

/-- A write of a register that another command writes is that command. -/
theorem exec_registerWrite_eq {offset : BitVec 12} {w : Word} {r : Reg} {c : Instr} (hr : regAt offset = some r)
    (hc : exec c s = .next (s.writeReg r w)) : exec (.registerWrite offset w) s = exec c s := by
  rw [exec_registerWrite hreset, writeOffset_of_some hr, hc]

theorem exec_registerWrite_cmd {w : Word} {c : Instr} {f : State → State} (hc : commandOf c = some f)
    (hw : s.writeCmd w = s.issue f) : exec (.registerWrite 0x020 w) s = exec c s := by
  refine exec_registerWrite_eq hreset (r := .cmd) rfl ?_
  rw [exec_of_commandOf hc, hostWrite_of_released hreset, ← hw]
  rfl

theorem exec_registerWrite_command {w : Word} {code : BitVec 8} {c : Instr} (hcode : w.setWidth 8 = code)
    (h : (code, c) ∈ codeTable ∨ (code ∉ commandCodes ∧ c = .unknownCommand code)) :
    exec (.registerWrite 0x020 w) s = exec c s := by
  subst hcode
  rcases h with hknown | ⟨hunknown, rfl⟩
  · obtain ⟨f, hf, hissue⟩ := writeCmd_of_code hknown
    exact exec_registerWrite_cmd hreset hf (hissue s w (field_zero w 8))
  · exact exec_registerWrite_cmd hreset rfl (writeCmd_of_unknown hunknown s)

theorem exec_registerWrite_stopMode (n : Fin 4) (w : Word) :
    exec (.registerWrite (BitVec.ofNat 12 (0x100 + 0x20 * n.val)) w) s =
      exec (.stopModeWrite n (w.getLsbD 0) (if w.getLsbD 1 then .atFrameEnd else .immediate)) s :=
  exec_registerWrite_eq hreset (regAt_input (i := 0) (by omega) (word_ofNat (by omega) (by omega)))
    (hostWrite_of_released hreset fun s => s.writeInCtrl n (w.getLsbD 0) (stopModeOf (w.getLsbD 1)))

theorem exec_registerWrite_inConfig {n : Fin 4} {reg : InConfigReg} {i x : Nat} (w : Word)
    (hreg : inputReg n i = some (.inConfig n reg)) (hi : i < 8) (hx : x = 0x100 + 0x20 * n.val + 4 * i) :
    exec (.registerWrite (BitVec.ofNat 12 x) w) s = exec (.inputConfigWrite n reg w) s :=
  exec_registerWrite_eq hreset ((regAt_input hi (word_ofNat (by omega) (by omega))).trans hreg)
    (hostWrite_of_released hreset fun s => s.writeInConfig n reg w)

/-- A write of a settings register of an output is the command that gives ENABLE as bit 0 of the word. -/
theorem exec_registerWrite_outConfig {m : Fin 6} {reg : OutConfigReg} {i x : Nat} {w : Word} {c : Instr}
    (hreg : outputReg m i = some (.outConfig m reg)) (hi : i < 8) (hx : x = 0x180 + 0x20 * m.val + 4 * i)
    (hc : exec c s = hostWrite s fun s => s.writeOutConfig m reg (w.getLsbD 0) w) :
    exec (.registerWrite (BitVec.ofNat 12 x) w) s = exec c s :=
  exec_registerWrite_eq hreset ((regAt_output hi (word_ofNat (by omega) (by omega))).trans hreg)
    (hc.trans (hostWrite_of_released hreset _))

theorem exec_registerWrite_accCtrl {w : Word} {operation : BitVec 2} {u : State} (h : w.setWidth 2 = operation)
    (hu : field w 0 2 = operation.toNat → s.writeAccCtrl w = u) :
    exec (.registerWrite 0x288 w) s = .next u := by
  rw [exec_registerWrite hreset, writeOffset_of_some (regAt_port (i := 2) (by decide) (by decide))]
  exact congrArg Host.Outcome.next (hu (h ▸ field_zero w 2))

theorem exec_registerWrite_eventStatus {reg : EventReg} {i : Fin 11} (h : eventRegIdx reg = i) (w : Word) :
    exec (.registerWrite (BitVec.ofNat 12 (0x300 + 4 * i.val)) w) s = exec (.eventClear reg w) s := by
  subst h
  have hr : regAt (BitVec.ofNat 12 (0x300 + 4 * (eventRegIdx reg).val)) = some (.eventStatus reg) := by
    rw [regAt_eventStatus (eventRegIdx reg).isLt (word_ofNat (by omega) (by omega)), eventRegAt_idx, Option.map_some]
  exact exec_registerWrite_eq hreset hr (exec_eventClear hreset reg w)

theorem exec_registerWrite_eventEnable {reg : EventReg} {i : Fin 11} (h : eventRegIdx reg = i) (w : Word) :
    exec (.registerWrite (BitVec.ofNat 12 (0x340 + 4 * i.val)) w) s = exec (.eventEnableWrite reg w) s := by
  subst h
  have hr : regAt (BitVec.ofNat 12 (0x340 + 4 * (eventRegIdx reg).val)) = some (.eventEnable reg) := by
    rw [regAt_eventEnable (eventRegIdx reg).isLt (word_ofNat (by omega) (by omega)), eventRegAt_idx, Option.map_some]
  exact exec_registerWrite_eq hreset hr (exec_eventEnableWrite hreset reg w)

theorem exec_registerWrite_inCounter (n : Fin 4) (c : InCounter) (w : Word) :
    exec (.registerWrite (BitVec.ofNat 12 (0x400 + 0x40 * n.val + 4 * (inCounterIdx c).val)) w) s =
      exec (.counterClear (.input n c) w) s := by
  have hr : regAt (BitVec.ofNat 12 (0x400 + 0x40 * n.val + 4 * (inCounterIdx c).val)) = some (.counter (.input n c)) := by
    rw [regAt_inCounter (n := n) (i := (inCounterIdx c).val) (by omega) (word_ofNat (by omega) (by omega)),
      inCounterAt_idx, Option.map_some]
  exact exec_registerWrite_eq hreset hr (exec_counterClear hreset _ w)

theorem exec_registerWrite_outCounter (m : Fin 6) (c : OutCounter) (w : Word) :
    exec (.registerWrite (BitVec.ofNat 12 (0x500 + 0x40 * m.val + 4 * (outCounterIdx c).val)) w) s =
      exec (.counterClear (.output m c) w) s := by
  have hr : regAt (BitVec.ofNat 12 (0x500 + 0x40 * m.val + 4 * (outCounterIdx c).val)) = some (.counter (.output m c)) := by
    rw [regAt_outCounter (m := m) (i := (outCounterIdx c).val) (by omega) (word_ofNat (by omega) (by omega)),
      outCounterAt_idx, Option.map_some]
  exact exec_registerWrite_eq hreset hr (exec_counterClear hreset _ w)

end

/-- The offsets whose register is read-only, or that lie in the windows from 0x800 upward (R172). -/
theorem writeOffset_of_readOnly {offset : BitVec 12} (h : 0x800 ≤ offset.toNat ∨
    (offset &&& 0xFFC) ∈ [0x000, 0x034, 0x038, 0x04C, 0x050, 0x290, 0x32C] ∨
    (∃ n : Fin 4, offset.toNat / 4 = 0x45 + 8 * n.val ∨ offset.toNat / 4 = 0x46 + 8 * n.val) ∨
    ∃ m : Fin 6, 0x63 + 8 * m.val ≤ offset.toNat / 4 ∧ offset.toNat / 4 ≤ 0x66 + 8 * m.val) (s : State) (w : Word) :
    s.writeOffset offset w = s := by
  rcases h with hwindow | hplace | ⟨n, hstatus | hprogress⟩ | ⟨m, hlow, hhigh⟩
  · exact writeOffset_of_window hwindow s w
  · rw [← writeOffset_and_word]
    simp only [List.mem_cons, List.not_mem_nil, or_false] at hplace
    rcases hplace with hw | hw | hw | hw | hw | hw | hw <;>
    · rw [hw]
      rfl
  · rw [writeOffset_of_some (regAt_input (n := n) (i := 5) (by omega) (by omega))]
    rfl
  · rw [writeOffset_of_some (regAt_input (n := n) (i := 6) (by omega) (by omega))]
    rfl
  · exact writeOffset_of_outStatus hlow hhigh s w

theorem and_word_eq_iff {offset a : BitVec 12} : (offset &&& 0xFFC) = a ↔ 4 * (offset.toNat / 4) = a.toNat := by
  rw [← BitVec.toNat_inj, toNat_and_word]

/-- The last word of one of `k` blocks of eight words. -/
theorem exists_last_word_iff {k b w : Nat} (hb : b % 8 = 0) :
    (∃ n : Fin k, w = b + 7 + 8 * n.val) ↔ b ≤ w ∧ w < b + 8 * k ∧ w % 8 = 7 := by
  constructor
  · rintro ⟨n, h⟩
    omega
  · rintro ⟨hlow, hhigh, h⟩
    exact ⟨⟨(w - b) / 8, by omega⟩, by simp only; omega⟩

/-- The offsets from word `c` on in one of `k` blocks of sixteen words. -/
theorem exists_beyond_iff {k b c x : Nat} (hb : b % 16 = 0) :
    (∃ n : Fin k, 4 * (b + c) + 0x40 * n.val ≤ x ∧ x < 4 * (b + 16) + 0x40 * n.val) ↔
      b ≤ x / 4 ∧ x / 4 < b + 16 * k ∧ c ≤ x / 4 % 16 := by
  constructor
  · rintro ⟨n, hlow, hhigh⟩
    omega
  · rintro ⟨hlow, hhigh, h⟩
    exact ⟨⟨(x / 4 - b) / 16, by omega⟩, by simp only; omega⟩

/-- The list of offsets below 0x800 that hold no register, by the words of the window. -/
theorem unmapped_offset_iff (offset : BitVec 12) :
    ((offset &&& 0xFFC) ∈ [0x008, 0x00C, 0x01C, 0x03C] ∨ (0x054 ≤ offset.toNat ∧ offset.toNat < 0x100) ∨
      (∃ n : Fin 4, offset.toNat / 4 = 0x47 + 8 * n.val) ∨ (∃ m : Fin 6, offset.toNat / 4 = 0x67 + 8 * m.val) ∨
      (0x240 ≤ offset.toNat ∧ offset.toNat < 0x280) ∨ (0x294 ≤ offset.toNat ∧ offset.toNat < 0x300) ∨
      (0x330 ≤ offset.toNat ∧ offset.toNat < 0x340) ∨ (0x36C ≤ offset.toNat ∧ offset.toNat < 0x400) ∨
      (∃ n : Fin 4, 0x42C + 0x40 * n.val ≤ offset.toNat ∧ offset.toNat < 0x440 + 0x40 * n.val) ∨
      (∃ m : Fin 6, 0x528 + 0x40 * m.val ≤ offset.toNat ∧ offset.toNat < 0x540 + 0x40 * m.val) ∨
      (0x68C ≤ offset.toNat ∧ offset.toNat < 0x800)) ↔ Unmapped (offset.toNat / 4) := by
  have hdevice : (offset &&& 0xFFC) ∈ [0x008, 0x00C, 0x01C, 0x03C] ↔ offset.toNat / 4 ∈ [2, 3, 7, 15] := by
    simp only [List.mem_cons, List.not_mem_nil, or_false, and_word_eq_iff, BitVec.reduceToNat]
    omega
  exact or_congr hdevice <| or_congr (by omega) <|
    or_congr (exists_last_word_iff (k := 4) (b := 0x40) rfl) <| or_congr (exists_last_word_iff (k := 6) (b := 0x60) rfl) <|
    or_congr (by omega) <| or_congr (by omega) <| or_congr (by omega) <| or_congr (by omega) <|
    or_congr (exists_beyond_iff (k := 4) (b := 0x100) (c := 11) rfl) <|
    or_congr (exists_beyond_iff (k := 6) (b := 0x140) (c := 10) rfl) (by omega)

/-- Settles O8: the map region by region, and at each register the write's meaning. -/
theorem registerWriteDispatch : Obligations.RegisterWriteDispatch := by
  intro w s hreset
  refine ⟨⟨exec_registerWrite hreset _ _, exec_registerWrite hreset _ _, exec_registerWrite hreset _ _,
      exec_registerWrite hreset _ _⟩, ⟨?_, ?_, ?_, ?_, ?_, ?_⟩,
    fun code c => exec_registerWrite_command hreset, fun n => ⟨exec_registerWrite_stopMode hreset n w, ?_, ?_, ?_, ?_⟩,
    fun m => ⟨fun henable => ?_, fun henable => ?_, ?_, ?_⟩,
    ⟨?_, ?_, ?_, fun h => ?_, fun h => ?_, fun h => ?_, fun h => ?_⟩,
    fun i reg h => ⟨exec_registerWrite_eventStatus hreset h w, exec_registerWrite_eventEnable hreset h w⟩,
    ⟨fun n c => exec_registerWrite_inCounter hreset n c w, fun m c => exec_registerWrite_outCounter hreset m c w,
      ?_, ?_, ?_⟩,
    fun offset => ⟨?_, fun h => exec_registerWrite_of_same hreset (writeOffset_of_readOnly h s w),
      fun h => exec_registerWrite_of_same hreset (writeOffset_of_none h s w), ?_⟩⟩
  -- the device region
  · exact exec_registerWrite_eq hreset (r := .geometry .base) rfl (exec_geometryWrite hreset _ _)
  · exact exec_registerWrite_eq hreset (r := .geometry .stride) rfl (exec_geometryWrite hreset _ _)
  · exact exec_registerWrite_eq hreset (r := .geometry .slots) rfl (exec_geometryWrite hreset _ _)
  · exact exec_registerWrite_eq hreset (r := .arbCfg) rfl (exec_arbCfgWrite hreset _)
  · exact exec_registerWrite_eq hreset (r := .mcCfg) rfl (exec_mcCfgWrite hreset _)
  · exact exec_registerWrite_eq hreset (r := .mcRefresh) rfl (exec_mcRefreshWrite hreset _)
  -- the channels' registers
  · exact exec_registerWrite_inConfig hreset (i := 1) w rfl (by omega) (by omega)
  · exact exec_registerWrite_inConfig hreset (i := 2) w rfl (by omega) (by omega)
  · exact exec_registerWrite_inConfig hreset (i := 3) w rfl (by omega) (by omega)
  · exact exec_registerWrite_inConfig hreset (i := 4) w rfl (by omega) (by omega)
  · exact exec_registerWrite_outConfig (m := m) hreset (i := 0) rfl (by omega) (by omega) (by rw [henable]; rfl)
  · exact exec_registerWrite_outConfig (m := m) hreset (i := 0) rfl (by omega) (by omega) (by rw [henable]; rfl)
  · exact exec_registerWrite_outConfig (m := m) hreset (i := 1) rfl (by omega) (by omega) rfl
  · exact exec_registerWrite_outConfig (m := m) hreset (i := 2) rfl (by omega) (by omega) rfl
  -- the access port
  · exact exec_registerWrite_eq hreset (regAt_port (i := 0) (by decide) (by decide)) (exec_accAddrWrite hreset w)
  · exact exec_registerWrite_eq hreset (regAt_port (i := 1) (by decide) (by decide)) (exec_accCountWrite hreset w)
  · exact exec_registerWrite_eq hreset (regAt_port (i := 3) (by decide) (by decide)) (exec_accDataWrite hreset w)
  · exact (exec_registerWrite_accCtrl hreset h fun hw => by rw [State.writeAccCtrl, hw]; rfl).trans (exec_read hreset).symm
  · exact (exec_registerWrite_accCtrl hreset h fun hw => by rw [State.writeAccCtrl, hw]; rfl).trans (exec_flush hreset).symm
  · exact (exec_registerWrite_accCtrl hreset h fun hw => by rw [State.writeAccCtrl, hw]; rfl).trans (exec_discard hreset).symm
  · exact exec_registerWrite_accCtrl hreset h fun hw => by rw [State.writeAccCtrl, hw]; rfl
  -- the counters of the memory controller
  · exact exec_registerWrite_eq hreset regAt_eccCorrected (exec_counterClear hreset _ w)
  · exact exec_registerWrite_eq hreset regAt_eccUncorrectable (exec_counterClear hreset _ w)
  · exact exec_registerWrite_eq hreset regAt_refreshBacklog (exec_counterClear hreset _ w)
  -- every offset
  · rw [exec_registerWrite hreset, exec_registerWrite hreset, writeOffset_and_word]
  · rw [unmapped_offset_iff]
    constructor
    · intro h
      have hlow : offset.toNat < 0x800 := by
        have hw := h.lt
        omega
      exact ⟨hlow, (regAt_eq_none_iff hlow).2 h⟩
    · rintro ⟨hlow, hnone⟩
      exact (regAt_eq_none_iff hlow).1 hnone

end Sys2Proof.Machine
end

