-- ==== Sys2Proof/Proofs/WindowReads.lean ====
section
/-! Writes of RESET_CTRL, the window captures, and reads that have no effect but the word returned (R171, R174, R175, R177). -/

namespace Sys2Proof.Machine

-- One theorem after another, as in the tests: many of them at once would need a thread each.
set_option Elab.async false

/-! ### RESET_CTRL (R177) -/

theorem resetInputs_eq_foldl (s : State) (ns : List (Fin 4)) : s.resetInputs ns = ns.foldl State.resetInput s := by
  induction ns generalizing s with
  | nil => rfl
  | cons n ns ih => exact ih _

theorem resetOutputs_eq_foldl (s : State) (ms : List (Fin 6)) : s.resetOutputs ms = ms.foldl State.resetOutput s := by
  induction ms generalizing s with
  | nil => rfl
  | cons m ms ih => exact ih _

theorem writeResetCtrl_of_full {w : Word} (h : w.getLsbD 0 = true) (s : State) : s.writeResetCtrl w = s.softReset := if_pos h

theorem writeResetCtrl_of_channels {w : Word} (h : w.getLsbD 0 = false) (s : State) : s.writeResetCtrl w =
    (List.finRange 6).foldl (fun t m => if w.getLsbD (16 + m.val) then t.resetOutput m else t)
      ((List.finRange 4).foldl (fun t n => if w.getLsbD (8 + n.val) then t.resetInput n else t) s) := by
  rw [State.writeResetCtrl, if_neg (ne_true_of_eq_false h), resetInputs_eq_foldl, resetOutputs_eq_foldl, List.foldl_filter,
    List.foldl_filter]

/-! ### Captures and reads without effect (R171, R174, R175) -/

theorem recordImage_eq (sm : SlotManager) (k : Nat) : sm.recordImage k =
    if sm.built = true ∧ k < sm.count.toNat then (sm.slot k).image else List.replicate 8 0 := by
  simp [SlotManager.recordImage]

theorem readReg_of_effectFree {r : Reg} (hdata : r ≠ .accData) (hrecord : ∀ k, r ≠ .record k 0)
    (hlist : ∀ l, r ≠ .listLength l) (s : State) : s.readReg r = s.drive (s.regValue r) := by
  unfold State.readReg
  split
  · exact absurd rfl hdata
  · exact absurd rfl (hrecord _)
  · exact absurd rfl (hlist _)
  · rfl

section

variable {s : State} (hreset : s.resetAsserted = false)

include hreset

theorem exec_recordCapture (k : Fin 32) : exec (.recordCapture k) s = .next (s.captureRecord k) :=
  hostRead_of_released hreset fun s => s.captureRecord k

theorem exec_listCapture (l : ListName) : exec (.listCapture l) s = .next (s.captureList l) :=
  hostRead_of_released hreset fun s => s.captureList l

theorem hostCycle_read (offset : BitVec 12) : hostCycle (.read offset) s = .next (s.readOffset offset) :=
  hostRead_of_released hreset fun s => s.readOffset offset

end

theorem listOf_eq {l : ListName} {sm : SlotManager} {xs : List Nat} {i : Fin 5}
    (h : (l = .free ∧ i = 0 ∧ xs = sm.free) ∨ ∃ n, l = .ready n ∧ i = n.succ ∧ xs = sm.readyOf n) :
    xs = sm.listOf l ∧ i = listIdx l := by
  rcases h with ⟨rfl, rfl, rfl⟩ | ⟨n, rfl, rfl, rfl⟩ <;> exact ⟨rfl, rfl⟩

/-- Settles O9: the chosen resets as folds, the captures as they stand, and every other read by its value. -/
theorem resetCtrlAndCaptures : Obligations.ResetCtrlAndCaptures := by
  refine ⟨fun w s hreset => ⟨rfl, fun hfull => ?_, fun hchannels => ?_⟩, fun k s ws hreset hws => ?_,
    fun l s xs i hreset h => ?_, fun offset s hreset hfree => ?_⟩
  · exact exec_registerWrite_eq hreset (r := .resetCtrl) rfl
      ((exec_fullSoftReset hreset).trans (congrArg Host.Outcome.next (writeResetCtrl_of_full hfull s).symm))
  · rw [exec_registerWrite hreset, writeOffset_of_some (r := .resetCtrl) rfl]
    exact congrArg Host.Outcome.next (writeResetCtrl_of_channels hchannels s)
  · rw [exec_recordCapture hreset, hws, ← recordImage_eq]
    rfl
  · obtain ⟨rfl, rfl⟩ := listOf_eq h
    exact exec_listCapture hreset l
  · rw [hostCycle_read hreset, State.readOffset]
    cases hr : regAt offset with
    | none => rfl
    | some r =>
      obtain ⟨hdata, hrecord, hlist⟩ := hfree r hr
      exact congrArg Host.Outcome.next (readReg_of_effectFree hdata hrecord hlist s)

end Sys2Proof.Machine
end

