-- ==== Sys2Proof/Proofs/TimeAndStore.lean ====
section
/-! What moves the time base and what changes a word of the store (R146, R152, R178, R179). -/

namespace Sys2Proof.Machine

-- One theorem after another, as in the tests: many of them at once would need a thread each.
set_option Elab.async false

/-! ### Commands that move neither -/

/-- The commands that move the time base or write words of the store. -/
inductive MovesTimeOrStore : Instr → Prop
  | lineWriteCompletion : MovesTimeOrStore .lineWriteCompletion
  | blockWriteCompletion : MovesTimeOrStore .blockWriteCompletion
  | clearWriteCompletion : MovesTimeOrStore .clearWriteCompletion
  | orphanCompletion : MovesTimeOrStore .orphanCompletion
  | endOfStage5 : MovesTimeOrStore .endOfStage5
  | timeBaseAdvance : MovesTimeOrStore .timeBaseAdvance
  | lossOfCharge (decay : List (Nat × BitVec 39)) : MovesTimeOrStore (.lossOfCharge decay)
  | pinReset : MovesTimeOrStore .pinReset

/-- The time base and the store stay as they are. -/
def KeepsTimeAndStore (s t : State) : Prop := t.timeBase = s.timeBase ∧ t.store = s.store

namespace KeepsTimeAndStore

variable {s t : State}

theorem hostWrite {u : State} (h : hostWrite s (fun _ => u) = .next t) (hu : KeepsTimeAndStore s u) :
    KeepsTimeAndStore s t := by
  rcases (hostWrite_next s t _).1 h with ⟨_, rfl⟩ | ⟨_, rfl⟩
  · exact ⟨rfl, rfl⟩
  · exact hu

theorem hostRead {u : State} (h : hostRead s (fun _ => u) = .next t) (hu : KeepsTimeAndStore s u) :
    KeepsTimeAndStore s t := by
  rcases (hostRead_next s t _).1 h with ⟨_, rfl⟩ | ⟨_, rfl⟩
  · exact ⟨rfl, rfl⟩
  · exact hu

theorem command {c : Instr} {f : State → State} (h : exec c s = .next t) (hc : commandOf c = some f)
    (hf : KeepsTimeAndStore s (f s)) : KeepsTimeAndStore s t := by
  refine hostWrite (u := s.issue f) ((exec_of_commandOf hc s).symm.trans h) ?_
  rcases s.issue_cases f with ⟨_, hissue⟩ | ⟨_, hissue⟩ <;> simp only [hissue]
  · exact hf
  · exact ⟨rfl, rfl⟩

theorem completing {kind : RequestKind} {deliver : State → MemRequest → State}
    (h : completing kind s deliver = .next t) (hdeliver : ∀ r, KeepsTimeAndStore s (deliver s.endExec r)) :
    KeepsTimeAndStore s t := by
  obtain ⟨r, _, _, _, rfl⟩ := completing_next h
  simpa [KeepsTimeAndStore] using hdeliver r

theorem pushEffect {n : Fin 4} (e : PushEffect n s t) : KeepsTimeAndStore s t := by
  obtain ⟨_, _, _, hstore, _, htime, _⟩ := e.frame
  exact ⟨htime, hstore⟩

theorem frameOpen {m : Fin 6} (h : execFrameOpen m s = .next t) : KeepsTimeAndStore s t := by
  unfold execFrameOpen at h
  split at h <;> cases h <;> simp [KeepsTimeAndStore]

theorem linePull {m : Fin 6} (h : execLinePull m s = .next t) : KeepsTimeAndStore s t := by
  unfold execLinePull at h
  (repeat' split at h) <;> cases h <;> simp [KeepsTimeAndStore]

theorem frameClose {m : Fin 6} (h : execFrameClose m s = .next t) : KeepsTimeAndStore s t := by
  unfold execFrameClose at h
  split at h <;> cases h
  case h_4 => split <;> simp [KeepsTimeAndStore]
  all_goals simp [KeepsTimeAndStore]

theorem refreshCompletion (h : execRefreshCompletion s = .next t) : KeepsTimeAndStore s t := by
  unfold execRefreshCompletion at h
  (repeat' split at h) <;> cases h
  simp [KeepsTimeAndStore]

end KeepsTimeAndStore

theorem exec_keepsTimeAndStore {c : Instr} {s t : State} (h : exec c s = .next t) (hc : ¬ MovesTimeOrStore c) :
    KeepsTimeAndStore s t := by
  cases c with
  -- messages (chapters 2, 4 and 5)
  | frameStart n tag => exact .pushEffect (.of_frameStart h)
  | line n payload => exact .pushEffect (.of_line h)
  | frameEnd n => exact .pushEffect (.of_frameEnd h)
  | lossTimerExpiry n => exact .pushEffect (.of_lossTimerExpiry h)
  | frameOpen m => exact .frameOpen h
  | linePull m => exact .linePull h
  | frameClose m => exact .frameClose h
  -- the controller's own happenings (chapter 8)
  | refreshTimerExpiry =>
    obtain ⟨_, _, _, rfl⟩ := execRefreshTimerExpiry_next h
    simp [KeepsTimeAndStore]
  | initStageEnd =>
    obtain ⟨_, _, _, _, rfl⟩ := execInitStageEnd_next h
    exact ⟨rfl, rfl⟩
  | lineReadCompletion => exact .completing h fun r => by simp [KeepsTimeAndStore]
  | blockReadCompletion => exact .completing h fun r => by simp [KeepsTimeAndStore]
  | refreshCompletion => exact .refreshCompletion h
  | resetNDeassertion =>
    cases h
    exact ⟨rfl, rfl⟩
  -- the command unit (chapter 6)
  | memoryInit | poolBuild | poolTeardown | slotClaim | slotHold | slotRelease | slotPublish | slotClear | inputFlush
  | unknownCommand => exact .command h rfl (by simp [KeepsTimeAndStore])
  -- host accesses (chapters 7 to 11)
  | accDataRead | recordCapture | listCapture => exact .hostRead h (by simp [KeepsTimeAndStore])
  | read | flush | discard | accDataWrite | accAddrWrite | accCountWrite | enableAttempt | immediateStop | stopAtFrameEnd
  | stopModeWrite | inputConfigWrite | outputEnable | outputDisable | outputConfigWrite | geometryWrite | mcCfgWrite
  | mcRefreshWrite | arbCfgWrite | eventClear | eventEnableWrite | counterClear | registerWrite | fullSoftReset
  | inputChannelReset | outputChannelReset => exact .hostWrite h (by simp [KeepsTimeAndStore])
  -- the movers
  | lineWriteCompletion => exact absurd .lineWriteCompletion hc
  | blockWriteCompletion => exact absurd .blockWriteCompletion hc
  | clearWriteCompletion => exact absurd .clearWriteCompletion hc
  | orphanCompletion => exact absurd .orphanCompletion hc
  | endOfStage5 => exact absurd .endOfStage5 hc
  | timeBaseAdvance => exact absurd .timeBaseAdvance hc
  | lossOfCharge decay => exact absurd (.lossOfCharge decay) hc
  | pinReset => exact absurd .pinReset hc

/-! ### Commands that move one of them -/

section

variable {s t : State}

theorem completing_timeBase {kind : RequestKind} {deliver : State → MemRequest → State}
    (h : completing kind s deliver = .next t) (hdeliver : ∀ r, (deliver s.endExec r).timeBase = s.timeBase) :
    t.timeBase = s.timeBase := by
  obtain ⟨r, _, _, _, rfl⟩ := completing_next h
  simpa using hdeliver r

theorem completing_store {kind : RequestKind} {deliver : State → MemRequest → State} {r : MemRequest} {orphan : Bool}
    {st : FrameStore} (h : completing kind s deliver = .next t) (hexec : s.mc.exec = some ⟨r, orphan⟩)
    (hdeliver : (deliver s.endExec r).store = st) : t.store = st := by
  obtain ⟨r', hexec', _, _, rfl⟩ := completing_next h
  obtain ⟨rfl, _⟩ := Execution.mk.inj (Option.some.inj (hexec.symm.trans hexec'))
  simpa using hdeliver

theorem orphanEffect_store_of_write {r : MemRequest}
    (hkind : r.kind = .lineWrite ∨ r.kind = .blockWrite ∨ r.kind = .clearWrite) :
    (s.orphanEffect r).store = s.store.write r.addr r.words := by
  rcases hkind with hkind | hkind | hkind <;> simp [State.orphanEffect, hkind]

/-- A completed write, delivered to its client or to none, stores its words (R146, R151). -/
theorem exec_write_store {c : Instr} {r : MemRequest} {orphan : Bool}
    (hc : c ∈ [Instr.lineWriteCompletion, .blockWriteCompletion, .clearWriteCompletion, .orphanCompletion])
    (hexec : s.mc.exec = some ⟨r, orphan⟩)
    (hkind : r.kind = .lineWrite ∨ r.kind = .blockWrite ∨ r.kind = .clearWrite) (h : exec c s = .next t) :
    t.store = s.store.write r.addr r.words := by
  simp only [List.mem_cons, List.not_mem_nil, or_false] at hc
  rcases hc with rfl | rfl | rfl | rfl
  · exact completing_store h hexec (by simp)
  · exact completing_store h hexec (by simp)
  · exact completing_store h hexec (by simp)
  · obtain ⟨r', hexec', _, rfl⟩ := execOrphanCompletion_next h
    obtain ⟨rfl, _⟩ := Execution.mk.inj (Option.some.inj (hexec.symm.trans hexec'))
    simp [orphanEffect_store_of_write hkind]

theorem exec_moves_time {c : Instr} (hc : MovesTimeOrStore c) (h : exec c s = .next t) :
    t.timeBase = if c = .pinReset then 0
      else if c = .timeBaseAdvance ∧ s.resetAsserted = false then s.timeBase + 1 else s.timeBase := by
  cases hc with
  | pinReset => cases h; rfl
  | timeBaseAdvance =>
    cases h
    cases hreset : s.resetAsserted <;> simp
  | lineWriteCompletion => simpa using completing_timeBase h (by simp)
  | blockWriteCompletion => simpa using completing_timeBase h (by simp)
  | clearWriteCompletion => simpa using completing_timeBase h (by simp)
  | orphanCompletion =>
    obtain ⟨r, _, _, rfl⟩ := execOrphanCompletion_next h
    simp
  | endOfStage5 =>
    obtain ⟨_, _, _, rfl⟩ := execEndOfStage5_next h
    simp
  | lossOfCharge decay =>
    change execLossOfCharge decay s = .next t at h
    unfold execLossOfCharge at h
    split at h <;> cases h
    simp

end

/-- Settles O10: the movers of time and store one by one, every other command by its frame, and a write's words by the reads
after it. -/
theorem timeAndStoreChange : Obligations.TimeAndStoreChange := by
  refine ⟨fun s hreset => ?_, fun c s t h => ?_, fun c r orphan s t hc hexec hkind hwf h => ?_,
    fun c s t h hline hblock hclear horphan hstage hpin hdecay => ?_⟩
  · exact congrArg Host.Outcome.next (if_neg (ne_true_of_eq_false hreset))
  · by_cases hc : MovesTimeOrStore c
    · exact exec_moves_time hc h
    · have hpin : c ≠ .pinReset := fun hcp => hc (hcp ▸ .pinReset)
      have hadvance : c ≠ .timeBaseAdvance := fun hca => hc (hca ▸ .timeBaseAdvance)
      rw [if_neg hpin, if_neg fun ⟨hca, _⟩ => hadvance hca]
      exact (exec_keepsTimeAndStore h hc).1
  · rw [exec_write_store hc hexec hkind h]
    refine ⟨fun a ha => ?_, fun i w hw => ?_⟩
    · rw [FrameStore.read_write _ _ _ _ hwf, if_neg (by omega)]
    · obtain ⟨hi, rfl⟩ := List.getElem?_eq_some_iff.1 hw
      rw [FrameStore.read_write _ _ _ _ hwf, if_pos ⟨Nat.le_add_right _ _, Nat.add_lt_add_left hi _⟩]
      simp [hi]
  · by_cases hc : MovesTimeOrStore c
    · cases hc with
      | lineWriteCompletion => exact absurd rfl hline
      | blockWriteCompletion => exact absurd rfl hblock
      | clearWriteCompletion => exact absurd rfl hclear
      | orphanCompletion => exact absurd rfl horphan
      | endOfStage5 => exact absurd rfl hstage
      | pinReset => exact absurd rfl hpin
      | lossOfCharge decay => exact absurd rfl (hdecay decay)
      | timeBaseAdvance =>
        cases h
        split <;> rfl
    · exact (exec_keepsTimeAndStore h hc).2

end Sys2Proof.Machine
end

