-- ==== Sys2Proof/Proofs/Queue.lean ====
section
/-! The queue of waiting commands (assumption 1): a step takes its front, and nothing that a command does changes it. -/

namespace Sys2Proof.Machine

variable {s t : State} {c : Instr}

/-! ### What a step takes from the queue -/

theorem step_of_pending_nil (h : s.pending = []) : step s = .next s := by
  simp only [step, h]

theorem step_of_pending_cons {rest : List Instr} (h : s.pending = c :: rest) :
    step s = exec c { s with pending := rest } := by
  simp only [step, h]

/-! ### What a command leaves waiting: the frame laws of the operations, effect by effect -/

theorem CommandEffect.pending_eq (e : CommandEffect s t) : t.pending = s.pending := by
  cases e <;> simp

theorem HostEffect.pending_eq (e : HostEffect s t) : t.pending = s.pending := by
  cases e with
  | command _ e => exact e.pending_eq
  | _ => simp

/-- The pin reset has no frame law: it takes all from `State.reset` but the queue and the store (R178, R150), and RESET_N. -/
theorem Effect.pending_eq (e : Effect s t) : t.pending = s.pending := by
  cases e with
  | hostEffect _ e => exact e.pending_eq
  | pinReset => rfl
  | _ => simp

theorem exec_pending_eq (h : exec c s = .next t) : t.pending = s.pending :=
  (exec_effect h).pending_eq

/-- Settles O1: the equation of a step on a queue that is not empty. -/
theorem stepRunsFront : Obligations.StepRunsFront :=
  fun _ _ => step_of_pending_cons rfl

/-- Settles O2: the equation of a step on the empty queue, and every command by its effect. -/
theorem queueHandled : Obligations.QueueHandled :=
  ⟨fun _ => step_of_pending_nil, fun _ _ _ => exec_pending_eq⟩

end Sys2Proof.Machine
end
